-- ==== Sys2Proof/Word.lean ====
section
/-! DEFINITION. The bit-vector types of the engine: the operand widths of 00_scope.md R7. -/

namespace Sys2Proof

/-- A byte, the unit of memory (R7, R41). -/
abbrev Byte := BitVec 8

/-- A 16-bit word: an opcode word, an extension word, the status register (R7). -/
abbrev Word := BitVec 16

/-- A 32-bit long: a register, an address (R7).  An operand of a smaller size is held in its low bits. -/
abbrev Long := BitVec 32

/-- The number of a data or an address register, 0 to 7 (R7). -/
abbrev Reg := Fin 8

end Sys2Proof
end

