-- ==== Sys2Proof/Config.lean ====
section
/-! DEFINITION. What the spec leaves to the implementation or leaves open: the parameters of
00_scope.md R8, and the free values (R17) as constants that nothing can evaluate. -/

namespace Sys2Proof.Config

/-- `A7_BYTE_STEP` (R8, D17): by how much a byte-size (A7)+ or -(A7) moves A7. -/
inductive A7Step where
  | one
  | two
  deriving DecidableEq, Repr

/-- `MULL_HIGH_REG` (R8, D18): which data register holds the high half of a 64-bit product or dividend. -/
inductive HighRegRule where
  /-- the register numbered one higher, D0 after D7 -/
  | nextHigher
  /-- the register the extension word names -/
  | extField
  deriving DecidableEq, Repr

/-- `MEM` (R8, D1): the memory behind the interface of 20_memory.md R42. -/
inductive MemKind where
  /-- plain RAM, the default (R45) -/
  | ram
  /-- any other platform: RAM regions, device registers, reads with side effects (R51, R53) -/
  | platform
  deriving DecidableEq, Repr

/-- One access of the core to `MEM` (20_memory.md R42): the byte operations it takes as primitive. -/
inductive Access where
  | read (a : Long)
  | write (a : Long) (b : Byte)
  deriving DecidableEq, Repr

/-- The parameters of R8 that have a default value.  They are plain data and stand in the machine's
state, where no step changes them, so that a claim about every state is a claim about every choice of
them.  [DESIGN CHOICE, log 1] -/
structure Params where
  /-- `MEM` (D1) -/
  mem : MemKind
  /-- `SR_DEFAULT` (D11) -/
  srDefault : Word
  /-- `EXIT_THRESHOLD` (D16) -/
  exitThreshold : Long
  /-- `A7_BYTE_STEP` (D17) -/
  a7ByteStep : A7Step
  /-- `MULL_HIGH_REG` (D18) -/
  mullHighReg : HighRegRule
  /-- `ADMIT_UNNAMED` (D20) -/
  admitUnnamed : Bool
  deriving DecidableEq, Repr

/-- The defaults of R8. -/
def Params.default : Params :=
  { mem := .ram, srDefault := 0x2700, exitThreshold := 0x00000010, a7ByteStep := .two,
    mullHighReg := .nextHigher, admitUnnamed := true }

/-- `DEFAULT_SSP` (R8, R246): OPEN in the spec (D12).  A free constant.  [log 5] -/
opaque defaultSsp : Long

/-- `cycleCost` (R8, R95): OPEN in the spec (D19), a function of the opcode word.  A free constant.  [log 4] -/
opaque cycleCost : Word → Nat

/-- What a byte of memory reads as that nothing has written (R45: a draw).  A free constant.  [log 2] -/
opaque initialByte : Long → Byte

/-- What a `MEM` other than plain RAM answers to a read: a function of every access made to it before, so
that a read and a write can have any side effect on later answers (R42, R51).  A free constant.  [log 13] -/
opaque platformByte : List Access → Long → Byte

/-- The value of a flag the spec draws (R17), by the number of draws made before it.  A free constant.  [log 3] -/
opaque drawFlag : Nat → Bool

/-- The value of a data byte the spec draws (R17, R206), by the number of draws made before it.
A free constant.  [log 3] -/
opaque drawByte : Nat → Byte

end Sys2Proof.Config
end

