-- ==== Sys2Proof/Syntax.lean ====
section
/-! DEFINITION. The instruction set as data: one constructor of `Instr` for each row of
spec/opcode_table.json, with its operands.  An operand that stands in extension words is held here as
its value (30_encoding.md R62, R67); bits that an extension word leaves unused are not held (R85). -/

namespace Sys2Proof

/-- Operand sizes (00_scope.md R10). -/
inductive Size where
  | b
  | w
  | l
  deriving DecidableEq, Repr

/-- The size in bytes, `sz` of R10. -/
def Size.bytes : Size → Nat
  | .b => 1
  | .w => 2
  | .l => 4

/-- The index of the two indexed modes: the brief extension word (30_encoding.md R65). -/
structure Index where
  /-- bit 15: the index register is an address register -/
  isAddr : Bool
  /-- bits 14:12 -/
  reg : Reg
  /-- bit 11: the whole register, not its low word sign-extended -/
  long : Bool
  /-- bits 7:0, the signed displacement -/
  disp : Byte
  deriving DecidableEq, Repr

/-- The twelve addressing modes (30_encoding.md R64), each with its extension words' values. -/
inductive EA where
  /-- `Dn` -/
  | dn (n : Reg)
  /-- `An` -/
  | an (n : Reg)
  /-- `(An)` -/
  | ind (n : Reg)
  /-- `(An)+` -/
  | postInc (n : Reg)
  /-- `-(An)` -/
  | preDec (n : Reg)
  /-- `d16(An)` -/
  | disp (n : Reg) (d : Word)
  /-- `d8(An,Xn)` -/
  | index (n : Reg) (x : Index)
  /-- `(xxx).W` -/
  | absW (a : Word)
  /-- `(xxx).L` -/
  | absL (a : Long)
  /-- `d16(PC)` -/
  | pcDisp (d : Word)
  /-- `d8(PC,Xn)` -/
  | pcIndex (x : Index)
  /-- `#imm`, zero above the operand size -/
  | imm (v : Long)
  deriving DecidableEq, Repr

/-- The sixteen conditions, in the order of their field values (10_state.md R35). -/
inductive Cond where
  | t | f | hi | ls | cc | cs | ne | eq | vc | vs | pl | mi | ge | lt | gt | le
  deriving DecidableEq, Repr

/-- The displacement of BRA, BSR and Bcc (49_branch.md R212). -/
inductive BranchDisp where
  /-- `k` of the opcode word; 0 stands for the other form -/
  | byte (k : Byte)
  /-- the displacement word that follows `k = 0` -/
  | word (d : Word)
  deriving DecidableEq, Repr

/-- The count of a register shift (46_shift.md R188). -/
inductive Count where
  /-- the count field, 0 meaning 8 -/
  | imm (c : BitVec 3)
  /-- the register that holds the count -/
  | reg (n : Reg)
  deriving DecidableEq, Repr

/-- The operand of TRAPcc, fetched and ignored (49_branch.md R218). -/
inductive TrapOperand where
  | none
  | word (v : Word)
  | long (v : Long)
  deriving DecidableEq, Repr

/-- The mnemonics of opcode_table.json, one for each row, in the table's order.  They index the
statistics of R36. -/
inductive Mnemonic where
  | oriToCcr | oriToSr | ori | andiToCcr | andiToSr | andi | subi | addi | eoriToCcr | eoriToSr
  | eori | cmpi | btstImm | bchgImm | bclrImm | bsetImm | btstDn | bchgDn | bclrDn | bsetDn | movep
  | cas | move | movea | negx | moveFromSr | chk | lea | clr | moveFromCcr | neg | moveToCcr | not
  | moveToSr | nbcd | swap | pea | extW | extL | movemToMem | tst | tas | illegal | mull | divl
  | movemToReg | trap | link | unlk | moveToUsp | moveFromUsp | reset | nop | stop | rte | rts
  | trapv | rtr | jsr | jmp | addq | subq | scc | dbcc | trapcc | bra | bsr | bcc | moveq | divuW
  | divsW | sbcd | orEaDn | orDnEa | subEaDn | subDnEa | suba | subx | cmp | cmpa | eor | cmpm
  | muluW | mulsW | abcd | exgDD | exgAA | exgDA | andEaDn | andDnEa | addEaDn | addDnEa | adda
  | addx | asrReg | asrMem | aslReg | aslMem | lsrReg | lsrMem | lslReg | lslMem | roxrReg
  | roxrMem | roxlReg | roxlMem | rorReg | rorMem | rolReg | rolMem
  deriving DecidableEq, Repr

/-- An instruction: the constructors follow the rows of spec/opcode_table.json in order.  Of two
register operands `y` is the source and `x` the destination; `mem` is the register/memory bit `e` (R63). -/
inductive Instr where
  /-- `ORI to CCR` (R129) -/
  | oriToCcr (imm : Byte)
  /-- `ORI to SR` (R132) -/
  | oriToSr (imm : Word)
  /-- `ORI` (R180) -/
  | ori (sz : Size) (imm : Long) (ea : EA)
  /-- `ANDI to CCR` (R130) -/
  | andiToCcr (imm : Byte)
  /-- `ANDI to SR` (R133) -/
  | andiToSr (imm : Word)
  /-- `ANDI` (R178) -/
  | andi (sz : Size) (imm : Long) (ea : EA)
  /-- `SUBI` (R160) -/
  | subi (sz : Size) (imm : Long) (ea : EA)
  /-- `ADDI` (R155) -/
  | addi (sz : Size) (imm : Long) (ea : EA)
  /-- `EORI to CCR` (R131) -/
  | eoriToCcr (imm : Byte)
  /-- `EORI to SR` (R134) -/
  | eoriToSr (imm : Word)
  /-- `EORI` (R182) -/
  | eori (sz : Size) (imm : Long) (ea : EA)
  /-- `CMPI` (R167) -/
  | cmpi (sz : Size) (imm : Long) (ea : EA)
  /-- `BTST #imm` (R202) -/
  | btstImm (num : Byte) (ea : EA)
  /-- `BCHG #imm` (R203) -/
  | bchgImm (num : Byte) (ea : EA)
  /-- `BCLR #imm` (R204) -/
  | bclrImm (num : Byte) (ea : EA)
  /-- `BSET #imm` (R205) -/
  | bsetImm (num : Byte) (ea : EA)
  /-- `BTST Dn` (R202) -/
  | btstDn (d : Reg) (ea : EA)
  /-- `BCHG Dn` (R203) -/
  | bchgDn (d : Reg) (ea : EA)
  /-- `BCLR Dn` (R204) -/
  | bclrDn (d : Reg) (ea : EA)
  /-- `BSET Dn` (R205) -/
  | bsetDn (d : Reg) (ea : EA)
  /-- `MOVEP` (R145) -/
  | movep (d : Reg) (toMem long : Bool) (a : Reg) (disp : Word)
  /-- `CAS` (R139) -/
  | cas (sz : Size) (dc du : Reg) (ea : EA)
  /-- `MOVE` (R141) -/
  | move (sz : Size) (src dst : EA)
  /-- `MOVEA` (R142) -/
  | movea (sz : Size) (src : EA) (a : Reg)
  /-- `NEGX` (R164) -/
  | negx (sz : Size) (ea : EA)
  /-- `MOVE from SR` (R125) -/
  | moveFromSr (ea : EA)
  /-- `CHK` (R138) -/
  | chk (ea : EA) (d : Reg)
  /-- `LEA` (R221) -/
  | lea (ea : EA) (a : Reg)
  /-- `CLR` (R184) -/
  | clr (sz : Size) (ea : EA)
  /-- `MOVE from CCR` (R127) -/
  | moveFromCcr (ea : EA)
  /-- `NEG` (R163) -/
  | neg (sz : Size) (ea : EA)
  /-- `MOVE to CCR` (R126) -/
  | moveToCcr (ea : EA)
  /-- `NOT` (R183) -/
  | not (sz : Size) (ea : EA)
  /-- `MOVE to SR` (R124) -/
  | moveToSr (ea : EA)
  /-- `NBCD` (R210) -/
  | nbcd (ea : EA)
  /-- `SWAP` (R147) -/
  | swap (d : Reg)
  /-- `PEA` (R222) -/
  | pea (ea : EA)
  /-- `EXT.W` (R148) -/
  | extW (d : Reg)
  /-- `EXT.L` (R148) -/
  | extL (d : Reg)
  /-- `MOVEM reg-to-mem` (R144) -/
  | movemToMem (sz : Size) (mask : Word) (ea : EA)
  /-- `TST` (R185) -/
  | tst (sz : Size) (ea : EA)
  /-- `TAS` (R186) -/
  | tas (ea : EA)
  /-- `ILLEGAL` (R137) -/
  | illegal
  /-- `MULU.L/MULS.L` (R171) -/
  | mull (signed wide : Bool) (l h : Reg) (ea : EA)
  /-- `DIVU.L/DIVS.L` (R175) -/
  | divl (signed wide : Bool) (q r : Reg) (ea : EA)
  /-- `MOVEM mem-to-reg` (R144) -/
  | movemToReg (sz : Size) (mask : Word) (ea : EA)
  /-- `TRAP` (R135) -/
  | trap (v : BitVec 4)
  /-- `LINK` (R223) -/
  | link (a : Reg) (disp : Word)
  /-- `UNLK` (R224) -/
  | unlk (a : Reg)
  /-- `MOVE An,USP` (R128) -/
  | moveToUsp (a : Reg)
  /-- `MOVE USP,An` (R128) -/
  | moveFromUsp (a : Reg)
  /-- `RESET` (R121) -/
  | reset
  /-- `NOP` (R118) -/
  | nop
  /-- `STOP` (R122) -/
  | stop (imm : Word)
  /-- `RTE` (R120) -/
  | rte
  /-- `RTS` (R119) -/
  | rts
  /-- `TRAPV` (R136) -/
  | trapv
  /-- `RTR` (R123) -/
  | rtr
  /-- `JSR` (R220) -/
  | jsr (ea : EA)
  /-- `JMP` (R219) -/
  | jmp (ea : EA)
  /-- `ADDQ` (R156) -/
  | addq (q : BitVec 3) (sz : Size) (ea : EA)
  /-- `SUBQ` (R161) -/
  | subq (q : BitVec 3) (sz : Size) (ea : EA)
  /-- `Scc` (R217) -/
  | scc (c : Cond) (ea : EA)
  /-- `DBcc` (R216) -/
  | dbcc (c : Cond) (d : Reg) (disp : Word)
  /-- `TRAPcc` (R218) -/
  | trapcc (c : Cond) (opnd : TrapOperand)
  /-- `BRA` (R213) -/
  | bra (disp : BranchDisp)
  /-- `BSR` (R214) -/
  | bsr (disp : BranchDisp)
  /-- `Bcc` (R215) -/
  | bcc (c : Cond) (disp : BranchDisp)
  /-- `MOVEQ` (R140) -/
  | moveq (k : Byte) (d : Reg)
  /-- `DIVU.W` (R173) -/
  | divuW (ea : EA) (d : Reg)
  /-- `DIVS.W` (R174) -/
  | divsW (ea : EA) (d : Reg)
  /-- `SBCD` (R209) -/
  | sbcd (mem : Bool) (y x : Reg)
  /-- `OR <ea>,Dn` (R179) -/
  | orEaDn (sz : Size) (ea : EA) (d : Reg)
  /-- `OR Dn,<ea>` (R179) -/
  | orDnEa (sz : Size) (d : Reg) (ea : EA)
  /-- `SUB <ea>,Dn` (R158) -/
  | subEaDn (sz : Size) (ea : EA) (d : Reg)
  /-- `SUB Dn,<ea>` (R158) -/
  | subDnEa (sz : Size) (d : Reg) (ea : EA)
  /-- `SUBA` (R159) -/
  | suba (sz : Size) (ea : EA) (a : Reg)
  /-- `SUBX` (R162) -/
  | subx (sz : Size) (mem : Bool) (y x : Reg)
  /-- `CMP` (R165) -/
  | cmp (sz : Size) (ea : EA) (d : Reg)
  /-- `CMPA` (R166) -/
  | cmpa (sz : Size) (ea : EA) (a : Reg)
  /-- `EOR` (R181) -/
  | eor (sz : Size) (d : Reg) (ea : EA)
  /-- `CMPM` (R168) -/
  | cmpm (sz : Size) (y x : Reg)
  /-- `MULU.W` (R169) -/
  | muluW (ea : EA) (d : Reg)
  /-- `MULS.W` (R170) -/
  | mulsW (ea : EA) (d : Reg)
  /-- `ABCD` (R208) -/
  | abcd (mem : Bool) (y x : Reg)
  /-- `EXG Dx,Dy` (R146) -/
  | exgDD (x y : Reg)
  /-- `EXG Ax,Ay` (R146) -/
  | exgAA (x y : Reg)
  /-- `EXG Dx,Ay` (R146) -/
  | exgDA (x y : Reg)
  /-- `AND <ea>,Dn` (R177) -/
  | andEaDn (sz : Size) (ea : EA) (d : Reg)
  /-- `AND Dn,<ea>` (R177) -/
  | andDnEa (sz : Size) (d : Reg) (ea : EA)
  /-- `ADD <ea>,Dn` (R153) -/
  | addEaDn (sz : Size) (ea : EA) (d : Reg)
  /-- `ADD Dn,<ea>` (R153) -/
  | addDnEa (sz : Size) (d : Reg) (ea : EA)
  /-- `ADDA` (R154) -/
  | adda (sz : Size) (ea : EA) (a : Reg)
  /-- `ADDX` (R157) -/
  | addx (sz : Size) (mem : Bool) (y x : Reg)
  /-- `ASR (register)` (R192) -/
  | asrReg (sz : Size) (cnt : Count) (y : Reg)
  /-- `ASR (memory)` (R192) -/
  | asrMem (ea : EA)
  /-- `ASL (register)` (R191) -/
  | aslReg (sz : Size) (cnt : Count) (y : Reg)
  /-- `ASL (memory)` (R191) -/
  | aslMem (ea : EA)
  /-- `LSR (register)` (R194) -/
  | lsrReg (sz : Size) (cnt : Count) (y : Reg)
  /-- `LSR (memory)` (R194) -/
  | lsrMem (ea : EA)
  /-- `LSL (register)` (R193) -/
  | lslReg (sz : Size) (cnt : Count) (y : Reg)
  /-- `LSL (memory)` (R193) -/
  | lslMem (ea : EA)
  /-- `ROXR (register)` (R198) -/
  | roxrReg (sz : Size) (cnt : Count) (y : Reg)
  /-- `ROXR (memory)` (R198) -/
  | roxrMem (ea : EA)
  /-- `ROXL (register)` (R197) -/
  | roxlReg (sz : Size) (cnt : Count) (y : Reg)
  /-- `ROXL (memory)` (R197) -/
  | roxlMem (ea : EA)
  /-- `ROR (register)` (R196) -/
  | rorReg (sz : Size) (cnt : Count) (y : Reg)
  /-- `ROR (memory)` (R196) -/
  | rorMem (ea : EA)
  /-- `ROL (register)` (R195) -/
  | rolReg (sz : Size) (cnt : Count) (y : Reg)
  /-- `ROL (memory)` (R195) -/
  | rolMem (ea : EA)
  deriving DecidableEq, Repr

/-- The row an instruction belongs to. -/
def Instr.mnemonic : Instr → Mnemonic
  | .oriToCcr .. => .oriToCcr
  | .oriToSr .. => .oriToSr
  | .ori .. => .ori
  | .andiToCcr .. => .andiToCcr
  | .andiToSr .. => .andiToSr
  | .andi .. => .andi
  | .subi .. => .subi
  | .addi .. => .addi
  | .eoriToCcr .. => .eoriToCcr
  | .eoriToSr .. => .eoriToSr
  | .eori .. => .eori
  | .cmpi .. => .cmpi
  | .btstImm .. => .btstImm
  | .bchgImm .. => .bchgImm
  | .bclrImm .. => .bclrImm
  | .bsetImm .. => .bsetImm
  | .btstDn .. => .btstDn
  | .bchgDn .. => .bchgDn
  | .bclrDn .. => .bclrDn
  | .bsetDn .. => .bsetDn
  | .movep .. => .movep
  | .cas .. => .cas
  | .move .. => .move
  | .movea .. => .movea
  | .negx .. => .negx
  | .moveFromSr .. => .moveFromSr
  | .chk .. => .chk
  | .lea .. => .lea
  | .clr .. => .clr
  | .moveFromCcr .. => .moveFromCcr
  | .neg .. => .neg
  | .moveToCcr .. => .moveToCcr
  | .not .. => .not
  | .moveToSr .. => .moveToSr
  | .nbcd .. => .nbcd
  | .swap .. => .swap
  | .pea .. => .pea
  | .extW .. => .extW
  | .extL .. => .extL
  | .movemToMem .. => .movemToMem
  | .tst .. => .tst
  | .tas .. => .tas
  | .illegal => .illegal
  | .mull .. => .mull
  | .divl .. => .divl
  | .movemToReg .. => .movemToReg
  | .trap .. => .trap
  | .link .. => .link
  | .unlk .. => .unlk
  | .moveToUsp .. => .moveToUsp
  | .moveFromUsp .. => .moveFromUsp
  | .reset => .reset
  | .nop => .nop
  | .stop .. => .stop
  | .rte => .rte
  | .rts => .rts
  | .trapv => .trapv
  | .rtr => .rtr
  | .jsr .. => .jsr
  | .jmp .. => .jmp
  | .addq .. => .addq
  | .subq .. => .subq
  | .scc .. => .scc
  | .dbcc .. => .dbcc
  | .trapcc .. => .trapcc
  | .bra .. => .bra
  | .bsr .. => .bsr
  | .bcc .. => .bcc
  | .moveq .. => .moveq
  | .divuW .. => .divuW
  | .divsW .. => .divsW
  | .sbcd .. => .sbcd
  | .orEaDn .. => .orEaDn
  | .orDnEa .. => .orDnEa
  | .subEaDn .. => .subEaDn
  | .subDnEa .. => .subDnEa
  | .suba .. => .suba
  | .subx .. => .subx
  | .cmp .. => .cmp
  | .cmpa .. => .cmpa
  | .eor .. => .eor
  | .cmpm .. => .cmpm
  | .muluW .. => .muluW
  | .mulsW .. => .mulsW
  | .abcd .. => .abcd
  | .exgDD .. => .exgDD
  | .exgAA .. => .exgAA
  | .exgDA .. => .exgDA
  | .andEaDn .. => .andEaDn
  | .andDnEa .. => .andDnEa
  | .addEaDn .. => .addEaDn
  | .addDnEa .. => .addDnEa
  | .adda .. => .adda
  | .addx .. => .addx
  | .asrReg .. => .asrReg
  | .asrMem .. => .asrMem
  | .aslReg .. => .aslReg
  | .aslMem .. => .aslMem
  | .lsrReg .. => .lsrReg
  | .lsrMem .. => .lsrMem
  | .lslReg .. => .lslReg
  | .lslMem .. => .lslMem
  | .roxrReg .. => .roxrReg
  | .roxrMem .. => .roxrMem
  | .roxlReg .. => .roxlReg
  | .roxlMem .. => .roxlMem
  | .rorReg .. => .rorReg
  | .rorMem .. => .rorMem
  | .rolReg .. => .rolReg
  | .rolMem .. => .rolMem

/-- The mnemonic as the spec's text writes it, what a step's result reports (40_driver.md R93). -/
def Mnemonic.name : Mnemonic → String
  | .oriToCcr => "ORI to CCR"
  | .oriToSr => "ORI to SR"
  | .ori => "ORI"
  | .andiToCcr => "ANDI to CCR"
  | .andiToSr => "ANDI to SR"
  | .andi => "ANDI"
  | .subi => "SUBI"
  | .addi => "ADDI"
  | .eoriToCcr => "EORI to CCR"
  | .eoriToSr => "EORI to SR"
  | .eori => "EORI"
  | .cmpi => "CMPI"
  | .btstImm => "BTST #imm"
  | .bchgImm => "BCHG #imm"
  | .bclrImm => "BCLR #imm"
  | .bsetImm => "BSET #imm"
  | .btstDn => "BTST Dn"
  | .bchgDn => "BCHG Dn"
  | .bclrDn => "BCLR Dn"
  | .bsetDn => "BSET Dn"
  | .movep => "MOVEP"
  | .cas => "CAS"
  | .move => "MOVE"
  | .movea => "MOVEA"
  | .negx => "NEGX"
  | .moveFromSr => "MOVE from SR"
  | .chk => "CHK"
  | .lea => "LEA"
  | .clr => "CLR"
  | .moveFromCcr => "MOVE from CCR"
  | .neg => "NEG"
  | .moveToCcr => "MOVE to CCR"
  | .not => "NOT"
  | .moveToSr => "MOVE to SR"
  | .nbcd => "NBCD"
  | .swap => "SWAP"
  | .pea => "PEA"
  | .extW => "EXT.W"
  | .extL => "EXT.L"
  | .movemToMem => "MOVEM reg-to-mem"
  | .tst => "TST"
  | .tas => "TAS"
  | .illegal => "ILLEGAL"
  | .mull => "MULU.L/MULS.L"
  | .divl => "DIVU.L/DIVS.L"
  | .movemToReg => "MOVEM mem-to-reg"
  | .trap => "TRAP"
  | .link => "LINK"
  | .unlk => "UNLK"
  | .moveToUsp => "MOVE An,USP"
  | .moveFromUsp => "MOVE USP,An"
  | .reset => "RESET"
  | .nop => "NOP"
  | .stop => "STOP"
  | .rte => "RTE"
  | .rts => "RTS"
  | .trapv => "TRAPV"
  | .rtr => "RTR"
  | .jsr => "JSR"
  | .jmp => "JMP"
  | .addq => "ADDQ"
  | .subq => "SUBQ"
  | .scc => "Scc"
  | .dbcc => "DBcc"
  | .trapcc => "TRAPcc"
  | .bra => "BRA"
  | .bsr => "BSR"
  | .bcc => "Bcc"
  | .moveq => "MOVEQ"
  | .divuW => "DIVU.W"
  | .divsW => "DIVS.W"
  | .sbcd => "SBCD"
  | .orEaDn => "OR <ea>,Dn"
  | .orDnEa => "OR Dn,<ea>"
  | .subEaDn => "SUB <ea>,Dn"
  | .subDnEa => "SUB Dn,<ea>"
  | .suba => "SUBA"
  | .subx => "SUBX"
  | .cmp => "CMP"
  | .cmpa => "CMPA"
  | .eor => "EOR"
  | .cmpm => "CMPM"
  | .muluW => "MULU.W"
  | .mulsW => "MULS.W"
  | .abcd => "ABCD"
  | .exgDD => "EXG Dx,Dy"
  | .exgAA => "EXG Ax,Ay"
  | .exgDA => "EXG Dx,Ay"
  | .andEaDn => "AND <ea>,Dn"
  | .andDnEa => "AND Dn,<ea>"
  | .addEaDn => "ADD <ea>,Dn"
  | .addDnEa => "ADD Dn,<ea>"
  | .adda => "ADDA"
  | .addx => "ADDX"
  | .asrReg => "ASR (register)"
  | .asrMem => "ASR (memory)"
  | .aslReg => "ASL (register)"
  | .aslMem => "ASL (memory)"
  | .lsrReg => "LSR (register)"
  | .lsrMem => "LSR (memory)"
  | .lslReg => "LSL (register)"
  | .lslMem => "LSL (memory)"
  | .roxrReg => "ROXR (register)"
  | .roxrMem => "ROXR (memory)"
  | .roxlReg => "ROXL (register)"
  | .roxlMem => "ROXL (memory)"
  | .rorReg => "ROR (register)"
  | .rorMem => "ROR (memory)"
  | .rolReg => "ROL (register)"
  | .rolMem => "ROL (memory)"

end Sys2Proof
end

