-- ==== Sys2Proof/WellFormed.lean ====
section
/-! DEFINITION. Which terms of `Instr` are instructions: the EA classes of 30_encoding.md R66 and the
field values the opcode table admits (R69–R79). -/

namespace Sys2Proof

/-- The EA classes of R66. -/
inductive EAClass where
  | all | allnoAn | data | dataNoImm | mem | ctrl | alt | altnoAn | DA | MA | CA | CAorPre | CorPost
  deriving DecidableEq, Repr

/-- Membership of an addressing mode in a class, row by row as R66 lists them. -/
def EA.inClass : EAClass → EA → Bool
  | .all, _ => true
  | .allnoAn, .an _ => false
  | .allnoAn, _ => true
  | .data, .an _ => false
  | .data, _ => true
  | .dataNoImm, .an _ => false
  | .dataNoImm, .imm _ => false
  | .dataNoImm, _ => true
  | .mem, .dn _ => false
  | .mem, .an _ => false
  | .mem, _ => true
  | .ctrl, .ind _ => true
  | .ctrl, .disp .. => true
  | .ctrl, .index .. => true
  | .ctrl, .absW _ => true
  | .ctrl, .absL _ => true
  | .ctrl, .pcDisp _ => true
  | .ctrl, .pcIndex _ => true
  | .ctrl, _ => false
  | .alt, .pcDisp _ => false
  | .alt, .pcIndex _ => false
  | .alt, .imm _ => false
  | .alt, _ => true
  | .altnoAn, .an _ => false
  | .altnoAn, .pcDisp _ => false
  | .altnoAn, .pcIndex _ => false
  | .altnoAn, .imm _ => false
  | .altnoAn, _ => true
  | .DA, .an _ => false
  | .DA, .pcDisp _ => false
  | .DA, .pcIndex _ => false
  | .DA, .imm _ => false
  | .DA, _ => true
  | .MA, .dn _ => false
  | .MA, .an _ => false
  | .MA, .pcDisp _ => false
  | .MA, .pcIndex _ => false
  | .MA, .imm _ => false
  | .MA, _ => true
  | .CA, .ind _ => true
  | .CA, .disp .. => true
  | .CA, .index .. => true
  | .CA, .absW _ => true
  | .CA, .absL _ => true
  | .CA, _ => false
  | .CAorPre, .ind _ => true
  | .CAorPre, .preDec _ => true
  | .CAorPre, .disp .. => true
  | .CAorPre, .index .. => true
  | .CAorPre, .absW _ => true
  | .CAorPre, .absL _ => true
  | .CAorPre, _ => false
  | .CorPost, .ind _ => true
  | .CorPost, .postInc _ => true
  | .CorPost, .disp .. => true
  | .CorPost, .index .. => true
  | .CorPost, .absW _ => true
  | .CorPost, .absL _ => true
  | .CorPost, .pcDisp _ => true
  | .CorPost, .pcIndex _ => true
  | .CorPost, _ => false

/-- An immediate of size `sz` has no bit above the size (R67). -/
def Size.fits : Size → Long → Bool
  | .b, v => decide (v.toNat < 0x100)
  | .w, v => decide (v.toNat < 0x10000)
  | .l, _ => true

/-- An EA of a class, whose immediate, if it is one, has the operand's size. -/
def EA.ok (c : EAClass) (sz : Size) (e : EA) : Bool :=
  e.inClass c && (match e with
    | .imm v => sz.fits v
    | _ => true)

/-- The sizes of the rows that have no byte form (MOVEA, ADDA, SUBA, CMPA, MOVEM). -/
def Size.wordOrLong : Size → Bool
  | .b => false
  | .w => true
  | .l => true

/-- The class of a source EA that admits An but for the byte size (`all` / `allnoAn`, R66). -/
def EAClass.source : Size → EAClass
  | .b => .allnoAn
  | .w => .all
  | .l => .all

/-- The class of ADDQ and SUBQ (`alt` / `altnoAn`, R72). -/
def EAClass.quick : Size → EAClass
  | .b => .altnoAn
  | .w => .alt
  | .l => .alt

/-- A displacement of 0 in the opcode word announces a displacement word (R212). -/
def BranchDisp.ok : BranchDisp → Bool
  | .byte k => k != 0
  | .word _ => true

/-- Bcc's conditions: field values 2 to 15 (R73); 0 is BRA and 1 is BSR. -/
def Cond.branches : Cond → Bool
  | .t => false
  | .f => false
  | _ => true

/-- The well-formed instructions: those some opcode word and extension words stand for. -/
def Instr.wf : Instr → Bool
  | .oriToCcr _ => true
  | .oriToSr _ => true
  | .ori sz imm ea => sz.fits imm && ea.ok .DA sz
  | .andiToCcr _ => true
  | .andiToSr _ => true
  | .andi sz imm ea => sz.fits imm && ea.ok .DA sz
  | .subi sz imm ea => sz.fits imm && ea.ok .DA sz
  | .addi sz imm ea => sz.fits imm && ea.ok .DA sz
  | .eoriToCcr _ => true
  | .eoriToSr _ => true
  | .eori sz imm ea => sz.fits imm && ea.ok .DA sz
  | .cmpi sz imm ea => sz.fits imm && ea.ok .DA sz
  | .btstImm _ ea => ea.ok .dataNoImm .b
  | .bchgImm _ ea => ea.ok .DA .b
  | .bclrImm _ ea => ea.ok .DA .b
  | .bsetImm _ ea => ea.ok .DA .b
  | .btstDn _ ea => ea.ok .data .b
  | .bchgDn _ ea => ea.ok .DA .b
  | .bclrDn _ ea => ea.ok .DA .b
  | .bsetDn _ ea => ea.ok .DA .b
  | .movep .. => true
  | .cas sz _ _ ea => ea.ok .MA sz
  | .move sz src dst => src.ok (.source sz) sz && dst.ok .DA sz
  | .movea sz src _ => sz.wordOrLong && src.ok .all sz
  | .negx sz ea => ea.ok .DA sz
  | .moveFromSr ea => ea.ok .DA .w
  | .chk ea _ => ea.ok .data .w
  | .lea ea _ => ea.ok .ctrl .l
  | .clr sz ea => ea.ok .DA sz
  | .moveFromCcr ea => ea.ok .DA .w
  | .neg sz ea => ea.ok .DA sz
  | .moveToCcr ea => ea.ok .data .w
  | .not sz ea => ea.ok .DA sz
  | .moveToSr ea => ea.ok .data .w
  | .nbcd ea => ea.ok .DA .b
  | .swap _ => true
  | .pea ea => ea.ok .ctrl .l
  | .extW _ => true
  | .extL _ => true
  | .movemToMem sz _ ea => sz.wordOrLong && ea.ok .CAorPre sz
  | .tst sz ea => ea.ok .DA sz
  | .tas ea => ea.ok .DA .b
  | .illegal => true
  | .mull _ _ _ _ ea => ea.ok .data .l
  | .divl _ _ _ _ ea => ea.ok .data .l
  | .movemToReg sz _ ea => sz.wordOrLong && ea.ok .CorPost sz
  | .trap _ => true
  | .link .. => true
  | .unlk _ => true
  | .moveToUsp _ => true
  | .moveFromUsp _ => true
  | .reset => true
  | .nop => true
  | .stop _ => true
  | .rte => true
  | .rts => true
  | .trapv => true
  | .rtr => true
  | .jsr ea => ea.ok .ctrl .l
  | .jmp ea => ea.ok .ctrl .l
  | .addq _ sz ea => ea.ok (.quick sz) sz
  | .subq _ sz ea => ea.ok (.quick sz) sz
  | .scc _ ea => ea.ok .DA .b
  | .dbcc .. => true
  | .trapcc .. => true
  | .bra disp => disp.ok
  | .bsr disp => disp.ok
  | .bcc c disp => c.branches && disp.ok
  | .moveq .. => true
  | .divuW ea _ => ea.ok .data .w
  | .divsW ea _ => ea.ok .data .w
  | .sbcd .. => true
  | .orEaDn sz ea _ => ea.ok .data sz
  | .orDnEa sz _ ea => ea.ok .MA sz
  | .subEaDn sz ea _ => ea.ok (.source sz) sz
  | .subDnEa sz _ ea => ea.ok .MA sz
  | .suba sz ea _ => sz.wordOrLong && ea.ok .all sz
  | .subx .. => true
  | .cmp sz ea _ => ea.ok (.source sz) sz
  | .cmpa sz ea _ => sz.wordOrLong && ea.ok .all sz
  | .eor sz _ ea => ea.ok .DA sz
  | .cmpm .. => true
  | .muluW ea _ => ea.ok .data .w
  | .mulsW ea _ => ea.ok .data .w
  | .abcd .. => true
  | .exgDD .. => true
  | .exgAA .. => true
  | .exgDA .. => true
  | .andEaDn sz ea _ => ea.ok .data sz
  | .andDnEa sz _ ea => ea.ok .MA sz
  | .addEaDn sz ea _ => ea.ok (.source sz) sz
  | .addDnEa sz _ ea => ea.ok .MA sz
  | .adda sz ea _ => sz.wordOrLong && ea.ok .all sz
  | .addx .. => true
  | .asrReg .. => true
  | .asrMem ea => ea.ok .MA .w
  | .aslReg .. => true
  | .aslMem ea => ea.ok .MA .w
  | .lsrReg .. => true
  | .lsrMem ea => ea.ok .MA .w
  | .lslReg .. => true
  | .lslMem ea => ea.ok .MA .w
  | .roxrReg .. => true
  | .roxrMem ea => ea.ok .MA .w
  | .roxlReg .. => true
  | .roxlMem ea => ea.ok .MA .w
  | .rorReg .. => true
  | .rorMem ea => ea.ok .MA .w
  | .rolReg .. => true
  | .rolMem ea => ea.ok .MA .w

end Sys2Proof
end

