-- ==== Sys2Proof/Decode.lean ====
section
/-! DEFINITION. Decoding, total on any bytes and rejecting by name, and after it the encoder, both from
30_encoding.md and spec/opcode_table.json. -/

namespace Sys2Proof

/-! ## The dispatch table (30_encoding.md R81, R83) -/

/-- The code of an EA field: 0 to 6 for modes 0 to 6, and 7 plus the register field for mode 7, so
that 7 to 11 are absolute short and long, the two PC-relative modes and the immediate, and 12 to 14
name no mode (R64). -/
def eaCode (m r : BitVec 3) : Nat :=
  if m = 7#3 then 7 + r.toNat else m.toNat

/-- The codes each EA class admits (R66). -/
def EAClass.codes : EAClass → List Nat
  | .all => [0, 1, 2, 3, 4, 5, 6, 7, 8, 9, 10, 11]
  | .allnoAn => [0, 2, 3, 4, 5, 6, 7, 8, 9, 10, 11]
  | .data => [0, 2, 3, 4, 5, 6, 7, 8, 9, 10, 11]
  | .dataNoImm => [0, 2, 3, 4, 5, 6, 7, 8, 9, 10]
  | .mem => [2, 3, 4, 5, 6, 7, 8, 9, 10, 11]
  | .ctrl => [2, 5, 6, 7, 8, 9, 10]
  | .alt => [0, 1, 2, 3, 4, 5, 6, 7, 8]
  | .altnoAn => [0, 2, 3, 4, 5, 6, 7, 8]
  | .DA => [0, 2, 3, 4, 5, 6, 7, 8]
  | .MA => [2, 3, 4, 5, 6, 7, 8]
  | .CA => [2, 5, 6, 7, 8]
  | .CAorPre => [2, 4, 5, 6, 7, 8]
  | .CorPost => [2, 3, 5, 6, 7, 8, 9, 10]

/-- Whether a class admits a (mode, register) pair (R81). -/
def EAClass.admits (c : EAClass) (m r : BitVec 3) : Bool :=
  c.codes.contains (eaCode m r)

/-- The field constraints of the table's rows (R69–R79, the "values" and "ea_class" of the table). -/
inductive Check where
  /-- `s ≠ 11` -/
  | size
  /-- the EA at bits 5:0 is in a class -/
  | ea (c : EAClass)
  /-- the EA at bits 5:0 is in one class at size .B and in another at .W and .L -/
  | sizedEA (byte other : EAClass)
  /-- MOVE's `z ≠ 00` -/
  | moveSize
  /-- MOVEA's `z` is 10 or 11 -/
  | moveaSize
  /-- MOVE's source: `allnoAn` at size .B, else `all` -/
  | moveSource
  /-- MOVE's destination (M, R) is in a class -/
  | moveDest (c : EAClass)
  /-- CAS's `z ≠ 00` -/
  | casSize
  /-- Bcc's `cccc` is 2 to 15 -/
  | branchCond
  /-- TRAPcc's `ppp` is 010, 011 or 100 -/
  | trapForm
  deriving DecidableEq, Repr

/-- Whether an opcode word meets a constraint. -/
def Check.holds (op : Word) : Check → Bool
  | .size => op.extractLsb' 6 2 != 3#2
  | .ea c => c.admits (op.extractLsb' 3 3) (op.extractLsb' 0 3)
  | .sizedEA cb co =>
      (if op.extractLsb' 6 2 = 0#2 then cb else co).admits (op.extractLsb' 3 3) (op.extractLsb' 0 3)
  | .moveSize => op.extractLsb' 12 2 != 0#2
  | .moveaSize => op.extractLsb' 13 1 == 1#1
  | .moveSource =>
      (if op.extractLsb' 12 2 = 1#2 then EAClass.allnoAn else .all).admits
        (op.extractLsb' 3 3) (op.extractLsb' 0 3)
  | .moveDest c => c.admits (op.extractLsb' 6 3) (op.extractLsb' 9 3)
  | .casSize => op.extractLsb' 9 2 != 0#2
  | .branchCond => decide (2 ≤ (op.extractLsb' 8 4).toNat)
  | .trapForm => [2#3, 3#3, 4#3].contains (op.extractLsb' 0 3)

/-- Whether the source names a row (`named_in_source`, R81). -/
inductive Naming where
  | named
  | unnamed
  /-- named for immediate counts only: the words with `i = 1` are unnamed -/
  | immediateCount
  deriving DecidableEq, Repr

/-- A row of spec/opcode_table.json. -/
structure Row where
  row : Mnemonic
  mask : Word
  pattern : Word
  checks : List Check
  naming : Naming
  deriving DecidableEq, Repr

/-- `ADMIT_UNNAMED = false` refuses the instructions of 00_scope.md R3 (R81). -/
def Naming.admits (admitUnnamed : Bool) (op : Word) : Naming → Bool
  | .named => true
  | .unnamed => admitUnnamed
  | .immediateCount => admitUnnamed || op.extractLsb' 5 1 == 0#1

/-- A row holds for a word: the fixed bits agree, the field constraints hold and the row is admitted (R81). -/
def Row.claims (admitUnnamed : Bool) (op : Word) (r : Row) : Bool :=
  op &&& r.mask == r.pattern && r.checks.all (Check.holds op) && r.naming.admits admitUnnamed op

/-- Line 0 (R69). -/
def rows0 : List Row :=
  [
   ⟨.oriToCcr, 0xFFFF, 0x003C, [], .unnamed⟩,
   ⟨.oriToSr, 0xFFFF, 0x007C, [], .unnamed⟩,
   ⟨.ori, 0xFF00, 0x0000, [.size, .ea .DA], .named⟩,
   ⟨.andiToCcr, 0xFFFF, 0x023C, [], .unnamed⟩,
   ⟨.andiToSr, 0xFFFF, 0x027C, [], .unnamed⟩,
   ⟨.andi, 0xFF00, 0x0200, [.size, .ea .DA], .named⟩,
   ⟨.subi, 0xFF00, 0x0400, [.size, .ea .DA], .named⟩,
   ⟨.addi, 0xFF00, 0x0600, [.size, .ea .DA], .named⟩,
   ⟨.eoriToCcr, 0xFFFF, 0x0A3C, [], .unnamed⟩,
   ⟨.eoriToSr, 0xFFFF, 0x0A7C, [], .unnamed⟩,
   ⟨.eori, 0xFF00, 0x0A00, [.size, .ea .DA], .named⟩
  ] ++
  [
   ⟨.cmpi, 0xFF00, 0x0C00, [.size, .ea .DA], .named⟩,
   ⟨.btstImm, 0xFFC0, 0x0800, [.ea .dataNoImm], .named⟩,
   ⟨.bchgImm, 0xFFC0, 0x0840, [.ea .DA], .named⟩,
   ⟨.bclrImm, 0xFFC0, 0x0880, [.ea .DA], .named⟩,
   ⟨.bsetImm, 0xFFC0, 0x08C0, [.ea .DA], .named⟩,
   ⟨.btstDn, 0xF1C0, 0x0100, [.ea .data], .named⟩,
   ⟨.bchgDn, 0xF1C0, 0x0140, [.ea .DA], .named⟩,
   ⟨.bclrDn, 0xF1C0, 0x0180, [.ea .DA], .named⟩,
   ⟨.bsetDn, 0xF1C0, 0x01C0, [.ea .DA], .named⟩,
   ⟨.movep, 0xF138, 0x0108, [], .named⟩,
   ⟨.cas, 0xF9C0, 0x08C0, [.casSize, .ea .MA], .named⟩
  ]

/-- Lines 1, 2, 3 (R70). -/
def rowsMove : List Row :=
  [
   ⟨.move, 0xC000, 0x0000, [.moveSize, .moveSource, .moveDest .DA], .named⟩,
   ⟨.movea, 0xC1C0, 0x0040, [.moveaSize, .ea .all], .named⟩
  ]

/-- Line 4 (R71). -/
def rows4 : List Row :=
  [
   ⟨.negx, 0xFF00, 0x4000, [.size, .ea .DA], .named⟩,
   ⟨.moveFromSr, 0xFFC0, 0x40C0, [.ea .DA], .named⟩,
   ⟨.chk, 0xF1C0, 0x4180, [.ea .data], .named⟩,
   ⟨.lea, 0xF1C0, 0x41C0, [.ea .ctrl], .named⟩,
   ⟨.clr, 0xFF00, 0x4200, [.size, .ea .DA], .named⟩,
   ⟨.moveFromCcr, 0xFFC0, 0x42C0, [.ea .DA], .named⟩,
   ⟨.neg, 0xFF00, 0x4400, [.size, .ea .DA], .named⟩,
   ⟨.moveToCcr, 0xFFC0, 0x44C0, [.ea .data], .named⟩,
   ⟨.not, 0xFF00, 0x4600, [.size, .ea .DA], .named⟩,
   ⟨.moveToSr, 0xFFC0, 0x46C0, [.ea .data], .named⟩,
   ⟨.nbcd, 0xFFC0, 0x4800, [.ea .DA], .named⟩,
   ⟨.swap, 0xFFF8, 0x4840, [], .unnamed⟩,
   ⟨.pea, 0xFFC0, 0x4840, [.ea .ctrl], .named⟩,
   ⟨.extW, 0xFFF8, 0x4880, [], .unnamed⟩,
   ⟨.extL, 0xFFF8, 0x48C0, [], .unnamed⟩,
   ⟨.movemToMem, 0xFF80, 0x4880, [.ea .CAorPre], .named⟩,
   ⟨.tst, 0xFF00, 0x4A00, [.size, .ea .DA], .unnamed⟩,
   ⟨.tas, 0xFFC0, 0x4AC0, [.ea .DA], .unnamed⟩
  ] ++
  [
   ⟨.illegal, 0xFFFF, 0x4AFC, [], .named⟩,
   ⟨.mull, 0xFFC0, 0x4C00, [.ea .data], .named⟩,
   ⟨.divl, 0xFFC0, 0x4C40, [.ea .data], .named⟩,
   ⟨.movemToReg, 0xFF80, 0x4C80, [.ea .CorPost], .named⟩,
   ⟨.trap, 0xFFF0, 0x4E40, [], .unnamed⟩,
   ⟨.link, 0xFFF8, 0x4E50, [], .named⟩,
   ⟨.unlk, 0xFFF8, 0x4E58, [], .named⟩,
   ⟨.moveToUsp, 0xFFF8, 0x4E60, [], .named⟩,
   ⟨.moveFromUsp, 0xFFF8, 0x4E68, [], .named⟩,
   ⟨.reset, 0xFFFF, 0x4E70, [], .named⟩,
   ⟨.nop, 0xFFFF, 0x4E71, [], .named⟩,
   ⟨.stop, 0xFFFF, 0x4E72, [], .named⟩,
   ⟨.rte, 0xFFFF, 0x4E73, [], .named⟩,
   ⟨.rts, 0xFFFF, 0x4E75, [], .named⟩,
   ⟨.trapv, 0xFFFF, 0x4E76, [], .named⟩,
   ⟨.rtr, 0xFFFF, 0x4E77, [], .named⟩,
   ⟨.jsr, 0xFFC0, 0x4E80, [.ea .ctrl], .named⟩,
   ⟨.jmp, 0xFFC0, 0x4EC0, [.ea .ctrl], .named⟩
  ]

/-- Line 5 (R72). -/
def rows5 : List Row :=
  [
   ⟨.addq, 0xF100, 0x5000, [.size, .sizedEA .altnoAn .alt], .named⟩,
   ⟨.subq, 0xF100, 0x5100, [.size, .sizedEA .altnoAn .alt], .named⟩,
   ⟨.scc, 0xF0C0, 0x50C0, [.ea .DA], .named⟩,
   ⟨.dbcc, 0xF0F8, 0x50C8, [], .named⟩,
   ⟨.trapcc, 0xF0F8, 0x50F8, [.trapForm], .named⟩
  ]

/-- Line 6 (R73). -/
def rows6 : List Row :=
  [
   ⟨.bra, 0xFF00, 0x6000, [], .named⟩,
   ⟨.bsr, 0xFF00, 0x6100, [], .named⟩,
   ⟨.bcc, 0xF000, 0x6000, [.branchCond], .named⟩
  ]

/-- Line 7 (R74). -/
def rows7 : List Row :=
  [
   ⟨.moveq, 0xF100, 0x7000, [], .named⟩
  ]

/-- Line 8 (R75). -/
def rows8 : List Row :=
  [
   ⟨.divuW, 0xF1C0, 0x80C0, [.ea .data], .named⟩,
   ⟨.divsW, 0xF1C0, 0x81C0, [.ea .data], .named⟩,
   ⟨.sbcd, 0xF1F0, 0x8100, [], .named⟩,
   ⟨.orEaDn, 0xF100, 0x8000, [.size, .ea .data], .named⟩,
   ⟨.orDnEa, 0xF100, 0x8100, [.size, .ea .MA], .named⟩
  ]

/-- Line 9 (R76). -/
def rows9 : List Row :=
  [
   ⟨.subEaDn, 0xF100, 0x9000, [.size, .sizedEA .allnoAn .all], .named⟩,
   ⟨.subDnEa, 0xF100, 0x9100, [.size, .ea .MA], .named⟩,
   ⟨.suba, 0xF0C0, 0x90C0, [.ea .all], .unnamed⟩,
   ⟨.subx, 0xF130, 0x9100, [.size], .named⟩
  ]

/-- Line B (R77). -/
def rowsB : List Row :=
  [
   ⟨.cmp, 0xF100, 0xB000, [.size, .sizedEA .allnoAn .all], .named⟩,
   ⟨.cmpa, 0xF0C0, 0xB0C0, [.ea .all], .unnamed⟩,
   ⟨.eor, 0xF100, 0xB100, [.size, .ea .DA], .named⟩,
   ⟨.cmpm, 0xF138, 0xB108, [.size], .unnamed⟩
  ]

/-- Line C (R78). -/
def rowsC : List Row :=
  [
   ⟨.muluW, 0xF1C0, 0xC0C0, [.ea .data], .named⟩,
   ⟨.mulsW, 0xF1C0, 0xC1C0, [.ea .data], .named⟩,
   ⟨.abcd, 0xF1F0, 0xC100, [], .named⟩,
   ⟨.exgDD, 0xF1F8, 0xC140, [], .unnamed⟩,
   ⟨.exgAA, 0xF1F8, 0xC148, [], .unnamed⟩,
   ⟨.exgDA, 0xF1F8, 0xC188, [], .unnamed⟩,
   ⟨.andEaDn, 0xF100, 0xC000, [.size, .ea .data], .named⟩,
   ⟨.andDnEa, 0xF100, 0xC100, [.size, .ea .MA], .named⟩
  ]

/-- Line D (R76). -/
def rowsD : List Row :=
  [
   ⟨.addEaDn, 0xF100, 0xD000, [.size, .sizedEA .allnoAn .all], .named⟩,
   ⟨.addDnEa, 0xF100, 0xD100, [.size, .ea .MA], .named⟩,
   ⟨.adda, 0xF0C0, 0xD0C0, [.ea .all], .unnamed⟩,
   ⟨.addx, 0xF130, 0xD100, [.size], .named⟩
  ]

/-- Line E (R79). -/
def rowsE : List Row :=
  [
   ⟨.asrReg, 0xF118, 0xE000, [.size], .immediateCount⟩,
   ⟨.asrMem, 0xFFC0, 0xE0C0, [.ea .MA], .unnamed⟩,
   ⟨.aslReg, 0xF118, 0xE100, [.size], .immediateCount⟩,
   ⟨.aslMem, 0xFFC0, 0xE1C0, [.ea .MA], .unnamed⟩,
   ⟨.lsrReg, 0xF118, 0xE008, [.size], .immediateCount⟩,
   ⟨.lsrMem, 0xFFC0, 0xE2C0, [.ea .MA], .unnamed⟩,
   ⟨.lslReg, 0xF118, 0xE108, [.size], .immediateCount⟩,
   ⟨.lslMem, 0xFFC0, 0xE3C0, [.ea .MA], .unnamed⟩
  ] ++
  [
   ⟨.roxrReg, 0xF118, 0xE010, [.size], .unnamed⟩,
   ⟨.roxrMem, 0xFFC0, 0xE4C0, [.ea .MA], .unnamed⟩,
   ⟨.roxlReg, 0xF118, 0xE110, [.size], .unnamed⟩,
   ⟨.roxlMem, 0xFFC0, 0xE5C0, [.ea .MA], .unnamed⟩,
   ⟨.rorReg, 0xF118, 0xE018, [.size], .unnamed⟩,
   ⟨.rorMem, 0xFFC0, 0xE6C0, [.ea .MA], .unnamed⟩,
   ⟨.rolReg, 0xF118, 0xE118, [.size], .unnamed⟩,
   ⟨.rolMem, 0xFFC0, 0xE7C0, [.ea .MA], .unnamed⟩
  ]

/-- The rows a word can belong to, by its line `op[15:12]`.  Lines A and F hold none (R80). -/
def rowsOfLine (line : BitVec 4) : List Row :=
  match line with
  | 0x0#4 => rows0
  | 0x1#4 => rowsMove
  | 0x2#4 => rowsMove
  | 0x3#4 => rowsMove
  | 0x4#4 => rows4
  | 0x5#4 => rows5
  | 0x6#4 => rows6
  | 0x7#4 => rows7
  | 0x8#4 => rows8
  | 0x9#4 => rows9
  | 0xB#4 => rowsB
  | 0xC#4 => rowsC
  | 0xD#4 => rowsD
  | 0xE#4 => rowsE
  | _ => []

/-- All 110 rows of spec/opcode_table.json. -/
def opcodeTable : List Row :=
  rows0 ++ rowsMove ++ rows4 ++ rows5 ++ rows6 ++ rows7 ++ rows8 ++ rows9 ++ rowsB ++ rowsC ++ rowsD ++ rowsE

/-- The row of `Decode(op)` (R81), none for an unknown opcode (R84). -/
def lookup (admitUnnamed : Bool) (op : Word) : Option Mnemonic :=
  ((rowsOfLine (op.extractLsb' 12 4)).find? (Row.claims admitUnnamed op)).map Row.row

/-! ## The operand fields baked into an opcode word (30_encoding.md R63, R83) -/

/-- The fields of R63, each with its letter. -/
inductive Field where
  /-- `m`: EA mode -/
  | eaMode
  /-- `r`: EA register -/
  | eaReg
  /-- `M`: MOVE destination mode -/
  | destMode
  /-- `R`: MOVE destination register -/
  | destReg
  /-- `d`: data register -/
  | dataReg
  /-- `a`: address register -/
  | addrReg
  /-- `x`: destination register of a pair -/
  | regX
  /-- `y`: source register of a pair, or the register shifted -/
  | regY
  /-- `e`: register or memory form -/
  | pairForm
  /-- `s`: standard size -/
  | size
  /-- `z`: size of MOVE, MOVEA, CAS -/
  | altSize
  /-- `w`: word or long -/
  | long
  /-- `c`: condition, or shift count or count register -/
  | condOrCount
  /-- `q`: ADDQ/SUBQ data -/
  | quick
  /-- `k`: MOVEQ immediate or 8-bit displacement -/
  | byteImm
  /-- `i`: the count is a register -/
  | byReg
  /-- `o`: MOVEP opmode -/
  | opmode
  /-- `v`: TRAP vector -/
  | vector
  /-- `p`: TRAPcc operand form -/
  | trapForm
  deriving DecidableEq, Repr

/-- Where a row has a field. -/
structure Slot where
  field : Field
  hi : Nat
  lo : Nat
  deriving DecidableEq, Repr

/-- The EA field at bits 5:0. -/
def eaSlots : List Slot := [⟨.eaMode, 5, 3⟩, ⟨.eaReg, 2, 0⟩]

/-- The fields of a row, from the high bits down. -/
def Mnemonic.slots : Mnemonic → List Slot
  | .oriToCcr => []
  | .oriToSr => []
  | .andiToCcr => []
  | .andiToSr => []
  | .eoriToCcr => []
  | .eoriToSr => []
  | .illegal => []
  | .reset => []
  | .nop => []
  | .stop => []
  | .rte => []
  | .rts => []
  | .trapv => []
  | .rtr => []
  | .ori => ⟨.size, 7, 6⟩ :: eaSlots
  | .andi => ⟨.size, 7, 6⟩ :: eaSlots
  | .subi => ⟨.size, 7, 6⟩ :: eaSlots
  | .addi => ⟨.size, 7, 6⟩ :: eaSlots
  | .eori => ⟨.size, 7, 6⟩ :: eaSlots
  | .cmpi => ⟨.size, 7, 6⟩ :: eaSlots
  | .negx => ⟨.size, 7, 6⟩ :: eaSlots
  | .clr => ⟨.size, 7, 6⟩ :: eaSlots
  | .neg => ⟨.size, 7, 6⟩ :: eaSlots
  | .not => ⟨.size, 7, 6⟩ :: eaSlots
  | .tst => ⟨.size, 7, 6⟩ :: eaSlots
  | .btstImm => eaSlots
  | .bchgImm => eaSlots
  | .bclrImm => eaSlots
  | .bsetImm => eaSlots
  | .moveFromSr => eaSlots
  | .moveFromCcr => eaSlots
  | .moveToCcr => eaSlots
  | .moveToSr => eaSlots
  | .nbcd => eaSlots
  | .pea => eaSlots
  | .tas => eaSlots
  | .mull => eaSlots
  | .divl => eaSlots
  | .jsr => eaSlots
  | .jmp => eaSlots
  | .asrMem => eaSlots
  | .aslMem => eaSlots
  | .lsrMem => eaSlots
  | .lslMem => eaSlots
  | .roxrMem => eaSlots
  | .roxlMem => eaSlots
  | .rorMem => eaSlots
  | .rolMem => eaSlots
  | .btstDn => ⟨.dataReg, 11, 9⟩ :: eaSlots
  | .bchgDn => ⟨.dataReg, 11, 9⟩ :: eaSlots
  | .bclrDn => ⟨.dataReg, 11, 9⟩ :: eaSlots
  | .bsetDn => ⟨.dataReg, 11, 9⟩ :: eaSlots
  | .chk => ⟨.dataReg, 11, 9⟩ :: eaSlots
  | .divuW => ⟨.dataReg, 11, 9⟩ :: eaSlots
  | .divsW => ⟨.dataReg, 11, 9⟩ :: eaSlots
  | .muluW => ⟨.dataReg, 11, 9⟩ :: eaSlots
  | .mulsW => ⟨.dataReg, 11, 9⟩ :: eaSlots
  | .movep => [⟨.dataReg, 11, 9⟩, ⟨.opmode, 7, 6⟩, ⟨.addrReg, 2, 0⟩]
  | .cas => ⟨.altSize, 10, 9⟩ :: eaSlots
  | .move => ⟨.altSize, 13, 12⟩ :: ⟨.destReg, 11, 9⟩ :: ⟨.destMode, 8, 6⟩ :: eaSlots
  | .movea => ⟨.altSize, 13, 12⟩ :: ⟨.addrReg, 11, 9⟩ :: eaSlots
  | .lea => ⟨.addrReg, 11, 9⟩ :: eaSlots
  | .swap => [⟨.dataReg, 2, 0⟩]
  | .extW => [⟨.dataReg, 2, 0⟩]
  | .extL => [⟨.dataReg, 2, 0⟩]
  | .movemToMem => ⟨.long, 6, 6⟩ :: eaSlots
  | .movemToReg => ⟨.long, 6, 6⟩ :: eaSlots
  | .trap => [⟨.vector, 3, 0⟩]
  | .link => [⟨.addrReg, 2, 0⟩]
  | .unlk => [⟨.addrReg, 2, 0⟩]
  | .moveToUsp => [⟨.addrReg, 2, 0⟩]
  | .moveFromUsp => [⟨.addrReg, 2, 0⟩]
  | .addq => ⟨.quick, 11, 9⟩ :: ⟨.size, 7, 6⟩ :: eaSlots
  | .subq => ⟨.quick, 11, 9⟩ :: ⟨.size, 7, 6⟩ :: eaSlots
  | .scc => ⟨.condOrCount, 11, 8⟩ :: eaSlots
  | .dbcc => [⟨.condOrCount, 11, 8⟩, ⟨.dataReg, 2, 0⟩]
  | .trapcc => [⟨.condOrCount, 11, 8⟩, ⟨.trapForm, 2, 0⟩]
  | .bra => [⟨.byteImm, 7, 0⟩]
  | .bsr => [⟨.byteImm, 7, 0⟩]
  | .bcc => [⟨.condOrCount, 11, 8⟩, ⟨.byteImm, 7, 0⟩]
  | .moveq => [⟨.dataReg, 11, 9⟩, ⟨.byteImm, 7, 0⟩]
  | .sbcd => [⟨.regX, 11, 9⟩, ⟨.pairForm, 3, 3⟩, ⟨.regY, 2, 0⟩]
  | .abcd => [⟨.regX, 11, 9⟩, ⟨.pairForm, 3, 3⟩, ⟨.regY, 2, 0⟩]
  | .orEaDn => ⟨.dataReg, 11, 9⟩ :: ⟨.size, 7, 6⟩ :: eaSlots
  | .orDnEa => ⟨.dataReg, 11, 9⟩ :: ⟨.size, 7, 6⟩ :: eaSlots
  | .subEaDn => ⟨.dataReg, 11, 9⟩ :: ⟨.size, 7, 6⟩ :: eaSlots
  | .subDnEa => ⟨.dataReg, 11, 9⟩ :: ⟨.size, 7, 6⟩ :: eaSlots
  | .cmp => ⟨.dataReg, 11, 9⟩ :: ⟨.size, 7, 6⟩ :: eaSlots
  | .eor => ⟨.dataReg, 11, 9⟩ :: ⟨.size, 7, 6⟩ :: eaSlots
  | .andEaDn => ⟨.dataReg, 11, 9⟩ :: ⟨.size, 7, 6⟩ :: eaSlots
  | .andDnEa => ⟨.dataReg, 11, 9⟩ :: ⟨.size, 7, 6⟩ :: eaSlots
  | .addEaDn => ⟨.dataReg, 11, 9⟩ :: ⟨.size, 7, 6⟩ :: eaSlots
  | .addDnEa => ⟨.dataReg, 11, 9⟩ :: ⟨.size, 7, 6⟩ :: eaSlots
  | .suba => ⟨.addrReg, 11, 9⟩ :: ⟨.long, 8, 8⟩ :: eaSlots
  | .cmpa => ⟨.addrReg, 11, 9⟩ :: ⟨.long, 8, 8⟩ :: eaSlots
  | .adda => ⟨.addrReg, 11, 9⟩ :: ⟨.long, 8, 8⟩ :: eaSlots
  | .subx => [⟨.regX, 11, 9⟩, ⟨.size, 7, 6⟩, ⟨.pairForm, 3, 3⟩, ⟨.regY, 2, 0⟩]
  | .addx => [⟨.regX, 11, 9⟩, ⟨.size, 7, 6⟩, ⟨.pairForm, 3, 3⟩, ⟨.regY, 2, 0⟩]
  | .cmpm => [⟨.regX, 11, 9⟩, ⟨.size, 7, 6⟩, ⟨.regY, 2, 0⟩]
  | .exgDD => [⟨.regX, 11, 9⟩, ⟨.regY, 2, 0⟩]
  | .exgAA => [⟨.regX, 11, 9⟩, ⟨.regY, 2, 0⟩]
  | .exgDA => [⟨.regX, 11, 9⟩, ⟨.regY, 2, 0⟩]
  | .asrReg => [⟨.condOrCount, 11, 9⟩, ⟨.size, 7, 6⟩, ⟨.byReg, 5, 5⟩, ⟨.regY, 2, 0⟩]
  | .aslReg => [⟨.condOrCount, 11, 9⟩, ⟨.size, 7, 6⟩, ⟨.byReg, 5, 5⟩, ⟨.regY, 2, 0⟩]
  | .lsrReg => [⟨.condOrCount, 11, 9⟩, ⟨.size, 7, 6⟩, ⟨.byReg, 5, 5⟩, ⟨.regY, 2, 0⟩]
  | .lslReg => [⟨.condOrCount, 11, 9⟩, ⟨.size, 7, 6⟩, ⟨.byReg, 5, 5⟩, ⟨.regY, 2, 0⟩]
  | .roxrReg => [⟨.condOrCount, 11, 9⟩, ⟨.size, 7, 6⟩, ⟨.byReg, 5, 5⟩, ⟨.regY, 2, 0⟩]
  | .roxlReg => [⟨.condOrCount, 11, 9⟩, ⟨.size, 7, 6⟩, ⟨.byReg, 5, 5⟩, ⟨.regY, 2, 0⟩]
  | .rorReg => [⟨.condOrCount, 11, 9⟩, ⟨.size, 7, 6⟩, ⟨.byReg, 5, 5⟩, ⟨.regY, 2, 0⟩]
  | .rolReg => [⟨.condOrCount, 11, 9⟩, ⟨.size, 7, 6⟩, ⟨.byReg, 5, 5⟩, ⟨.regY, 2, 0⟩]

/-- A field of a word with its value. -/
structure FieldValue where
  slot : Slot
  value : Nat
  deriving DecidableEq, Repr

/-- Bits `hi:lo` of a word (00_scope.md R9). -/
def Slot.read (op : Word) (f : Slot) : Nat := op.toNat / 2 ^ f.lo % 2 ^ (f.hi - f.lo + 1)

/-- An entry of the dispatch table (R83): the row, and the operand values baked into the word. -/
structure TableEntry where
  row : Mnemonic
  fields : List FieldValue
  deriving DecidableEq, Repr

/-- Entry `op` of the dispatch table, none for `Unknown` (R81, R83). -/
def tableEntry (admitUnnamed : Bool) (op : Word) : Option TableEntry :=
  (lookup admitUnnamed op).map fun m => { row := m, fields := m.slots.map fun f => { slot := f, value := f.read op } }

/-! ## Operand fields and extension words (30_encoding.md R62–R67) -/

/-- A 3-bit register field. -/
def regOf (f : BitVec 3) : Reg := f.toFin

/-- The standard size field `s` (R63). -/
def Size.ofStd (f : BitVec 2) : Size :=
  match f with
  | 0#2 => .b
  | 1#2 => .w
  | _ => .l

/-- MOVE's size field `z` (R63). -/
def Size.ofMove (f : BitVec 2) : Size :=
  match f with
  | 1#2 => .b
  | 3#2 => .w
  | _ => .l

/-- CAS's size field `z` (R63). -/
def Size.ofCas (f : BitVec 2) : Size :=
  match f with
  | 1#2 => .b
  | 2#2 => .w
  | _ => .l

/-- The size bit `w` (R63). -/
def Size.ofLongBit (f : BitVec 1) : Size :=
  if f = 1#1 then .l else .w

/-- The condition field (10_state.md R35). -/
def Cond.ofBits (f : BitVec 4) : Cond :=
  match f with
  | 0x0#4 => .t
  | 0x1#4 => .f
  | 0x2#4 => .hi
  | 0x3#4 => .ls
  | 0x4#4 => .cc
  | 0x5#4 => .cs
  | 0x6#4 => .ne
  | 0x7#4 => .eq
  | 0x8#4 => .vc
  | 0x9#4 => .vs
  | 0xA#4 => .pl
  | 0xB#4 => .mi
  | 0xC#4 => .ge
  | 0xD#4 => .lt
  | 0xE#4 => .gt
  | _ => .le

/-- The brief extension word, bits 10:8 ignored (R65). -/
def Index.ofWord (w : Word) : Index :=
  { isAddr := w.getLsbD 15, reg := regOf (w.extractLsb' 12 3), long := w.getLsbD 11,
    disp := w.extractLsb' 0 8 }

/-- One extension word. -/
def takeWord : List Word → Option (Word × List Word)
  | [] => none
  | w :: ws => some (w, ws)

/-- Two extension words, the first the high half. -/
def takeLong : List Word → Option (Long × List Word)
  | hi :: lo :: ws => some (hi ++ lo, ws)
  | _ => none

/-- An immediate of a size: the low byte of a word, a word, or two words (R67). -/
def takeImm : Size → List Word → Option (Long × List Word)
  | .b, w :: ws => some ((w.extractLsb' 0 8).setWidth 32, ws)
  | .w, w :: ws => some (w.setWidth 32, ws)
  | .l, ws => takeLong ws
  | _, [] => none

/-- An EA with its extension words (R64).  Register codes 5 to 7 of mode 7 name no mode; no row
admits them. -/
def takeEA (m r : BitVec 3) (sz : Size) (ws : List Word) : Option (EA × List Word) :=
  match m with
  | 0#3 => some (.dn (regOf r), ws)
  | 1#3 => some (.an (regOf r), ws)
  | 2#3 => some (.ind (regOf r), ws)
  | 3#3 => some (.postInc (regOf r), ws)
  | 4#3 => some (.preDec (regOf r), ws)
  | 5#3 => (takeWord ws).map fun (w, ws) => (.disp (regOf r) w, ws)
  | 6#3 => (takeWord ws).map fun (w, ws) => (.index (regOf r) (Index.ofWord w), ws)
  | _ =>
    match r with
    | 0#3 => (takeWord ws).map fun (w, ws) => (.absW w, ws)
    | 1#3 => (takeLong ws).map fun (a, ws) => (.absL a, ws)
    | 2#3 => (takeWord ws).map fun (w, ws) => (.pcDisp w, ws)
    | 3#3 => (takeWord ws).map fun (w, ws) => (.pcIndex (Index.ofWord w), ws)
    | 4#3 => (takeImm sz ws).map fun (v, ws) => (.imm v, ws)
    | _ => none

/-- The EA at bits 5:0. -/
def withEA (op : Word) (sz : Size) (ws : List Word) (k : EA → Instr) : Option (Instr × List Word) :=
  (takeEA (op.extractLsb' 3 3) (op.extractLsb' 0 3) sz ws).map fun (e, ws) => (k e, ws)

/-- One extension word, then the EA at bits 5:0. -/
def withWordEA (op : Word) (sz : Size) (ws : List Word) (k : Word → EA → Instr) :
    Option (Instr × List Word) :=
  (takeWord ws).bind fun (w, ws) => withEA op sz ws (k w)

/-- The immediate of F-imm-ea, then the EA (R62, R68). -/
def withImmEA (op : Word) (ws : List Word) (k : Size → Long → EA → Instr) : Option (Instr × List Word) :=
  let sz := Size.ofStd (op.extractLsb' 6 2)
  (takeImm sz ws).bind fun (i, ws) => withEA op sz ws (k sz i)

/-- F-unary and F-dyadic: a standard size and an EA. -/
def withSizeEA (op : Word) (ws : List Word) (k : Size → EA → Instr) : Option (Instr × List Word) :=
  let sz := Size.ofStd (op.extractLsb' 6 2)
  withEA op sz ws (k sz)

/-- F-adda: the size bit 8 and an EA. -/
def withLongBitEA (op : Word) (ws : List Word) (k : Size → EA → Instr) : Option (Instr × List Word) :=
  let sz := Size.ofLongBit (op.extractLsb' 8 1)
  withEA op sz ws (k sz)

/-- One extension word and nothing more. -/
def withWord (ws : List Word) (k : Word → Instr) : Option (Instr × List Word) :=
  (takeWord ws).map fun (w, ws) => (k w, ws)

/-- The displacement of F-branch: `k`, or one word when `k = 0` (R212). -/
def withBranchDisp (op : Word) (ws : List Word) (k : BranchDisp → Instr) : Option (Instr × List Word) :=
  if op.extractLsb' 0 8 = 0#8 then (takeWord ws).map fun (w, ws) => (k (.word w), ws)
  else some (k (.byte (op.extractLsb' 0 8)), ws)

/-- The count of F-shift-reg: `i` and `c` (R188). -/
def countOf (op : Word) : Count :=
  if op.getLsbD 5 then .reg (regOf (op.extractLsb' 9 3)) else .imm (op.extractLsb' 9 3)

/-- F-shift-reg. -/
def shiftReg (op : Word) (ws : List Word) (k : Size → Count → Reg → Instr) : Option (Instr × List Word) :=
  some (k (Size.ofStd (op.extractLsb' 6 2)) (countOf op) (regOf (op.extractLsb' 0 3)), ws)

/-- The operands of a word of a row, with the words that are left.  None: a word is missing. -/
def assemble (m : Mnemonic) (op : Word) (ws : List Word) : Option (Instr × List Word) :=
  let r0 := regOf (op.extractLsb' 0 3)
  let r9 := regOf (op.extractLsb' 9 3)
  match m with
  | .oriToCcr => withWord ws fun w => .oriToCcr (w.extractLsb' 0 8)
  | .oriToSr => withWord ws fun w => .oriToSr w
  | .ori => withImmEA op ws fun sz i e => .ori sz i e
  | .andiToCcr => withWord ws fun w => .andiToCcr (w.extractLsb' 0 8)
  | .andiToSr => withWord ws fun w => .andiToSr w
  | .andi => withImmEA op ws fun sz i e => .andi sz i e
  | .subi => withImmEA op ws fun sz i e => .subi sz i e
  | .addi => withImmEA op ws fun sz i e => .addi sz i e
  | .eoriToCcr => withWord ws fun w => .eoriToCcr (w.extractLsb' 0 8)
  | .eoriToSr => withWord ws fun w => .eoriToSr w
  | .eori => withImmEA op ws fun sz i e => .eori sz i e
  | .cmpi => withImmEA op ws fun sz i e => .cmpi sz i e
  | .btstImm => withWordEA op .b ws fun w e => .btstImm (w.extractLsb' 0 8) e
  | .bchgImm => withWordEA op .b ws fun w e => .bchgImm (w.extractLsb' 0 8) e
  | .bclrImm => withWordEA op .b ws fun w e => .bclrImm (w.extractLsb' 0 8) e
  | .bsetImm => withWordEA op .b ws fun w e => .bsetImm (w.extractLsb' 0 8) e
  | .btstDn => withEA op .b ws fun e => .btstDn r9 e
  | .bchgDn => withEA op .b ws fun e => .bchgDn r9 e
  | .bclrDn => withEA op .b ws fun e => .bclrDn r9 e
  | .bsetDn => withEA op .b ws fun e => .bsetDn r9 e
  | .movep => withWord ws fun w => .movep r9 (op.getLsbD 7) (op.getLsbD 6) r0 w
  | .cas =>
      let sz := Size.ofCas (op.extractLsb' 9 2)
      withWordEA op sz ws fun w e => .cas sz (regOf (w.extractLsb' 0 3)) (regOf (w.extractLsb' 6 3)) e
  | .move =>
      let sz := Size.ofMove (op.extractLsb' 12 2)
      (takeEA (op.extractLsb' 3 3) (op.extractLsb' 0 3) sz ws).bind fun (src, ws) =>
        (takeEA (op.extractLsb' 6 3) (op.extractLsb' 9 3) sz ws).map fun (dst, ws) => (.move sz src dst, ws)
  | .movea =>
      let sz := Size.ofMove (op.extractLsb' 12 2)
      withEA op sz ws fun e => .movea sz e r9
  | .negx => withSizeEA op ws fun sz e => .negx sz e
  | .moveFromSr => withEA op .w ws fun e => .moveFromSr e
  | .chk => withEA op .w ws fun e => .chk e r9
  | .lea => withEA op .l ws fun e => .lea e r9
  | .clr => withSizeEA op ws fun sz e => .clr sz e
  | .moveFromCcr => withEA op .w ws fun e => .moveFromCcr e
  | .neg => withSizeEA op ws fun sz e => .neg sz e
  | .moveToCcr => withEA op .w ws fun e => .moveToCcr e
  | .not => withSizeEA op ws fun sz e => .not sz e
  | .moveToSr => withEA op .w ws fun e => .moveToSr e
  | .nbcd => withEA op .b ws fun e => .nbcd e
  | .swap => some (.swap r0, ws)
  | .pea => withEA op .l ws fun e => .pea e
  | .extW => some (.extW r0, ws)
  | .extL => some (.extL r0, ws)
  | .movemToMem =>
      let sz := Size.ofLongBit (op.extractLsb' 6 1)
      withWordEA op sz ws fun w e => .movemToMem sz w e
  | .tst => withSizeEA op ws fun sz e => .tst sz e
  | .tas => withEA op .b ws fun e => .tas e
  | .illegal => some (.illegal, ws)
  | .mull =>
      withWordEA op .l ws fun w e =>
        .mull (w.getLsbD 11) (w.getLsbD 10) (regOf (w.extractLsb' 12 3)) (regOf (w.extractLsb' 0 3)) e
  | .divl =>
      withWordEA op .l ws fun w e =>
        .divl (w.getLsbD 11) (w.getLsbD 10) (regOf (w.extractLsb' 12 3)) (regOf (w.extractLsb' 0 3)) e
  | .movemToReg =>
      let sz := Size.ofLongBit (op.extractLsb' 6 1)
      withWordEA op sz ws fun w e => .movemToReg sz w e
  | .trap => some (.trap (op.extractLsb' 0 4), ws)
  | .link => withWord ws fun w => .link r0 w
  | .unlk => some (.unlk r0, ws)
  | .moveToUsp => some (.moveToUsp r0, ws)
  | .moveFromUsp => some (.moveFromUsp r0, ws)
  | .reset => some (.reset, ws)
  | .nop => some (.nop, ws)
  | .stop => withWord ws fun w => .stop w
  | .rte => some (.rte, ws)
  | .rts => some (.rts, ws)
  | .trapv => some (.trapv, ws)
  | .rtr => some (.rtr, ws)
  | .jsr => withEA op .l ws fun e => .jsr e
  | .jmp => withEA op .l ws fun e => .jmp e
  | .addq => withSizeEA op ws fun sz e => .addq (op.extractLsb' 9 3) sz e
  | .subq => withSizeEA op ws fun sz e => .subq (op.extractLsb' 9 3) sz e
  | .scc => withEA op .b ws fun e => .scc (Cond.ofBits (op.extractLsb' 8 4)) e
  | .dbcc => withWord ws fun w => .dbcc (Cond.ofBits (op.extractLsb' 8 4)) r0 w
  | .trapcc =>
      let c := Cond.ofBits (op.extractLsb' 8 4)
      match op.extractLsb' 0 3 with
      | 2#3 => withWord ws fun w => .trapcc c (.word w)
      | 3#3 => (takeLong ws).map fun (v, ws) => (.trapcc c (.long v), ws)
      | _ => some (.trapcc c .none, ws)
  | .bra => withBranchDisp op ws fun d => .bra d
  | .bsr => withBranchDisp op ws fun d => .bsr d
  | .bcc => withBranchDisp op ws fun d => .bcc (Cond.ofBits (op.extractLsb' 8 4)) d
  | .moveq => some (.moveq (op.extractLsb' 0 8) r9, ws)
  | .divuW => withEA op .w ws fun e => .divuW e r9
  | .divsW => withEA op .w ws fun e => .divsW e r9
  | .sbcd => some (.sbcd (op.getLsbD 3) r0 r9, ws)
  | .orEaDn => withSizeEA op ws fun sz e => .orEaDn sz e r9
  | .orDnEa => withSizeEA op ws fun sz e => .orDnEa sz r9 e
  | .subEaDn => withSizeEA op ws fun sz e => .subEaDn sz e r9
  | .subDnEa => withSizeEA op ws fun sz e => .subDnEa sz r9 e
  | .suba => withLongBitEA op ws fun sz e => .suba sz e r9
  | .subx => some (.subx (Size.ofStd (op.extractLsb' 6 2)) (op.getLsbD 3) r0 r9, ws)
  | .cmp => withSizeEA op ws fun sz e => .cmp sz e r9
  | .cmpa => withLongBitEA op ws fun sz e => .cmpa sz e r9
  | .eor => withSizeEA op ws fun sz e => .eor sz r9 e
  | .cmpm => some (.cmpm (Size.ofStd (op.extractLsb' 6 2)) r0 r9, ws)
  | .muluW => withEA op .w ws fun e => .muluW e r9
  | .mulsW => withEA op .w ws fun e => .mulsW e r9
  | .abcd => some (.abcd (op.getLsbD 3) r0 r9, ws)
  | .exgDD => some (.exgDD r9 r0, ws)
  | .exgAA => some (.exgAA r9 r0, ws)
  | .exgDA => some (.exgDA r9 r0, ws)
  | .andEaDn => withSizeEA op ws fun sz e => .andEaDn sz e r9
  | .andDnEa => withSizeEA op ws fun sz e => .andDnEa sz r9 e
  | .addEaDn => withSizeEA op ws fun sz e => .addEaDn sz e r9
  | .addDnEa => withSizeEA op ws fun sz e => .addDnEa sz r9 e
  | .adda => withLongBitEA op ws fun sz e => .adda sz e r9
  | .addx => some (.addx (Size.ofStd (op.extractLsb' 6 2)) (op.getLsbD 3) r0 r9, ws)
  | .asrReg => shiftReg op ws fun sz c y => .asrReg sz c y
  | .asrMem => withEA op .w ws fun e => .asrMem e
  | .aslReg => shiftReg op ws fun sz c y => .aslReg sz c y
  | .aslMem => withEA op .w ws fun e => .aslMem e
  | .lsrReg => shiftReg op ws fun sz c y => .lsrReg sz c y
  | .lsrMem => withEA op .w ws fun e => .lsrMem e
  | .lslReg => shiftReg op ws fun sz c y => .lslReg sz c y
  | .lslMem => withEA op .w ws fun e => .lslMem e
  | .roxrReg => shiftReg op ws fun sz c y => .roxrReg sz c y
  | .roxrMem => withEA op .w ws fun e => .roxrMem e
  | .roxlReg => shiftReg op ws fun sz c y => .roxlReg sz c y
  | .roxlMem => withEA op .w ws fun e => .roxlMem e
  | .rorReg => shiftReg op ws fun sz c y => .rorReg sz c y
  | .rorMem => withEA op .w ws fun e => .rorMem e
  | .rolReg => shiftReg op ws fun sz c y => .rolReg sz c y
  | .rolMem => withEA op .w ws fun e => .rolMem e

/-- Why a list of words or bytes is no instruction. -/
inductive DecodeError where
  /-- no row of the table holds for the opcode word (R84) -/
  | unknownOpcode (op : Word)
  /-- the words end before the instruction does -/
  | truncated
  deriving DecidableEq, Repr

/-- Decode an opcode word and its extension words; the words that are left come back. -/
def decode (admitUnnamed : Bool) : List Word → Except DecodeError (Instr × List Word)
  | [] => .error .truncated
  | op :: ws =>
    match lookup admitUnnamed op with
    | none => .error (.unknownOpcode op)
    | some m =>
      match assemble m op ws with
      | none => .error .truncated
      | some x => .ok x

/-- The big-endian words of a byte sequence (20_memory.md R46). -/
def wordsOfBytes : List Byte → List Word
  | hi :: lo :: bs => (hi ++ lo) :: wordsOfBytes bs
  | _ => []

/-- Decode a byte sequence. -/
def decodeBytes (admitUnnamed : Bool) (bs : List Byte) : Except DecodeError (Instr × List Word) :=
  decode admitUnnamed (wordsOfBytes bs)

/-! ## The encoder (30_encoding.md R62–R79) -/

/-- A register number as a field. -/
def regBits (r : Reg) : BitVec 3 := BitVec.ofFin r

/-- A Boolean as a one-bit field. -/
def bit (b : Bool) : BitVec 1 := BitVec.ofBool b

def Size.std : Size → BitVec 2
  | .b => 0#2
  | .w => 1#2
  | .l => 2#2

def Size.moveBits : Size → BitVec 2
  | .b => 1#2
  | .w => 3#2
  | .l => 2#2

def Size.casBits : Size → BitVec 2
  | .b => 1#2
  | .w => 2#2
  | .l => 3#2

def Size.longBit : Size → BitVec 1
  | .b => 0#1
  | .w => 0#1
  | .l => 1#1

def Cond.bits : Cond → BitVec 4
  | .t => 0x0#4
  | .f => 0x1#4
  | .hi => 0x2#4
  | .ls => 0x3#4
  | .cc => 0x4#4
  | .cs => 0x5#4
  | .ne => 0x6#4
  | .eq => 0x7#4
  | .vc => 0x8#4
  | .vs => 0x9#4
  | .pl => 0xA#4
  | .mi => 0xB#4
  | .ge => 0xC#4
  | .lt => 0xD#4
  | .gt => 0xE#4
  | .le => 0xF#4

/-- The mode field (R64). -/
def EA.mode : EA → BitVec 3
  | .dn _ => 0#3
  | .an _ => 1#3
  | .ind _ => 2#3
  | .postInc _ => 3#3
  | .preDec _ => 4#3
  | .disp .. => 5#3
  | .index .. => 6#3
  | _ => 7#3

/-- The register field (R64). -/
def EA.reg : EA → BitVec 3
  | .dn n => regBits n
  | .an n => regBits n
  | .ind n => regBits n
  | .postInc n => regBits n
  | .preDec n => regBits n
  | .disp n _ => regBits n
  | .index n _ => regBits n
  | .absW _ => 0#3
  | .absL _ => 1#3
  | .pcDisp _ => 2#3
  | .pcIndex _ => 3#3
  | .imm _ => 4#3

/-- The six bits 5:0. -/
def EA.field (e : EA) : BitVec 6 := e.mode ++ e.reg

/-- The brief extension word, its ignored bits 0 (R65). -/
def Index.toWord (x : Index) : Word :=
  bit x.isAddr ++ regBits x.reg ++ bit x.long ++ 0#3 ++ x.disp

/-- A long as two words, high first. -/
def longWords (v : Long) : List Word := [v.extractLsb' 16 16, v.extractLsb' 0 16]

/-- An immediate's words, the ignored byte 0 (R67). -/
def immWords : Size → Long → List Word
  | .b, v => [(v.extractLsb' 0 8).setWidth 16]
  | .w, v => [v.extractLsb' 0 16]
  | .l, v => longWords v

/-- The EA's extension words (R64). -/
def EA.words (sz : Size) : EA → List Word
  | .disp _ d => [d]
  | .index _ x => [x.toWord]
  | .absW a => [a]
  | .absL a => longWords a
  | .pcDisp d => [d]
  | .pcIndex x => [x.toWord]
  | .imm v => immWords sz v
  | _ => []

/-- The opcode word's displacement field (R212). -/
def BranchDisp.bits : BranchDisp → Byte
  | .byte k => k
  | .word _ => 0#8

def BranchDisp.words : BranchDisp → List Word
  | .byte _ => []
  | .word d => [d]

/-- The count field `c` of F-shift-reg. -/
def Count.field : Count → BitVec 3
  | .imm c => c
  | .reg n => regBits n

/-- The bit `i` of F-shift-reg. -/
def Count.byReg : Count → BitVec 1
  | .imm _ => 0#1
  | .reg _ => 1#1

/-- `ppp` of TRAPcc. -/
def TrapOperand.bits : TrapOperand → BitVec 3
  | .none => 4#3
  | .word _ => 2#3
  | .long _ => 3#3

def TrapOperand.words : TrapOperand → List Word
  | .none => []
  | .word v => [v]
  | .long v => longWords v

/-- The opcode word (R68–R79). -/
def Instr.opcode : Instr → Word
  | .oriToCcr .. => 0x003C#16
  | .oriToSr .. => 0x007C#16
  | .ori sz _ ea => 0x00#8 ++ sz.std ++ ea.field
  | .andiToCcr .. => 0x023C#16
  | .andiToSr .. => 0x027C#16
  | .andi sz _ ea => 0x02#8 ++ sz.std ++ ea.field
  | .subi sz _ ea => 0x04#8 ++ sz.std ++ ea.field
  | .addi sz _ ea => 0x06#8 ++ sz.std ++ ea.field
  | .eoriToCcr .. => 0x0A3C#16
  | .eoriToSr .. => 0x0A7C#16
  | .eori sz _ ea => 0x0A#8 ++ sz.std ++ ea.field
  | .cmpi sz _ ea => 0x0C#8 ++ sz.std ++ ea.field
  | .btstImm _ ea => 0x08#8 ++ 0#2 ++ ea.field
  | .bchgImm _ ea => 0x08#8 ++ 1#2 ++ ea.field
  | .bclrImm _ ea => 0x08#8 ++ 2#2 ++ ea.field
  | .bsetImm _ ea => 0x08#8 ++ 3#2 ++ ea.field
  | .btstDn d ea => 0#4 ++ regBits d ++ 1#1 ++ 0#2 ++ ea.field
  | .bchgDn d ea => 0#4 ++ regBits d ++ 1#1 ++ 1#2 ++ ea.field
  | .bclrDn d ea => 0#4 ++ regBits d ++ 1#1 ++ 2#2 ++ ea.field
  | .bsetDn d ea => 0#4 ++ regBits d ++ 1#1 ++ 3#2 ++ ea.field
  | .movep d toMem long a _ => 0#4 ++ regBits d ++ 1#1 ++ bit toMem ++ bit long ++ 1#3 ++ regBits a
  | .cas sz _ _ ea => 1#5 ++ sz.casBits ++ 0#1 ++ 3#2 ++ ea.field
  | .move sz src dst => 0#2 ++ sz.moveBits ++ dst.reg ++ dst.mode ++ src.field
  | .movea sz src a => 0#2 ++ sz.moveBits ++ regBits a ++ 1#3 ++ src.field
  | .negx sz ea => 0x40#8 ++ sz.std ++ ea.field
  | .moveFromSr ea => 0x40#8 ++ 3#2 ++ ea.field
  | .chk ea d => 4#4 ++ regBits d ++ 1#1 ++ 2#2 ++ ea.field
  | .lea ea a => 4#4 ++ regBits a ++ 1#1 ++ 3#2 ++ ea.field
  | .clr sz ea => 0x42#8 ++ sz.std ++ ea.field
  | .moveFromCcr ea => 0x42#8 ++ 3#2 ++ ea.field
  | .neg sz ea => 0x44#8 ++ sz.std ++ ea.field
  | .moveToCcr ea => 0x44#8 ++ 3#2 ++ ea.field
  | .not sz ea => 0x46#8 ++ sz.std ++ ea.field
  | .moveToSr ea => 0x46#8 ++ 3#2 ++ ea.field
  | .nbcd ea => 0x48#8 ++ 0#2 ++ ea.field
  | .swap d => 0x48#8 ++ 1#2 ++ 0#3 ++ regBits d
  | .pea ea => 0x48#8 ++ 1#2 ++ ea.field
  | .extW d => 0x48#8 ++ 2#2 ++ 0#3 ++ regBits d
  | .extL d => 0x48#8 ++ 3#2 ++ 0#3 ++ regBits d
  | .movemToMem sz _ ea => 0x48#8 ++ 1#1 ++ sz.longBit ++ ea.field
  | .tst sz ea => 0x4A#8 ++ sz.std ++ ea.field
  | .tas ea => 0x4A#8 ++ 3#2 ++ ea.field
  | .illegal => 0x4AFC#16
  | .mull _ _ _ _ ea => 0x4C#8 ++ 0#2 ++ ea.field
  | .divl _ _ _ _ ea => 0x4C#8 ++ 1#2 ++ ea.field
  | .movemToReg sz _ ea => 0x4C#8 ++ 1#1 ++ sz.longBit ++ ea.field
  | .trap v => 0x4E4#12 ++ v
  | .link a _ => 0x4E#8 ++ 0b01010#5 ++ regBits a
  | .unlk a => 0x4E#8 ++ 0b01011#5 ++ regBits a
  | .moveToUsp a => 0x4E#8 ++ 0b01100#5 ++ regBits a
  | .moveFromUsp a => 0x4E#8 ++ 0b01101#5 ++ regBits a
  | .reset => 0x4E70#16
  | .nop => 0x4E71#16
  | .stop .. => 0x4E72#16
  | .rte => 0x4E73#16
  | .rts => 0x4E75#16
  | .trapv => 0x4E76#16
  | .rtr => 0x4E77#16
  | .jsr ea => 0x4E#8 ++ 2#2 ++ ea.field
  | .jmp ea => 0x4E#8 ++ 3#2 ++ ea.field
  | .addq q sz ea => 5#4 ++ q ++ 0#1 ++ sz.std ++ ea.field
  | .subq q sz ea => 5#4 ++ q ++ 1#1 ++ sz.std ++ ea.field
  | .scc c ea => 5#4 ++ c.bits ++ 3#2 ++ ea.field
  | .dbcc c d _ => 5#4 ++ c.bits ++ 3#2 ++ 1#3 ++ regBits d
  | .trapcc c o => 5#4 ++ c.bits ++ 3#2 ++ 7#3 ++ o.bits
  | .bra d => 0x60#8 ++ d.bits
  | .bsr d => 0x61#8 ++ d.bits
  | .bcc c d => 6#4 ++ c.bits ++ d.bits
  | .moveq k d => 7#4 ++ regBits d ++ 0#1 ++ k
  | .divuW ea d => 0x8#4 ++ regBits d ++ 0#1 ++ 3#2 ++ ea.field
  | .divsW ea d => 0x8#4 ++ regBits d ++ 1#1 ++ 3#2 ++ ea.field
  | .sbcd mem y x => 0x8#4 ++ regBits x ++ 1#1 ++ 0#4 ++ bit mem ++ regBits y
  | .orEaDn sz ea d => 0x8#4 ++ regBits d ++ 0#1 ++ sz.std ++ ea.field
  | .orDnEa sz d ea => 0x8#4 ++ regBits d ++ 1#1 ++ sz.std ++ ea.field
  | .subEaDn sz ea d => 0x9#4 ++ regBits d ++ 0#1 ++ sz.std ++ ea.field
  | .subDnEa sz d ea => 0x9#4 ++ regBits d ++ 1#1 ++ sz.std ++ ea.field
  | .suba sz ea a => 0x9#4 ++ regBits a ++ sz.longBit ++ 3#2 ++ ea.field
  | .subx sz mem y x => 0x9#4 ++ regBits x ++ 1#1 ++ sz.std ++ 0#2 ++ bit mem ++ regBits y
  | .cmp sz ea d => 0xB#4 ++ regBits d ++ 0#1 ++ sz.std ++ ea.field
  | .cmpa sz ea a => 0xB#4 ++ regBits a ++ sz.longBit ++ 3#2 ++ ea.field
  | .eor sz d ea => 0xB#4 ++ regBits d ++ 1#1 ++ sz.std ++ ea.field
  | .cmpm sz y x => 0xB#4 ++ regBits x ++ 1#1 ++ sz.std ++ 0#2 ++ 1#1 ++ regBits y
  | .muluW ea d => 0xC#4 ++ regBits d ++ 0#1 ++ 3#2 ++ ea.field
  | .mulsW ea d => 0xC#4 ++ regBits d ++ 1#1 ++ 3#2 ++ ea.field
  | .abcd mem y x => 0xC#4 ++ regBits x ++ 1#1 ++ 0#4 ++ bit mem ++ regBits y
  | .exgDD x y => 0xC#4 ++ regBits x ++ 1#1 ++ 0b01000#5 ++ regBits y
  | .exgAA x y => 0xC#4 ++ regBits x ++ 1#1 ++ 0b01001#5 ++ regBits y
  | .exgDA x y => 0xC#4 ++ regBits x ++ 1#1 ++ 0b10001#5 ++ regBits y
  | .andEaDn sz ea d => 0xC#4 ++ regBits d ++ 0#1 ++ sz.std ++ ea.field
  | .andDnEa sz d ea => 0xC#4 ++ regBits d ++ 1#1 ++ sz.std ++ ea.field
  | .addEaDn sz ea d => 0xD#4 ++ regBits d ++ 0#1 ++ sz.std ++ ea.field
  | .addDnEa sz d ea => 0xD#4 ++ regBits d ++ 1#1 ++ sz.std ++ ea.field
  | .adda sz ea a => 0xD#4 ++ regBits a ++ sz.longBit ++ 3#2 ++ ea.field
  | .addx sz mem y x => 0xD#4 ++ regBits x ++ 1#1 ++ sz.std ++ 0#2 ++ bit mem ++ regBits y
  | .asrReg sz c y => 0xE#4 ++ c.field ++ 0#1 ++ sz.std ++ c.byReg ++ 0#2 ++ regBits y
  | .asrMem ea => 0xE#4 ++ 0#1 ++ 0#2 ++ 0#1 ++ 3#2 ++ ea.field
  | .aslReg sz c y => 0xE#4 ++ c.field ++ 1#1 ++ sz.std ++ c.byReg ++ 0#2 ++ regBits y
  | .aslMem ea => 0xE#4 ++ 0#1 ++ 0#2 ++ 1#1 ++ 3#2 ++ ea.field
  | .lsrReg sz c y => 0xE#4 ++ c.field ++ 0#1 ++ sz.std ++ c.byReg ++ 1#2 ++ regBits y
  | .lsrMem ea => 0xE#4 ++ 0#1 ++ 1#2 ++ 0#1 ++ 3#2 ++ ea.field
  | .lslReg sz c y => 0xE#4 ++ c.field ++ 1#1 ++ sz.std ++ c.byReg ++ 1#2 ++ regBits y
  | .lslMem ea => 0xE#4 ++ 0#1 ++ 1#2 ++ 1#1 ++ 3#2 ++ ea.field
  | .roxrReg sz c y => 0xE#4 ++ c.field ++ 0#1 ++ sz.std ++ c.byReg ++ 2#2 ++ regBits y
  | .roxrMem ea => 0xE#4 ++ 0#1 ++ 2#2 ++ 0#1 ++ 3#2 ++ ea.field
  | .roxlReg sz c y => 0xE#4 ++ c.field ++ 1#1 ++ sz.std ++ c.byReg ++ 2#2 ++ regBits y
  | .roxlMem ea => 0xE#4 ++ 0#1 ++ 2#2 ++ 1#1 ++ 3#2 ++ ea.field
  | .rorReg sz c y => 0xE#4 ++ c.field ++ 0#1 ++ sz.std ++ c.byReg ++ 3#2 ++ regBits y
  | .rorMem ea => 0xE#4 ++ 0#1 ++ 3#2 ++ 0#1 ++ 3#2 ++ ea.field
  | .rolReg sz c y => 0xE#4 ++ c.field ++ 1#1 ++ sz.std ++ c.byReg ++ 3#2 ++ regBits y
  | .rolMem ea => 0xE#4 ++ 0#1 ++ 3#2 ++ 1#1 ++ 3#2 ++ ea.field

/-- The extension words: the instruction's own, the source EA's, the destination EA's (R62). -/
def Instr.extWords : Instr → List Word
  | .oriToCcr imm => [imm.setWidth 16]
  | .oriToSr imm => [imm]
  | .ori sz imm ea => immWords sz imm ++ ea.words sz
  | .andiToCcr imm => [imm.setWidth 16]
  | .andiToSr imm => [imm]
  | .andi sz imm ea => immWords sz imm ++ ea.words sz
  | .subi sz imm ea => immWords sz imm ++ ea.words sz
  | .addi sz imm ea => immWords sz imm ++ ea.words sz
  | .eoriToCcr imm => [imm.setWidth 16]
  | .eoriToSr imm => [imm]
  | .eori sz imm ea => immWords sz imm ++ ea.words sz
  | .cmpi sz imm ea => immWords sz imm ++ ea.words sz
  | .btstImm num ea => num.setWidth 16 :: ea.words .b
  | .bchgImm num ea => num.setWidth 16 :: ea.words .b
  | .bclrImm num ea => num.setWidth 16 :: ea.words .b
  | .bsetImm num ea => num.setWidth 16 :: ea.words .b
  | .btstDn _ ea => ea.words .b
  | .bchgDn _ ea => ea.words .b
  | .bclrDn _ ea => ea.words .b
  | .bsetDn _ ea => ea.words .b
  | .movep _ _ _ _ disp => [disp]
  | .cas sz dc du ea => (0#7 ++ regBits du ++ 0#3 ++ regBits dc) :: ea.words sz
  | .move sz src dst => src.words sz ++ dst.words sz
  | .movea sz src _ => src.words sz
  | .negx sz ea => ea.words sz
  | .moveFromSr ea => ea.words .w
  | .chk ea _ => ea.words .w
  | .lea ea _ => ea.words .l
  | .clr sz ea => ea.words sz
  | .moveFromCcr ea => ea.words .w
  | .neg sz ea => ea.words sz
  | .moveToCcr ea => ea.words .w
  | .not sz ea => ea.words sz
  | .moveToSr ea => ea.words .w
  | .nbcd ea => ea.words .b
  | .swap .. => []
  | .pea ea => ea.words .l
  | .extW .. => []
  | .extL .. => []
  | .movemToMem sz mask ea => mask :: ea.words sz
  | .tst sz ea => ea.words sz
  | .tas ea => ea.words .b
  | .illegal => []
  | .mull signed wide l h ea =>
      (0#1 ++ regBits l ++ bit signed ++ bit wide ++ 0#7 ++ regBits h) :: ea.words .l
  | .divl signed wide l h ea =>
      (0#1 ++ regBits l ++ bit signed ++ bit wide ++ 0#7 ++ regBits h) :: ea.words .l
  | .movemToReg sz mask ea => mask :: ea.words sz
  | .trap .. => []
  | .link _ disp => [disp]
  | .unlk .. => []
  | .moveToUsp .. => []
  | .moveFromUsp .. => []
  | .reset => []
  | .nop => []
  | .stop imm => [imm]
  | .rte => []
  | .rts => []
  | .trapv => []
  | .rtr => []
  | .jsr ea => ea.words .l
  | .jmp ea => ea.words .l
  | .addq _ sz ea => ea.words sz
  | .subq _ sz ea => ea.words sz
  | .scc _ ea => ea.words .b
  | .dbcc _ _ disp => [disp]
  | .trapcc _ o => o.words
  | .bra d => d.words
  | .bsr d => d.words
  | .bcc _ d => d.words
  | .moveq .. => []
  | .divuW ea _ => ea.words .w
  | .divsW ea _ => ea.words .w
  | .sbcd .. => []
  | .orEaDn sz ea _ => ea.words sz
  | .orDnEa sz _ ea => ea.words sz
  | .subEaDn sz ea _ => ea.words sz
  | .subDnEa sz _ ea => ea.words sz
  | .suba sz ea _ => ea.words sz
  | .subx .. => []
  | .cmp sz ea _ => ea.words sz
  | .cmpa sz ea _ => ea.words sz
  | .eor sz _ ea => ea.words sz
  | .cmpm .. => []
  | .muluW ea _ => ea.words .w
  | .mulsW ea _ => ea.words .w
  | .abcd .. => []
  | .exgDD .. => []
  | .exgAA .. => []
  | .exgDA .. => []
  | .andEaDn sz ea _ => ea.words sz
  | .andDnEa sz _ ea => ea.words sz
  | .addEaDn sz ea _ => ea.words sz
  | .addDnEa sz _ ea => ea.words sz
  | .adda sz ea _ => ea.words sz
  | .addx .. => []
  | .asrReg .. => []
  | .asrMem ea => ea.words .w
  | .aslReg .. => []
  | .aslMem ea => ea.words .w
  | .lsrReg .. => []
  | .lsrMem ea => ea.words .w
  | .lslReg .. => []
  | .lslMem ea => ea.words .w
  | .roxrReg .. => []
  | .roxrMem ea => ea.words .w
  | .roxlReg .. => []
  | .roxlMem ea => ea.words .w
  | .rorReg .. => []
  | .rorMem ea => ea.words .w
  | .rolReg .. => []
  | .rolMem ea => ea.words .w

/-- The words of an instruction. -/
def encode (i : Instr) : List Word := i.opcode :: i.extWords

/-! ## Words as spec/opcode_table.json numbers them -/

/-- The `n`-th 16-bit word of a number whose bits count on from the first word's. -/
def tableWord (nbits w n : Nat) : Word := BitVec.ofNat 16 ((w % 2 ^ nbits) >>> (16 * n))

/-- The five words of the longest instruction (R61), the bits above `nbits` zero. -/
def tableWords (nbits w : Nat) : List Word :=
  [tableWord nbits w 0, tableWord nbits w 1, tableWord nbits w 2, tableWord nbits w 3, tableWord nbits w 4]

/-- The big-endian bytes of words. -/
def bytesOfWords : List Word → List Byte
  | [] => []
  | w :: ws => w.extractLsb' 8 8 :: w.extractLsb' 0 8 :: bytesOfWords ws

/-- The instruction the decoder reads from an opcode-table word and operand words of zeros, under the
default parameters (R8). -/
def decodeTableWord (nbits w : Nat) : Option Instr :=
  match decodeBytes Config.Params.default.admitUnnamed (bytesOfWords (tableWords nbits w)) with
  | .ok (i, _) => some i
  | .error _ => none

end Sys2Proof
end

