-- ==== Sys2Proof/Machine/State.lean ====
section
/-! DEFINITION. The machine's state as plain data (10_state.md), the reasons `exec` can stop, and the
state after reset. -/

namespace Sys2Proof.Machine

/-- Every way a step can stop the engine (60_exceptions.md R227).  Each is a NEXT state of the model:
the engine halts and records the kind. -/
inductive HaltKind where
  | unknownOpcode
  /-- a handler that produces no complete result; raised by no rule (R229) -/
  | malformedResult
  | illegalInstruction
  | privilegeViolation
  | divideByZero
  | divideOverflow
  | chkBound
  | trap
  | trapOverflow
  | trapCC
  | programExit
  | stop
  deriving DecidableEq, Repr

/-- Why execution stopped (R226). -/
structure StopRecord where
  kind : HaltKind
  /-- the opcode word of the instruction -/
  opcode : Word
  /-- the address of that word, `opAddr` -/
  faultPC : Long
  /-- the value the rule gives, or none -/
  info : Option Int
  deriving DecidableEq, Repr

/-- The engine's state.  `cfg` holds the parameters of 00_scope.md R8 that have a default [log 1];
`draws` is the model's own count of the draws made [log 3]. -/
structure State where
  /-- D0–D7 (R21) -/
  d : Vector Long 8
  /-- A0–A6 (R23); A7 is `usp` or `ssp` (R24) -/
  a : Vector Long 7
  usp : Long
  ssp : Long
  pc : Long
  /-- SR, the flags its bits (R28, R30) -/
  sr : Word
  running : Bool
  stopRecord : Option StopRecord
  cycles : Nat
  instrCount : Nat
  /-- the count of each mnemonic, in the order of the opcode table (R36) -/
  freq : Vector Nat 110
  /-- the bytes written so far to plain RAM, by rising address (R45) [log 2] -/
  mem : List Host.Cell
  /-- the accesses made so far to a `MEM` that is not plain RAM, oldest first (R42, R51) [log 13] -/
  bus : List Config.Access
  cfg : Config.Params
  draws : Nat
  deriving DecidableEq, Repr

/-- Why `exec` can stop without a next state. -/
inductive Fault where
  /-- `exec` was given a term of `Instr` that is not well formed: no opcode word stands for it, so the
  spec gives it no meaning.  Raised by every meaning through `Machine.handle`, never by `step`.  Safe. -/
  | illFormedInstr
  deriving DecidableEq, Repr

/-- Why `exec` has no meaning for an instruction. -/
inductive Refusal where
  /-- an instruction not modelled yet; raised by the arms of `exec` that say so (none is left).  Safe. -/
  | notModelled (mnemonic : String)
  deriving DecidableEq, Repr

/-- The machine right after `reset`, a new engine (R40, R243, R245), under the default parameters (R8). -/
def State.reset : State :=
  { d := Vector.replicate 8 0
    a := Vector.replicate 7 0
    usp := 0
    ssp := 0
    pc := 0
    sr := Config.Params.default.srDefault &&& 0xA71F
    running := true
    stopRecord := none
    cycles := 0
    instrCount := 0
    freq := Vector.replicate 110 0
    mem := []
    bus := []
    cfg := Config.Params.default
    draws := 0 }

end Sys2Proof.Machine
end

