-- ==== Sys2Proof/Machine/Ops.lean ====
section
/-! DEFINITION. The named operations over bits, registers, memory and the status register, taking an
exception and returning from one. -/

namespace Sys2Proof

/-! ## Bits (00_scope.md R10, R11) -/

/-- `bits(sz)` -/
def Size.bits (sz : Size) : Nat := 8 * sz.bytes

/-- `mask(sz)` -/
def Size.mask : Size → Long
  | .b => 0xFF#32
  | .w => 0xFFFF#32
  | .l => 0xFFFFFFFF#32

/-- `trunc(v, sz)` -/
def trunc : Size → Long → Long
  | .b, v => (v.setWidth 8).setWidth 32
  | .w, v => (v.setWidth 16).setWidth 32
  | .l, v => v

/-- `msb(v, sz)` -/
def msb (sz : Size) (v : Long) : Bool := v.getLsbD (sz.bits - 1)

/-- `sext` of the low `bits(sz)` bits to 32 bits. -/
def sext : Size → Long → Long
  | .b, v => (v.setWidth 8).signExtend 32
  | .w, v => (v.setWidth 16).signExtend 32
  | .l, v => v

/-- `signed` of the low `bits(sz)` bits. -/
def signed (sz : Size) (v : Long) : Int := (sext sz v).toInt

/-- `old` with its low `bits(sz)` bits replaced by those of `v` (10_state.md R22). -/
def mergeLow (sz : Size) (old v : Long) : Long := (old &&& ~~~sz.mask) ||| trunc sz v

namespace Machine

/-! ## Memory (20_memory.md) -/

/-- The byte stored at an address, none where nothing has been written. -/
def Memory.lookup (a : Nat) : List Host.Cell → Option Byte
  | [] => none
  | (k, x) :: m => if k = a then some x else Memory.lookup a m

/-- Store a byte, keeping the addresses strictly rising. -/
def Memory.store (a : Nat) (b : Byte) : List Host.Cell → List Host.Cell
  | [] => [(a, b)]
  | (k, x) :: m =>
    if a < k then (a, b) :: (k, x) :: m
    else if a = k then (a, b) :: m
    else (k, x) :: Memory.store a b m

/-- Addresses strictly rising from `lo` on and below 2^32. -/
def Memory.risingFrom (lo : Nat) : List Host.Cell → Bool
  | [] => true
  | (k, _) :: m => decide (lo ≤ k) && decide (k < 4294967296) && Memory.risingFrom (k + 1) m

/-- The canonical form: an address at most once, in rising order, within the address space (R41).  An
unlisted address holds no byte at all, so no entry can equal what an unlisted address holds. [log 2] -/
def Memory.wf (m : List Host.Cell) : Bool := Memory.risingFrom 0 m

/-- The value of `MEM.readByte` (R42).  Plain RAM gives the last byte written, and a draw where none was
(R45) [log 2]; any other `MEM` answers by the accesses made to it so far [log 13]. -/
def State.readByte (a : Long) (s : State) : Byte :=
  match s.cfg.mem with
  | .ram => (Memory.lookup a.toNat s.mem).getD (Config.initialByte a)
  | .platform => Config.platformByte s.bus a

/-- The effect of reading bytes, in this order, on `MEM`: none on plain RAM (R51). [log 13] -/
def State.noteReads (as : List Long) (s : State) : State :=
  { s with bus := match s.cfg.mem with
      | .ram => s.bus
      | .platform => s.bus ++ as.map Config.Access.read }

/-- `MEM.writeByte` (R42, R45). -/
def State.writeByte (a : Long) (b : Byte) (s : State) : State :=
  { s with
    mem := match s.cfg.mem with
      | .ram => Memory.store a.toNat b s.mem
      | .platform => s.mem
    bus := match s.cfg.mem with
      | .ram => s.bus
      | .platform => s.bus ++ [.write a b] }

/-- The `n` addresses from `a` on, ascending, modulo 2^32 (R43, R48). -/
def span (a : Long) (n : Nat) : List Long := (List.range n).map fun i => a + BitVec.ofNat 32 i

/-- The value of `MemRead(a, sz)`: a big-endian composition of bytes, read in ascending address order,
addresses modulo 2^32 (R43, R48), at any address (R47). -/
def State.memRead (a : Long) (sz : Size) (s : State) : Long :=
  match sz with
  | .b => (s.readByte a).setWidth 32
  | .w => (s.readByte a ++ (s.noteReads [a]).readByte (a + 1)).setWidth 32
  | .l => s.readByte a ++ (s.noteReads [a]).readByte (a + 1) ++ (s.noteReads [a, a + 1]).readByte (a + 2) ++
      (s.noteReads [a, a + 1, a + 2]).readByte (a + 3)

/-- The state after `MemRead(a, sz)` (R43). -/
def State.afterRead (a : Long) (sz : Size) (s : State) : State := s.noteReads (span a sz.bytes)

/-- `MemWrite(a, sz, v)`: the big-endian decomposition, in ascending address order (R44). -/
def State.memWrite (a : Long) (sz : Size) (v : Long) (s : State) : State :=
  match sz with
  | .b => s.writeByte a (v.extractLsb' 0 8)
  | .w => (s.writeByte a (v.extractLsb' 8 8)).writeByte (a + 1) (v.extractLsb' 0 8)
  | .l =>
    (((s.writeByte a (v.extractLsb' 24 8)).writeByte (a + 1) (v.extractLsb' 16 8)).writeByte
      (a + 2) (v.extractLsb' 8 8)).writeByte (a + 3) (v.extractLsb' 0 8)

/-- The word a read at an address gives, the high byte read first (R43). -/
def State.readWord (a : Long) (s : State) : Word := s.readByte a ++ (s.noteReads [a]).readByte (a + 1)

/-! ## The status register (10_state.md R28–R34) -/

def State.flagX (s : State) : Bool := s.sr.getLsbD 4
def State.flagN (s : State) : Bool := s.sr.getLsbD 3
def State.flagZ (s : State) : Bool := s.sr.getLsbD 2
def State.flagV (s : State) : Bool := s.sr.getLsbD 1
def State.flagC (s : State) : Bool := s.sr.getLsbD 0
/-- S, supervisor mode (R34). -/
def State.flagS (s : State) : Bool := s.sr.getLsbD 13

/-- A write of SR: the unimplemented bits stay 0 (R29). -/
def State.setSr (v : Word) (s : State) : State := { s with sr := v &&& 0xA71F#16 }

/-- `CCR`, the low byte of SR (R29). -/
def State.ccr (s : State) : Byte := s.sr.extractLsb' 0 8

/-- A write of CCR: the upper byte of SR stays, bits 7:5 are 0 (R29). -/
def State.setCcr (b : Byte) (s : State) : State :=
  { s with sr := (s.sr &&& 0xFF00#16) ||| (b.setWidth 16 &&& 0x001F#16) }

/-! ## Registers (10_state.md R21–R26) -/

/-- `D[n]` -/
def State.getD (n : Reg) (s : State) : Long := s.d[n]

/-- `D[n] <- v`, all 32 bits. -/
def State.setD (n : Reg) (v : Long) (s : State) : State := { s with d := s.d.set n v }

/-- `D[n].sz <- v` (R22). -/
def State.setDLow (n : Reg) (sz : Size) (v : Long) (s : State) : State :=
  s.setD n (mergeLow sz (s.getD n) v)

/-- `A[n]`: A7 is SSP in supervisor mode and USP in user mode (R24). -/
def State.getA (n : Reg) (s : State) : Long :=
  if h : n.val < 7 then s.a[n.val] else if s.flagS then s.ssp else s.usp

/-- `A[n] <- v`, all 32 bits (R23, R24). -/
def State.setA (n : Reg) (v : Long) (s : State) : State :=
  if h : n.val < 7 then { s with a := s.a.set n.val v }
  else if s.flagS then { s with ssp := v } else { s with usp := v }

/-- `USP <- v` (R25). -/
def State.setUSP (v : Long) (s : State) : State := { s with usp := v }

/-- `PC <- target` (R26). -/
def State.setPC (v : Long) (s : State) : State := { s with pc := v }

/-- `FetchWord()` done `n` times (00_scope.md R14): the words are read at PC, whose advance is modulo 2^32
(R27).  Their values are those the instruction was decoded from (Machine/Fetch.lean). -/
def State.skip (n : Nat) (s : State) : State :=
  { s.noteReads (span s.pc (2 * n)) with pc := s.pc + BitVec.ofNat 32 (2 * n) }

/-- The active stack pointer's number. -/
def sp : Reg := 7

/-- `v <- MemRead(A[7], sz); A[7] <- A[7] + sz` (R211 for longs; 42_control_system.md R120, R123). -/
def State.pop (sz : Size) (s : State) : Long × State :=
  (s.memRead (s.getA sp) sz, (s.afterRead (s.getA sp) sz).setA sp (s.getA sp + BitVec.ofNat 32 sz.bytes))

/-- `Push(v)`, a long (R211). -/
def State.push (v : Long) (s : State) : State :=
  let s := s.setA sp (s.getA sp - 4)
  s.memWrite (s.getA sp) .l v

/-- Entry `i` of MOVEM's register list (43_move.md R143). -/
def State.getListed (i : Fin 16) (s : State) : Long :=
  if h : i.val < 8 then s.getD ⟨i.val, h⟩ else s.getA ⟨i.val - 8, by omega⟩

/-- A write of entry `i` of MOVEM's register list, all 32 bits. -/
def State.setListed (i : Fin 16) (v : Long) (s : State) : State :=
  if h : i.val < 8 then s.setD ⟨i.val, h⟩ v else s.setA ⟨i.val - 8, by omega⟩ v

/-! ## Draws (00_scope.md R17) -/

/-- `draw` for a flag: a free value, a fresh one each time. [log 3] -/
def State.drawFlag (s : State) : Bool × State :=
  (Config.drawFlag s.draws, { s with draws := s.draws + 1 })

/-- `draw` for a byte: a free value, a fresh one each time. [log 3] -/
def State.drawByte (s : State) : Byte × State :=
  (Config.drawByte s.draws, { s with draws := s.draws + 1 })

/-! ## Taking an exception, and returning from one (60_exceptions.md) -/

/-- What a handler is run with beside the state (40_driver.md R89). -/
structure Ctx where
  /-- the opcode word -/
  op : Word
  /-- its address -/
  opAddr : Long
  deriving DecidableEq, Repr

/-- Taking an exception: `Halt(kind, info)` and `Finish(kind, info)` (R225).  The engine stops and
records why (R226).  Everything written so far stays: nothing is pushed, SR and PC are not changed and
no vector is read (R234). -/
def State.halt (c : Ctx) (kind : HaltKind) (info : Option Int) (s : State) : State :=
  { s with running := false
           stopRecord := some { kind := kind, opcode := c.op, faultPC := c.opAddr, info := info } }

/-- `RequireSupervisor()`, before anything else a privileged handler does (R232). -/
def State.requireSupervisor (c : Ctx) (s : State) (k : State → State) : State :=
  if s.flagS then k s else s.halt c .privilegeViolation none

/-- Returning from an exception: pop the SR word, then the PC long, from the stack that is active
before SR is written (42_control_system.md R120). -/
def State.returnFromException (s : State) : State :=
  let (sr, s) := s.pop .w
  let (pc, s) := s.pop .l
  (s.setSr (sr.setWidth 16)).setPC pc

/-- Run the handler of an instruction, with `PC` past the opcode word, so that `opAddr` is `PC - 2`
(00_scope.md R18).  A term that is no instruction is refused by name. [log 8] -/
def handle (i : Instr) (s : State) (h : Ctx → State → State) : Host.Outcome State Fault Refusal :=
  if i.wf then .next (h { op := i.opcode, opAddr := s.pc - 2 } s) else .fault .illFormedInstr

end Machine
end Sys2Proof
end

