-- ==== Sys2Proof/Machine/Flags.lean ====
section
/-! DEFINITION. The condition flags: the condition decoder (10_state.md R35), the arithmetic flag
functions (44_arith.md R150–R152), the logical flags (45_logical.md), and each open flag as a draw. -/

namespace Sys2Proof

/-- The five condition flags (10_state.md R28). -/
structure Flags where
  x : Bool
  n : Bool
  z : Bool
  v : Bool
  c : Bool
  deriving DecidableEq, Repr

/-- The flags as SR bits 4:0. -/
def Flags.bits (f : Flags) : BitVec 5 := bit f.x ++ bit f.n ++ bit f.z ++ bit f.v ++ bit f.c

/-- The truth function of a condition (R35). -/
def Cond.holds (f : Flags) : Cond → Bool
  | .t => true
  | .f => false
  | .hi => !f.c && !f.z
  | .ls => f.c || f.z
  | .cc => !f.c
  | .cs => f.c
  | .ne => !f.z
  | .eq => f.z
  | .vc => !f.v
  | .vs => f.v
  | .pl => !f.n
  | .mi => f.n
  | .ge => f.n == f.v
  | .lt => f.n != f.v
  | .gt => !f.z && (f.n == f.v)
  | .le => f.z || (f.n != f.v)

/-- A result with its carry and overflow, `(res, c, v)` of R150 and R151. -/
structure Sum where
  res : Long
  c : Bool
  v : Bool
  deriving DecidableEq, Repr

/-- `Add(d, s, x, sz)` (44_arith.md R150). -/
def add (sz : Size) (d s : Long) (x : Bool) : Sum :=
  let full := d.toNat + s.toNat + x.toNat
  let res := trunc sz (BitVec.ofNat 32 full)
  { res := res, c := decide (2 ^ sz.bits ≤ full), v := msb sz ((s ^^^ res) &&& (d ^^^ res)) }

/-- `Sub(d, s, x, sz)` = `d - s - x` (44_arith.md R151). -/
def sub (sz : Size) (d s : Long) (x : Bool) : Sum :=
  let res := trunc sz (d - s - BitVec.ofNat 32 x.toNat)
  { res := res, c := decide (d.toNat < s.toNat + x.toNat), v := msb sz ((s ^^^ d) &&& (res ^^^ d)) }

namespace Machine

/-- The flags held in SR (R30). -/
def State.flags (s : State) : Flags :=
  { x := s.flagX, n := s.flagN, z := s.flagZ, v := s.flagV, c := s.flagC }

/-- Write the five flags; the other bits of SR stay. -/
def State.setFlags (f : Flags) (s : State) : State :=
  { s with sr := (s.sr &&& 0xFFE0#16) ||| f.bits.setWidth 16 }

/-- `Cond(cc)` -/
def State.cond (c : Cond) (s : State) : Bool := c.holds s.flags

/-- `ArithFlags` (R152) -/
def arithFlags (sz : Size) (r : Sum) : Flags :=
  { x := r.c, n := msb sz r.res, z := r.res == 0, v := r.v, c := r.c }

/-- `XFlags` (R152): Z is only cleared. -/
def xFlags (sz : Size) (r : Sum) (f : Flags) : Flags :=
  { x := r.c, n := msb sz r.res, z := if r.res == 0 then f.z else false, v := r.v, c := r.c }

/-- `CmpFlags` (R152): X unchanged. -/
def cmpFlags (sz : Size) (r : Sum) (f : Flags) : Flags :=
  { x := f.x, n := msb sz r.res, z := r.res == 0, v := r.v, c := r.c }

/-- `LogicFlags(v, sz)` (45_logical.md, 43_move.md): X unchanged. -/
def logicFlags (sz : Size) (v : Long) (f : Flags) : Flags :=
  { x := f.x, n := msb sz v, z := trunc sz v == 0, v := false, c := false }

def State.setArith (sz : Size) (r : Sum) (s : State) : State := s.setFlags (arithFlags sz r)
def State.setX (sz : Size) (r : Sum) (s : State) : State := s.setFlags (xFlags sz r s.flags)
def State.setCmp (sz : Size) (r : Sum) (s : State) : State := s.setFlags (cmpFlags sz r s.flags)
def State.setLogic (sz : Size) (v : Long) (s : State) : State := s.setFlags (logicFlags sz v s.flags)

/-- Draw N (R17). -/
def State.drawN (s : State) : State :=
  let (b, s) := s.drawFlag
  s.setFlags { s.flags with n := b }

/-- Draw Z (R17). -/
def State.drawZ (s : State) : State :=
  let (b, s) := s.drawFlag
  s.setFlags { s.flags with z := b }

/-- Draw V (R17). -/
def State.drawV (s : State) : State :=
  let (b, s) := s.drawFlag
  s.setFlags { s.flags with v := b }

/-- Draw C (R17). -/
def State.drawC (s : State) : State :=
  let (b, s) := s.drawFlag
  s.setFlags { s.flags with c := b }

end Machine
end Sys2Proof
end

