-- ==== Sys2Proof/Machine/Operands.lean ====
section
/-! DEFINITION. Effective-address resolution and operand access (41_addressing.md). -/

namespace Sys2Proof.Machine

/-- A location (R105). -/
inductive Loc where
  | dreg (n : Reg)
  | areg (n : Reg)
  | mem (a : Long)
  | imm (v : Long)
  deriving DecidableEq, Repr

/-- `Step(reg, sz)` (R107). -/
def State.stepSize (n : Reg) (sz : Size) (s : State) : Long :=
  match sz with
  | .b => if n = sp then (match s.cfg.a7ByteStep with
      | .one => 1#32
      | .two => 2#32) else 1#32
  | .w => 2#32
  | .l => 4#32

/-- The index register's value and the displacement of `Index(base, w)` (R108). -/
def State.indexed (base : Long) (x : Index) (s : State) : Long :=
  let r := if x.isAddr then s.getA x.reg else s.getD x.reg
  base + x.disp.signExtend 32 + (if x.long then r else sext .w r)

/-- The words an immediate of a size takes (30_encoding.md R64). -/
def immLen : Size → Nat
  | .b => 1
  | .w => 1
  | .l => 2

/-- `Resolve(mode, reg, sz)` (R106): the location, and the state after the register updates of (An)+
and -(An) and the fetch of the EA's extension words.  A PC-relative base is the address of the
extension word (R109). -/
def State.resolve (e : EA) (sz : Size) (s : State) : Loc × State :=
  match e with
  | .dn n => (.dreg n, s)
  | .an n => (.areg n, s)
  | .ind n => (.mem (s.getA n), s)
  | .postInc n => (.mem (s.getA n), s.setA n (s.getA n + s.stepSize n sz))
  | .preDec n => (.mem (s.getA n - s.stepSize n sz), s.setA n (s.getA n - s.stepSize n sz))
  | .disp n d => (.mem (s.getA n + d.signExtend 32), s.skip 1)
  | .index n x => (.mem (s.indexed (s.getA n) x), s.skip 1)
  | .absW a => (.mem (a.signExtend 32), s.skip 1)
  | .absL a => (.mem a, s.skip 2)
  | .pcDisp d => (.mem (s.pc + d.signExtend 32), s.skip 1)
  | .pcIndex x => (.mem (s.indexed s.pc x), s.skip 1)
  | .imm v => (.imm v, s.skip (immLen sz))

/-- The value of `ReadEA(loc, sz)` (R112).  A byte is never read from an address register: no class admits it (R66). -/
def State.readEA (l : Loc) (sz : Size) (s : State) : Long :=
  match l with
  | .dreg n => trunc sz (s.getD n)
  | .areg n => trunc sz (s.getA n)
  | .mem a => s.memRead a sz
  | .imm v => trunc sz v

/-- The bytes `ReadEA(loc, sz)` reads, in order: none but of memory (R43, R112). -/
def Loc.readAddrs (sz : Size) : Loc → List Long
  | .mem a => span a sz.bytes
  | .dreg _ => []
  | .areg _ => []
  | .imm _ => []

/-- The state after `ReadEA(loc, sz)` (R112). -/
def State.afterReadEA (l : Loc) (sz : Size) (s : State) : State := s.noteReads (l.readAddrs sz)

/-- `WriteEA(loc, sz, v)` (R113).  An immediate is never written: no admitted encoding has one as a
destination, and `handle` lets no other term through. [log 8] -/
def State.writeEA (l : Loc) (sz : Size) (v : Long) (s : State) : State :=
  match l with
  | .dreg n => s.setDLow n sz v
  | .areg n => s.setA n v
  | .mem a => s.memWrite a sz v
  | .imm _ => s

/-- Resolve a source and read it: the value, and the state after. -/
def State.fetchEA (e : EA) (sz : Size) (s : State) : Long × State :=
  let (l, s) := s.resolve e sz
  (s.readEA l sz, s.afterReadEA l sz)

/-- The address of a control EA, whose data is not read (R116): `Mem(a) <- Resolve(m, r, 4)`.  A control
class admits no other location (R66). [log 8] -/
def State.addressOf (e : EA) (sz : Size) (s : State) : Long × State :=
  match s.resolve e sz with
  | (.mem a, s) => (a, s)
  | (_, s) => (0, s)

/-- Read a destination, write the result of `f` and set flags (R114): the EA is resolved once. -/
def State.modify (l : Loc) (sz : Size) (f : Long → State → Long × State) (s : State) : State :=
  let (v, s) := f (s.readEA l sz) (s.afterReadEA l sz)
  s.writeEA l sz v

end Sys2Proof.Machine
end

