-- ==== Sys2Proof/Machine/Arith.lean ====
section
/-! DEFINITION. The meanings of 44_arith.md: integer arithmetic, compare, multiply and divide. -/

namespace Sys2Proof.Machine

/-! ## Shared operations -/

/-- How a two-operand instruction makes its result from the destination, the source and X. -/
abbrev SumOp := Size → Long → Long → Bool → Sum

/-- Read a location, combine it with a source, write it back, set X N Z V C (R152). -/
def State.sumInto (op : SumOp) (sz : Size) (l : Loc) (src : Long) (s : State) : State :=
  s.modify l sz fun d s =>
    let r := op sz d src false
    (r.res, s.setArith sz r)

/-- The same with X as the carry-in, Z only cleared (R152). -/
def State.sumXInto (op : SumOp) (sz : Size) (l : Loc) (src : Long) (s : State) : State :=
  s.modify l sz fun d s =>
    let r := op sz d src s.flagX
    (r.res, s.setX sz r)

/-- The form `<ea>,Dn` (R153). -/
def State.sumEaDn (op : SumOp) (sz : Size) (ea : EA) (d : Reg) (s : State) : State :=
  let (v, s) := s.fetchEA ea sz
  s.sumInto op sz (.dreg d) v

/-- The form `Dn,<ea>` (R153). -/
def State.sumDnEa (op : SumOp) (sz : Size) (d : Reg) (ea : EA) (s : State) : State :=
  let (l, s) := s.resolve ea sz
  s.sumInto op sz l (trunc sz (s.getD d))

/-- The immediate form; the immediate's words come before the EA's (R155). -/
def State.sumImm (op : SumOp) (sz : Size) (imm : Long) (ea : EA) (s : State) : State :=
  let s := s.skip (immLen sz)
  let (l, s) := s.resolve ea sz
  s.sumInto op sz l imm

/-- The data of ADDQ and SUBQ: 0 means 8 (R156). -/
def quickData (q : BitVec 3) : Long := if q = 0#3 then 8#32 else q.setWidth 32

/-- The operands of ADDX and SUBX: the source's value and the destination's location; in the memory form
the source's predecrement comes first (R157). -/
def State.pairOperands (sz : Size) (mem : Bool) (y x : Reg) (s : State) : Long × Loc × State :=
  if mem then
    let (v, s) := s.fetchEA (.preDec y) sz
    let (l, s) := s.resolve (.preDec x) sz
    (v, l, s)
  else (trunc sz (s.getD y), .dreg x, s)

/-- ADDX and SUBX (R157, R162). -/
def State.sumPair (op : SumOp) (sz : Size) (mem : Bool) (y x : Reg) (s : State) : State :=
  let (v, l, s) := s.pairOperands sz mem y x
  s.sumXInto op sz l v

/-! ## Addition -/

/-- ADD `<ea>`,Dn (R153). -/
def execAddEaDn (sz : Size) (ea : EA) (d : Reg) (s : State) : Host.Outcome State Fault Refusal :=
  handle (.addEaDn sz ea d) s fun _ s => s.sumEaDn add sz ea d

/-- ADD Dn,`<ea>` (R153). -/
def execAddDnEa (sz : Size) (d : Reg) (ea : EA) (s : State) : Host.Outcome State Fault Refusal :=
  handle (.addDnEa sz d ea) s fun _ s => s.sumDnEa add sz d ea

/-- ADDA (R154). -/
def execAdda (sz : Size) (ea : EA) (a : Reg) (s : State) : Host.Outcome State Fault Refusal :=
  handle (.adda sz ea a) s fun _ s =>
    let (v, s) := s.fetchEA ea sz
    s.setA a (s.getA a + sext sz v)

/-- ADDI (R155). -/
def execAddi (sz : Size) (imm : Long) (ea : EA) (s : State) : Host.Outcome State Fault Refusal :=
  handle (.addi sz imm ea) s fun _ s => s.sumImm add sz imm ea

/-- ADDQ (R156): to an address register, all 32 bits and no flags. -/
def execAddq (q : BitVec 3) (sz : Size) (ea : EA) (s : State) : Host.Outcome State Fault Refusal :=
  handle (.addq q sz ea) s fun _ s =>
    match ea with
    | .an n => s.setA n (s.getA n + quickData q)
    | ea =>
      let (l, s) := s.resolve ea sz
      s.sumInto add sz l (quickData q)

/-- ADDX (R157). -/
def execAddx (sz : Size) (mem : Bool) (y x : Reg) (s : State) : Host.Outcome State Fault Refusal :=
  handle (.addx sz mem y x) s fun _ s => s.sumPair add sz mem y x

/-! ## Subtraction -/

/-- SUB `<ea>`,Dn (R158). -/
def execSubEaDn (sz : Size) (ea : EA) (d : Reg) (s : State) : Host.Outcome State Fault Refusal :=
  handle (.subEaDn sz ea d) s fun _ s => s.sumEaDn sub sz ea d

/-- SUB Dn,`<ea>` (R158). -/
def execSubDnEa (sz : Size) (d : Reg) (ea : EA) (s : State) : Host.Outcome State Fault Refusal :=
  handle (.subDnEa sz d ea) s fun _ s => s.sumDnEa sub sz d ea

/-- SUBA (R159). -/
def execSuba (sz : Size) (ea : EA) (a : Reg) (s : State) : Host.Outcome State Fault Refusal :=
  handle (.suba sz ea a) s fun _ s =>
    let (v, s) := s.fetchEA ea sz
    s.setA a (s.getA a - sext sz v)

/-- SUBI (R160). -/
def execSubi (sz : Size) (imm : Long) (ea : EA) (s : State) : Host.Outcome State Fault Refusal :=
  handle (.subi sz imm ea) s fun _ s => s.sumImm sub sz imm ea

/-- SUBQ (R161): from an address register, all 32 bits and no flags. -/
def execSubq (q : BitVec 3) (sz : Size) (ea : EA) (s : State) : Host.Outcome State Fault Refusal :=
  handle (.subq q sz ea) s fun _ s =>
    match ea with
    | .an n => s.setA n (s.getA n - quickData q)
    | ea =>
      let (l, s) := s.resolve ea sz
      s.sumInto sub sz l (quickData q)

/-- SUBX (R162). -/
def execSubx (sz : Size) (mem : Bool) (y x : Reg) (s : State) : Host.Outcome State Fault Refusal :=
  handle (.subx sz mem y x) s fun _ s => s.sumPair sub sz mem y x

/-- NEG (R163): `0 - d`. -/
def execNeg (sz : Size) (ea : EA) (s : State) : Host.Outcome State Fault Refusal :=
  handle (.neg sz ea) s fun _ s =>
    let (l, s) := s.resolve ea sz
    s.sumInto (fun sz d src x => sub sz src d x) sz l 0

/-- NEGX (R164): `0 - d - X`. -/
def execNegx (sz : Size) (ea : EA) (s : State) : Host.Outcome State Fault Refusal :=
  handle (.negx sz ea) s fun _ s =>
    let (l, s) := s.resolve ea sz
    s.sumXInto (fun sz d src x => sub sz src d x) sz l 0

/-! ## Compare -/

/-- CMP (R165). -/
def execCmp (sz : Size) (ea : EA) (d : Reg) (s : State) : Host.Outcome State Fault Refusal :=
  handle (.cmp sz ea d) s fun _ s =>
    let (v, s) := s.fetchEA ea sz
    s.setCmp sz (sub sz (trunc sz (s.getD d)) v false)

/-- CMPA (R166): at 32 bits. -/
def execCmpa (sz : Size) (ea : EA) (a : Reg) (s : State) : Host.Outcome State Fault Refusal :=
  handle (.cmpa sz ea a) s fun _ s =>
    let (v, s) := s.fetchEA ea sz
    s.setCmp .l (sub .l (s.getA a) (sext sz v) false)

/-- CMPI (R167). -/
def execCmpi (sz : Size) (imm : Long) (ea : EA) (s : State) : Host.Outcome State Fault Refusal :=
  handle (.cmpi sz imm ea) s fun _ s =>
    let (v, s) := (s.skip (immLen sz)).fetchEA ea sz
    s.setCmp sz (sub sz v imm false)

/-- CMPM (R168). -/
def execCmpm (sz : Size) (y x : Reg) (s : State) : Host.Outcome State Fault Refusal :=
  handle (.cmpm sz y x) s fun _ s =>
    let (v, s) := s.fetchEA (.postInc y) sz
    let (d, s) := s.fetchEA (.postInc x) sz
    s.setCmp sz (sub sz d v false)

/-! ## Multiply -/

/-- Write a 32-bit product and its flags (R169, R170). -/
def State.setProduct (d : Reg) (p : Int) (s : State) : State :=
  let v := BitVec.ofInt 32 p
  (s.setD d v).setFlags { s.flags with n := v.getLsbD 31, z := p == 0, v := false, c := false }

/-- MULU.W (R169). -/
def execMuluW (ea : EA) (d : Reg) (s : State) : Host.Outcome State Fault Refusal :=
  handle (.muluW ea d) s fun _ s =>
    let (v, s) := s.fetchEA ea .w
    s.setProduct d ((trunc .w (s.getD d)).toNat * v.toNat : Nat)

/-- MULS.W (R170). -/
def execMulsW (ea : EA) (d : Reg) (s : State) : Host.Outcome State Fault Refusal :=
  handle (.mulsW ea d) s fun _ s =>
    let (v, s) := s.fetchEA ea .w
    s.setProduct d (signed .w (s.getD d) * signed .w v)

/-- `HighReg(l, f)` (R171). -/
def State.highReg (l f : Reg) (s : State) : Reg :=
  match s.cfg.mullHighReg with
  | .nextHigher => l + 1
  | .extField => f

/-- A long as the integer it stands for, signed or unsigned. -/
def longValue (signed : Bool) (v : Long) : Int := if signed then v.toInt else (v.toNat : Int)

/-- MULU.L and MULS.L (R171). -/
def execMull (signed wide : Bool) (l h : Reg) (ea : EA) (s : State) : Host.Outcome State Fault Refusal :=
  handle (.mull signed wide l h ea) s fun _ s =>
    let (v, s) := (s.skip 1).fetchEA ea .l
    let p := longValue signed (s.getD l) * longValue signed v
    if wide then
      let q := BitVec.ofInt 64 p
      let s := (s.setD (s.highReg l h) (q.extractLsb' 32 32)).setD l (q.extractLsb' 0 32)
      s.setFlags { s.flags with n := q.getLsbD 63, z := p == 0, v := false, c := false }
    else
      let q := BitVec.ofInt 32 p
      let s := s.setD l q
      let v := if signed then p != q.toInt else decide (4294967296 ≤ p)
      s.setFlags { s.flags with n := q.getLsbD 31, z := q == 0, v := v, c := false }

/-! ## Divide -/

/-- A zero divisor (R173): C = 0, the other flags drawn, and the halt. -/
def State.divideByZero (c : Ctx) (s : State) : State :=
  (s.setFlags { s.flags with c := false }).drawN.drawZ.drawV.halt c .divideByZero none

/-- A quotient that does not fit (R173): V = 1, C = 0, N and Z drawn, and the halt. -/
def State.divideOverflow (c : Ctx) (s : State) : State :=
  (s.setFlags { s.flags with v := true, c := false }).drawN.drawZ.halt c .divideOverflow none

/-- A word division (R172–R174): quotients from `lo` to `hi` fit.  `Int.tdiv` truncates toward zero and
`Int.tmod` has the sign of the dividend (R11, R172). -/
def State.divideWord (c : Ctx) (d : Reg) (dividend divisor lo hi : Int) (s : State) : State :=
  if divisor = 0 then s.divideByZero c
  else
    let q := dividend.tdiv divisor
    let rm := dividend.tmod divisor
    if q < lo ∨ hi < q then s.divideOverflow c
    else
      let qw := BitVec.ofInt 16 q
      (s.setD d (BitVec.ofInt 16 rm ++ qw)).setFlags
        { s.flags with n := qw.getLsbD 15, z := q == 0, v := false, c := false }

/-- DIVU.W (R173). -/
def execDivuW (ea : EA) (d : Reg) (s : State) : Host.Outcome State Fault Refusal :=
  handle (.divuW ea d) s fun c s =>
    let (v, s) := s.fetchEA ea .w
    s.divideWord c d ((s.getD d).toNat : Int) (v.toNat : Int) 0 65535

/-- DIVS.W (R174). -/
def execDivsW (ea : EA) (d : Reg) (s : State) : Host.Outcome State Fault Refusal :=
  handle (.divsW ea d) s fun c s =>
    let (v, s) := s.fetchEA ea .w
    s.divideWord c d (s.getD d).toInt (signed .w v) (-32768) 32767

/-- The dividend of DIVx.L and the register of its remainder (R175). -/
def State.longDividend (signed wide : Bool) (q r : Reg) (s : State) : Int × Reg :=
  if wide then
    let h := s.highReg q r
    let dd : BitVec 64 := s.getD h ++ s.getD q
    (if signed then dd.toInt else (dd.toNat : Int), h)
  else (longValue signed (s.getD q), r)

/-- Whether a quotient fits 32 bits (R175). -/
def fitsLong (signed : Bool) (q : Int) : Bool :=
  if signed then decide (-2147483648 ≤ q) && decide (q < 2147483648) else decide (q < 4294967296)

/-- DIVU.L and DIVS.L (R175). -/
def execDivl (signed wide : Bool) (q r : Reg) (ea : EA) (s : State) : Host.Outcome State Fault Refusal :=
  handle (.divl signed wide q r ea) s fun c s =>
    let (v, s) := (s.skip 1).fetchEA ea .l
    let divisor := longValue signed v
    if divisor = 0 then s.divideByZero c
    else
      let (dividend, h) := s.longDividend signed wide q r
      let quo := dividend.tdiv divisor
      let rm := dividend.tmod divisor
      if !fitsLong signed quo then s.divideOverflow c
      else
        let ql := BitVec.ofInt 32 quo
        let s := if wide || h != q then s.setD h (BitVec.ofInt 32 rm) else s
        let s := s.setD q ql
        s.setFlags { s.flags with n := ql.getLsbD 31, z := ql == 0, v := false, c := false }

end Sys2Proof.Machine
end

