-- ==== Sys2Proof/Machine/Bcd.lean ====
section
/-! DEFINITION. The meanings of 48_bcd.md: binary-coded decimal. -/

namespace Sys2Proof.Machine

/-- `Dec(b)` (R206). -/
def bcdValue (b : Long) : Int := ((b.extractLsb' 4 4).toNat * 10 + (b.extractLsb' 0 4).toNat : Nat)

/-- `Pack(v)` for 0 to 99 (R206). -/
def bcdPack (v : Nat) : Long := BitVec.ofNat 32 (v / 10 * 16 + v % 10)

/-- `Correct(v)` (R206). -/
def bcdCorrect (v : Int) : Int × Bool :=
  if 99 < v then (v - 100, true) else if v < 0 then (v + 100, true) else (v, false)

/-- The result byte of `BcdResult` (R206): a draw where the corrected value is outside 0–99, which
only digits above 9 can bring about. -/
def State.bcdByte (v : Int) (s : State) : Long × State :=
  if 0 ≤ v ∧ v ≤ 99 then (bcdPack v.toNat, s)
  else
    let (b, s) := s.drawByte
    (b.setWidth 32, s)

/-- `BcdResult(v)` (R206): the result, and the state with X, C, Z and the drawn N and V. -/
def State.bcdResult (v : Int) (s : State) : Long × State :=
  let (v', carry) := bcdCorrect v
  let (res, s) := s.bcdByte v'
  let f := s.flags
  let s := s.setFlags { f with x := carry, c := carry, z := if res == 0 then f.z else false }
  (res, s.drawN.drawV)

/-- The operands of ABCD and SBCD (R207): the source's byte and the destination's location. -/
def State.bcdOperands (mem : Bool) (y x : Reg) (s : State) : Long × Loc × State :=
  if mem then
    let (v, s) := s.fetchEA (.preDec y) .b
    let (l, s) := s.resolve (.preDec x) .b
    (v, l, s)
  else (trunc .b (s.getD y), .dreg x, s)

/-- The X flag as a number. -/
def State.xValue (s : State) : Int := if s.flagX then 1 else 0

/-- ABCD (R208). -/
def execAbcd (mem : Bool) (y x : Reg) (s : State) : Host.Outcome State Fault Refusal :=
  handle (.abcd mem y x) s fun _ s =>
    let (v, l, s) := s.bcdOperands mem y x
    s.modify l .b fun d s => s.bcdResult (bcdValue v + bcdValue d + s.xValue)

/-- SBCD (R209). -/
def execSbcd (mem : Bool) (y x : Reg) (s : State) : Host.Outcome State Fault Refusal :=
  handle (.sbcd mem y x) s fun _ s =>
    let (v, l, s) := s.bcdOperands mem y x
    s.modify l .b fun d s => s.bcdResult (bcdValue d - bcdValue v - s.xValue)

/-- NBCD (R210). -/
def execNbcd (ea : EA) (s : State) : Host.Outcome State Fault Refusal :=
  handle (.nbcd ea) s fun _ s =>
    let (l, s) := s.resolve ea .b
    s.modify l .b fun d s => s.bcdResult (0 - bcdValue d - s.xValue)

end Sys2Proof.Machine
end

