-- ==== Sys2Proof/Machine/Bit.lean ====
section
/-! DEFINITION. The meanings of 47_bit.md: bit manipulation. -/

namespace Sys2Proof.Machine

/-- The operation `tt` of R199. -/
inductive BitOp where
  | tst
  | chg
  | clr
  | set
  deriving DecidableEq, Repr

/-- Test bit `b` of a location into Z and change it (R200). -/
def State.bitAt (op : BitOp) (l : Loc) (sz : Size) (b : Nat) (s : State) : State :=
  let v := s.readEA l sz
  let s := (s.afterReadEA l sz).setFlags { s.flags with z := !v.getLsbD b }
  match op with
  | .tst => s
  | .chg => s.writeEA l sz (v ^^^ (1#32 <<< b))
  | .clr => s.writeEA l sz (v &&& ~~~(1#32 <<< b))
  | .set => s.writeEA l sz (v ||| (1#32 <<< b))

/-- A data register is a long target, its bit number modulo 32; any other target is a byte, modulo 8 (R200). -/
def State.bitOp (op : BitOp) (num : Nat) (ea : EA) (s : State) : State :=
  match ea with
  | .dn r => s.bitAt op (.dreg r) .l (num % 32)
  | ea =>
    let (l, s) := s.resolve ea .b
    s.bitAt op l .b (num % 8)

/-- The static form: the bit-number word comes before the EA's words (R199, R200). -/
def State.bitStatic (op : BitOp) (num : Byte) (ea : EA) (s : State) : State :=
  (s.skip 1).bitOp op num.toNat ea

/-- The dynamic form: the bit number is a data register (R199, R200). -/
def State.bitDynamic (op : BitOp) (d : Reg) (ea : EA) (s : State) : State :=
  s.bitOp op (s.getD d).toNat ea

/-- BTST #imm (R202). -/
def execBtstImm (num : Byte) (ea : EA) (s : State) : Host.Outcome State Fault Refusal :=
  handle (.btstImm num ea) s fun _ s => s.bitStatic .tst num ea

/-- BCHG #imm (R203). -/
def execBchgImm (num : Byte) (ea : EA) (s : State) : Host.Outcome State Fault Refusal :=
  handle (.bchgImm num ea) s fun _ s => s.bitStatic .chg num ea

/-- BCLR #imm (R204). -/
def execBclrImm (num : Byte) (ea : EA) (s : State) : Host.Outcome State Fault Refusal :=
  handle (.bclrImm num ea) s fun _ s => s.bitStatic .clr num ea

/-- BSET #imm (R205). -/
def execBsetImm (num : Byte) (ea : EA) (s : State) : Host.Outcome State Fault Refusal :=
  handle (.bsetImm num ea) s fun _ s => s.bitStatic .set num ea

/-- BTST Dn (R202). -/
def execBtstDn (d : Reg) (ea : EA) (s : State) : Host.Outcome State Fault Refusal :=
  handle (.btstDn d ea) s fun _ s => s.bitDynamic .tst d ea

/-- BCHG Dn (R203). -/
def execBchgDn (d : Reg) (ea : EA) (s : State) : Host.Outcome State Fault Refusal :=
  handle (.bchgDn d ea) s fun _ s => s.bitDynamic .chg d ea

/-- BCLR Dn (R204). -/
def execBclrDn (d : Reg) (ea : EA) (s : State) : Host.Outcome State Fault Refusal :=
  handle (.bclrDn d ea) s fun _ s => s.bitDynamic .clr d ea

/-- BSET Dn (R205). -/
def execBsetDn (d : Reg) (ea : EA) (s : State) : Host.Outcome State Fault Refusal :=
  handle (.bsetDn d ea) s fun _ s => s.bitDynamic .set d ea

end Sys2Proof.Machine
end

