-- ==== Sys2Proof/Machine/Branch.lean ====
section
/-! DEFINITION. The meanings of 49_branch.md: branches, jumps, subroutine linkage and the conditional
instructions. -/

namespace Sys2Proof.Machine

/-! ## Branches -/

/-- `BranchTarget(op)` (R212): relative to the address after the opcode word; the displacement word is
fetched whether or not the branch is taken. -/
def State.branchTarget (disp : BranchDisp) (s : State) : Long × State :=
  match disp with
  | .byte k => (s.pc + k.signExtend 32, s)
  | .word d => (s.pc + d.signExtend 32, s.skip 1)

/-- BRA (R213). -/
def execBra (disp : BranchDisp) (s : State) : Host.Outcome State Fault Refusal :=
  handle (.bra disp) s fun _ s =>
    let (t, s) := s.branchTarget disp
    s.setPC t

/-- BSR (R214). -/
def execBsr (disp : BranchDisp) (s : State) : Host.Outcome State Fault Refusal :=
  handle (.bsr disp) s fun _ s =>
    let (t, s) := s.branchTarget disp
    (s.push s.pc).setPC t

/-- Bcc (R215). -/
def execBcc (c : Cond) (disp : BranchDisp) (s : State) : Host.Outcome State Fault Refusal :=
  handle (.bcc c disp) s fun _ s =>
    let (t, s) := s.branchTarget disp
    if s.cond c then s.setPC t else s

/-- DBcc (R216). -/
def execDbcc (c : Cond) (d : Reg) (disp : Word) (s : State) : Host.Outcome State Fault Refusal :=
  handle (.dbcc c d disp) s fun _ s =>
    let t := s.pc + disp.signExtend 32
    let s := s.skip 1
    if s.cond c then s
    else
      let cnt := trunc .w (s.getD d - 1)
      let s := s.setDLow d .w cnt
      if cnt = 0xFFFF#32 then s else s.setPC t

/-- Scc (R217); the operand is not read. -/
def execScc (c : Cond) (ea : EA) (s : State) : Host.Outcome State Fault Refusal :=
  handle (.scc c ea) s fun _ s =>
    let (l, s) := s.resolve ea .b
    s.writeEA l .b (if s.cond c then 0xFF#32 else 0#32)

/-- The words of TRAPcc's operand. -/
def trapOperandLen : TrapOperand → Nat
  | .none => 0
  | .word _ => 1
  | .long _ => 2

/-- TRAPcc (R218): the operand is passed over. -/
def execTrapcc (c : Cond) (opnd : TrapOperand) (s : State) : Host.Outcome State Fault Refusal :=
  handle (.trapcc c opnd) s fun cx s =>
    let s := s.skip (trapOperandLen opnd)
    if s.cond c then s.halt cx .trapCC none else s

/-! ## Jumps and addresses -/

/-- JMP (R219). -/
def execJmp (ea : EA) (s : State) : Host.Outcome State Fault Refusal :=
  handle (.jmp ea) s fun _ s =>
    let (a, s) := s.addressOf ea .l
    s.setPC a

/-- JSR (R220): the target is resolved before the push. -/
def execJsr (ea : EA) (s : State) : Host.Outcome State Fault Refusal :=
  handle (.jsr ea) s fun _ s =>
    let (a, s) := s.addressOf ea .l
    (s.push s.pc).setPC a

/-- LEA (R221). -/
def execLea (ea : EA) (a : Reg) (s : State) : Host.Outcome State Fault Refusal :=
  handle (.lea ea a) s fun _ s =>
    let (v, s) := s.addressOf ea .l
    s.setA a v

/-- PEA (R222): the address is computed before the push. -/
def execPea (ea : EA) (s : State) : Host.Outcome State Fault Refusal :=
  handle (.pea ea) s fun _ s =>
    let (v, s) := s.addressOf ea .l
    s.push v

/-! ## Stack frames -/

/-- LINK (R223): for A7 the decremented A7 is pushed. -/
def execLink (a : Reg) (disp : Word) (s : State) : Host.Outcome State Fault Refusal :=
  handle (.link a disp) s fun _ s =>
    let s := s.skip 1
    let s := s.setA sp (s.getA sp - 4)
    let s := s.memWrite (s.getA sp) .l (s.getA a)
    let s := s.setA a (s.getA sp)
    s.setA sp (s.getA sp + disp.signExtend 32)

/-- UNLK (R224): for A7 the popped long is the final A7. -/
def execUnlk (a : Reg) (s : State) : Host.Outcome State Fault Refusal :=
  handle (.unlk a) s fun _ s =>
    let s := s.setA sp (s.getA a)
    let (v, s) := s.pop .l
    s.setA a v

end Sys2Proof.Machine
end

