-- ==== Sys2Proof/Machine/Logic.lean ====
section
/-! DEFINITION. The meanings of 45_logical.md: logical operations, test and test-and-set. -/

namespace Sys2Proof.Machine

/-! ## Shared operations (R176) -/

/-- Read a location, combine it with a source, write it back, set the logical flags. -/
def State.logicInto (op : Long → Long → Long) (sz : Size) (l : Loc) (src : Long) (s : State) : State :=
  s.modify l sz fun d s =>
    let r := trunc sz (op d src)
    (r, s.setLogic sz r)

/-- The form `<ea>,Dn`. -/
def State.logicEaDn (op : Long → Long → Long) (sz : Size) (ea : EA) (d : Reg) (s : State) : State :=
  let (v, s) := s.fetchEA ea sz
  s.logicInto op sz (.dreg d) v

/-- The form `Dn,<ea>`. -/
def State.logicDnEa (op : Long → Long → Long) (sz : Size) (d : Reg) (ea : EA) (s : State) : State :=
  let (l, s) := s.resolve ea sz
  s.logicInto op sz l (trunc sz (s.getD d))

/-- The immediate form. -/
def State.logicImm (op : Long → Long → Long) (sz : Size) (imm : Long) (ea : EA) (s : State) : State :=
  let s := s.skip (immLen sz)
  let (l, s) := s.resolve ea sz
  s.logicInto op sz l imm

/-! ## Instructions -/

/-- AND `<ea>`,Dn (R177). -/
def execAndEaDn (sz : Size) (ea : EA) (d : Reg) (s : State) : Host.Outcome State Fault Refusal :=
  handle (.andEaDn sz ea d) s fun _ s => s.logicEaDn (· &&& ·) sz ea d

/-- AND Dn,`<ea>` (R177). -/
def execAndDnEa (sz : Size) (d : Reg) (ea : EA) (s : State) : Host.Outcome State Fault Refusal :=
  handle (.andDnEa sz d ea) s fun _ s => s.logicDnEa (· &&& ·) sz d ea

/-- ANDI (R178). -/
def execAndi (sz : Size) (imm : Long) (ea : EA) (s : State) : Host.Outcome State Fault Refusal :=
  handle (.andi sz imm ea) s fun _ s => s.logicImm (· &&& ·) sz imm ea

/-- OR `<ea>`,Dn (R179). -/
def execOrEaDn (sz : Size) (ea : EA) (d : Reg) (s : State) : Host.Outcome State Fault Refusal :=
  handle (.orEaDn sz ea d) s fun _ s => s.logicEaDn (· ||| ·) sz ea d

/-- OR Dn,`<ea>` (R179). -/
def execOrDnEa (sz : Size) (d : Reg) (ea : EA) (s : State) : Host.Outcome State Fault Refusal :=
  handle (.orDnEa sz d ea) s fun _ s => s.logicDnEa (· ||| ·) sz d ea

/-- ORI (R180). -/
def execOri (sz : Size) (imm : Long) (ea : EA) (s : State) : Host.Outcome State Fault Refusal :=
  handle (.ori sz imm ea) s fun _ s => s.logicImm (· ||| ·) sz imm ea

/-- EOR Dn,`<ea>` (R181). -/
def execEor (sz : Size) (d : Reg) (ea : EA) (s : State) : Host.Outcome State Fault Refusal :=
  handle (.eor sz d ea) s fun _ s => s.logicDnEa (· ^^^ ·) sz d ea

/-- EORI (R182). -/
def execEori (sz : Size) (imm : Long) (ea : EA) (s : State) : Host.Outcome State Fault Refusal :=
  handle (.eori sz imm ea) s fun _ s => s.logicImm (· ^^^ ·) sz imm ea

/-- NOT (R183). -/
def execNot (sz : Size) (ea : EA) (s : State) : Host.Outcome State Fault Refusal :=
  handle (.not sz ea) s fun _ s =>
    let (l, s) := s.resolve ea sz
    s.logicInto (fun d _ => ~~~d) sz l 0

/-- CLR (R184); the operand is not read. -/
def execClr (sz : Size) (ea : EA) (s : State) : Host.Outcome State Fault Refusal :=
  handle (.clr sz ea) s fun _ s =>
    let (l, s) := s.resolve ea sz
    (s.writeEA l sz 0).setFlags { s.flags with n := false, z := true, v := false, c := false }

/-- TST (R185). -/
def execTst (sz : Size) (ea : EA) (s : State) : Host.Outcome State Fault Refusal :=
  handle (.tst sz ea) s fun _ s =>
    let (v, s) := s.fetchEA ea sz
    s.setLogic sz v

/-- TAS (R186): the flags are those of the byte before the write. -/
def execTas (ea : EA) (s : State) : Host.Outcome State Fault Refusal :=
  handle (.tas ea) s fun _ s =>
    let (l, s) := s.resolve ea .b
    s.modify l .b fun v s => (v ||| 0x80#32, s.setLogic .b v)

end Sys2Proof.Machine
end

