-- ==== Sys2Proof/Machine/Move.lean ====
section
/-! DEFINITION. The meanings of 43_move.md: data movement. -/

namespace Sys2Proof.Machine

/-- MOVEQ (R140). -/
def execMoveq (k : Byte) (d : Reg) (s : State) : Host.Outcome State Fault Refusal :=
  handle (.moveq k d) s fun _ s =>
    let v := k.signExtend 32
    (s.setD d v).setLogic .l v

/-- MOVE (R141): the source is read before the destination is resolved (R115); the destination is not read. -/
def execMove (sz : Size) (src dst : EA) (s : State) : Host.Outcome State Fault Refusal :=
  handle (.move sz src dst) s fun _ s =>
    let (v, s) := s.fetchEA src sz
    let (l, s) := s.resolve dst sz
    (s.writeEA l sz v).setLogic sz v

/-- MOVEA (R142). -/
def execMovea (sz : Size) (src : EA) (a : Reg) (s : State) : Host.Outcome State Fault Refusal :=
  handle (.movea sz src a) s fun _ s =>
    let (v, s) := s.fetchEA src sz
    s.setA a (sext sz v)

/-! ## MOVEM (R143, R144) -/

/-- The sixteen bit numbers of a register mask, in the order they are taken. -/
def maskBits : List (Fin 16) := [0, 1, 2, 3, 4, 5, 6, 7, 8, 9, 10, 11, 12, 13, 14, 15]

/-- One step of a store at rising addresses: mask bit `i` selects `List[i]`. -/
def storeUp (sz : Size) (mask : Word) (p : Long × State) (i : Fin 16) : Long × State :=
  if mask.getLsbD i then
    (p.1 + BitVec.ofNat 32 sz.bytes, p.2.memWrite p.1 sz (trunc sz (p.2.getListed i)))
  else p

/-- One step of a store at falling addresses: mask bit `i` selects `List[15 - i]`. -/
def storeDown (sz : Size) (mask : Word) (p : Long × State) (i : Fin 16) : Long × State :=
  if mask.getLsbD i then
    let a := p.1 - BitVec.ofNat 32 sz.bytes
    (a, p.2.memWrite a sz (trunc sz (p.2.getListed i.rev)))
  else p

/-- One step of a load at rising addresses: all 32 bits of `List[i]`, a word sign-extended. -/
def loadUp (sz : Size) (mask : Word) (p : Long × State) (i : Fin 16) : Long × State :=
  if mask.getLsbD i then
    (p.1 + BitVec.ofNat 32 sz.bytes, (p.2.afterRead p.1 sz).setListed i (sext sz (p.2.memRead p.1 sz)))
  else p

/-- MOVEM registers to memory (R144).  The predecrement form is handled here, its register written once,
at the end. -/
def execMovemToMem (sz : Size) (mask : Word) (ea : EA) (s : State) : Host.Outcome State Fault Refusal :=
  handle (.movemToMem sz mask ea) s fun _ s =>
    let s := s.skip 1
    match ea with
    | .preDec n =>
      let (a, s) := maskBits.foldl (storeDown sz mask) (s.getA n, s)
      s.setA n a
    | ea => (maskBits.foldl (storeUp sz mask) (s.addressOf ea sz)).2

/-- MOVEM memory to registers (R144).  The postincrement form is handled here, its register written
once, at the end, over a value loaded into it (D31). -/
def execMovemToReg (sz : Size) (mask : Word) (ea : EA) (s : State) : Host.Outcome State Fault Refusal :=
  handle (.movemToReg sz mask ea) s fun _ s =>
    let s := s.skip 1
    match ea with
    | .postInc n =>
      let (a, s) := maskBits.foldl (loadUp sz mask) (s.getA n, s)
      s.setA n a
    | ea => (maskBits.foldl (loadUp sz mask) (s.addressOf ea sz)).2

/-! ## MOVEP, EXG, SWAP, EXT -/

/-- The addresses of MOVEP, every second one (R145). -/
def strided (a : Long) (n : Nat) : List Long := (List.range n).map fun i => a + BitVec.ofNat 32 (2 * i)

/-- The bytes MOVEP reads, at every second address, high byte first (R145). -/
def State.readStrided (a : Long) (long : Bool) (s : State) : Long :=
  if long then
    s.readByte a ++ (s.noteReads [a]).readByte (a + 2) ++ (s.noteReads [a, a + 2]).readByte (a + 4) ++
      (s.noteReads [a, a + 2, a + 4]).readByte (a + 6)
  else (s.readByte a ++ (s.noteReads [a]).readByte (a + 2)).setWidth 32

/-- The bytes MOVEP writes, at every second address, high byte first (R145). -/
def State.writeStrided (a : Long) (long : Bool) (v : Long) (s : State) : State :=
  if long then
    (((s.writeByte a (v.extractLsb' 24 8)).writeByte (a + 2) (v.extractLsb' 16 8)).writeByte
      (a + 4) (v.extractLsb' 8 8)).writeByte (a + 6) (v.extractLsb' 0 8)
  else (s.writeByte a (v.extractLsb' 8 8)).writeByte (a + 2) (v.extractLsb' 0 8)

/-- MOVEP (R145). -/
def execMovep (d : Reg) (toMem long : Bool) (a : Reg) (disp : Word) (s : State) :
    Host.Outcome State Fault Refusal :=
  handle (.movep d toMem long a disp) s fun _ s =>
    let addr := s.getA a + disp.signExtend 32
    let s := s.skip 1
    if toMem then s.writeStrided addr long (s.getD d)
    else (s.noteReads (strided addr (if long then 4 else 2))).setDLow d (if long then .l else .w)
      (s.readStrided addr long)

/-- EXG Dx,Dy (R146). -/
def execExgDD (x y : Reg) (s : State) : Host.Outcome State Fault Refusal :=
  handle (.exgDD x y) s fun _ s => (s.setD x (s.getD y)).setD y (s.getD x)

/-- EXG Ax,Ay (R146). -/
def execExgAA (x y : Reg) (s : State) : Host.Outcome State Fault Refusal :=
  handle (.exgAA x y) s fun _ s => (s.setA x (s.getA y)).setA y (s.getA x)

/-- EXG Dx,Ay (R146). -/
def execExgDA (x y : Reg) (s : State) : Host.Outcome State Fault Refusal :=
  handle (.exgDA x y) s fun _ s => (s.setD x (s.getA y)).setA y (s.getD x)

/-- SWAP (R147). -/
def execSwap (d : Reg) (s : State) : Host.Outcome State Fault Refusal :=
  handle (.swap d) s fun _ s =>
    let v : Long := (s.getD d).extractLsb' 0 16 ++ (s.getD d).extractLsb' 16 16
    (s.setD d v).setLogic .l v

/-- EXT.W (R148). -/
def execExtW (d : Reg) (s : State) : Host.Outcome State Fault Refusal :=
  handle (.extW d) s fun _ s =>
    let v := trunc .w (sext .b (s.getD d))
    (s.setDLow d .w v).setLogic .w v

/-- EXT.L (R148). -/
def execExtL (d : Reg) (s : State) : Host.Outcome State Fault Refusal :=
  handle (.extL d) s fun _ s =>
    let v := sext .w (s.getD d)
    (s.setD d v).setLogic .l v

end Sys2Proof.Machine
end

