-- ==== Sys2Proof/Machine/Shift.lean ====
section
/-! DEFINITION. The meanings of 46_shift.md: shifts and rotates. -/

namespace Sys2Proof.Machine

/-- The kinds of R187. -/
inductive ShiftKind where
  | as
  | ls
  | rox
  | ro
  deriving DecidableEq, Repr

/-- The values R189's loop carries. -/
structure ShiftState where
  v : Long
  c : Bool
  vf : Bool
  x : Bool
  deriving DecidableEq, Repr

/-- A bit at position 0 or at the top of the operand, or nothing. -/
def bitAt (sz : Size) (top b : Bool) : Long :=
  if b then (if top then 1#32 <<< (sz.bits - 1) else 1#32) else 0#32

/-- One turn of R189's loop; `left` is the direction. -/
def shiftOnce (kind : ShiftKind) (left : Bool) (sz : Size) (p : ShiftState) : ShiftState :=
  if left then
    let c := msb sz p.v
    let v := trunc sz (p.v <<< 1)
    match kind with
    | .as => { p with v := v, c := c, vf := p.vf || (msb sz v != msb sz p.v) }
    | .ls => { p with v := v, c := c }
    | .ro => { p with v := v ||| bitAt sz false c, c := c }
    | .rox => { p with v := v ||| bitAt sz false p.x, c := c, x := c }
  else
    let c := p.v.getLsbD 0
    let v := p.v >>> 1
    match kind with
    | .as => { p with v := v ||| bitAt sz true (msb sz p.v), c := c }
    | .ls => { p with v := v, c := c }
    | .ro => { p with v := v ||| bitAt sz true c, c := c }
    | .rox => { p with v := v ||| bitAt sz true p.x, c := c, x := c }

/-- `n` turns of the loop. -/
def shiftTimes (kind : ShiftKind) (left : Bool) (sz : Size) : Nat → ShiftState → ShiftState
  | 0, p => p
  | n + 1, p => shiftTimes kind left sz n (shiftOnce kind left sz p)

/-- `Shift(kind, dir, v, n, sz)` (R189): the result and the flags. -/
def shift (kind : ShiftKind) (left : Bool) (sz : Size) (v : Long) (n : Nat) (f : Flags) : Long × Flags :=
  let p := shiftTimes kind left sz n { v := v, c := false, vf := false, x := f.x }
  let base : Flags := { x := f.x, n := msb sz p.v, z := p.v == 0, v := p.vf, c := if n = 0 then false else p.c }
  match kind with
  | .as => (p.v, { base with x := if n = 0 then f.x else p.c })
  | .ls => (p.v, { base with x := if n = 0 then f.x else p.c })
  | .ro => (p.v, base)
  | .rox => (p.v, { base with x := p.x, c := p.x })

/-- The count of a register form (R188). -/
def State.shiftCount (cnt : Count) (s : State) : Nat :=
  match cnt with
  | .imm c => if c = 0#3 then 8 else c.toNat
  | .reg n => (s.getD n).toNat % 64

/-- Shift a location (R190). -/
def State.shiftInto (kind : ShiftKind) (left : Bool) (sz : Size) (l : Loc) (n : Nat) (s : State) : State :=
  s.modify l sz fun v s =>
    let (r, f) := shift kind left sz v n s.flags
    (r, s.setFlags f)

/-- The register form (R190). -/
def State.shiftReg (kind : ShiftKind) (left : Bool) (sz : Size) (cnt : Count) (y : Reg) (s : State) : State :=
  s.shiftInto kind left sz (.dreg y) (s.shiftCount cnt)

/-- The memory form: a word, count 1 (R187, R190). -/
def State.shiftMem (kind : ShiftKind) (left : Bool) (ea : EA) (s : State) : State :=
  let (l, s) := s.resolve ea .w
  s.shiftInto kind left .w l 1

/-! ## Instructions -/

/-- ASL, register (R191). -/
def execAslReg (sz : Size) (cnt : Count) (y : Reg) (s : State) : Host.Outcome State Fault Refusal :=
  handle (.aslReg sz cnt y) s fun _ s => s.shiftReg .as true sz cnt y

/-- ASL, memory (R191). -/
def execAslMem (ea : EA) (s : State) : Host.Outcome State Fault Refusal :=
  handle (.aslMem ea) s fun _ s => s.shiftMem .as true ea

/-- ASR, register (R192). -/
def execAsrReg (sz : Size) (cnt : Count) (y : Reg) (s : State) : Host.Outcome State Fault Refusal :=
  handle (.asrReg sz cnt y) s fun _ s => s.shiftReg .as false sz cnt y

/-- ASR, memory (R192). -/
def execAsrMem (ea : EA) (s : State) : Host.Outcome State Fault Refusal :=
  handle (.asrMem ea) s fun _ s => s.shiftMem .as false ea

/-- LSL, register (R193). -/
def execLslReg (sz : Size) (cnt : Count) (y : Reg) (s : State) : Host.Outcome State Fault Refusal :=
  handle (.lslReg sz cnt y) s fun _ s => s.shiftReg .ls true sz cnt y

/-- LSL, memory (R193). -/
def execLslMem (ea : EA) (s : State) : Host.Outcome State Fault Refusal :=
  handle (.lslMem ea) s fun _ s => s.shiftMem .ls true ea

/-- LSR, register (R194). -/
def execLsrReg (sz : Size) (cnt : Count) (y : Reg) (s : State) : Host.Outcome State Fault Refusal :=
  handle (.lsrReg sz cnt y) s fun _ s => s.shiftReg .ls false sz cnt y

/-- LSR, memory (R194). -/
def execLsrMem (ea : EA) (s : State) : Host.Outcome State Fault Refusal :=
  handle (.lsrMem ea) s fun _ s => s.shiftMem .ls false ea

/-- ROL, register (R195). -/
def execRolReg (sz : Size) (cnt : Count) (y : Reg) (s : State) : Host.Outcome State Fault Refusal :=
  handle (.rolReg sz cnt y) s fun _ s => s.shiftReg .ro true sz cnt y

/-- ROL, memory (R195). -/
def execRolMem (ea : EA) (s : State) : Host.Outcome State Fault Refusal :=
  handle (.rolMem ea) s fun _ s => s.shiftMem .ro true ea

/-- ROR, register (R196). -/
def execRorReg (sz : Size) (cnt : Count) (y : Reg) (s : State) : Host.Outcome State Fault Refusal :=
  handle (.rorReg sz cnt y) s fun _ s => s.shiftReg .ro false sz cnt y

/-- ROR, memory (R196). -/
def execRorMem (ea : EA) (s : State) : Host.Outcome State Fault Refusal :=
  handle (.rorMem ea) s fun _ s => s.shiftMem .ro false ea

/-- ROXL, register (R197). -/
def execRoxlReg (sz : Size) (cnt : Count) (y : Reg) (s : State) : Host.Outcome State Fault Refusal :=
  handle (.roxlReg sz cnt y) s fun _ s => s.shiftReg .rox true sz cnt y

/-- ROXL, memory (R197). -/
def execRoxlMem (ea : EA) (s : State) : Host.Outcome State Fault Refusal :=
  handle (.roxlMem ea) s fun _ s => s.shiftMem .rox true ea

/-- ROXR, register (R198). -/
def execRoxrReg (sz : Size) (cnt : Count) (y : Reg) (s : State) : Host.Outcome State Fault Refusal :=
  handle (.roxrReg sz cnt y) s fun _ s => s.shiftReg .rox false sz cnt y

/-- ROXR, memory (R198). -/
def execRoxrMem (ea : EA) (s : State) : Host.Outcome State Fault Refusal :=
  handle (.roxrMem ea) s fun _ s => s.shiftMem .rox false ea

end Sys2Proof.Machine
end

