-- ==== Sys2Proof/Machine/System.lean ====
section
/-! DEFINITION. The meanings of 42_control_system.md: basic control, status-register access, traps and
checks, compare and swap. -/

namespace Sys2Proof.Machine

/-! ## Basic control -/

/-- NOP (R118). -/
def execNop (s : State) : Host.Outcome State Fault Refusal :=
  handle .nop s fun _ s => s

/-- RTS (R119), with the program-exit convention. -/
def execRts (s : State) : Host.Outcome State Fault Refusal :=
  handle .rts s fun c s =>
    let (v, s) := s.pop .l
    let s := s.setPC v
    if v.toNat ≤ s.cfg.exitThreshold.toNat then s.halt c .programExit (some (v.toNat : Int)) else s

/-- RTE (R120). -/
def execRte (s : State) : Host.Outcome State Fault Refusal :=
  handle .rte s fun c s => s.requireSupervisor c fun s => s.returnFromException

/-- The RESET instruction (R121): nothing after the privilege check. -/
def execReset (s : State) : Host.Outcome State Fault Refusal :=
  handle .reset s fun c s => s.requireSupervisor c fun s => s

/-- STOP (R122). -/
def execStop (imm : Word) (s : State) : Host.Outcome State Fault Refusal :=
  handle (.stop imm) s fun c s => s.requireSupervisor c fun s =>
    ((s.skip 1).setSr imm).halt c .stop (some (imm.toNat : Int))

/-- RTR (R123). -/
def execRtr (s : State) : Host.Outcome State Fault Refusal :=
  handle .rtr s fun _ s =>
    let (w, s) := s.pop .w
    let (pc, s) := s.pop .l
    (s.setCcr (w.setWidth 8)).setPC pc

/-! ## Status-register access -/

/-- MOVE `<ea>`,SR (R124). -/
def execMoveToSr (ea : EA) (s : State) : Host.Outcome State Fault Refusal :=
  handle (.moveToSr ea) s fun c s => s.requireSupervisor c fun s =>
    let (v, s) := s.fetchEA ea .w
    s.setSr (v.setWidth 16)

/-- MOVE SR,`<ea>` (R125); the destination is not read. -/
def execMoveFromSr (ea : EA) (s : State) : Host.Outcome State Fault Refusal :=
  handle (.moveFromSr ea) s fun _ s =>
    let (l, s) := s.resolve ea .w
    s.writeEA l .w (s.sr.setWidth 32)

/-- MOVE `<ea>`,CCR (R126). -/
def execMoveToCcr (ea : EA) (s : State) : Host.Outcome State Fault Refusal :=
  handle (.moveToCcr ea) s fun _ s =>
    let (v, s) := s.fetchEA ea .w
    s.setCcr (v.setWidth 8)

/-- MOVE CCR,`<ea>` (R127); the destination is not read. -/
def execMoveFromCcr (ea : EA) (s : State) : Host.Outcome State Fault Refusal :=
  handle (.moveFromCcr ea) s fun _ s =>
    let (l, s) := s.resolve ea .w
    s.writeEA l .w (s.ccr.setWidth 32)

/-- MOVE An,USP (R128). -/
def execMoveToUsp (a : Reg) (s : State) : Host.Outcome State Fault Refusal :=
  handle (.moveToUsp a) s fun c s => s.requireSupervisor c fun s => s.setUSP (s.getA a)

/-- MOVE USP,An (R128). -/
def execMoveFromUsp (a : Reg) (s : State) : Host.Outcome State Fault Refusal :=
  handle (.moveFromUsp a) s fun c s => s.requireSupervisor c fun s => s.setA a s.usp

/-- ORI #imm,CCR (R129). -/
def execOriToCcr (imm : Byte) (s : State) : Host.Outcome State Fault Refusal :=
  handle (.oriToCcr imm) s fun _ s => (s.skip 1).setCcr (s.ccr ||| imm)

/-- ANDI #imm,CCR (R130). -/
def execAndiToCcr (imm : Byte) (s : State) : Host.Outcome State Fault Refusal :=
  handle (.andiToCcr imm) s fun _ s => (s.skip 1).setCcr (s.ccr &&& imm)

/-- EORI #imm,CCR (R131). -/
def execEoriToCcr (imm : Byte) (s : State) : Host.Outcome State Fault Refusal :=
  handle (.eoriToCcr imm) s fun _ s => (s.skip 1).setCcr (s.ccr ^^^ imm)

/-- ORI #imm,SR (R132). -/
def execOriToSr (imm : Word) (s : State) : Host.Outcome State Fault Refusal :=
  handle (.oriToSr imm) s fun c s => s.requireSupervisor c fun s => (s.skip 1).setSr (s.sr ||| imm)

/-- ANDI #imm,SR (R133). -/
def execAndiToSr (imm : Word) (s : State) : Host.Outcome State Fault Refusal :=
  handle (.andiToSr imm) s fun c s => s.requireSupervisor c fun s => (s.skip 1).setSr (s.sr &&& imm)

/-- EORI #imm,SR (R134). -/
def execEoriToSr (imm : Word) (s : State) : Host.Outcome State Fault Refusal :=
  handle (.eoriToSr imm) s fun c s => s.requireSupervisor c fun s => (s.skip 1).setSr (s.sr ^^^ imm)

/-! ## Traps and checks -/

/-- TRAP #v (R135). -/
def execTrap (v : BitVec 4) (s : State) : Host.Outcome State Fault Refusal :=
  handle (.trap v) s fun c s => s.halt c .trap (some (v.toNat : Int))

/-- TRAPV (R136). -/
def execTrapv (s : State) : Host.Outcome State Fault Refusal :=
  handle .trapv s fun c s => if s.flagV then s.halt c .trapOverflow none else s

/-- ILLEGAL (R137). -/
def execIllegal (s : State) : Host.Outcome State Fault Refusal :=
  handle .illegal s fun c s => s.halt c .illegalInstruction none

/-- CHK `<ea>`,Dn (R138): Z, V and C are drawn, and N where the check passes. -/
def execChk (ea : EA) (d : Reg) (s : State) : Host.Outcome State Fault Refusal :=
  handle (.chk ea d) s fun c s =>
    let (u, s) := s.fetchEA ea .w
    let ub := signed .w u
    let x := signed .w (s.getD d)
    let s := s.drawZ.drawV.drawC
    if x < 0 then (s.setFlags { s.flags with n := true }).halt c .chkBound (some x)
    else if ub < x then (s.setFlags { s.flags with n := false }).halt c .chkBound (some x)
    else s.drawN

/-! ## Compare and swap -/

/-- CAS Dc,Du,`<ea>` (R139). -/
def execCas (sz : Size) (dc du : Reg) (ea : EA) (s : State) : Host.Outcome State Fault Refusal :=
  handle (.cas sz dc du ea) s fun _ s =>
    let s := s.skip 1
    let (l, s) := s.resolve ea sz
    let t := s.readEA l sz
    let s := s.afterReadEA l sz
    let r := sub sz t (trunc sz (s.getD dc)) false
    let s := s.setCmp sz r
    if r.res == 0 then s.writeEA l sz (s.getD du) else s.setDLow dc sz t

end Sys2Proof.Machine
end

