-- ==== Sys2Proof/Machine/Dispatch.lean ====
section
/-! DEFINITION. The dispatch of an instruction to its meaning. -/

namespace Sys2Proof.Machine

/-- Run one decoded instruction: its handler, started with the PC past the opcode word (R18, R89). -/
def exec (i : Instr) (s : State) : Host.Outcome State Fault Refusal :=
  match i with
  | .oriToCcr imm => Sys2Proof.Machine.execOriToCcr imm s
  | .oriToSr imm => Sys2Proof.Machine.execOriToSr imm s
  | .ori sz imm ea => Sys2Proof.Machine.execOri sz imm ea s
  | .andiToCcr imm => Sys2Proof.Machine.execAndiToCcr imm s
  | .andiToSr imm => Sys2Proof.Machine.execAndiToSr imm s
  | .andi sz imm ea => Sys2Proof.Machine.execAndi sz imm ea s
  | .subi sz imm ea => Sys2Proof.Machine.execSubi sz imm ea s
  | .addi sz imm ea => Sys2Proof.Machine.execAddi sz imm ea s
  | .eoriToCcr imm => Sys2Proof.Machine.execEoriToCcr imm s
  | .eoriToSr imm => Sys2Proof.Machine.execEoriToSr imm s
  | .eori sz imm ea => Sys2Proof.Machine.execEori sz imm ea s
  | .cmpi sz imm ea => Sys2Proof.Machine.execCmpi sz imm ea s
  | .btstImm num ea => Sys2Proof.Machine.execBtstImm num ea s
  | .bchgImm num ea => Sys2Proof.Machine.execBchgImm num ea s
  | .bclrImm num ea => Sys2Proof.Machine.execBclrImm num ea s
  | .bsetImm num ea => Sys2Proof.Machine.execBsetImm num ea s
  | .btstDn d ea => Sys2Proof.Machine.execBtstDn d ea s
  | .bchgDn d ea => Sys2Proof.Machine.execBchgDn d ea s
  | .bclrDn d ea => Sys2Proof.Machine.execBclrDn d ea s
  | .bsetDn d ea => Sys2Proof.Machine.execBsetDn d ea s
  | .movep d toMem long a disp => Sys2Proof.Machine.execMovep d toMem long a disp s
  | .cas sz dc du ea => Sys2Proof.Machine.execCas sz dc du ea s
  | .move sz src dst => Sys2Proof.Machine.execMove sz src dst s
  | .movea sz src a => Sys2Proof.Machine.execMovea sz src a s
  | .negx sz ea => Sys2Proof.Machine.execNegx sz ea s
  | .moveFromSr ea => Sys2Proof.Machine.execMoveFromSr ea s
  | .chk ea d => Sys2Proof.Machine.execChk ea d s
  | .lea ea a => Sys2Proof.Machine.execLea ea a s
  | .clr sz ea => Sys2Proof.Machine.execClr sz ea s
  | .moveFromCcr ea => Sys2Proof.Machine.execMoveFromCcr ea s
  | .neg sz ea => Sys2Proof.Machine.execNeg sz ea s
  | .moveToCcr ea => Sys2Proof.Machine.execMoveToCcr ea s
  | .not sz ea => Sys2Proof.Machine.execNot sz ea s
  | .moveToSr ea => Sys2Proof.Machine.execMoveToSr ea s
  | .nbcd ea => Sys2Proof.Machine.execNbcd ea s
  | .swap d => Sys2Proof.Machine.execSwap d s
  | .pea ea => Sys2Proof.Machine.execPea ea s
  | .extW d => Sys2Proof.Machine.execExtW d s
  | .extL d => Sys2Proof.Machine.execExtL d s
  | .movemToMem sz mask ea => Sys2Proof.Machine.execMovemToMem sz mask ea s
  | .tst sz ea => Sys2Proof.Machine.execTst sz ea s
  | .tas ea => Sys2Proof.Machine.execTas ea s
  | .illegal => Sys2Proof.Machine.execIllegal s
  | .mull signed wide l h ea => Sys2Proof.Machine.execMull signed wide l h ea s
  | .divl signed wide q r ea => Sys2Proof.Machine.execDivl signed wide q r ea s
  | .movemToReg sz mask ea => Sys2Proof.Machine.execMovemToReg sz mask ea s
  | .trap v => Sys2Proof.Machine.execTrap v s
  | .link a disp => Sys2Proof.Machine.execLink a disp s
  | .unlk a => Sys2Proof.Machine.execUnlk a s
  | .moveToUsp a => Sys2Proof.Machine.execMoveToUsp a s
  | .moveFromUsp a => Sys2Proof.Machine.execMoveFromUsp a s
  | .reset => Sys2Proof.Machine.execReset s
  | .nop => Sys2Proof.Machine.execNop s
  | .stop imm => Sys2Proof.Machine.execStop imm s
  | .rte => Sys2Proof.Machine.execRte s
  | .rts => Sys2Proof.Machine.execRts s
  | .trapv => Sys2Proof.Machine.execTrapv s
  | .rtr => Sys2Proof.Machine.execRtr s
  | .jsr ea => Sys2Proof.Machine.execJsr ea s
  | .jmp ea => Sys2Proof.Machine.execJmp ea s
  | .addq q sz ea => Sys2Proof.Machine.execAddq q sz ea s
  | .subq q sz ea => Sys2Proof.Machine.execSubq q sz ea s
  | .scc c ea => Sys2Proof.Machine.execScc c ea s
  | .dbcc c d disp => Sys2Proof.Machine.execDbcc c d disp s
  | .trapcc c opnd => Sys2Proof.Machine.execTrapcc c opnd s
  | .bra disp => Sys2Proof.Machine.execBra disp s
  | .bsr disp => Sys2Proof.Machine.execBsr disp s
  | .bcc c disp => Sys2Proof.Machine.execBcc c disp s
  | .moveq k d => Sys2Proof.Machine.execMoveq k d s
  | .divuW ea d => Sys2Proof.Machine.execDivuW ea d s
  | .divsW ea d => Sys2Proof.Machine.execDivsW ea d s
  | .sbcd mem y x => Sys2Proof.Machine.execSbcd mem y x s
  | .orEaDn sz ea d => Sys2Proof.Machine.execOrEaDn sz ea d s
  | .orDnEa sz d ea => Sys2Proof.Machine.execOrDnEa sz d ea s
  | .subEaDn sz ea d => Sys2Proof.Machine.execSubEaDn sz ea d s
  | .subDnEa sz d ea => Sys2Proof.Machine.execSubDnEa sz d ea s
  | .suba sz ea a => Sys2Proof.Machine.execSuba sz ea a s
  | .subx sz mem y x => Sys2Proof.Machine.execSubx sz mem y x s
  | .cmp sz ea d => Sys2Proof.Machine.execCmp sz ea d s
  | .cmpa sz ea a => Sys2Proof.Machine.execCmpa sz ea a s
  | .eor sz d ea => Sys2Proof.Machine.execEor sz d ea s
  | .cmpm sz y x => Sys2Proof.Machine.execCmpm sz y x s
  | .muluW ea d => Sys2Proof.Machine.execMuluW ea d s
  | .mulsW ea d => Sys2Proof.Machine.execMulsW ea d s
  | .abcd mem y x => Sys2Proof.Machine.execAbcd mem y x s
  | .exgDD x y => Sys2Proof.Machine.execExgDD x y s
  | .exgAA x y => Sys2Proof.Machine.execExgAA x y s
  | .exgDA x y => Sys2Proof.Machine.execExgDA x y s
  | .andEaDn sz ea d => Sys2Proof.Machine.execAndEaDn sz ea d s
  | .andDnEa sz d ea => Sys2Proof.Machine.execAndDnEa sz d ea s
  | .addEaDn sz ea d => Sys2Proof.Machine.execAddEaDn sz ea d s
  | .addDnEa sz d ea => Sys2Proof.Machine.execAddDnEa sz d ea s
  | .adda sz ea a => Sys2Proof.Machine.execAdda sz ea a s
  | .addx sz mem y x => Sys2Proof.Machine.execAddx sz mem y x s
  | .asrReg sz cnt y => Sys2Proof.Machine.execAsrReg sz cnt y s
  | .asrMem ea => Sys2Proof.Machine.execAsrMem ea s
  | .aslReg sz cnt y => Sys2Proof.Machine.execAslReg sz cnt y s
  | .aslMem ea => Sys2Proof.Machine.execAslMem ea s
  | .lsrReg sz cnt y => Sys2Proof.Machine.execLsrReg sz cnt y s
  | .lsrMem ea => Sys2Proof.Machine.execLsrMem ea s
  | .lslReg sz cnt y => Sys2Proof.Machine.execLslReg sz cnt y s
  | .lslMem ea => Sys2Proof.Machine.execLslMem ea s
  | .roxrReg sz cnt y => Sys2Proof.Machine.execRoxrReg sz cnt y s
  | .roxrMem ea => Sys2Proof.Machine.execRoxrMem ea s
  | .roxlReg sz cnt y => Sys2Proof.Machine.execRoxlReg sz cnt y s
  | .roxlMem ea => Sys2Proof.Machine.execRoxlMem ea s
  | .rorReg sz cnt y => Sys2Proof.Machine.execRorReg sz cnt y s
  | .rorMem ea => Sys2Proof.Machine.execRorMem ea s
  | .rolReg sz cnt y => Sys2Proof.Machine.execRolReg sz cnt y s
  | .rolMem ea => Sys2Proof.Machine.execRolMem ea s

end Sys2Proof.Machine
end

