-- ==== Sys2Proof/Machine/Fetch.lean ====
section
/-! DEFINITION. The fetch of an instruction and the bookkeeping of a step around its handler
(40_driver.md). -/

namespace Sys2Proof.Machine

/-- A mnemonic's place in the opcode table, its index in the statistics (R36). -/
def mnemonicIndex : Mnemonic → Fin 110
  | .oriToCcr => 0
  | .oriToSr => 1
  | .ori => 2
  | .andiToCcr => 3
  | .andiToSr => 4
  | .andi => 5
  | .subi => 6
  | .addi => 7
  | .eoriToCcr => 8
  | .eoriToSr => 9
  | .eori => 10
  | .cmpi => 11
  | .btstImm => 12
  | .bchgImm => 13
  | .bclrImm => 14
  | .bsetImm => 15
  | .btstDn => 16
  | .bchgDn => 17
  | .bclrDn => 18
  | .bsetDn => 19
  | .movep => 20
  | .cas => 21
  | .move => 22
  | .movea => 23
  | .negx => 24
  | .moveFromSr => 25
  | .chk => 26
  | .lea => 27
  | .clr => 28
  | .moveFromCcr => 29
  | .neg => 30
  | .moveToCcr => 31
  | .not => 32
  | .moveToSr => 33
  | .nbcd => 34
  | .swap => 35
  | .pea => 36
  | .extW => 37
  | .extL => 38
  | .movemToMem => 39
  | .tst => 40
  | .tas => 41
  | .illegal => 42
  | .mull => 43
  | .divl => 44
  | .movemToReg => 45
  | .trap => 46
  | .link => 47
  | .unlk => 48
  | .moveToUsp => 49
  | .moveFromUsp => 50
  | .reset => 51
  | .nop => 52
  | .stop => 53
  | .rte => 54
  | .rts => 55
  | .trapv => 56
  | .rtr => 57
  | .jsr => 58
  | .jmp => 59
  | .addq => 60
  | .subq => 61
  | .scc => 62
  | .dbcc => 63
  | .trapcc => 64
  | .bra => 65
  | .bsr => 66
  | .bcc => 67
  | .moveq => 68
  | .divuW => 69
  | .divsW => 70
  | .sbcd => 71
  | .orEaDn => 72
  | .orDnEa => 73
  | .subEaDn => 74
  | .subDnEa => 75
  | .suba => 76
  | .subx => 77
  | .cmp => 78
  | .cmpa => 79
  | .eor => 80
  | .cmpm => 81
  | .muluW => 82
  | .mulsW => 83
  | .abcd => 84
  | .exgDD => 85
  | .exgAA => 86
  | .exgDA => 87
  | .andEaDn => 88
  | .andDnEa => 89
  | .addEaDn => 90
  | .addDnEa => 91
  | .adda => 92
  | .addx => 93
  | .asrReg => 94
  | .asrMem => 95
  | .aslReg => 96
  | .aslMem => 97
  | .lsrReg => 98
  | .lsrMem => 99
  | .lslReg => 100
  | .lslMem => 101
  | .roxrReg => 102
  | .roxrMem => 103
  | .roxlReg => 104
  | .roxlMem => 105
  | .rorReg => 106
  | .rorMem => 107
  | .rolReg => 108
  | .rolMem => 109

/-- The values of `n` words fetched one after another (00_scope.md R14), each fetch seeing the effects of
those before it. -/
def State.wordsAhead : Nat → State → List Word
  | 0, _ => []
  | n + 1, s => s.readWord s.pc :: (s.skip 1).wordsAhead n

/-- The instruction the next step runs, its operands the words its handler fetches at the moment it fetches
them (R59).  These are the words at `PC`, four at most after the opcode word (R61); MOVE alone reads an
operand before its last words (R62, R115), so its destination's words are those that stand there after the
read of the source.  No access is made here: the state is only asked what it would answer (20_memory.md R50),
and the step and the handler make their own. [log 7] -/
def State.nextInstr (s : State) : Except DecodeError Instr :=
  let op := s.readWord s.pc
  let u := s.skip 1
  let ws := u.wordsAhead 4
  match decode s.cfg.admitUnnamed (op :: ws) with
  | .error e => .error e
  | .ok (.move sz src _, _) =>
    let p := (u.fetchEA src sz).2
    match decode s.cfg.admitUnnamed (op :: (ws.take (src.words sz).length ++ p.wordsAhead 4)) with
    | .error e => .error e
    | .ok (i, _) => .ok i
  | .ok (i, _) => .ok i

/-- The halt of a step that runs no handler: only the opcode word has been fetched, and no counter
changes (R228). -/
def State.haltBeforeHandler (kind : HaltKind) (s : State) : State :=
  (s.skip 1).halt { op := s.readWord s.pc, opAddr := s.pc } kind none

/-- What a step does before the handler: the opcode fetch, and the three counters (R89). -/
def State.beginInstr (m : Mnemonic) (s : State) : State :=
  { s.skip 1 with
    instrCount := s.instrCount + 1
    cycles := s.cycles + Config.cycleCost (s.readWord s.pc)
    freq := s.freq.set (mnemonicIndex m) (s.freq[mnemonicIndex m] + 1) }

/-- Store words from an address on, as the hardware stores them (R46). -/
def State.storeWords (a : Long) (ws : List Word) (s : State) : State :=
  match ws with
  | [] => s
  | w :: ws => State.storeWords (a + 2) ws (s.memWrite a .w (w.setWidth 32))

end Sys2Proof.Machine
end

