-- ==== Sys2Proof/Machine/Step.lean ====
section
/-! DEFINITION. One step of the engine (40_driver.md R89–R91), and how the host places an instruction. -/

namespace Sys2Proof.Machine

/-- `step()` (R89): a stopped engine changes nothing (R91); an unknown opcode halts before any handler
(R228); otherwise the counters are updated and the handler runs. -/
def step (s : State) : Host.Outcome State Fault Refusal :=
  if s.running then
    match s.nextInstr with
    | .ok i => exec i (s.beginInstr i.mnemonic)
    | .error (.unknownOpcode _) => .next (s.haltBeforeHandler .unknownOpcode)
    | .error .truncated => .next (s.haltBeforeHandler .malformedResult)
  else .next s

/-- The state with an instruction stored where the next step fetches it, in plain RAM, running.  It stands
for the load of a program from outside the machine (R98, R248). [log 10] -/
def State.withFetchWord (s : State) (nbits w : Nat) : State :=
  let s : State := { s with cfg := { s.cfg with mem := .ram }, running := true, stopRecord := none }
  s.storeWords s.pc (tableWords nbits w)

end Sys2Proof.Machine
end

