-- ==== Sys2Proof/Machine/HostOps.lean ====
section
/-! DEFINITION. What the host can do between steps (40_driver.md R93–R102), and the operations reset and
initialize (70_reset_and_hazards.md). -/

namespace Sys2Proof.Machine

/-! ## Reset and initialize -/

/-- `reset(clearStats)` (R243, R102): memory, the parameters and, unless asked for, the statistics stay. -/
def State.hostReset (clearStats : Bool) (s : State) : State :=
  { s with
    d := Vector.replicate 8 0
    a := Vector.replicate 7 0
    usp := 0
    ssp := 0
    pc := 0
    sr := s.cfg.srDefault &&& 0xA71F#16
    running := true
    stopRecord := none
    cycles := 0
    instrCount := 0
    freq := if clearStats then Vector.replicate 110 0 else s.freq }

/-- `initialize(entry)` (R246). -/
def State.initialize (entry : Long) (s : State) : State :=
  { s with
    pc := entry
    sr := s.cfg.srDefault &&& 0xA71F#16
    ssp := Config.defaultSsp
    running := true
    stopRecord := none }

/-- The loader's write of a program's bytes (R98, R248). -/
def State.load (a : Long) (bs : List Byte) (s : State) : State :=
  match bs with
  | [] => s
  | b :: bs => State.load (a + 1) bs (s.writeByte a b)

/-! ## The result of a step (R93) -/

/-- The signal of a step's result. -/
inductive Signal where
  | none
  | finished (kind : HaltKind)
  | error (kind : HaltKind)
  | stopped
  deriving DecidableEq, Repr

/-- `Finish` stops a run normally, `Halt` as an error (R104, R225, R227). -/
def HaltKind.isFinish : HaltKind → Bool
  | .programExit => true
  | .stop => true
  | .unknownOpcode => false
  | .malformedResult => false
  | .illegalInstruction => false
  | .privilegeViolation => false
  | .divideByZero => false
  | .divideOverflow => false
  | .chkBound => false
  | .trap => false
  | .trapOverflow => false
  | .trapCC => false

/-- The signal a stop record stands for. -/
def StopRecord.signal (r : StopRecord) : Signal :=
  if r.kind.isFinish then .finished r.kind else .error r.kind

/-- An `InstructionResult` (R93); its optional trace is left empty (R94). [log 11] -/
structure InstructionResult where
  mnemonic : Option String
  cost : Nat
  signal : Signal
  deriving DecidableEq, Repr

/-- The signal of the state a step leads to (R89). -/
def State.signal (s : State) : Signal :=
  match s.stopRecord with
  | some r => r.signal
  | none => .none

/-- The result a step from `s` returns (R89, R91, R93). -/
def State.stepResult (s : State) : InstructionResult :=
  if s.running then
    let sig := match step s with
      | .next s' => s'.signal
      | .fault _ => .none
      | .refused _ => .none
    match lookup s.cfg.admitUnnamed (s.readWord s.pc) with
    | some m => { mnemonic := some m.name, cost := Config.cycleCost (s.readWord s.pc), signal := sig }
    | none => { mnemonic := none, cost := 0, signal := sig }
  else { mnemonic := none, cost := 0, signal := .stopped }

/-! ## The run loop (R96) -/

/-- The loop of `run` from a state with `start` cycles, in at most `fuel` turns; none if it has not ended
by then. [log 12] -/
def State.runFrom (start maxCycles : Nat) : Nat → State → Option State
  | 0, _ => none
  | fuel + 1, s =>
    if s.running && decide (s.cycles - start < maxCycles) then
      match step s with
      | .next s' => State.runFrom start maxCycles fuel s'
      | .fault _ => none
      | .refused _ => none
    else some s

/-- `run(maxCycles)` from `s` returns with the state `t` (R96). [log 12] -/
def State.RunsTo (maxCycles : Nat) (s t : State) : Prop :=
  ∃ fuel, State.runFrom s.cycles maxCycles fuel s = some t

/-! ## Operations that change no register and no counter -/

/-- What `peek()` tells of the instruction at `PC` (R99): its row, its operands, its words. -/
structure PeekResult where
  mnemonic : String
  instr : Instr
  words : List Word
  deriving DecidableEq, Repr

/-- `peek()` (R99), none for `Unknown`, and the state after its reads of the opcode word and of the
instruction's extension words, which have the effects `MEM` gives them (D44) and no other. -/
def State.peek (s : State) : Option PeekResult × State :=
  let op := s.readWord s.pc
  let ws := (s.skip 1).wordsAhead 4
  match decode s.cfg.admitUnnamed (op :: ws) with
  | .ok (i, rest) =>
    let n := 5 - rest.length
    (some { mnemonic := i.mnemonic.name, instr := i, words := (op :: ws).take n }, s.noteReads (span s.pc (2 * n)))
  | .error _ => (none, s.noteReads (span s.pc 2))

/-- `lookup(op)` (R100): the table's entry, the row with its baked-in operand fields (30_encoding.md R83), and
none for `Unknown`.  It reads no memory. -/
def State.lookupOpcode (op : Word) (s : State) : Option TableEntry := tableEntry s.cfg.admitUnnamed op

/-- `stats()` (R101): `(instrCount, cycles, freq)`. -/
def State.stats (s : State) : Nat × Nat × (Mnemonic → Nat) :=
  (s.instrCount, s.cycles, fun m => s.freq[mnemonicIndex m])

end Sys2Proof.Machine
end

