-- ==== Sys2Proof/Safety.lean ====
section
/-! DEFINITION. What counts as a safe run, in the terms claims use: the invariant of the reachable states,
the end of a run, a run without an error end; and the frames claims about an instruction are stated with. -/

namespace Sys2Proof

/-! ## Classes of instructions -/

/-- The privileged instructions (60_exceptions.md R232). -/
def Instr.privileged : Instr → Bool
  | .rte => true
  | .reset => true
  | .stop _ => true
  | .moveToSr _ => true
  | .moveToUsp _ => true
  | .moveFromUsp _ => true
  | .oriToSr _ => true
  | .andiToSr _ => true
  | .eoriToSr _ => true
  | _ => false

/-- The writers of the upper byte of SR (10_state.md R29). -/
def Instr.writesSr : Instr → Bool
  | .rte => true
  | .stop _ => true
  | .moveToSr _ => true
  | .oriToSr _ => true
  | .andiToSr _ => true
  | .eoriToSr _ => true
  | _ => false

namespace Machine

/-! ## The invariant -/

/-- The values a stop record's info can have, by kind (60_exceptions.md R227). -/
def StopRecord.legal (r : StopRecord) : Prop :=
  match r.kind with
  | .unknownOpcode => r.info = none
  | .malformedResult => False
  | .illegalInstruction => r.info = none
  | .privilegeViolation => r.info = none
  | .divideByZero => r.info = none
  | .divideOverflow => r.info = none
  | .chkBound => ∃ x : Int, r.info = some x ∧ -32768 ≤ x ∧ x ≤ 32767
  | .trap => ∃ v : Nat, r.info = some (v : Int) ∧ v ≤ 15
  | .trapOverflow => r.info = none
  | .trapCC => r.info = none
  | .programExit => ∃ v : Nat, r.info = some (v : Int) ∧ v < 4294967296
  | .stop => ∃ v : Nat, r.info = some (v : Int) ∧ v < 65536

/-- The invariant of the states a run reaches: memory is in its canonical form (log 2), the unimplemented
bits of SR are 0 (R29), the engine runs exactly while it has no stop record (R36, R92), a stop record is one
of R227's, and of the two fields that hold `MEM` the one its kind does not use is empty (log 13). -/
structure State.Inv (s : State) : Prop where
  memory : Memory.wf s.mem = true
  srBits : s.sr &&& 0xA71F#16 = s.sr
  runState : s.running = true ↔ s.stopRecord = none
  record : ∀ r, s.stopRecord = some r → r.legal
  ramBus : s.cfg.mem = .ram → s.bus = []
  platformMem : s.cfg.mem = .platform → s.mem = []

/-! ## The end of a run (40_driver.md R104) -/

/-- The run has ended normally: ProgramExit or Stop. -/
def State.endedNormally (s : State) : Prop :=
  s.running = false ∧ ∃ r, s.stopRecord = some r ∧ r.kind.isFinish = true

/-- The run has ended in an error: any other kind. -/
def State.endedInError (s : State) : Prop :=
  s.running = false ∧ ∃ r, s.stopRecord = some r ∧ r.kind.isFinish = false

/-- `n` steps from `s`: the state after them, if each step has a next state. -/
def State.after : Nat → State → Option State
  | 0, s => some s
  | n + 1, s =>
    match step s with
    | .next s' => State.after n s'
    | .fault _ => none
    | .refused _ => none

/-- A safe run: no number of steps from `s` leads to an error end. -/
def State.safe (s : State) : Prop := ∀ n t, State.after n s = some t → ¬ t.endedInError

/-! ## Frames -/

/-- The address `a` is one of the `n` bytes from `m` on, modulo 2^32. -/
def within (m : Long) (n : Nat) (a : Long) : Prop := (a - m).toNat < n

/-- The bytes a location covers. -/
def Loc.covers (l : Loc) (sz : Size) (a : Long) : Prop :=
  match l with
  | .mem m => within m sz.bytes a
  | .dreg _ => False
  | .areg _ => False
  | .imm _ => False

/-- The accesses of `MemWrite(m, sz, v)` (20_memory.md R44). -/
def storeAccesses (m : Long) (sz : Size) (v : Long) : List Config.Access :=
  (List.range sz.bytes).map fun i => .write (m + BitVec.ofNat 32 i) (v.extractLsb' (8 * (sz.bytes - 1 - i)) 8)

/-- The accesses of a write to a location: none to a register. -/
def Loc.storeAccesses (l : Loc) (sz : Size) (v : Long) : List Config.Access :=
  match l with
  | .mem m => Machine.storeAccesses m sz v
  | .dreg _ => []
  | .areg _ => []
  | .imm _ => []

/-- From `s` to `t` the core made the accesses `acc` to `MEM`, all of them writes to covered bytes, and no other
(20_memory.md R50): on plain RAM every other byte reads as before; any other `MEM` has seen exactly these. -/
structure State.Stored (acc : List Config.Access) (covered : Long → Prop) (s t : State) : Prop where
  bytes : s.cfg.mem = .ram → ∀ a, ¬ covered a → t.readByte a = s.readByte a
  ramBus : s.cfg.mem = .ram → t.bus = s.bus
  accesses : s.cfg.mem = .platform → t.bus = s.bus ++ acc
  platformMem : s.cfg.mem = .platform → t.mem = s.mem

/-- The stack pointer that A7 does not name (10_state.md R24, R38). -/
def State.inactiveSP (s : State) : Long := if s.flagS then s.usp else s.ssp

/-- The state beside registers, PC, SR, memory and the model's own count of draws. -/
structure State.SameRest (s t : State) : Prop where
  running : t.running = s.running
  stopRecord : t.stopRecord = s.stopRecord
  cycles : t.cycles = s.cycles
  instrCount : t.instrCount = s.instrCount
  freq : t.freq = s.freq
  cfg : t.cfg = s.cfg

/-- From `s` to `t` the value `v` was written to a data register or to memory, and every other register
and byte is unchanged: a data register keeps its bits above the operand size (R22), an address register
and both stack pointers stay, and no other byte is stored to.  That a byte of memory reads as it was written is
plain RAM's (20_memory.md R45); of any other `MEM` the accesses made to it are known. -/
structure State.Wrote (l : Loc) (sz : Size) (v : Long) (s t : State) : Prop where
  register : ∀ n, l = .dreg n → trunc sz (t.getD n) = trunc sz v
  memory : ∀ m, l = .mem m → s.cfg.mem = .ram → t.memRead m sz = trunc sz v
  otherD : ∀ n, l ≠ .dreg n → t.getD n = s.getD n
  highD : ∀ n k, l = .dreg n → sz.bits ≤ k → (t.getD n).getLsbD k = (s.getD n).getLsbD k
  addressRegs : t.a = s.a
  usp : t.usp = s.usp
  ssp : t.ssp = s.ssp
  stored : s.Stored (l.storeAccesses sz v) (l.covers sz) t

/-- From `s` to `t` the value `v` was written to a location, the flags are `f`, and nothing else changed. -/
structure State.Effect (l : Loc) (sz : Size) (v : Long) (f : Flags) (s t : State) : Prop where
  wrote : s.Wrote l sz v t
  flags : t.flags = f
  srRest : ∀ k, 5 ≤ k → t.sr.getLsbD k = s.sr.getLsbD k
  pc : t.pc = s.pc
  draws : t.draws = s.draws
  rest : s.SameRest t

/-- From `s` to `t` the flags became `f`, and nothing else changed. -/
structure State.FlagEffect (f : Flags) (s t : State) : Prop where
  flags : t.flags = f
  srRest : ∀ k, 5 ≤ k → t.sr.getLsbD k = s.sr.getLsbD k
  dataRegs : t.d = s.d
  addressRegs : t.a = s.a
  usp : t.usp = s.usp
  ssp : t.ssp = s.ssp
  bytes : ∀ a, t.readByte a = s.readByte a
  bus : t.bus = s.bus
  pc : t.pc = s.pc
  draws : t.draws = s.draws
  rest : s.SameRest t

/-- From `s` to `t` an instruction halted with `kind` and `info` after drawing flags: SR's bits from X up
stay, and nothing changed beside SR, the count of draws, `running` and `stopRecord`. -/
structure State.DrewAndHalted (kind : HaltKind) (op : Word) (opAddr : Long) (info : Option Int) (s t : State) :
    Prop where
  state : t = { s with sr := t.sr, draws := t.draws, running := false,
                       stopRecord := some { kind := kind, opcode := op, faultPC := opAddr, info := info } }
  srRest : ∀ k, 4 ≤ k → t.sr.getLsbD k = s.sr.getLsbD k

/-- The flags of a logical operation or a move of `v` (43_move.md, 45_logical.md): X stays. -/
def moveFlags (sz : Size) (v : Long) (x : Bool) : Flags :=
  { x := x, n := v.getLsbD (8 * sz.bytes - 1), z := decide (v.toNat % 2 ^ (8 * sz.bytes) = 0), v := false, c := false }

/-- The number of bits of a register mask that are set below bit `i`. -/
def maskRank (mask : Word) (i : Nat) : Nat := ((List.range i).filter (mask.getLsbD ·)).length

end Machine
end Sys2Proof
end

