-- ==== Sys2Proof/Certificates/Slice0/Obligations.lean ====
section
/-! DEFINITION. The statements for the provers, each a Prop under Obligations.  Where a statement says what an
instruction does, `s` is the state its handler starts in: PC past the opcode word (R18).  They hold for every `MEM`
(R8, R42): the accesses an instruction makes are those of the states they name (`skip`, `afterRead`, `afterReadEA`,
`Stored`), and no other is made (R50). -/

open Sys2Proof Sys2Proof.Machine

/-! ## Encoding (30_encoding.md) -/

/-- R61, R62, R67, R81: the words of every well-formed instruction decode to that instruction, with every
operand at every value, and the words after it come back. -/
def Obligations.DecodeEncodeRoundTrip : Prop :=
  ∀ (i : Instr) (rest : List Word), i.wf = true → decode true (encode i ++ rest) = .ok (i, rest)

/-- R61, R66, R81, R85: what the decoder reads is well formed and has the opcode word it was read from; the
number of words read is one plus the instruction's extension words, at most five, and it follows from the opcode
word alone: any two readings of one opcode word take equally many words; and what follows does not matter. -/
def Obligations.DecodeIsSound : Prop :=
  ∀ (named : Bool) (op : Word) (ws rest : List Word) (i : Instr), decode named (op :: ws) = .ok (i, rest) →
    i.wf = true ∧ i.opcode = op ∧ ws.drop i.extWords.length = rest ∧
      ws.length = i.extWords.length + rest.length ∧ i.extWords.length ≤ 4 ∧
      (∀ more, decode named (op :: ws ++ more) = .ok (i, rest ++ more)) ∧
      (∀ (named' : Bool) (ws' rest' : List Word) (i' : Instr), decode named' (op :: ws') = .ok (i', rest') →
        ws'.length - rest'.length = ws.length - rest.length)

/-- R82: no two rows of the opcode table claim one word, and the decoder's row is the one that claims it. -/
def Obligations.OneRowClaimsAWord : Prop :=
  ∀ (named : Bool) (op : Word),
    (∀ r₁ ∈ opcodeTable, ∀ r₂ ∈ opcodeTable,
      r₁.claims named op = true → r₂.claims named op = true → r₁ = r₂) ∧
    (∀ m, lookup named op = some m ↔ ∃ r ∈ opcodeTable, r.claims named op = true ∧ r.row = m)

/-- R80: lines A and F hold no instruction, whatever `ADMIT_UNNAMED` is. -/
def Obligations.LinesAAndFAreUnknown : Prop :=
  ∀ (named : Bool) (op : Word), op.extractLsb' 12 4 = 0xA#4 ∨ op.extractLsb' 12 4 = 0xF#4 →
    lookup named op = none

/-- R81, R3: with `ADMIT_UNNAMED = false` the rows the source does not name are unknown, and so are the
register shifts AS and LS with a register count; every other word is looked up as with `true`. -/
def Obligations.UnnamedRowsRefused : Prop :=
  ∀ op : Word, lookup false op =
    (lookup true op).filter fun m =>
      !([.oriToCcr, .oriToSr, .andiToCcr, .andiToSr, .eoriToCcr, .eoriToSr, .swap, .extW, .extL, .tst, .tas,
          .trap, .suba, .cmpa, .cmpm, .exgDD, .exgAA, .exgDA, .adda, .asrMem, .aslMem, .lsrMem, .lslMem,
          .roxrReg, .roxrMem, .roxlReg, .roxlMem, .rorReg, .rorMem, .rolReg, .rolMem] : List Mnemonic).contains m
        && !(([.asrReg, .aslReg, .lsrReg, .lslReg] : List Mnemonic).contains m && op.getLsbD 5)

/-- Words written out from the spec's encodings, one for each file of instruction rules, decode to the
instruction they stand for.  A sanity statement. -/
def Obligations.SampleWordsDecode : Prop :=
  decode true [0x4E72, 0x2700] = .ok (.stop 0x2700, []) ∧
  decode true [0x1001] = .ok (.move .b (.dn 1) (.dn 0), []) ∧
  decode true [0x0680, 0x0000, 0x0001] = .ok (.addi .l 1 (.dn 0), []) ∧
  decode true [0xB380] = .ok (.eor .l 1 (.dn 0), []) ∧
  decode true [0xE188] = .ok (.lslReg .l (.imm 0) 0, []) ∧
  decode true [0x033C, 0x00F0] = .ok (.btstDn 1 (.imm 0xF0), []) ∧
  decode true [0xC109] = .ok (.abcd true 1 0, []) ∧
  decode true [0x43E8, 0x0010] = .ok (.lea (.disp 0 0x10) 1, [])

/-! ## Registers, memory, operands (10_state.md, 20_memory.md, 41_addressing.md) -/

/-- R24: A7 is SSP in supervisor mode and USP in user mode, for reads and writes; A0 to A6 are not banked;
and a write of SR switches what A7 denotes, with no copy. -/
def Obligations.StackPointerIsBanked : Prop :=
  ∀ s : State,
    (s.getA 7 = if s.flagS then s.ssp else s.usp) ∧
    (∀ v, s.setA 7 v = if s.flagS then { s with ssp := v } else { s with usp := v }) ∧
    (∀ (n : Fin 7) (v : Long), s.getA n.castSucc = s.a[n] ∧ s.setA n.castSucc v = { s with a := s.a.set n v }) ∧
    (∀ v, (s.setSr v).getA 7 = (if v.getLsbD 13 then s.ssp else s.usp) ∧
      (s.setSr v).usp = s.usp ∧ (s.setSr v).ssp = s.ssp)

/-- R29: every write of SR stores `v AND 0xA71F`, at reset too; a write of CCR keeps the upper byte and the
zeros of bits 7:5; and an instruction that is not one of the privileged SR writers leaves the upper byte. -/
def Obligations.StatusRegisterWrites : Prop :=
  (∀ (s : State) (v : Word), s.setSr v = { s with sr := v &&& 0xA71F#16 }) ∧
  (∀ (s : State) (c : Bool), (s.hostReset c).sr = s.cfg.srDefault &&& 0xA71F#16) ∧
  (∀ s : State, s.ccr = s.sr.extractLsb' 0 8) ∧
  (∀ (s : State) (b : Byte), s.setCcr b =
    { s with sr := (s.sr &&& 0xFF00#16) ||| (b.setWidth 16 &&& 0x001F#16) }) ∧
  (∀ (i : Instr) (s t : State), i.writesSr = false → exec i s = .next t →
    t.sr.extractLsb' 8 8 = s.sr.extractLsb' 8 8)

/-- R42, R43, R44, R46, R48: a write lays the value's bytes out high byte first at consecutive addresses modulo
2^32, a read composes them the same way, each byte accessed once, in ascending order; a fetch reads the words at PC.
R45, R51: plain RAM keeps every other byte, and a read changes nothing.  Any other `MEM` answers each byte by the
accesses made before it, so that a read can have side effects (the form of this answer is the model's, log 13). -/
def Obligations.MemoryIsBigEndian : Prop :=
  ∀ (s : State) (a : Long) (sz : Size) (v : Long),
    let byte := fun i : Nat => v.extractLsb' (8 * (sz.bytes - 1 - i)) 8
    let reads := fun (b : Long) (n : Nat) => (List.range n).map fun i => Config.Access.read (b + BitVec.ofNat 32 i)
    (s.memRead a sz).toNat < 2 ^ (8 * sz.bytes) ∧
    (s.cfg.mem = .ram →
      (∀ i : Nat, i < sz.bytes → (s.memWrite a sz v).readByte (a + BitVec.ofNat 32 i) = byte i) ∧
      (∀ i : Nat, i < sz.bytes → (s.memRead a sz).extractLsb' (8 * (sz.bytes - 1 - i)) 8 =
        s.readByte (a + BitVec.ofNat 32 i)) ∧
      (∀ b, ¬ within a sz.bytes b → (s.memWrite a sz v).readByte b = s.readByte b) ∧
      s.memWrite a sz v = { s with mem := (s.memWrite a sz v).mem } ∧
      s.afterRead a sz = s ∧ (∀ l, s.noteReads l = s) ∧
      (∀ n, s.skip n = { s with pc := s.pc + BitVec.ofNat 32 (2 * n) })) ∧
    (s.cfg.mem = .platform →
      (∀ b, s.readByte b = Config.platformByte s.bus b) ∧
      (∀ i : Nat, i < sz.bytes → (s.memRead a sz).extractLsb' (8 * (sz.bytes - 1 - i)) 8 =
        Config.platformByte (s.bus ++ reads a i) (a + BitVec.ofNat 32 i)) ∧
      s.memWrite a sz v = { s with
        bus := s.bus ++ (List.range sz.bytes).map (fun i => Config.Access.write (a + BitVec.ofNat 32 i) (byte i)) } ∧
      s.afterRead a sz = { s with bus := s.bus ++ reads a sz.bytes } ∧
      (∀ l, s.noteReads l = { s with bus := s.bus ++ l.map Config.Access.read }) ∧
      (∀ n, s.skip n = { s with pc := s.pc + BitVec.ofNat 32 (2 * n), bus := s.bus ++ reads s.pc (2 * n) }))

/-- R22, R113: a write to a data register or to memory leaves the value there, keeps a data register's bits
above the size, and changes nothing else; a write to an address register is of all 32 bits, and changes nothing else.
R112: a read of an operand reads memory for a memory location only; a source is resolved, then read.
The cases no admitted encoding reaches, a write to an immediate (it changes nothing) and an address register at size
byte, are the model's own choice (log 8). -/
def Obligations.OperandWrite : Prop :=
  ∀ (s : State) (sz : Size) (v : Long),
    (∀ l : Loc, (∀ n, l ≠ .areg n) → s.Wrote l sz v (s.writeEA l sz v) ∧
      s.writeEA l sz v = { s with d := (s.writeEA l sz v).d, mem := (s.writeEA l sz v).mem,
                                  bus := (s.writeEA l sz v).bus }) ∧
    (∀ n, (s.writeEA (.areg n) sz v).getA n = v ∧ (∀ m, m ≠ n → (s.writeEA (.areg n) sz v).getA m = s.getA m) ∧
      (s.writeEA (.areg n) sz v).inactiveSP = s.inactiveSP ∧
      s.writeEA (.areg n) sz v = { s with a := (s.writeEA (.areg n) sz v).a, usp := (s.writeEA (.areg n) sz v).usp,
                                          ssp := (s.writeEA (.areg n) sz v).ssp }) ∧
    (∀ n, s.readEA (.dreg n) sz = trunc sz (s.getD n) ∧ s.afterReadEA (.dreg n) sz = s) ∧
    (∀ n, s.readEA (.areg n) sz = trunc sz (s.getA n) ∧ s.afterReadEA (.areg n) sz = s) ∧
    (∀ w, s.readEA (.imm w) sz = trunc sz w ∧ s.afterReadEA (.imm w) sz = s) ∧
    (∀ a, s.readEA (.mem a) sz = s.memRead a sz ∧ s.afterReadEA (.mem a) sz = s.afterRead a sz) ∧
    (∀ e, s.fetchEA e sz = ((s.resolve e sz).2.readEA (s.resolve e sz).1 sz,
      (s.resolve e sz).2.afterReadEA (s.resolve e sz).1 sz))

/-- R106, R107, R108, R109, R110: the location each addressing mode resolves to, the register update of
(An)+ and -(An), and the fetch of the mode's extension words; nothing else changes. -/
def Obligations.AddressingModes : Prop :=
  ∀ (s : State) (sz : Size),
    let step := fun (n : Reg) => match sz with
      | .b => if n = 7 then (match s.cfg.a7ByteStep with
          | .one => 1#32
          | .two => 2#32) else 1#32
      | .w => 2#32
      | .l => 4#32
    let idx := fun (x : Index) =>
      let r := if x.isAddr then s.getA x.reg else s.getD x.reg
      x.disp.signExtend 32 + (if x.long then r else (r.extractLsb' 0 16).signExtend 32)
    (∀ n, s.resolve (.dn n) sz = (.dreg n, s)) ∧
    (∀ n, s.resolve (.an n) sz = (.areg n, s)) ∧
    (∀ n, s.resolve (.ind n) sz = (.mem (s.getA n), s)) ∧
    (∀ n, s.resolve (.postInc n) sz = (.mem (s.getA n), s.setA n (s.getA n + step n))) ∧
    (∀ n, s.resolve (.preDec n) sz = (.mem (s.getA n - step n), s.setA n (s.getA n - step n))) ∧
    (∀ n d, s.resolve (.disp n d) sz = (.mem (s.getA n + d.signExtend 32), s.skip 1)) ∧
    (∀ n x, s.resolve (.index n x) sz = (.mem (s.getA n + idx x), s.skip 1)) ∧
    (∀ a, s.resolve (.absW a) sz = (.mem (a.signExtend 32), s.skip 1)) ∧
    (∀ a, s.resolve (.absL a) sz = (.mem a, s.skip 2)) ∧
    (∀ d, s.resolve (.pcDisp d) sz = (.mem (s.pc + d.signExtend 32), s.skip 1)) ∧
    (∀ x, s.resolve (.pcIndex x) sz = (.mem (s.pc + idx x), s.skip 1)) ∧
    (∀ v, s.resolve (.imm v) sz = (.imm v, s.skip (if sz = .l then 2 else 1)))

/-! ## Flags and the shared functions (10_state.md, 44_arith.md, 46_shift.md) -/

/-- R150, R151, R31: on operands of a size, Add and Sub give the sum and the difference modulo 2^size; C is the
unsigned carry or borrow out of the size, V the signed overflow of the exact sum or difference. -/
def Obligations.AddAndSubLaws : Prop :=
  ∀ (sz : Size) (d v : Long) (x : Bool), trunc sz d = d → trunc sz v = v →
    ((add sz d v x).res.toNat = (d.toNat + v.toNat + x.toNat) % 2 ^ sz.bits ∧
      ((add sz d v x).c = true ↔ 2 ^ sz.bits ≤ d.toNat + v.toNat + x.toNat) ∧
      ((add sz d v x).v = true ↔ (signed sz d + signed sz v + x.toNat < -2 ^ (sz.bits - 1) ∨
        2 ^ (sz.bits - 1) ≤ signed sz d + signed sz v + x.toNat))) ∧
    (((sub sz d v x).res.toNat : Int) = ((d.toNat : Int) - v.toNat - x.toNat) % 2 ^ sz.bits ∧
      ((sub sz d v x).c = true ↔ d.toNat < v.toNat + x.toNat) ∧
      ((sub sz d v x).v = true ↔ (signed sz d - signed sz v - x.toNat < -2 ^ (sz.bits - 1) ∨
        2 ^ (sz.bits - 1) ≤ signed sz d - signed sz v - x.toNat)))

/-- R35: the condition each field value names, and its truth function; X takes no part. -/
def Obligations.ConditionTable : Prop :=
  ∀ f : Flags,
    (Cond.ofBits 0b0000).holds f = true ∧
    (Cond.ofBits 0b0001).holds f = false ∧
    ((Cond.ofBits 0b0010).holds f = true ↔ (¬ f.c = true ∧ ¬ f.z = true)) ∧
    ((Cond.ofBits 0b0011).holds f = true ↔ (f.c = true ∨ f.z = true)) ∧
    ((Cond.ofBits 0b0100).holds f = true ↔ ¬ f.c = true) ∧
    ((Cond.ofBits 0b0101).holds f = true ↔ f.c = true) ∧
    ((Cond.ofBits 0b0110).holds f = true ↔ ¬ f.z = true) ∧
    ((Cond.ofBits 0b0111).holds f = true ↔ f.z = true) ∧
    ((Cond.ofBits 0b1000).holds f = true ↔ ¬ f.v = true) ∧
    ((Cond.ofBits 0b1001).holds f = true ↔ f.v = true) ∧
    ((Cond.ofBits 0b1010).holds f = true ↔ ¬ f.n = true) ∧
    ((Cond.ofBits 0b1011).holds f = true ↔ f.n = true) ∧
    ((Cond.ofBits 0b1100).holds f = true ↔ f.n = f.v) ∧
    ((Cond.ofBits 0b1101).holds f = true ↔ f.n ≠ f.v) ∧
    ((Cond.ofBits 0b1110).holds f = true ↔ (¬ f.z = true ∧ f.n = f.v)) ∧
    ((Cond.ofBits 0b1111).holds f = true ↔ (f.z = true ∨ f.n ≠ f.v)) ∧
    (∀ (c : Cond) (x : Bool), c.holds { f with x := x } = c.holds f)

/-- R31, R35, R151, R152: after a compare of `d` with `v` the conditions mean what they are named for: HI, LS,
CC, CS compare unsigned, GE, LT, GT, LE compare signed, NE and EQ compare. -/
def Obligations.CompareMeetsConditions : Prop :=
  ∀ (sz : Size) (d v : Long) (f : Flags), trunc sz d = d → trunc sz v = v →
    let g := cmpFlags sz (sub sz d v false) f
    (Cond.hi.holds g = true ↔ v.toNat < d.toNat) ∧ (Cond.ls.holds g = true ↔ d.toNat ≤ v.toNat) ∧
    (Cond.cc.holds g = true ↔ v.toNat ≤ d.toNat) ∧ (Cond.cs.holds g = true ↔ d.toNat < v.toNat) ∧
    (Cond.ne.holds g = true ↔ d ≠ v) ∧ (Cond.eq.holds g = true ↔ d = v) ∧
    (Cond.ge.holds g = true ↔ signed sz v ≤ signed sz d) ∧ (Cond.lt.holds g = true ↔ signed sz d < signed sz v) ∧
    (Cond.gt.holds g = true ↔ signed sz v < signed sz d) ∧ (Cond.le.holds g = true ↔ signed sz d ≤ signed sz v)

/-- R189: the results of the shifts and rotates, for every count.  A left shift multiplies modulo 2^w, a
logical right shift divides, an arithmetic right shift divides the signed value rounding down; RO moves bit `j`
to bit `j + n` of a ring of `w` bits, and ROX of a ring of `w + 1` bits, X being its top bit. -/
def Obligations.ShiftResults : Prop :=
  ∀ (sz : Size) (v : Long) (n : Nat) (f : Flags), trunc sz v = v →
    let ring := fun (w : Long) (x : Bool) (j : Nat) => if j = sz.bits then x else w.getLsbD j
    (∀ kind left, trunc sz (shift kind left sz v n f).1 = (shift kind left sz v n f).1) ∧
    (shift .as true sz v n f).1.toNat = v.toNat * 2 ^ n % 2 ^ sz.bits ∧
    (shift .ls true sz v n f).1.toNat = v.toNat * 2 ^ n % 2 ^ sz.bits ∧
    (shift .ls false sz v n f).1.toNat = v.toNat / 2 ^ n ∧
    signed sz (shift .as false sz v n f).1 = signed sz v / 2 ^ n ∧
    (∀ j, j < sz.bits →
      (shift .ro true sz v n f).1.getLsbD ((j + n) % sz.bits) = v.getLsbD j ∧
      (shift .ro false sz v n f).1.getLsbD j = v.getLsbD ((j + n) % sz.bits)) ∧
    (∀ j, j ≤ sz.bits →
      ring (shift .rox true sz v n f).1 (shift .rox true sz v n f).2.x ((j + n) % (sz.bits + 1)) = ring v f.x j ∧
      ring (shift .rox false sz v n f).1 (shift .rox false sz v n f).2.x j = ring v f.x ((j + n) % (sz.bits + 1)))

/-- R189: the flags of the shifts and rotates, for every count.  N and Z come from the result; V is set only by
ASL, when the sign bit changes at a step; C is the last bit out, 0 for a count of 0, and X for ROX; X follows
C in AS and LS with a count above 0 and in ROX, and stays otherwise. -/
def Obligations.ShiftFlags : Prop :=
  ∀ (sz : Size) (v : Long) (n : Nat) (f : Flags), trunc sz v = v →
    (∀ kind left, (shift kind left sz v n f).2.n = (shift kind left sz v n f).1.getLsbD (sz.bits - 1) ∧
      ((shift kind left sz v n f).2.z = true ↔ (shift kind left sz v n f).1 = 0) ∧
      ((shift kind left sz v n f).2.v = true ↔ (kind = .as ∧ left = true ∧
        ∃ k, k < n ∧ (v.toNat * 2 ^ k).testBit (sz.bits - 1) ≠ (v.toNat * 2 ^ (k + 1)).testBit (sz.bits - 1)))) ∧
    (∀ kind left, kind ≠ .rox → n = 0 → (shift kind left sz v n f).2.c = false ∧ (shift kind left sz v n f).2.x = f.x) ∧
    (∀ left, (shift .rox left sz v n f).2.c = (shift .rox left sz v n f).2.x) ∧
    (∀ left, (shift .ro left sz v n f).2.x = f.x) ∧
    (0 < n →
      (∀ left, (shift .as left sz v n f).2.x = (shift .as left sz v n f).2.c ∧
        (shift .ls left sz v n f).2.x = (shift .ls left sz v n f).2.c) ∧
      (shift .as true sz v n f).2.c = (v.toNat * 2 ^ n).testBit sz.bits ∧
      (shift .ls true sz v n f).2.c = (v.toNat * 2 ^ n).testBit sz.bits ∧
      (shift .ls false sz v n f).2.c = v.toNat.testBit (n - 1) ∧
      ((shift .as false sz v n f).2.c = true ↔ (signed sz v / 2 ^ (n - 1)) % 2 = 1) ∧
      (shift .ro true sz v n f).2.c = (shift .ro true sz v n f).1.getLsbD 0 ∧
      (shift .ro false sz v n f).2.c = (shift .ro false sz v n f).1.getLsbD (sz.bits - 1))

/-! ## Control and system instructions (42_control_system.md) -/

/-- R118, R121: NOP does nothing, and in supervisor mode the RESET instruction does nothing. -/
def Obligations.NopAndResetDoNothing : Prop :=
  ∀ s : State, exec .nop s = .next s ∧ (s.flagS = true → exec .reset s = .next s)

/-- R119, R104: RTS pops a long into PC; where it is at most `EXIT_THRESHOLD`, unsigned, the engine stops with
ProgramExit.  Nothing else changes. -/
def Obligations.RtsReturnsOrExits : Prop :=
  ∀ s : State,
    let v := s.memRead (s.getA 7) .l
    let u := { (s.afterRead (s.getA 7) .l).setA 7 (s.getA 7 + 4) with pc := v }
    (s.cfg.exitThreshold.toNat < v.toNat → exec .rts s = .next u) ∧
    (v.toNat ≤ s.cfg.exitThreshold.toNat → exec .rts s = .next
      { u with running := false,
               stopRecord := some { kind := .programExit, opcode := 0x4E75#16, faultPC := s.pc - 2,
                                    info := some (v.toNat : Int) } })

/-- R120, R123: RTE in supervisor mode pops SR and PC from SSP; RTR pops the condition codes and PC from A7 and
keeps the upper byte of SR.  Nothing else changes. -/
def Obligations.RteAndRtrRestore : Prop :=
  ∀ s : State,
    (s.flagS = true →
      let p := s.afterRead s.ssp .w
      exec .rte s = .next
        { p.afterRead (s.ssp + 2) .l with
          ssp := s.ssp + 6, sr := (s.memRead s.ssp .w).setWidth 16 &&& 0xA71F#16, pc := p.memRead (s.ssp + 2) .l }) ∧
    (let p := s.afterRead (s.getA 7) .w
     ∃ w : Word, exec .rtr s = .next
        { (p.afterRead (s.getA 7 + 2) .l).setA 7 (s.getA 7 + 6) with
          sr := w, pc := p.memRead (s.getA 7 + 2) .l } ∧
      w.extractLsb' 8 8 = s.sr.extractLsb' 8 8 ∧
      w.extractLsb' 0 8 = (s.memRead (s.getA 7) .w).extractLsb' 0 8 &&& 0x1F#8)

/-- R122: STOP in supervisor mode loads SR, passes its immediate word and stops the engine with kind Stop.
R135, R136, R137, R218, R225: TRAP and ILLEGAL always stop the engine, TRAPV when V is set, TRAPcc when its
condition holds, after passing its operand words; otherwise TRAPV and TRAPcc do nothing.  A stop writes
`running` and the stop record and nothing else. -/
def Obligations.StopAndTrapsStopTheEngine : Prop :=
  (∀ (imm : Word) (s : State), s.flagS = true → exec (.stop imm) s = .next
     { s.skip 1 with
       sr := imm &&& 0xA71F#16, running := false,
       stopRecord := some { kind := .stop, opcode := 0x4E72#16, faultPC := s.pc - 2,
                            info := some (imm.toNat : Int) } }) ∧
  (∀ s : State,
     let stopped := fun (u : State) (kind : HaltKind) (op : Word) (info : Option Int) =>
       { u with running := false,
                stopRecord := some { kind := kind, opcode := op, faultPC := s.pc - 2, info := info } }
     (∀ v : BitVec 4, exec (.trap v) s =
       .next (stopped s .trap (0x4E40#16 ||| v.setWidth 16) (some (v.toNat : Int)))) ∧
     exec .illegal s = .next (stopped s .illegalInstruction 0x4AFC#16 none) ∧
     (s.flagV = true → exec .trapv s = .next (stopped s .trapOverflow 0x4E76#16 none)) ∧
     (s.flagV = false → exec .trapv s = .next s) ∧
     (∀ (c : Cond) (o : TrapOperand),
       let u := s.skip (match o with
         | .none => 0
         | .word _ => 1
         | .long _ => 2)
       (c.holds s.flags = true → exec (.trapcc c o) s =
         .next (stopped u .trapCC (Instr.trapcc c o).opcode none)) ∧
       (c.holds s.flags = false → exec (.trapcc c o) s = .next u)))

/-- R126, R129, R130, R131: the writers of CCR set its bits 4:0, keep its bits 7:5 at 0 and keep the upper byte
of SR; nothing else changes.
R124, R132, R133, R134: in supervisor mode the writers of SR store their value AND 0xA71F; nothing else
changes beside the source operand's register update and PC. -/
def Obligations.StatusWriters : Prop :=
  (∀ s : State,
     let wrote := fun (u : State) (b : Byte) (o : Host.Outcome State Fault Refusal) =>
       ∃ w : Word, o = .next { u with sr := w } ∧ w.extractLsb' 8 8 = s.sr.extractLsb' 8 8 ∧
         w.extractLsb' 0 8 = b &&& 0x1F#8
     (∀ b, wrote (s.skip 1) (s.sr.extractLsb' 0 8 ||| b) (exec (.oriToCcr b) s)) ∧
     (∀ b, wrote (s.skip 1) (s.sr.extractLsb' 0 8 &&& b) (exec (.andiToCcr b) s)) ∧
     (∀ b, wrote (s.skip 1) (s.sr.extractLsb' 0 8 ^^^ b) (exec (.eoriToCcr b) s)) ∧
     (∀ ea, ea.ok .data .w = true →
       wrote (s.fetchEA ea .w).2 ((s.fetchEA ea .w).1.extractLsb' 0 8) (exec (.moveToCcr ea) s))) ∧
  (∀ s : State, s.flagS = true →
     (∀ w, exec (.oriToSr w) s = .next { s.skip 1 with sr := (s.sr ||| w) &&& 0xA71F#16 }) ∧
     (∀ w, exec (.andiToSr w) s = .next { s.skip 1 with sr := (s.sr &&& w) &&& 0xA71F#16 }) ∧
     (∀ w, exec (.eoriToSr w) s = .next { s.skip 1 with sr := (s.sr ^^^ w) &&& 0xA71F#16 }) ∧
     (∀ ea, ea.ok .data .w = true → exec (.moveToSr ea) s = .next
       { (s.fetchEA ea .w).2 with sr := (s.fetchEA ea .w).1.extractLsb' 0 16 &&& 0xA71F#16 }))

/-- R125, R127: MOVE from SR and MOVE from CCR write a word to their destination, in either mode; nothing else
changes beside the destination's register update and PC.
R128: in supervisor mode MOVE An,USP writes USP and MOVE USP,An writes An, all 32 bits; nothing else
changes. -/
def Obligations.StatusAndUspMoves : Prop :=
  (∀ (ea : EA) (s : State), ea.ok .DA .w = true →
     let l := (s.resolve ea .w).1
     let u := (s.resolve ea .w).2
     (∃ t, exec (.moveFromSr ea) s = .next t ∧ u.Effect l .w (s.sr.setWidth 32) s.flags t) ∧
     (∃ t, exec (.moveFromCcr ea) s = .next t ∧ u.Effect l .w ((s.sr &&& 0xFF#16).setWidth 32) s.flags t)) ∧
  (∀ (a : Reg) (s : State), s.flagS = true →
     exec (.moveToUsp a) s = .next { s with usp := s.getA a } ∧
     (∃ t, exec (.moveFromUsp a) s = .next t ∧ t.getA a = s.usp ∧ (∀ n, n ≠ a → t.getA n = s.getA n) ∧
       t = { s with a := t.a, ssp := t.ssp }))

/-- R232: with S = 0 every privileged instruction stops the engine with PrivilegeViolation before it fetches
or changes anything. -/
def Obligations.PrivilegeViolation : Prop :=
  ∀ (i : Instr) (s : State), i.privileged = true → i.wf = true → s.flagS = false → exec i s = .next
    { s with running := false,
             stopRecord := some { kind := .privilegeViolation, opcode := i.opcode, faultPC := s.pc - 2,
                                  info := none } }

/-- R138: CHK of a word between 0 and the bound changes no more than N, Z, V and C (which the spec leaves
open); a word below 0 or above the bound stops the engine with ChkBound, N telling which. -/
def Obligations.ChkChecksBounds : Prop :=
  ∀ (ea : EA) (d : Reg) (s : State), ea.ok .data .w = true →
    let u := (s.fetchEA ea .w).2
    let ub := ((s.fetchEA ea .w).1.extractLsb' 0 16).toInt
    let x := ((s.getD d).extractLsb' 0 16).toInt
    (0 ≤ x → x ≤ ub → ∃ t, exec (.chk ea d) s = .next t ∧ t = { u with sr := t.sr, draws := t.draws } ∧
      ∀ k, 4 ≤ k → t.sr.getLsbD k = s.sr.getLsbD k) ∧
    (x < 0 ∨ ub < x → ∃ t, exec (.chk ea d) s = .next t ∧
      u.DrewAndHalted .chkBound (Instr.chk ea d).opcode (s.pc - 2) (some x) t ∧ t.flagN = decide (x < 0))

/-- R139: CAS compares as CMP does and sets N, Z, V, C; where the operand equals Dc it writes Du to it, and
otherwise it writes the operand to Dc and no memory. -/
def Obligations.CasSwapsOrLoads : Prop :=
  ∀ (sz : Size) (dc du : Reg) (ea : EA) (s : State), ea.ok .MA sz = true →
    let u := ((s.skip 1).resolve ea sz).2
    let l := ((s.skip 1).resolve ea sz).1
    let m := u.readEA l sz
    let r := sub sz m (trunc sz (s.getD dc)) false
    (trunc sz (s.getD dc) = m → ∃ t, exec (.cas sz dc du ea) s = .next t ∧
      (u.afterReadEA l sz).Effect l sz (s.getD du) { x := s.flagX, n := false, z := true, v := false, c := false } t) ∧
    (trunc sz (s.getD dc) ≠ m → ∃ t, exec (.cas sz dc du ea) s = .next t ∧
      (u.afterReadEA l sz).Effect (.dreg dc) sz m { x := s.flagX, n := msb sz r.res, z := false, v := r.v, c := r.c } t)

/-! ## Data movement (43_move.md) -/

/-- R140: MOVEQ writes its sign-extended byte to all 32 bits and sets N and Z from it.
R141, R142, R115: MOVE reads its source before it resolves its destination, writes it and sets N and Z;
MOVEA writes all 32 bits of an address register, a word sign-extended, and no flag. -/
def Obligations.Moves : Prop :=
  (∀ (k : Byte) (d : Reg) (s : State), ∃ t, exec (.moveq k d) s = .next t ∧
     s.Effect (.dreg d) .l (k.signExtend 32)
       { x := s.flagX, n := k.getLsbD 7, z := decide (k = 0), v := false, c := false } t) ∧
  (∀ (sz : Size) (src : EA) (s : State),
     let v := (s.fetchEA src sz).1
     let u := (s.fetchEA src sz).2
     (∀ dst : EA, src.ok (.source sz) sz = true → dst.ok .DA sz = true →
       ∃ t, exec (.move sz src dst) s = .next t ∧
         (u.resolve dst sz).2.Effect (u.resolve dst sz).1 sz v (moveFlags sz v s.flagX) t) ∧
     (∀ a : Reg, sz ≠ .b → src.ok .all sz = true → ∃ t, exec (.movea sz src a) s = .next t ∧
       t.getA a = (if sz = .w then (v.extractLsb' 0 16).signExtend 32 else v) ∧
       (∀ n, n ≠ a → t.getA n = u.getA n) ∧ t.inactiveSP = u.inactiveSP ∧
       t = { u with a := t.a, usp := t.usp, ssp := t.ssp }))

/-- R143, R144: MOVEM to memory.  To a control address the selected registers, D0 first, stand at rising
addresses from it; to -(An) they end below the old An, D0 lowest, each register's value the one from before, and
An is left at the lowest.  The stores are made in that order, mask bit 0 first.  No other byte and no other register
changes. -/
def Obligations.MovemStores : Prop :=
  ∀ (sz : Size) (mask : Word) (s : State), sz ≠ .b →
    let size := fun n => BitVec.ofNat 32 (sz.bytes * n)
    let p := s.skip 1
    (∀ ea, ea.ok .CA sz = true → ∃ base, (p.resolve ea sz).1 = .mem base ∧
      let u := (p.resolve ea sz).2
      ∃ t, exec (.movemToMem sz mask ea) s = .next t ∧
        (s.cfg.mem = .ram → ∀ i : Fin 16, mask.getLsbD i = true →
          t.memRead (base + size (maskRank mask i)) sz = trunc sz (s.getListed i)) ∧
        u.Stored ((List.finRange 16).flatMap fun i : Fin 16 => if mask.getLsbD i then
            storeAccesses (base + size (maskRank mask i)) sz (s.getListed i) else [])
          (within base (sz.bytes * maskRank mask 16)) t ∧
        t = { u with mem := t.mem, bus := t.bus }) ∧
    (∀ n, ∃ t, exec (.movemToMem sz mask (.preDec n)) s = .next t ∧
        (s.cfg.mem = .ram → ∀ i : Fin 16, mask.getLsbD i = true →
          t.memRead (s.getA n - size (maskRank mask (i + 1))) sz = trunc sz (s.getListed i.rev)) ∧
        p.Stored ((List.finRange 16).flatMap fun i : Fin 16 => if mask.getLsbD i then
            storeAccesses (s.getA n - size (maskRank mask (i + 1))) sz (s.getListed i.rev) else [])
          (within (s.getA n - size (maskRank mask 16)) (sz.bytes * maskRank mask 16)) t ∧
        t = { p.setA n (s.getA n - size (maskRank mask 16)) with mem := t.mem, bus := t.bus })

/-- R143, R144: MOVEM from memory.  The selected registers are loaded from rising addresses, D0 first, all 32
bits, a word sign-extended; from (An)+ the register An ends past the last one, loaded or not.  No other
register, no flag and no byte changes. -/
def Obligations.MovemLoads : Prop :=
  ∀ (sz : Size) (mask : Word) (s : State), sz ≠ .b →
    let size := fun n => BitVec.ofNat 32 (sz.bytes * n)
    let p := s.skip 1
    let seen := fun (u : State) (base : Long) (i : Nat) => u.noteReads (span base (sz.bytes * maskRank mask i))
    let load := fun (u : State) (base : Long) (i : Fin 16) =>
      let v := (seen u base i).memRead (base + size (maskRank mask i)) sz
      if sz = .w then (v.extractLsb' 0 16).signExtend 32 else v
    (∀ ea, ea.ok .ctrl sz = true → ∃ base, (p.resolve ea sz).1 = .mem base ∧
      let u := (p.resolve ea sz).2
      ∃ t, exec (.movemToReg sz mask ea) s = .next t ∧
        (∀ i : Fin 16, t.getListed i = if mask.getLsbD i then load u base i else s.getListed i) ∧
        t.inactiveSP = s.inactiveSP ∧
        t = { seen u base 16 with d := t.d, a := t.a, usp := t.usp, ssp := t.ssp }) ∧
    (∀ n, ∃ t, exec (.movemToReg sz mask (.postInc n)) s = .next t ∧
        t.getA n = s.getA n + size (maskRank mask 16) ∧
        (∀ i : Fin 16, i.val ≠ n.val + 8 → t.getListed i =
          if mask.getLsbD i then load p (s.getA n) i else s.getListed i) ∧
        t.inactiveSP = s.inactiveSP ∧
        t = { seen p (s.getA n) 16 with d := t.d, a := t.a, usp := t.usp, ssp := t.ssp })

/-- R145: MOVEP moves two or four bytes between a data register, high byte first, and every second address;
the bytes in between, every other register and the flags stay. -/
def Obligations.MovepStrides : Prop :=
  ∀ (d : Reg) (long : Bool) (a : Reg) (disp : Word) (s : State),
    let base := s.getA a + disp.signExtend 32
    let k := if long then 4 else 2
    let byte := fun i : Nat => (s.getD d).extractLsb' (8 * (k - 1 - i)) 8
    let places := fun n : Nat => (List.range n).map fun i => base + BitVec.ofNat 32 (2 * i)
    (∃ t, exec (.movep d true long a disp) s = .next t ∧
      (s.cfg.mem = .ram → ∀ i, i < k → t.readByte (base + BitVec.ofNat 32 (2 * i)) = byte i) ∧
      (s.skip 1).Stored ((List.range k).map fun i => .write (base + BitVec.ofNat 32 (2 * i)) (byte i))
        (fun b => b ∈ places k) t ∧
      t = { s.skip 1 with mem := t.mem, bus := t.bus }) ∧
    (∃ t, exec (.movep d false long a disp) s = .next t ∧
      (∀ i, i < k → (t.getD d).extractLsb' (8 * (k - 1 - i)) 8 =
        ((s.skip 1).noteReads (places i)).readByte (base + BitVec.ofNat 32 (2 * i))) ∧
      (∀ j, 8 * k ≤ j → (t.getD d).getLsbD j = (s.getD d).getLsbD j) ∧
      (∀ n, n ≠ d → t.getD n = s.getD n) ∧ t = { (s.skip 1).noteReads (places k) with d := t.d })

/-- R146: the three forms of EXG swap two registers, all 32 bits, and change nothing else.
R147, R148: SWAP exchanges the halves of a data register, EXT extends the sign of its low byte or word;
each sets N and Z from the result. -/
def Obligations.ExgSwapAndExt : Prop :=
  (∀ (x y : Reg) (s : State),
     (∃ t, exec (.exgDD x y) s = .next t ∧ t.getD x = s.getD y ∧ t.getD y = s.getD x ∧
       (∀ n, n ≠ x → n ≠ y → t.getD n = s.getD n) ∧ t = { s with d := t.d }) ∧
     (∃ t, exec (.exgAA x y) s = .next t ∧ t.getA x = s.getA y ∧ t.getA y = s.getA x ∧
       (∀ n, n ≠ x → n ≠ y → t.getA n = s.getA n) ∧ t.inactiveSP = s.inactiveSP ∧
       t = { s with a := t.a, usp := t.usp, ssp := t.ssp }) ∧
     (∃ t, exec (.exgDA x y) s = .next t ∧ t.getD x = s.getA y ∧ t.getA y = s.getD x ∧
       (∀ n, n ≠ x → t.getD n = s.getD n) ∧ (∀ n, n ≠ y → t.getA n = s.getA n) ∧ t.inactiveSP = s.inactiveSP ∧
       t = { s with d := t.d, a := t.a, usp := t.usp, ssp := t.ssp })) ∧
  (∀ (d : Reg) (s : State),
     let r := s.getD d
     let swapped : Long := r.extractLsb' 0 16 ++ r.extractLsb' 16 16
     let low : Long := ((r.extractLsb' 0 8).signExtend 16).setWidth 32
     let all : Long := (r.extractLsb' 0 16).signExtend 32
     (∃ t, exec (.swap d) s = .next t ∧ s.Effect (.dreg d) .l swapped (moveFlags .l swapped s.flagX) t) ∧
     (∃ t, exec (.extW d) s = .next t ∧ s.Effect (.dreg d) .w low (moveFlags .w low s.flagX) t) ∧
     (∃ t, exec (.extL d) s = .next t ∧ s.Effect (.dreg d) .l all (moveFlags .l all s.flagX) t))

/-! ## Integer arithmetic (44_arith.md) -/

/-- R153, R158: ADD and SUB, both directions, write the sum or the difference to their destination and set X, N,
Z, V and C from it.
R154, R159: ADDA and SUBA add or subtract at 32 bits, a word source sign-extended, to an address register as
the source operand's update left it, and set no flag. -/
def Obligations.AddAndSubRegisters : Prop :=
  (∀ (op : SumOp) (sz : Size) (ea : EA) (d : Reg) (s : State),
     let flags := fun (r : Sum) =>
       ({ x := r.c, n := msb sz r.res, z := decide (r.res = 0), v := r.v, c := r.c } : Flags)
     (ea.ok (.source sz) sz = true →
       let v := (s.fetchEA ea sz).1
       let u := (s.fetchEA ea sz).2
       let r := op sz (trunc sz (s.getD d)) v false
       (op = add → ∃ t, exec (.addEaDn sz ea d) s = .next t ∧ u.Effect (.dreg d) sz r.res (flags r) t) ∧
       (op = sub → ∃ t, exec (.subEaDn sz ea d) s = .next t ∧ u.Effect (.dreg d) sz r.res (flags r) t)) ∧
     (ea.ok .MA sz = true →
       let l := (s.resolve ea sz).1
       let u := (s.resolve ea sz).2
       let r := op sz (u.readEA l sz) (trunc sz (s.getD d)) false
       (op = add → ∃ t, exec (.addDnEa sz d ea) s = .next t ∧ (u.afterReadEA l sz).Effect l sz r.res (flags r) t) ∧
       (op = sub → ∃ t, exec (.subDnEa sz d ea) s = .next t ∧ (u.afterReadEA l sz).Effect l sz r.res (flags r) t))) ∧
  (∀ (sz : Size) (ea : EA) (a : Reg) (s : State), sz ≠ .b → ea.ok .all sz = true →
     let u := (s.fetchEA ea sz).2
     let v := if sz = .w then ((s.fetchEA ea sz).1.extractLsb' 0 16).signExtend 32 else (s.fetchEA ea sz).1
     exec (.adda sz ea a) s = .next (u.setA a (u.getA a + v)) ∧
     exec (.suba sz ea a) s = .next (u.setA a (u.getA a - v)))

/-- R155, R156, R160, R161: ADDI, SUBI, ADDQ and SUBQ add or subtract an immediate (for the quick forms 1 to 8)
and set X, N, Z, V and C; to an address register the quick forms add all 32 bits and set no flag. -/
def Obligations.AddAndSubImmediate : Prop :=
  ∀ (op : SumOp) (sz : Size) (s : State),
    let flags := fun (r : Sum) =>
      ({ x := r.c, n := msb sz r.res, z := decide (r.res = 0), v := r.v, c := r.c } : Flags)
    (∀ (imm : Long) (ea : EA), sz.fits imm = true → ea.ok .DA sz = true →
      let p := s.skip (if sz = .l then 2 else 1)
      let l := (p.resolve ea sz).1
      let u := (p.resolve ea sz).2
      let r := op sz (u.readEA l sz) imm false
      (op = add → ∃ t, exec (.addi sz imm ea) s = .next t ∧ (u.afterReadEA l sz).Effect l sz r.res (flags r) t) ∧
      (op = sub → ∃ t, exec (.subi sz imm ea) s = .next t ∧ (u.afterReadEA l sz).Effect l sz r.res (flags r) t)) ∧
    (∀ (q : BitVec 3) (ea : EA), ea.ok .DA sz = true →
      let k : Long := if q.toNat = 0 then 8 else BitVec.ofNat 32 q.toNat
      let l := (s.resolve ea sz).1
      let u := (s.resolve ea sz).2
      let r := op sz (u.readEA l sz) k false
      (op = add → ∃ t, exec (.addq q sz ea) s = .next t ∧ (u.afterReadEA l sz).Effect l sz r.res (flags r) t) ∧
      (op = sub → ∃ t, exec (.subq q sz ea) s = .next t ∧ (u.afterReadEA l sz).Effect l sz r.res (flags r) t)) ∧
    (∀ (q : BitVec 3) (n : Reg), sz ≠ .b →
      let k : Long := if q.toNat = 0 then 8 else BitVec.ofNat 32 q.toNat
      exec (.addq q sz (.an n)) s = .next (s.setA n (s.getA n + k)) ∧
      exec (.subq q sz (.an n)) s = .next (s.setA n (s.getA n - k)))

/-- R157, R162, R163, R164: ADDX, SUBX and NEGX take X in, and only clear Z; NEG sets Z from the result.  In the
memory form of ADDX and SUBX the source's predecrement comes first. -/
def Obligations.ExtendedArithmetic : Prop :=
  ∀ (sz : Size) (s : State),
    let flags := fun (r : Sum) =>
      ({ x := r.c, n := msb sz r.res, z := s.flagZ && decide (r.res = 0), v := r.v, c := r.c } : Flags)
    (∀ y x : Reg,
      let a := add sz (trunc sz (s.getD x)) (trunc sz (s.getD y)) s.flagX
      let b := sub sz (trunc sz (s.getD x)) (trunc sz (s.getD y)) s.flagX
      (∃ t, exec (.addx sz false y x) s = .next t ∧ s.Effect (.dreg x) sz a.res (flags a) t) ∧
      (∃ t, exec (.subx sz false y x) s = .next t ∧ s.Effect (.dreg x) sz b.res (flags b) t)) ∧
    (∀ y x : Reg,
      let v := (s.fetchEA (.preDec y) sz).1
      let l := ((s.fetchEA (.preDec y) sz).2.resolve (.preDec x) sz).1
      let u := ((s.fetchEA (.preDec y) sz).2.resolve (.preDec x) sz).2
      let a := add sz (u.readEA l sz) v s.flagX
      let b := sub sz (u.readEA l sz) v s.flagX
      (∃ t, exec (.addx sz true y x) s = .next t ∧ (u.afterReadEA l sz).Effect l sz a.res (flags a) t) ∧
      (∃ t, exec (.subx sz true y x) s = .next t ∧ (u.afterReadEA l sz).Effect l sz b.res (flags b) t)) ∧
    (∀ ea : EA, ea.ok .DA sz = true →
      let l := (s.resolve ea sz).1
      let u := (s.resolve ea sz).2
      let a := sub sz 0 (u.readEA l sz) s.flagX
      let b := sub sz 0 (u.readEA l sz) false
      (∃ t, exec (.negx sz ea) s = .next t ∧ (u.afterReadEA l sz).Effect l sz a.res (flags a) t) ∧
      (∃ t, exec (.neg sz ea) s = .next t ∧ (u.afterReadEA l sz).Effect l sz b.res
        { x := b.c, n := msb sz b.res, z := decide (b.res = 0), v := b.v, c := b.c } t))

/-- R165, R166, R167, R168: the compares set N, Z, V and C from the difference, keep X, and change nothing but
the flags, PC and the registers of (An)+ and -(An). -/
def Obligations.Compares : Prop :=
  ∀ (sz : Size) (s : State),
    let flags := fun (z : Size) (r : Sum) =>
      ({ x := s.flagX, n := msb z r.res, z := decide (r.res = 0), v := r.v, c := r.c } : Flags)
    (∀ (ea : EA) (d : Reg), ea.ok (.source sz) sz = true →
      let v := (s.fetchEA ea sz).1
      ∃ t, exec (.cmp sz ea d) s = .next t ∧
        (s.fetchEA ea sz).2.FlagEffect (flags sz (sub sz (trunc sz (s.getD d)) v false)) t) ∧
    (∀ (ea : EA) (a : Reg), sz ≠ .b → ea.ok .all sz = true →
      let u := (s.fetchEA ea sz).2
      let v := if sz = .w then ((s.fetchEA ea sz).1.extractLsb' 0 16).signExtend 32 else (s.fetchEA ea sz).1
      ∃ t, exec (.cmpa sz ea a) s = .next t ∧ u.FlagEffect (flags .l (sub .l (u.getA a) v false)) t) ∧
    (∀ (imm : Long) (ea : EA), sz.fits imm = true → ea.ok .DA sz = true →
      let p := s.skip (if sz = .l then 2 else 1)
      ∃ t, exec (.cmpi sz imm ea) s = .next t ∧
        (p.fetchEA ea sz).2.FlagEffect (flags sz (sub sz (p.fetchEA ea sz).1 imm false)) t) ∧
    (∀ y x : Reg,
      let v := (s.fetchEA (.postInc y) sz).1
      let u := (s.fetchEA (.postInc y) sz).2
      ∃ t, exec (.cmpm sz y x) s = .next t ∧
        (u.fetchEA (.postInc x) sz).2.FlagEffect (flags sz (sub sz (u.fetchEA (.postInc x) sz).1 v false)) t)

/-- R169, R170: MULU.W and MULS.W write the exact 32-bit product of the low words and set N and Z from it. -/
def Obligations.MultiplyWord : Prop :=
  ∀ (ea : EA) (d : Reg) (s : State), ea.ok .data .w = true →
    let v := (s.fetchEA ea .w).1.extractLsb' 0 16
    let w := (s.getD d).extractLsb' 0 16
    let u := (s.fetchEA ea .w).2
    (∃ (t : State) (p : Long), exec (.muluW ea d) s = .next t ∧ p.toNat = w.toNat * v.toNat ∧
      u.Effect (.dreg d) .l p { x := s.flagX, n := decide (2147483648 ≤ w.toNat * v.toNat),
                                z := decide (w.toNat * v.toNat = 0), v := false, c := false } t) ∧
    (∃ (t : State) (p : Long), exec (.mulsW ea d) s = .next t ∧ p.toInt = w.toInt * v.toInt ∧
      u.Effect (.dreg d) .l p { x := s.flagX, n := decide (w.toInt * v.toInt < 0),
                                z := decide (w.toInt * v.toInt = 0), v := false, c := false } t)

/-- R171: MULU.L and MULS.L.  The 32-bit form keeps the low half of the product and sets V when it does not hold
the product; the 64-bit form writes both halves, the low half last, the high one to the register
`MULL_HIGH_REG` names.  `p` is the exact product. -/
def Obligations.MultiplyLong : Prop :=
  ∀ (sgn : Bool) (l h : Reg) (ea : EA) (s : State), ea.ok .data .l = true →
    let u := ((s.skip 1).fetchEA ea .l).2
    let v := ((s.skip 1).fetchEA ea .l).1
    let p : Int := if sgn then (s.getD l).toInt * v.toInt else (s.getD l).toNat * v.toNat
    let hi := match s.cfg.mullHighReg with
      | .nextHigher => l + 1
      | .extField => h
    (∃ (t : State) (r : Long), exec (.mull sgn false l h ea) s = .next t ∧ (r.toNat : Int) = p % 4294967296 ∧
      u.Effect (.dreg l) .l r
        { x := s.flagX, n := r.getLsbD 31, z := decide (r = 0),
          v := decide (p ≠ if sgn then r.toInt else (r.toNat : Int)), c := false } t) ∧
    (∃ t, exec (.mull sgn true l h ea) s = .next t ∧
      ((t.getD l).toNat : Int) = p % 4294967296 ∧
      (hi ≠ l → ((t.getD hi).toNat : Int) = p / 4294967296 % 4294967296) ∧
      (∀ n, n ≠ l → n ≠ hi → t.getD n = s.getD n) ∧
      t.flags = { x := s.flagX, n := decide (p < 0 ∨ 9223372036854775808 ≤ p), z := decide (p = 0),
                  v := false, c := false } ∧
      (∀ k, 5 ≤ k → t.sr.getLsbD k = s.sr.getLsbD k) ∧ t = { u with d := t.d, sr := t.sr })

/-- R172, R173, R174: DIVU.W and DIVS.W complete on a divisor that is not 0 and a quotient that fits a word: the
quotient `q` and the remainder `rm` of the division that truncates toward zero are packed into the register. -/
def Obligations.DivideWord : Prop :=
  ∀ (ea : EA) (d : Reg) (s : State) (q rm : Int), ea.ok .data .w = true →
    let v := (s.fetchEA ea .w).1.extractLsb' 0 16
    let u := (s.fetchEA ea .w).2
    let packed : Long := BitVec.ofInt 16 rm ++ BitVec.ofInt 16 q
    let flags : Flags := { x := s.flagX, n := (BitVec.ofInt 16 q).getLsbD 15, z := decide (q = 0),
                           v := false, c := false }
    (((s.getD d).toNat : Int) = q * v.toNat + rm → 0 ≤ rm → rm < v.toNat → q ≤ 65535 →
      ∃ t, exec (.divuW ea d) s = .next t ∧ u.Effect (.dreg d) .l packed flags t) ∧
    ((s.getD d).toInt = q * v.toInt + rm → rm.natAbs < v.toInt.natAbs → 0 ≤ rm * (s.getD d).toInt →
      -32768 ≤ q → q ≤ 32767 →
      ∃ t, exec (.divsW ea d) s = .next t ∧ u.Effect (.dreg d) .l packed flags t)

/-- R172, R175: DIVU.L and DIVS.L complete on a divisor that is not 0 and a quotient that fits 32 bits: `Dq` takes
the quotient, written last, and the remainder goes to the register the form names, where it keeps one. -/
def Obligations.DivideLong : Prop :=
  ∀ (sgn wide : Bool) (dq dr : Reg) (ea : EA) (s : State) (q rm : Int), ea.ok .data .l = true →
    let u := ((s.skip 1).fetchEA ea .l).2
    let v := ((s.skip 1).fetchEA ea .l).1
    let h := if wide then (match s.cfg.mullHighReg with
      | .nextHigher => dq + 1
      | .extField => dr) else dr
    let pair : BitVec 64 := s.getD h ++ s.getD dq
    let dividend : Int := if wide then (if sgn then pair.toInt else pair.toNat)
      else (if sgn then (s.getD dq).toInt else (s.getD dq).toNat)
    let divisor : Int := if sgn then v.toInt else v.toNat
    dividend = q * divisor + rm → rm.natAbs < divisor.natAbs → 0 ≤ rm * dividend →
    (if sgn then -2147483648 ≤ q ∧ q < 2147483648 else q < 4294967296) →
    ∃ t, exec (.divl sgn wide dq dr ea) s = .next t ∧
      t.getD dq = BitVec.ofInt 32 q ∧ (h ≠ dq → t.getD h = BitVec.ofInt 32 rm) ∧
      (∀ n, n ≠ dq → n ≠ h → t.getD n = s.getD n) ∧
      t.flags = { x := s.flagX, n := (BitVec.ofInt 32 q).getLsbD 31, z := decide (q = 0), v := false, c := false } ∧
      (∀ k, 5 ≤ k → t.sr.getLsbD k = s.sr.getLsbD k) ∧ t = { u with d := t.d, sr := t.sr }

/-- R172 to R175, R237: a divide by 0 stops the engine with DivideByZero and C = 0; a quotient that does not fit
stops it with DivideOverflow, V = 1 and C = 0.  No data register, no X and no memory changes; the flags the spec
draws are not named. -/
def Obligations.DivisionStops : Prop :=
  ∀ (ea : EA) (s : State) (q rm : Int),
    let zero := fun (u : State) (i : Instr) => ∃ t, exec i s = .next t ∧
      u.DrewAndHalted .divideByZero i.opcode (s.pc - 2) none t ∧ t.flagC = false
    let overflow := fun (u : State) (i : Instr) => ∃ t, exec i s = .next t ∧
      u.DrewAndHalted .divideOverflow i.opcode (s.pc - 2) none t ∧ t.flagV = true ∧ t.flagC = false
    (∀ d : Reg, ea.ok .data .w = true →
      let v := (s.fetchEA ea .w).1.extractLsb' 0 16
      let u := (s.fetchEA ea .w).2
      (v = 0 → zero u (.divuW ea d) ∧ zero u (.divsW ea d)) ∧
      (((s.getD d).toNat : Int) = q * v.toNat + rm → 0 ≤ rm → rm < v.toNat → 65535 < q →
        overflow u (.divuW ea d)) ∧
      ((s.getD d).toInt = q * v.toInt + rm → rm.natAbs < v.toInt.natAbs → 0 ≤ rm * (s.getD d).toInt →
        q < -32768 ∨ 32767 < q → overflow u (.divsW ea d))) ∧
    (∀ (sgn wide : Bool) (dq dr : Reg), ea.ok .data .l = true →
      let u := ((s.skip 1).fetchEA ea .l).2
      let v := ((s.skip 1).fetchEA ea .l).1
      let h := match s.cfg.mullHighReg with
        | .nextHigher => dq + 1
        | .extField => dr
      let pair : BitVec 64 := s.getD h ++ s.getD dq
      let dividend : Int := if wide then (if sgn then pair.toInt else pair.toNat)
        else (if sgn then (s.getD dq).toInt else (s.getD dq).toNat)
      let divisor : Int := if sgn then v.toInt else v.toNat
      (v = 0 → zero u (.divl sgn wide dq dr ea)) ∧
      (dividend = q * divisor + rm → rm.natAbs < divisor.natAbs → 0 ≤ rm * dividend →
        ¬ (if sgn then -2147483648 ≤ q ∧ q < 2147483648 else q < 4294967296) →
        overflow u (.divl sgn wide dq dr ea)))

/-! ## Logical operations (45_logical.md) -/

/-- R176 to R183: AND, OR and EOR in every direction, ANDI, ORI, EORI and NOT write their result and set N and Z
from it, V = C = 0, X kept. -/
def Obligations.Logical : Prop :=
  ∀ (sz : Size) (ea : EA) (s : State),
    let result := fun (u : State) (l : Loc) (r : Long) (i : Instr) =>
      ∃ t, exec i s = .next t ∧ u.Effect l sz r (moveFlags sz r s.flagX) t
    (∀ d : Reg, ea.ok .data sz = true →
      let v := (s.fetchEA ea sz).1
      let u := (s.fetchEA ea sz).2
      result u (.dreg d) (s.getD d &&& v) (.andEaDn sz ea d) ∧
      result u (.dreg d) (s.getD d ||| v) (.orEaDn sz ea d)) ∧
    (∀ d : Reg,
      let l := (s.resolve ea sz).1
      let m := (s.resolve ea sz).2.readEA l sz
      let u := (s.resolve ea sz).2.afterReadEA l sz
      (ea.ok .MA sz = true → result u l (m &&& s.getD d) (.andDnEa sz d ea) ∧
        result u l (m ||| s.getD d) (.orDnEa sz d ea)) ∧
      (ea.ok .DA sz = true → result u l (m ^^^ s.getD d) (.eor sz d ea) ∧ result u l (~~~m) (.not sz ea))) ∧
    (∀ imm : Long, sz.fits imm = true → ea.ok .DA sz = true →
      let p := s.skip (if sz = .l then 2 else 1)
      let l := (p.resolve ea sz).1
      let m := (p.resolve ea sz).2.readEA l sz
      let u := (p.resolve ea sz).2.afterReadEA l sz
      result u l (m &&& imm) (.andi sz imm ea) ∧ result u l (m ||| imm) (.ori sz imm ea) ∧
      result u l (m ^^^ imm) (.eori sz imm ea))

/-- R184, R185, R186: CLR writes 0 with Z = 1 and reads nothing; TST sets the flags and writes nothing; TAS
sets bit 7 of a byte, with the flags of the byte before. -/
def Obligations.ClrTstTas : Prop :=
  ∀ (sz : Size) (ea : EA) (s : State),
    (ea.ok .DA sz = true →
      let l := (s.resolve ea sz).1
      let u := (s.resolve ea sz).2
      let m := u.readEA l sz
      (∃ t, exec (.clr sz ea) s = .next t ∧
        u.Effect l sz 0 { x := s.flagX, n := false, z := true, v := false, c := false } t) ∧
      (∃ t, exec (.tst sz ea) s = .next t ∧ (u.afterReadEA l sz).FlagEffect (moveFlags sz m s.flagX) t)) ∧
    (ea.ok .DA .b = true →
      let l := (s.resolve ea .b).1
      let u := (s.resolve ea .b).2
      let m := u.readEA l .b
      ∃ t, exec (.tas ea) s = .next t ∧ (u.afterReadEA l .b).Effect l .b (m ||| 0x80#32) (moveFlags .b m s.flagX) t)

/-! ## Shifts, bits, decimal (46_shift.md, 47_bit.md, 48_bcd.md) -/

/-- R187, R188, R190 to R198: every shift and rotate writes the result and the flags of Shift: the register form
with its count (1 to 8, or a data register modulo 64), the memory form on a word with count 1. -/
def Obligations.ShiftsAndRotates : Prop :=
  ∀ s : State,
    (∀ (sz : Size) (cnt : Count) (y : Reg),
      let n := match cnt with
        | .imm c => if c.toNat = 0 then 8 else c.toNat
        | .reg r => (s.getD r).toNat % 64
      let form := fun (kind : ShiftKind) (left : Bool) (i : Instr) =>
        let r := shift kind left sz (trunc sz (s.getD y)) n s.flags
        ∃ t, exec i s = .next t ∧ s.Effect (.dreg y) sz r.1 r.2 t
      form .as true (.aslReg sz cnt y) ∧ form .as false (.asrReg sz cnt y) ∧
      form .ls true (.lslReg sz cnt y) ∧ form .ls false (.lsrReg sz cnt y) ∧
      form .rox true (.roxlReg sz cnt y) ∧ form .rox false (.roxrReg sz cnt y) ∧
      form .ro true (.rolReg sz cnt y) ∧ form .ro false (.rorReg sz cnt y)) ∧
    (∀ ea : EA, ea.ok .MA .w = true →
      let l := (s.resolve ea .w).1
      let u := (s.resolve ea .w).2
      let form := fun (kind : ShiftKind) (left : Bool) (i : Instr) =>
        let r := shift kind left .w (u.readEA l .w) 1 s.flags
        ∃ t, exec i s = .next t ∧ (u.afterReadEA l .w).Effect l .w r.1 r.2 t
      form .as true (.aslMem ea) ∧ form .as false (.asrMem ea) ∧
      form .ls true (.lslMem ea) ∧ form .ls false (.lsrMem ea) ∧
      form .rox true (.roxlMem ea) ∧ form .rox false (.roxrMem ea) ∧
      form .ro true (.rolMem ea) ∧ form .ro false (.rorMem ea))

/-- R200, R202 to R205: the bit instructions, static (`num` from a word) and dynamic (`num` a data register), set
Z from the tested bit, keep the other flags, and change that bit; a data register is a long target, the bit
number modulo 32, any other target a byte, modulo 8. -/
def Obligations.BitInstructions : Prop :=
  ∀ (ea : EA) (s : State),
    let result := fun (p : State) (num : Nat) (tst chg clr set : Instr) =>
      let sz : Size := match ea with
        | .dn _ => .l
        | _ => .b
      let l := (p.resolve ea sz).1
      let u := (p.resolve ea sz).2
      let b := num % sz.bits
      let m := u.readEA l sz
      let f : Flags := { s.flags with z := !m.getLsbD b }
      let wrote := fun (i : Instr) (bit : Bool) => ea.ok .DA .b = true →
        ∃ (t : State) (r : Long), exec i s = .next t ∧ (u.afterReadEA l sz).Effect l sz r f t ∧ r.getLsbD b = bit ∧
          ∀ k, k ≠ b → r.getLsbD k = m.getLsbD k
      (tst.wf = true → ∃ t, exec tst s = .next t ∧ (u.afterReadEA l sz).FlagEffect f t) ∧
      wrote chg (!m.getLsbD b) ∧ wrote clr false ∧ wrote set true
    (∀ num : Byte, result (s.skip 1) num.toNat
      (.btstImm num ea) (.bchgImm num ea) (.bclrImm num ea) (.bsetImm num ea)) ∧
    (∀ d : Reg, result s (s.getD d).toNat (.btstDn d ea) (.bchgDn d ea) (.bclrDn d ea) (.bsetDn d ea))

/-- R206 to R210: ABCD, SBCD and NBCD work on the decimal value of packed bytes.  With `v` the exact sum or
difference, X and C say whether it left 0 to 99; the byte written is the packed corrected value wherever that
lies in 0 to 99; Z is only cleared; N and V are left open. -/
def Obligations.DecimalArithmetic : Prop :=
  ∀ s : State,
    let dec := fun (b : Long) => ((b.extractLsb' 4 4).toNat * 10 + (b.extractLsb' 0 4).toNat : Int)
    let x : Int := if s.flagX then 1 else 0
    let result := fun (u : State) (l : Loc) (v : Int) (i : Instr) =>
      let w := if 99 < v then v - 100 else if v < 0 then v + 100 else v
      let p := u.afterReadEA l .b
      ∃ (t : State) (r : Byte), exec i s = .next t ∧ p.Wrote l .b (r.setWidth 32) t ∧
        (0 ≤ w → w ≤ 99 → r = BitVec.ofNat 4 (w.toNat / 10) ++ BitVec.ofNat 4 (w.toNat % 10)) ∧
        t.flagX = decide (v < 0 ∨ 99 < v) ∧ t.flagC = t.flagX ∧
        t.flagZ = (s.flagZ && decide (r = 0)) ∧ (∀ k, 5 ≤ k → t.sr.getLsbD k = s.sr.getLsbD k) ∧
        t.pc = p.pc ∧ p.SameRest t
    (∀ y z : Reg,
      result s (.dreg z) (dec (s.getD y) + dec (s.getD z) + x) (.abcd false y z) ∧
      result s (.dreg z) (dec (s.getD z) - dec (s.getD y) - x) (.sbcd false y z)) ∧
    (∀ y z : Reg,
      let v := (s.fetchEA (.preDec y) .b).1
      let l := ((s.fetchEA (.preDec y) .b).2.resolve (.preDec z) .b).1
      let u := ((s.fetchEA (.preDec y) .b).2.resolve (.preDec z) .b).2
      result u l (dec v + dec (u.readEA l .b) + x) (.abcd true y z) ∧
      result u l (dec (u.readEA l .b) - dec v - x) (.sbcd true y z)) ∧
    (∀ ea : EA, ea.ok .DA .b = true →
      let l := (s.resolve ea .b).1
      let u := (s.resolve ea .b).2
      result u l (0 - dec (u.readEA l .b) - x) (.nbcd ea))

/-! ## Branches (49_branch.md) -/

/-- R212 to R216: the target is relative to the word after the opcode word; a branch not taken ends past its
displacement word; BSR pushes the address of the next instruction; DBcc counts its register's low word down and
branches until it wraps.  Flags never change.
R217: Scc writes 0xFF or 0x00 to a byte by its condition; no flag changes. -/
def Obligations.BranchesAndScc : Prop :=
  (∀ s : State,
     (∀ disp : BranchDisp, disp.ok = true →
       let target := s.pc + (match disp with
         | .byte k => k.signExtend 32
         | .word d => d.signExtend 32)
       let next := s.pc + (match disp with
         | .byte _ => 0#32
         | .word _ => 2#32)
       let u := s.skip (match disp with
         | .byte _ => 0
         | .word _ => 1)
       exec (.bra disp) s = .next { u with pc := target } ∧
       (∀ c, c ≠ .t → c ≠ .f → exec (.bcc c disp) s =
         .next { u with pc := if c.holds s.flags then target else next }) ∧
       (∃ t, exec (.bsr disp) s = .next t ∧ (s.cfg.mem = .ram → t.memRead (s.getA 7 - 4) .l = next) ∧
         u.Stored (storeAccesses (s.getA 7 - 4) .l next) (within (s.getA 7 - 4) 4) t ∧
         t = { u.setA 7 (s.getA 7 - 4) with pc := target, mem := t.mem, bus := t.bus })) ∧
     (∀ (c : Cond) (n : Reg) (d : Word),
       (c.holds s.flags = true → exec (.dbcc c n d) s = .next (s.skip 1)) ∧
       (c.holds s.flags = false → ∃ t, exec (.dbcc c n d) s = .next t ∧
         (t.getD n).extractLsb' 0 16 = (s.getD n).extractLsb' 0 16 - 1 ∧
         (t.getD n).extractLsb' 16 16 = (s.getD n).extractLsb' 16 16 ∧
         (∀ m, m ≠ n → t.getD m = s.getD m) ∧
         t = { s.skip 1 with d := t.d, pc := if (s.getD n).extractLsb' 0 16 = 0 then s.pc + 2
                                             else s.pc + d.signExtend 32 }))) ∧
  (∀ (c : Cond) (ea : EA) (s : State), ea.ok .DA .b = true →
     ∃ t, exec (.scc c ea) s = .next t ∧ (s.resolve ea .b).2.Effect (s.resolve ea .b).1 .b
       (if c.holds s.flags then 0xFF#32 else 0x00#32) s.flags t)

/-- R219 to R222, R211, R116: JMP, JSR, LEA and PEA use the address their operand resolves to;
JSR pushes the address after its words and PEA the operand's address, both resolved before the push. -/
def Obligations.JumpsAndAddresses : Prop :=
  ∀ (ea : EA) (s : State), ea.ok .ctrl .l = true →
    ∃ m, (s.resolve ea .l).1 = .mem m ∧
      let u := (s.resolve ea .l).2
      let pushed := fun (v target : Long) (i : Instr) => ∃ t, exec i s = .next t ∧
        (s.cfg.mem = .ram → t.memRead (s.getA 7 - 4) .l = v) ∧
        u.Stored (storeAccesses (s.getA 7 - 4) .l v) (within (s.getA 7 - 4) 4) t ∧
        t = { s.setA 7 (s.getA 7 - 4) with pc := target, mem := t.mem, bus := t.bus }
      exec (.jmp ea) s = .next { s with pc := m, bus := u.bus } ∧
      (∀ a, exec (.lea ea a) s = .next (u.setA a m)) ∧
      pushed u.pc m (.jsr ea) ∧ pushed m u.pc (.pea ea)

/-- R223, R224, R211: LINK pushes An, points An at the pushed long and moves A7 by the displacement; UNLK pops An from
the address in An and leaves A7 past it.  For A7, LINK pushes the decremented A7 and UNLK leaves the popped long. -/
def Obligations.StackFrames : Prop :=
  ∀ (a : Reg) (s : State),
    (∀ d : Word, ∃ t, exec (.link a d) s = .next t ∧
      (s.cfg.mem = .ram → t.memRead (s.getA 7 - 4) .l = (if a = 7 then s.getA 7 - 4 else s.getA a)) ∧
      (s.skip 1).Stored (storeAccesses (s.getA 7 - 4) .l (if a = 7 then s.getA 7 - 4 else s.getA a))
        (within (s.getA 7 - 4) 4) t ∧
      t.getA 7 = s.getA 7 - 4 + d.signExtend 32 ∧ (a ≠ 7 → t.getA a = s.getA 7 - 4) ∧
      (∀ n, n ≠ 7 → n ≠ a → t.getA n = s.getA n) ∧ t.inactiveSP = s.inactiveSP ∧
      t = { s.skip 1 with a := t.a, usp := t.usp, ssp := t.ssp, mem := t.mem, bus := t.bus }) ∧
    (∃ t, exec (.unlk a) s = .next t ∧ t.getA a = s.memRead (s.getA a) .l ∧
      (a ≠ 7 → t.getA 7 = s.getA a + 4) ∧
      (∀ n, n ≠ 7 → n ≠ a → t.getA n = s.getA n) ∧ t.inactiveSP = s.inactiveSP ∧
      t = { s.afterRead (s.getA a) .l with a := t.a, usp := t.usp, ssp := t.ssp })

/-! ## The whole machine (40_driver.md, 60_exceptions.md, 70_reset_and_hazards.md) -/

/-- R89, R59: where the words at PC decode to an instruction, a step of the running engine passes the opcode word,
counts the instruction, its cycles and its mnemonic, and runs exactly that instruction.  In plain RAM these are the
words stored there; for any `MEM` they are what its fetches answer, one after another, and for MOVE (R115) its
destination's words are those fetched after its source was read. -/
def Obligations.StepRunsTheDecodedInstruction : Prop :=
  ∀ (s : State) (i : Instr), s.running = true →
    let op := s.readWord s.pc
    let u := s.skip 1
    let ws := u.wordsAhead 4
    let begun := fun (p : State) =>
      { p with instrCount := s.instrCount + 1,
               cycles := s.cycles + Config.cycleCost op,
               freq := s.freq.set (mnemonicIndex i.mnemonic) (s.freq[mnemonicIndex i.mnemonic] + 1) }
    (∀ rest, s.cfg.mem = .ram →
      decode s.cfg.admitUnnamed [op, s.readWord (s.pc + 2), s.readWord (s.pc + 4), s.readWord (s.pc + 6),
        s.readWord (s.pc + 8)] = .ok (i, rest) →
      step s = exec i (begun { s with pc := s.pc + 2 })) ∧
    (∀ rest, (∀ sz src dst, i ≠ .move sz src dst) → decode s.cfg.admitUnnamed (op :: ws) = .ok (i, rest) →
      step s = exec i (begun u)) ∧
    (∀ sz src dst rest rest', decode s.cfg.admitUnnamed (op :: ws) = .ok (.move sz src dst, rest) →
      decode s.cfg.admitUnnamed (op :: (ws.take (src.words sz).length ++ (u.fetchEA src sz).2.wordsAhead 4)) =
        .ok (i, rest') →
      step s = exec i (begun u))

/-- R46, R59, R89: where plain RAM holds the words of a well-formed instruction at PC, a step of the running engine
runs that instruction; what stands after its words does not matter. -/
def Obligations.StepRunsTheInstructionInMemory : Prop :=
  ∀ (s : State) (i : Instr), s.cfg.mem = .ram → s.running = true → s.cfg.admitUnnamed = true → i.wf = true →
    (∀ k (h : k < (encode i).length), s.readWord (s.pc + BitVec.ofNat 32 (2 * k)) = (encode i)[k]) →
    step s = exec i
      { s with pc := s.pc + 2,
               instrCount := s.instrCount + 1,
               cycles := s.cycles + Config.cycleCost i.opcode,
               freq := s.freq.set (mnemonicIndex i.mnemonic) (s.freq[mnemonicIndex i.mnemonic] + 1) }

/-- R91: a step of a stopped engine changes nothing and returns StoppedResult. -/
def Obligations.StoppedStepChangesNothing : Prop :=
  ∀ s : State, s.running = false →
    step s = .next s ∧ s.stepResult = { mnemonic := none, cost := 0, signal := .stopped }

/-- R228, R84, R89: a word without a table entry stops the engine with UnknownOpcode, PC past that word; no
other word is read, no register, no memory and no counter changes, and the result has no mnemonic and no cost. -/
def Obligations.UnknownOpcodeStops : Prop :=
  ∀ s : State, s.running = true → lookup s.cfg.admitUnnamed (s.readWord s.pc) = none →
    step s = .next
      { s.skip 1 with
        running := false,
        stopRecord := some { kind := .unknownOpcode, opcode := s.readWord s.pc, faultPC := s.pc, info := none } } ∧
    s.stepResult = { mnemonic := none, cost := 0, signal := .error .unknownOpcode }

/-- Every step keeps the invariant: memory canonical, SR's unimplemented bits 0, running exactly without a stop
record, the record legal (R29, R36, R92, R227); the forms of the two fields that hold `MEM` are the model's
own (logs 2, 13). -/
def Obligations.StepKeepsInvariant : Prop :=
  ∀ s t : State, s.Inv → step s = .next t → t.Inv

/-- The state after reset has the invariant (its forms of memory are the model's own, logs 2 and 13). -/
def Obligations.ResetHasInvariant : Prop := State.reset.Inv

/-- R243, R102: the host's reset.  R40, R245: the state of a new engine under the default parameters.
R246: initialize writes PC, SR, SSP and the execution state, and nothing else; it starts the engine again.
That memory is held in the fields `mem` and `bus`, and that a new engine has both empty, is the model's own choice
(log 2, log 13). -/
def Obligations.ResetAndInitializeValues : Prop :=
  (∀ (s : State) (clear : Bool),
     let t := s.hostReset clear
     (∀ n, t.getD n = 0) ∧ (∀ n, t.getA n = 0) ∧ t.usp = 0 ∧ t.ssp = 0 ∧ t.pc = 0 ∧
     t.sr = s.cfg.srDefault &&& 0xA71F#16 ∧ t.running = true ∧ t.stopRecord = none ∧ t.cycles = 0 ∧
     t.instrCount = 0 ∧ (clear = true → ∀ i : Fin 110, t.freq[i] = 0) ∧ (clear = false → t.freq = s.freq) ∧
     t.mem = s.mem ∧ t.bus = s.bus ∧ t.cfg = s.cfg) ∧
  ((∀ n, State.reset.getD n = 0) ∧ (∀ n, State.reset.getA n = 0) ∧ State.reset.usp = 0 ∧ State.reset.ssp = 0 ∧
   State.reset.pc = 0 ∧ State.reset.sr = 0x2700#16 ∧ State.reset.running = true ∧
   State.reset.stopRecord = none ∧ State.reset.cycles = 0 ∧ State.reset.instrCount = 0 ∧
   (∀ i : Fin 110, State.reset.freq[i] = 0) ∧ State.reset.flagS = true ∧
   State.reset.mem = [] ∧ State.reset.bus = []) ∧
  (∀ (s : State) (entry : Long), s.initialize entry =
     { s with pc := entry, sr := s.cfg.srDefault &&& 0xA71F#16, ssp := Config.defaultSsp, running := true,
              stopRecord := none })

/-- R229: every step answers a next state, and none stops with MalformedResult. -/
def Obligations.StepIsTotal : Prop :=
  ∀ s : State, ∃ t, step s = .next t ∧
    (s.running = true → ∀ r, t.stopRecord = some r → s.stopRecord = some r ∨ r.kind ≠ .malformedResult)

/-- R225, R226, R227, R238: whatever an instruction does, the counters stay as the step left them and the
parameters never change; of the two fields that hold `MEM` it touches the one its kind uses, the accesses made so
far only ever growing (log 13); it either leaves the execution state as it was or stops the engine with a legal record
of its own opcode word and address, of a kind that its rule raises. -/
def Obligations.InstructionsStopOnlyAsListed : Prop :=
  ∀ (i : Instr) (s t : State), exec i s = .next t →
    t.cycles = s.cycles ∧ t.instrCount = s.instrCount ∧ t.freq = s.freq ∧ t.cfg = s.cfg ∧
    (s.cfg.mem = .ram → t.bus = s.bus) ∧ (s.cfg.mem = .platform → t.mem = s.mem ∧ s.bus <+: t.bus) ∧
    ((t.running = s.running ∧ t.stopRecord = s.stopRecord) ∨
      (t.running = false ∧ ∃ r : StopRecord, t.stopRecord = some r ∧ r.legal ∧ r.opcode = i.opcode ∧
        r.faultPC = s.pc - 2 ∧
        match r.kind with
        | .unknownOpcode => False
        | .malformedResult => False
        | .illegalInstruction => i = .illegal
        | .privilegeViolation => i.privileged = true ∧ s.flagS = false
        | .divideByZero => i.mnemonic ∈ [.divuW, .divsW, .divl]
        | .divideOverflow => i.mnemonic ∈ [.divuW, .divsW, .divl]
        | .chkBound => i.mnemonic = .chk
        | .trap => i.mnemonic = .trap
        | .trapOverflow => i = .trapv ∧ s.flagV = true
        | .trapCC => i.mnemonic = .trapcc
        | .programExit => i = .rts
        | .stop => i.mnemonic = .stop))

/-- R233: in user mode no step enters supervisor mode, and no step changes SSP (R25).
R25: in supervisor mode no instruction but MOVE An,USP changes USP. -/
def Obligations.StackPointerOfTheOtherMode : Prop :=
  (∀ s t : State, s.flagS = false → step s = .next t → t.flagS = false ∧ t.ssp = s.ssp) ∧
  (∀ (i : Instr) (s t : State), s.flagS = true → (∀ a, i ≠ .moveToUsp a) → exec i s = .next t →
    t.usp = s.usp)

/-- R96: a run that returns has stopped, or has spent its budget. -/
def Obligations.RunEndsStoppedOrSpent : Prop :=
  ∀ (budget : Nat) (s t : State), s.RunsTo budget t →
    (t.running = false ∨ budget ≤ t.cycles - s.cycles) ∧ s.cycles ≤ t.cycles

/-- The model's own choice (log 8): a term that no opcode word stands for stops with the fault illFormedInstr,
whatever the state; no step raises it (StepIsTotal). -/
def Obligations.IllFormedTermsFault : Prop :=
  ∀ (i : Instr) (s : State), i.wf = false → exec i s = .fault .illFormedInstr

/-- R100, R81, R83: lookup answers the table's entry of an opcode word: the row that claims it, with the value of
each of the row's operand fields, from which and the row's fixed bits the word is put together again; for a word no
row claims it answers none.  It depends on no state but the parameter `ADMIT_UNNAMED`. -/
def Obligations.LookupGivesRowAndFields : Prop :=
  ∀ (s : State) (op : Word),
    (∀ t : State, t.cfg.admitUnnamed = s.cfg.admitUnnamed → t.lookupOpcode op = s.lookupOpcode op) ∧
    (s.lookupOpcode op = none ↔ lookup s.cfg.admitUnnamed op = none) ∧
    (∀ e, s.lookupOpcode op = some e → ∃ r ∈ opcodeTable, r.claims s.cfg.admitUnnamed op = true ∧ e.row = r.row ∧
      e.fields.map (·.slot) = r.row.slots ∧
      (∀ f ∈ e.fields, f.value = (op.toNat / 2 ^ f.slot.lo) % 2 ^ (f.slot.hi - f.slot.lo + 1)) ∧
      op.toNat = r.pattern.toNat + (e.fields.map fun f => f.value * 2 ^ f.slot.lo).sum)
end

