-- ==== Sys2Proof/Laws/Dispatch.lean ====
section
/-! SUPPORT. The arms of `exec` as equations, so that no proof about one instruction unfolds the dispatcher. -/

namespace Sys2Proof.Machine

theorem exec_oriToCcr (imm : Byte) (s : State) : exec (.oriToCcr imm) s = execOriToCcr imm s := rfl
theorem exec_oriToSr (imm : Word) (s : State) : exec (.oriToSr imm) s = execOriToSr imm s := rfl
theorem exec_ori (sz : Size) (imm : Long) (ea : EA) (s : State) : exec (.ori sz imm ea) s = execOri sz imm ea s := rfl
theorem exec_andiToCcr (imm : Byte) (s : State) : exec (.andiToCcr imm) s = execAndiToCcr imm s := rfl
theorem exec_andiToSr (imm : Word) (s : State) : exec (.andiToSr imm) s = execAndiToSr imm s := rfl
theorem exec_andi (sz : Size) (imm : Long) (ea : EA) (s : State) :
    exec (.andi sz imm ea) s = execAndi sz imm ea s := rfl
theorem exec_subi (sz : Size) (imm : Long) (ea : EA) (s : State) :
    exec (.subi sz imm ea) s = execSubi sz imm ea s := rfl
theorem exec_addi (sz : Size) (imm : Long) (ea : EA) (s : State) :
    exec (.addi sz imm ea) s = execAddi sz imm ea s := rfl
theorem exec_eoriToCcr (imm : Byte) (s : State) : exec (.eoriToCcr imm) s = execEoriToCcr imm s := rfl
theorem exec_eoriToSr (imm : Word) (s : State) : exec (.eoriToSr imm) s = execEoriToSr imm s := rfl
theorem exec_eori (sz : Size) (imm : Long) (ea : EA) (s : State) :
    exec (.eori sz imm ea) s = execEori sz imm ea s := rfl
theorem exec_cmpi (sz : Size) (imm : Long) (ea : EA) (s : State) :
    exec (.cmpi sz imm ea) s = execCmpi sz imm ea s := rfl
theorem exec_btstImm (num : Byte) (ea : EA) (s : State) : exec (.btstImm num ea) s = execBtstImm num ea s := rfl
theorem exec_bchgImm (num : Byte) (ea : EA) (s : State) : exec (.bchgImm num ea) s = execBchgImm num ea s := rfl
theorem exec_bclrImm (num : Byte) (ea : EA) (s : State) : exec (.bclrImm num ea) s = execBclrImm num ea s := rfl
theorem exec_bsetImm (num : Byte) (ea : EA) (s : State) : exec (.bsetImm num ea) s = execBsetImm num ea s := rfl
theorem exec_btstDn (d : Reg) (ea : EA) (s : State) : exec (.btstDn d ea) s = execBtstDn d ea s := rfl
theorem exec_bchgDn (d : Reg) (ea : EA) (s : State) : exec (.bchgDn d ea) s = execBchgDn d ea s := rfl
theorem exec_bclrDn (d : Reg) (ea : EA) (s : State) : exec (.bclrDn d ea) s = execBclrDn d ea s := rfl
theorem exec_bsetDn (d : Reg) (ea : EA) (s : State) : exec (.bsetDn d ea) s = execBsetDn d ea s := rfl
theorem exec_movep (d : Reg) (toMem long : Bool) (a : Reg) (disp : Word) (s : State) :
    exec (.movep d toMem long a disp) s = execMovep d toMem long a disp s := rfl
theorem exec_cas (sz : Size) (dc du : Reg) (ea : EA) (s : State) :
    exec (.cas sz dc du ea) s = execCas sz dc du ea s := rfl
theorem exec_move (sz : Size) (src dst : EA) (s : State) : exec (.move sz src dst) s = execMove sz src dst s := rfl
theorem exec_movea (sz : Size) (src : EA) (a : Reg) (s : State) :
    exec (.movea sz src a) s = execMovea sz src a s := rfl
theorem exec_negx (sz : Size) (ea : EA) (s : State) : exec (.negx sz ea) s = execNegx sz ea s := rfl
theorem exec_moveFromSr (ea : EA) (s : State) : exec (.moveFromSr ea) s = execMoveFromSr ea s := rfl
theorem exec_chk (ea : EA) (d : Reg) (s : State) : exec (.chk ea d) s = execChk ea d s := rfl
theorem exec_lea (ea : EA) (a : Reg) (s : State) : exec (.lea ea a) s = execLea ea a s := rfl
theorem exec_clr (sz : Size) (ea : EA) (s : State) : exec (.clr sz ea) s = execClr sz ea s := rfl
theorem exec_moveFromCcr (ea : EA) (s : State) : exec (.moveFromCcr ea) s = execMoveFromCcr ea s := rfl
theorem exec_neg (sz : Size) (ea : EA) (s : State) : exec (.neg sz ea) s = execNeg sz ea s := rfl
theorem exec_moveToCcr (ea : EA) (s : State) : exec (.moveToCcr ea) s = execMoveToCcr ea s := rfl
theorem exec_not (sz : Size) (ea : EA) (s : State) : exec (.not sz ea) s = execNot sz ea s := rfl
theorem exec_moveToSr (ea : EA) (s : State) : exec (.moveToSr ea) s = execMoveToSr ea s := rfl
theorem exec_nbcd (ea : EA) (s : State) : exec (.nbcd ea) s = execNbcd ea s := rfl
theorem exec_swap (d : Reg) (s : State) : exec (.swap d) s = execSwap d s := rfl
theorem exec_pea (ea : EA) (s : State) : exec (.pea ea) s = execPea ea s := rfl
theorem exec_extW (d : Reg) (s : State) : exec (.extW d) s = execExtW d s := rfl
theorem exec_extL (d : Reg) (s : State) : exec (.extL d) s = execExtL d s := rfl
theorem exec_movemToMem (sz : Size) (mask : Word) (ea : EA) (s : State) :
    exec (.movemToMem sz mask ea) s = execMovemToMem sz mask ea s := rfl
theorem exec_tst (sz : Size) (ea : EA) (s : State) : exec (.tst sz ea) s = execTst sz ea s := rfl
theorem exec_tas (ea : EA) (s : State) : exec (.tas ea) s = execTas ea s := rfl
theorem exec_illegal (s : State) : exec .illegal s = execIllegal s := rfl
theorem exec_mull (signed wide : Bool) (l h : Reg) (ea : EA) (s : State) :
    exec (.mull signed wide l h ea) s = execMull signed wide l h ea s := rfl
theorem exec_divl (signed wide : Bool) (q r : Reg) (ea : EA) (s : State) :
    exec (.divl signed wide q r ea) s = execDivl signed wide q r ea s := rfl
theorem exec_movemToReg (sz : Size) (mask : Word) (ea : EA) (s : State) :
    exec (.movemToReg sz mask ea) s = execMovemToReg sz mask ea s := rfl
theorem exec_trap (v : BitVec 4) (s : State) : exec (.trap v) s = execTrap v s := rfl
theorem exec_link (a : Reg) (disp : Word) (s : State) : exec (.link a disp) s = execLink a disp s := rfl
theorem exec_unlk (a : Reg) (s : State) : exec (.unlk a) s = execUnlk a s := rfl
theorem exec_moveToUsp (a : Reg) (s : State) : exec (.moveToUsp a) s = execMoveToUsp a s := rfl
theorem exec_moveFromUsp (a : Reg) (s : State) : exec (.moveFromUsp a) s = execMoveFromUsp a s := rfl
theorem exec_reset (s : State) : exec .reset s = execReset s := rfl
theorem exec_nop (s : State) : exec .nop s = execNop s := rfl
theorem exec_stop (imm : Word) (s : State) : exec (.stop imm) s = execStop imm s := rfl
theorem exec_rte (s : State) : exec .rte s = execRte s := rfl
theorem exec_rts (s : State) : exec .rts s = execRts s := rfl
theorem exec_trapv (s : State) : exec .trapv s = execTrapv s := rfl
theorem exec_rtr (s : State) : exec .rtr s = execRtr s := rfl
theorem exec_jsr (ea : EA) (s : State) : exec (.jsr ea) s = execJsr ea s := rfl
theorem exec_jmp (ea : EA) (s : State) : exec (.jmp ea) s = execJmp ea s := rfl
theorem exec_addq (q : BitVec 3) (sz : Size) (ea : EA) (s : State) :
    exec (.addq q sz ea) s = execAddq q sz ea s := rfl
theorem exec_subq (q : BitVec 3) (sz : Size) (ea : EA) (s : State) :
    exec (.subq q sz ea) s = execSubq q sz ea s := rfl
theorem exec_scc (c : Cond) (ea : EA) (s : State) : exec (.scc c ea) s = execScc c ea s := rfl
theorem exec_dbcc (c : Cond) (d : Reg) (disp : Word) (s : State) :
    exec (.dbcc c d disp) s = execDbcc c d disp s := rfl
theorem exec_trapcc (c : Cond) (opnd : TrapOperand) (s : State) : exec (.trapcc c opnd) s = execTrapcc c opnd s := rfl
theorem exec_bra (disp : BranchDisp) (s : State) : exec (.bra disp) s = execBra disp s := rfl
theorem exec_bsr (disp : BranchDisp) (s : State) : exec (.bsr disp) s = execBsr disp s := rfl
theorem exec_bcc (c : Cond) (disp : BranchDisp) (s : State) : exec (.bcc c disp) s = execBcc c disp s := rfl
theorem exec_moveq (k : Byte) (d : Reg) (s : State) : exec (.moveq k d) s = execMoveq k d s := rfl
theorem exec_divuW (ea : EA) (d : Reg) (s : State) : exec (.divuW ea d) s = execDivuW ea d s := rfl
theorem exec_divsW (ea : EA) (d : Reg) (s : State) : exec (.divsW ea d) s = execDivsW ea d s := rfl
theorem exec_sbcd (mem : Bool) (y x : Reg) (s : State) : exec (.sbcd mem y x) s = execSbcd mem y x s := rfl
theorem exec_orEaDn (sz : Size) (ea : EA) (d : Reg) (s : State) :
    exec (.orEaDn sz ea d) s = execOrEaDn sz ea d s := rfl
theorem exec_orDnEa (sz : Size) (d : Reg) (ea : EA) (s : State) :
    exec (.orDnEa sz d ea) s = execOrDnEa sz d ea s := rfl
theorem exec_subEaDn (sz : Size) (ea : EA) (d : Reg) (s : State) :
    exec (.subEaDn sz ea d) s = execSubEaDn sz ea d s := rfl
theorem exec_subDnEa (sz : Size) (d : Reg) (ea : EA) (s : State) :
    exec (.subDnEa sz d ea) s = execSubDnEa sz d ea s := rfl
theorem exec_suba (sz : Size) (ea : EA) (a : Reg) (s : State) : exec (.suba sz ea a) s = execSuba sz ea a s := rfl
theorem exec_subx (sz : Size) (mem : Bool) (y x : Reg) (s : State) :
    exec (.subx sz mem y x) s = execSubx sz mem y x s := rfl
theorem exec_cmp (sz : Size) (ea : EA) (d : Reg) (s : State) : exec (.cmp sz ea d) s = execCmp sz ea d s := rfl
theorem exec_cmpa (sz : Size) (ea : EA) (a : Reg) (s : State) : exec (.cmpa sz ea a) s = execCmpa sz ea a s := rfl
theorem exec_eor (sz : Size) (d : Reg) (ea : EA) (s : State) : exec (.eor sz d ea) s = execEor sz d ea s := rfl
theorem exec_cmpm (sz : Size) (y x : Reg) (s : State) : exec (.cmpm sz y x) s = execCmpm sz y x s := rfl
theorem exec_muluW (ea : EA) (d : Reg) (s : State) : exec (.muluW ea d) s = execMuluW ea d s := rfl
theorem exec_mulsW (ea : EA) (d : Reg) (s : State) : exec (.mulsW ea d) s = execMulsW ea d s := rfl
theorem exec_abcd (mem : Bool) (y x : Reg) (s : State) : exec (.abcd mem y x) s = execAbcd mem y x s := rfl
theorem exec_exgDD (x y : Reg) (s : State) : exec (.exgDD x y) s = execExgDD x y s := rfl
theorem exec_exgAA (x y : Reg) (s : State) : exec (.exgAA x y) s = execExgAA x y s := rfl
theorem exec_exgDA (x y : Reg) (s : State) : exec (.exgDA x y) s = execExgDA x y s := rfl
theorem exec_andEaDn (sz : Size) (ea : EA) (d : Reg) (s : State) :
    exec (.andEaDn sz ea d) s = execAndEaDn sz ea d s := rfl
theorem exec_andDnEa (sz : Size) (d : Reg) (ea : EA) (s : State) :
    exec (.andDnEa sz d ea) s = execAndDnEa sz d ea s := rfl
theorem exec_addEaDn (sz : Size) (ea : EA) (d : Reg) (s : State) :
    exec (.addEaDn sz ea d) s = execAddEaDn sz ea d s := rfl
theorem exec_addDnEa (sz : Size) (d : Reg) (ea : EA) (s : State) :
    exec (.addDnEa sz d ea) s = execAddDnEa sz d ea s := rfl
theorem exec_adda (sz : Size) (ea : EA) (a : Reg) (s : State) : exec (.adda sz ea a) s = execAdda sz ea a s := rfl
theorem exec_addx (sz : Size) (mem : Bool) (y x : Reg) (s : State) :
    exec (.addx sz mem y x) s = execAddx sz mem y x s := rfl
theorem exec_asrReg (sz : Size) (cnt : Count) (y : Reg) (s : State) :
    exec (.asrReg sz cnt y) s = execAsrReg sz cnt y s := rfl
theorem exec_asrMem (ea : EA) (s : State) : exec (.asrMem ea) s = execAsrMem ea s := rfl
theorem exec_aslReg (sz : Size) (cnt : Count) (y : Reg) (s : State) :
    exec (.aslReg sz cnt y) s = execAslReg sz cnt y s := rfl
theorem exec_aslMem (ea : EA) (s : State) : exec (.aslMem ea) s = execAslMem ea s := rfl
theorem exec_lsrReg (sz : Size) (cnt : Count) (y : Reg) (s : State) :
    exec (.lsrReg sz cnt y) s = execLsrReg sz cnt y s := rfl
theorem exec_lsrMem (ea : EA) (s : State) : exec (.lsrMem ea) s = execLsrMem ea s := rfl
theorem exec_lslReg (sz : Size) (cnt : Count) (y : Reg) (s : State) :
    exec (.lslReg sz cnt y) s = execLslReg sz cnt y s := rfl
theorem exec_lslMem (ea : EA) (s : State) : exec (.lslMem ea) s = execLslMem ea s := rfl
theorem exec_roxrReg (sz : Size) (cnt : Count) (y : Reg) (s : State) :
    exec (.roxrReg sz cnt y) s = execRoxrReg sz cnt y s := rfl
theorem exec_roxrMem (ea : EA) (s : State) : exec (.roxrMem ea) s = execRoxrMem ea s := rfl
theorem exec_roxlReg (sz : Size) (cnt : Count) (y : Reg) (s : State) :
    exec (.roxlReg sz cnt y) s = execRoxlReg sz cnt y s := rfl
theorem exec_roxlMem (ea : EA) (s : State) : exec (.roxlMem ea) s = execRoxlMem ea s := rfl
theorem exec_rorReg (sz : Size) (cnt : Count) (y : Reg) (s : State) :
    exec (.rorReg sz cnt y) s = execRorReg sz cnt y s := rfl
theorem exec_rorMem (ea : EA) (s : State) : exec (.rorMem ea) s = execRorMem ea s := rfl
theorem exec_rolReg (sz : Size) (cnt : Count) (y : Reg) (s : State) :
    exec (.rolReg sz cnt y) s = execRolReg sz cnt y s := rfl
theorem exec_rolMem (ea : EA) (s : State) : exec (.rolMem ea) s = execRolMem ea s := rfl

end Sys2Proof.Machine
end

