-- ==== Sys2Proof/Laws/State.lean ====
section
/-! SUPPORT. What each update of the state does to each field of it, and to the views of the state: one lemma
per field per update. -/

namespace Sys2Proof.Machine

/-! ### `noteReads` -/

@[simp] theorem State.noteReads_d (l : List Long) (s : State) : (s.noteReads l).d = s.d := rfl
@[simp] theorem State.noteReads_a (l : List Long) (s : State) : (s.noteReads l).a = s.a := rfl
@[simp] theorem State.noteReads_usp (l : List Long) (s : State) : (s.noteReads l).usp = s.usp := rfl
@[simp] theorem State.noteReads_ssp (l : List Long) (s : State) : (s.noteReads l).ssp = s.ssp := rfl
@[simp] theorem State.noteReads_pc (l : List Long) (s : State) : (s.noteReads l).pc = s.pc := rfl
@[simp] theorem State.noteReads_sr (l : List Long) (s : State) : (s.noteReads l).sr = s.sr := rfl
@[simp] theorem State.noteReads_running (l : List Long) (s : State) : (s.noteReads l).running = s.running := rfl
@[simp] theorem State.noteReads_stopRecord (l : List Long) (s : State) : (s.noteReads l).stopRecord = s.stopRecord := rfl
@[simp] theorem State.noteReads_cycles (l : List Long) (s : State) : (s.noteReads l).cycles = s.cycles := rfl
@[simp] theorem State.noteReads_instrCount (l : List Long) (s : State) : (s.noteReads l).instrCount = s.instrCount := rfl
@[simp] theorem State.noteReads_freq (l : List Long) (s : State) : (s.noteReads l).freq = s.freq := rfl
@[simp] theorem State.noteReads_mem (l : List Long) (s : State) : (s.noteReads l).mem = s.mem := rfl
@[simp] theorem State.noteReads_cfg (l : List Long) (s : State) : (s.noteReads l).cfg = s.cfg := rfl
@[simp] theorem State.noteReads_draws (l : List Long) (s : State) : (s.noteReads l).draws = s.draws := rfl
@[simp] theorem State.noteReads_getD (l : List Long) (s : State) (r : Reg) : (s.noteReads l).getD r = s.getD r := by simp [State.getD]
@[simp] theorem State.noteReads_flagS (l : List Long) (s : State) : (s.noteReads l).flagS = s.flagS := by simp [State.flagS]
@[simp] theorem State.noteReads_flagZ (l : List Long) (s : State) : (s.noteReads l).flagZ = s.flagZ := by simp [State.flagZ]
@[simp] theorem State.noteReads_flagX (l : List Long) (s : State) : (s.noteReads l).flagX = s.flagX := by simp [State.flagX]
@[simp] theorem State.noteReads_flags (l : List Long) (s : State) : (s.noteReads l).flags = s.flags := by
  simp [State.flags, State.flagX, State.flagN, State.flagZ, State.flagV, State.flagC]
@[simp] theorem State.noteReads_getA (l : List Long) (s : State) (r : Reg) : (s.noteReads l).getA r = s.getA r := by simp [State.getA]

/-! ### `afterRead` -/

@[simp] theorem State.afterRead_d (a : Long) (sz : Size) (s : State) : (s.afterRead a sz).d = s.d := rfl
@[simp] theorem State.afterRead_a (a : Long) (sz : Size) (s : State) : (s.afterRead a sz).a = s.a := rfl
@[simp] theorem State.afterRead_usp (a : Long) (sz : Size) (s : State) : (s.afterRead a sz).usp = s.usp := rfl
@[simp] theorem State.afterRead_ssp (a : Long) (sz : Size) (s : State) : (s.afterRead a sz).ssp = s.ssp := rfl
@[simp] theorem State.afterRead_pc (a : Long) (sz : Size) (s : State) : (s.afterRead a sz).pc = s.pc := rfl
@[simp] theorem State.afterRead_sr (a : Long) (sz : Size) (s : State) : (s.afterRead a sz).sr = s.sr := rfl
@[simp] theorem State.afterRead_running (a : Long) (sz : Size) (s : State) : (s.afterRead a sz).running = s.running := rfl
@[simp] theorem State.afterRead_stopRecord (a : Long) (sz : Size) (s : State) : (s.afterRead a sz).stopRecord = s.stopRecord := rfl
@[simp] theorem State.afterRead_cycles (a : Long) (sz : Size) (s : State) : (s.afterRead a sz).cycles = s.cycles := rfl
@[simp] theorem State.afterRead_instrCount (a : Long) (sz : Size) (s : State) : (s.afterRead a sz).instrCount = s.instrCount := rfl
@[simp] theorem State.afterRead_freq (a : Long) (sz : Size) (s : State) : (s.afterRead a sz).freq = s.freq := rfl
@[simp] theorem State.afterRead_mem (a : Long) (sz : Size) (s : State) : (s.afterRead a sz).mem = s.mem := rfl
@[simp] theorem State.afterRead_cfg (a : Long) (sz : Size) (s : State) : (s.afterRead a sz).cfg = s.cfg := rfl
@[simp] theorem State.afterRead_draws (a : Long) (sz : Size) (s : State) : (s.afterRead a sz).draws = s.draws := rfl
@[simp] theorem State.afterRead_getD (a : Long) (sz : Size) (s : State) (r : Reg) : (s.afterRead a sz).getD r = s.getD r := by simp [State.getD]
@[simp] theorem State.afterRead_flagS (a : Long) (sz : Size) (s : State) : (s.afterRead a sz).flagS = s.flagS := by simp [State.flagS]
@[simp] theorem State.afterRead_flagZ (a : Long) (sz : Size) (s : State) : (s.afterRead a sz).flagZ = s.flagZ := by simp [State.flagZ]
@[simp] theorem State.afterRead_flagX (a : Long) (sz : Size) (s : State) : (s.afterRead a sz).flagX = s.flagX := by simp [State.flagX]
@[simp] theorem State.afterRead_flags (a : Long) (sz : Size) (s : State) : (s.afterRead a sz).flags = s.flags := by
  simp [State.flags, State.flagX, State.flagN, State.flagZ, State.flagV, State.flagC]
@[simp] theorem State.afterRead_getA (a : Long) (sz : Size) (s : State) (r : Reg) : (s.afterRead a sz).getA r = s.getA r := by simp [State.getA]

/-! ### `afterReadEA` -/

@[simp] theorem State.afterReadEA_d (l : Loc) (sz : Size) (s : State) : (s.afterReadEA l sz).d = s.d := rfl
@[simp] theorem State.afterReadEA_a (l : Loc) (sz : Size) (s : State) : (s.afterReadEA l sz).a = s.a := rfl
@[simp] theorem State.afterReadEA_usp (l : Loc) (sz : Size) (s : State) : (s.afterReadEA l sz).usp = s.usp := rfl
@[simp] theorem State.afterReadEA_ssp (l : Loc) (sz : Size) (s : State) : (s.afterReadEA l sz).ssp = s.ssp := rfl
@[simp] theorem State.afterReadEA_pc (l : Loc) (sz : Size) (s : State) : (s.afterReadEA l sz).pc = s.pc := rfl
@[simp] theorem State.afterReadEA_sr (l : Loc) (sz : Size) (s : State) : (s.afterReadEA l sz).sr = s.sr := rfl
@[simp] theorem State.afterReadEA_running (l : Loc) (sz : Size) (s : State) : (s.afterReadEA l sz).running = s.running := rfl
@[simp] theorem State.afterReadEA_stopRecord (l : Loc) (sz : Size) (s : State) : (s.afterReadEA l sz).stopRecord = s.stopRecord := rfl
@[simp] theorem State.afterReadEA_cycles (l : Loc) (sz : Size) (s : State) : (s.afterReadEA l sz).cycles = s.cycles := rfl
@[simp] theorem State.afterReadEA_instrCount (l : Loc) (sz : Size) (s : State) : (s.afterReadEA l sz).instrCount = s.instrCount := rfl
@[simp] theorem State.afterReadEA_freq (l : Loc) (sz : Size) (s : State) : (s.afterReadEA l sz).freq = s.freq := rfl
@[simp] theorem State.afterReadEA_mem (l : Loc) (sz : Size) (s : State) : (s.afterReadEA l sz).mem = s.mem := rfl
@[simp] theorem State.afterReadEA_cfg (l : Loc) (sz : Size) (s : State) : (s.afterReadEA l sz).cfg = s.cfg := rfl
@[simp] theorem State.afterReadEA_draws (l : Loc) (sz : Size) (s : State) : (s.afterReadEA l sz).draws = s.draws := rfl
@[simp] theorem State.afterReadEA_getD (l : Loc) (sz : Size) (s : State) (r : Reg) : (s.afterReadEA l sz).getD r = s.getD r := by simp [State.getD]
@[simp] theorem State.afterReadEA_flagS (l : Loc) (sz : Size) (s : State) : (s.afterReadEA l sz).flagS = s.flagS := by simp [State.flagS]
@[simp] theorem State.afterReadEA_flagZ (l : Loc) (sz : Size) (s : State) : (s.afterReadEA l sz).flagZ = s.flagZ := by simp [State.flagZ]
@[simp] theorem State.afterReadEA_flagX (l : Loc) (sz : Size) (s : State) : (s.afterReadEA l sz).flagX = s.flagX := by simp [State.flagX]
@[simp] theorem State.afterReadEA_flags (l : Loc) (sz : Size) (s : State) : (s.afterReadEA l sz).flags = s.flags := by
  simp [State.flags, State.flagX, State.flagN, State.flagZ, State.flagV, State.flagC]
@[simp] theorem State.afterReadEA_getA (l : Loc) (sz : Size) (s : State) (r : Reg) : (s.afterReadEA l sz).getA r = s.getA r := by simp [State.getA]

/-! ### `writeByte` -/

@[simp] theorem State.writeByte_d (a : Long) (b : Byte) (s : State) : (s.writeByte a b).d = s.d := rfl
@[simp] theorem State.writeByte_a (a : Long) (b : Byte) (s : State) : (s.writeByte a b).a = s.a := rfl
@[simp] theorem State.writeByte_usp (a : Long) (b : Byte) (s : State) : (s.writeByte a b).usp = s.usp := rfl
@[simp] theorem State.writeByte_ssp (a : Long) (b : Byte) (s : State) : (s.writeByte a b).ssp = s.ssp := rfl
@[simp] theorem State.writeByte_pc (a : Long) (b : Byte) (s : State) : (s.writeByte a b).pc = s.pc := rfl
@[simp] theorem State.writeByte_sr (a : Long) (b : Byte) (s : State) : (s.writeByte a b).sr = s.sr := rfl
@[simp] theorem State.writeByte_running (a : Long) (b : Byte) (s : State) : (s.writeByte a b).running = s.running := rfl
@[simp] theorem State.writeByte_stopRecord (a : Long) (b : Byte) (s : State) : (s.writeByte a b).stopRecord = s.stopRecord := rfl
@[simp] theorem State.writeByte_cycles (a : Long) (b : Byte) (s : State) : (s.writeByte a b).cycles = s.cycles := rfl
@[simp] theorem State.writeByte_instrCount (a : Long) (b : Byte) (s : State) : (s.writeByte a b).instrCount = s.instrCount := rfl
@[simp] theorem State.writeByte_freq (a : Long) (b : Byte) (s : State) : (s.writeByte a b).freq = s.freq := rfl
@[simp] theorem State.writeByte_cfg (a : Long) (b : Byte) (s : State) : (s.writeByte a b).cfg = s.cfg := rfl
@[simp] theorem State.writeByte_draws (a : Long) (b : Byte) (s : State) : (s.writeByte a b).draws = s.draws := rfl
@[simp] theorem State.writeByte_getD (a : Long) (b : Byte) (s : State) (r : Reg) : (s.writeByte a b).getD r = s.getD r := by simp [State.getD]
@[simp] theorem State.writeByte_flagS (a : Long) (b : Byte) (s : State) : (s.writeByte a b).flagS = s.flagS := by simp [State.flagS]
@[simp] theorem State.writeByte_flagZ (a : Long) (b : Byte) (s : State) : (s.writeByte a b).flagZ = s.flagZ := by simp [State.flagZ]
@[simp] theorem State.writeByte_flagX (a : Long) (b : Byte) (s : State) : (s.writeByte a b).flagX = s.flagX := by simp [State.flagX]
@[simp] theorem State.writeByte_flags (a : Long) (b : Byte) (s : State) : (s.writeByte a b).flags = s.flags := by
  simp [State.flags, State.flagX, State.flagN, State.flagZ, State.flagV, State.flagC]
@[simp] theorem State.writeByte_getA (a : Long) (b : Byte) (s : State) (r : Reg) : (s.writeByte a b).getA r = s.getA r := by simp [State.getA]

/-! ### `memWrite` -/

@[simp] theorem State.memWrite_d (a : Long) (sz : Size) (v : Long) (s : State) : (s.memWrite a sz v).d = s.d := by cases sz <;> rfl
@[simp] theorem State.memWrite_a (a : Long) (sz : Size) (v : Long) (s : State) : (s.memWrite a sz v).a = s.a := by cases sz <;> rfl
@[simp] theorem State.memWrite_usp (a : Long) (sz : Size) (v : Long) (s : State) : (s.memWrite a sz v).usp = s.usp := by cases sz <;> rfl
@[simp] theorem State.memWrite_ssp (a : Long) (sz : Size) (v : Long) (s : State) : (s.memWrite a sz v).ssp = s.ssp := by cases sz <;> rfl
@[simp] theorem State.memWrite_pc (a : Long) (sz : Size) (v : Long) (s : State) : (s.memWrite a sz v).pc = s.pc := by cases sz <;> rfl
@[simp] theorem State.memWrite_sr (a : Long) (sz : Size) (v : Long) (s : State) : (s.memWrite a sz v).sr = s.sr := by cases sz <;> rfl
@[simp] theorem State.memWrite_running (a : Long) (sz : Size) (v : Long) (s : State) : (s.memWrite a sz v).running = s.running := by cases sz <;> rfl
@[simp] theorem State.memWrite_stopRecord (a : Long) (sz : Size) (v : Long) (s : State) : (s.memWrite a sz v).stopRecord = s.stopRecord := by cases sz <;> rfl
@[simp] theorem State.memWrite_cycles (a : Long) (sz : Size) (v : Long) (s : State) : (s.memWrite a sz v).cycles = s.cycles := by cases sz <;> rfl
@[simp] theorem State.memWrite_instrCount (a : Long) (sz : Size) (v : Long) (s : State) : (s.memWrite a sz v).instrCount = s.instrCount := by cases sz <;> rfl
@[simp] theorem State.memWrite_freq (a : Long) (sz : Size) (v : Long) (s : State) : (s.memWrite a sz v).freq = s.freq := by cases sz <;> rfl
@[simp] theorem State.memWrite_cfg (a : Long) (sz : Size) (v : Long) (s : State) : (s.memWrite a sz v).cfg = s.cfg := by cases sz <;> rfl
@[simp] theorem State.memWrite_draws (a : Long) (sz : Size) (v : Long) (s : State) : (s.memWrite a sz v).draws = s.draws := by cases sz <;> rfl
@[simp] theorem State.memWrite_getD (a : Long) (sz : Size) (v : Long) (s : State) (r : Reg) : (s.memWrite a sz v).getD r = s.getD r := by simp [State.getD]
@[simp] theorem State.memWrite_flagS (a : Long) (sz : Size) (v : Long) (s : State) : (s.memWrite a sz v).flagS = s.flagS := by simp [State.flagS]
@[simp] theorem State.memWrite_flagZ (a : Long) (sz : Size) (v : Long) (s : State) : (s.memWrite a sz v).flagZ = s.flagZ := by simp [State.flagZ]
@[simp] theorem State.memWrite_flagX (a : Long) (sz : Size) (v : Long) (s : State) : (s.memWrite a sz v).flagX = s.flagX := by simp [State.flagX]
@[simp] theorem State.memWrite_flags (a : Long) (sz : Size) (v : Long) (s : State) : (s.memWrite a sz v).flags = s.flags := by
  simp [State.flags, State.flagX, State.flagN, State.flagZ, State.flagV, State.flagC]
@[simp] theorem State.memWrite_getA (a : Long) (sz : Size) (v : Long) (s : State) (r : Reg) : (s.memWrite a sz v).getA r = s.getA r := by simp [State.getA]

/-! ### `setSr` -/

@[simp] theorem State.setSr_d (v : Word) (s : State) : (s.setSr v).d = s.d := rfl
@[simp] theorem State.setSr_a (v : Word) (s : State) : (s.setSr v).a = s.a := rfl
@[simp] theorem State.setSr_usp (v : Word) (s : State) : (s.setSr v).usp = s.usp := rfl
@[simp] theorem State.setSr_ssp (v : Word) (s : State) : (s.setSr v).ssp = s.ssp := rfl
@[simp] theorem State.setSr_pc (v : Word) (s : State) : (s.setSr v).pc = s.pc := rfl
@[simp] theorem State.setSr_sr (v : Word) (s : State) : (s.setSr v).sr = v &&& 0xA71F#16 := rfl
@[simp] theorem State.setSr_running (v : Word) (s : State) : (s.setSr v).running = s.running := rfl
@[simp] theorem State.setSr_stopRecord (v : Word) (s : State) : (s.setSr v).stopRecord = s.stopRecord := rfl
@[simp] theorem State.setSr_cycles (v : Word) (s : State) : (s.setSr v).cycles = s.cycles := rfl
@[simp] theorem State.setSr_instrCount (v : Word) (s : State) : (s.setSr v).instrCount = s.instrCount := rfl
@[simp] theorem State.setSr_freq (v : Word) (s : State) : (s.setSr v).freq = s.freq := rfl
@[simp] theorem State.setSr_mem (v : Word) (s : State) : (s.setSr v).mem = s.mem := rfl
@[simp] theorem State.setSr_bus (v : Word) (s : State) : (s.setSr v).bus = s.bus := rfl
@[simp] theorem State.setSr_cfg (v : Word) (s : State) : (s.setSr v).cfg = s.cfg := rfl
@[simp] theorem State.setSr_draws (v : Word) (s : State) : (s.setSr v).draws = s.draws := rfl
@[simp] theorem State.setSr_getD (v : Word) (s : State) (r : Reg) : (s.setSr v).getD r = s.getD r := by simp [State.getD]
@[simp] theorem State.setSr_readByte (v : Word) (s : State) (x : Long) : (s.setSr v).readByte x = s.readByte x := by simp [State.readByte]
@[simp] theorem State.setSr_memRead (v : Word) (s : State) (x : Long) (z : Size) : (s.setSr v).memRead x z = s.memRead x z := by
  cases z <;> simp [State.memRead, State.readByte, State.noteReads]

/-! ### `setCcr` -/

@[simp] theorem State.setCcr_d (b : Byte) (s : State) : (s.setCcr b).d = s.d := rfl
@[simp] theorem State.setCcr_a (b : Byte) (s : State) : (s.setCcr b).a = s.a := rfl
@[simp] theorem State.setCcr_usp (b : Byte) (s : State) : (s.setCcr b).usp = s.usp := rfl
@[simp] theorem State.setCcr_ssp (b : Byte) (s : State) : (s.setCcr b).ssp = s.ssp := rfl
@[simp] theorem State.setCcr_pc (b : Byte) (s : State) : (s.setCcr b).pc = s.pc := rfl
@[simp] theorem State.setCcr_sr (b : Byte) (s : State) : (s.setCcr b).sr = (s.sr &&& 0xFF00#16) ||| (b.setWidth 16 &&& 0x001F#16) := rfl
@[simp] theorem State.setCcr_running (b : Byte) (s : State) : (s.setCcr b).running = s.running := rfl
@[simp] theorem State.setCcr_stopRecord (b : Byte) (s : State) : (s.setCcr b).stopRecord = s.stopRecord := rfl
@[simp] theorem State.setCcr_cycles (b : Byte) (s : State) : (s.setCcr b).cycles = s.cycles := rfl
@[simp] theorem State.setCcr_instrCount (b : Byte) (s : State) : (s.setCcr b).instrCount = s.instrCount := rfl
@[simp] theorem State.setCcr_freq (b : Byte) (s : State) : (s.setCcr b).freq = s.freq := rfl
@[simp] theorem State.setCcr_mem (b : Byte) (s : State) : (s.setCcr b).mem = s.mem := rfl
@[simp] theorem State.setCcr_bus (b : Byte) (s : State) : (s.setCcr b).bus = s.bus := rfl
@[simp] theorem State.setCcr_cfg (b : Byte) (s : State) : (s.setCcr b).cfg = s.cfg := rfl
@[simp] theorem State.setCcr_draws (b : Byte) (s : State) : (s.setCcr b).draws = s.draws := rfl
@[simp] theorem State.setCcr_getD (b : Byte) (s : State) (r : Reg) : (s.setCcr b).getD r = s.getD r := by simp [State.getD]
@[simp] theorem State.setCcr_readByte (b : Byte) (s : State) (x : Long) : (s.setCcr b).readByte x = s.readByte x := by simp [State.readByte]
@[simp] theorem State.setCcr_memRead (b : Byte) (s : State) (x : Long) (z : Size) : (s.setCcr b).memRead x z = s.memRead x z := by
  cases z <;> simp [State.memRead, State.readByte, State.noteReads]

/-! ### `setFlags` -/

@[simp] theorem State.setFlags_d (f : Flags) (s : State) : (s.setFlags f).d = s.d := rfl
@[simp] theorem State.setFlags_a (f : Flags) (s : State) : (s.setFlags f).a = s.a := rfl
@[simp] theorem State.setFlags_usp (f : Flags) (s : State) : (s.setFlags f).usp = s.usp := rfl
@[simp] theorem State.setFlags_ssp (f : Flags) (s : State) : (s.setFlags f).ssp = s.ssp := rfl
@[simp] theorem State.setFlags_pc (f : Flags) (s : State) : (s.setFlags f).pc = s.pc := rfl
@[simp] theorem State.setFlags_sr (f : Flags) (s : State) : (s.setFlags f).sr = (s.sr &&& 0xFFE0#16) ||| f.bits.setWidth 16 := rfl
@[simp] theorem State.setFlags_running (f : Flags) (s : State) : (s.setFlags f).running = s.running := rfl
@[simp] theorem State.setFlags_stopRecord (f : Flags) (s : State) : (s.setFlags f).stopRecord = s.stopRecord := rfl
@[simp] theorem State.setFlags_cycles (f : Flags) (s : State) : (s.setFlags f).cycles = s.cycles := rfl
@[simp] theorem State.setFlags_instrCount (f : Flags) (s : State) : (s.setFlags f).instrCount = s.instrCount := rfl
@[simp] theorem State.setFlags_freq (f : Flags) (s : State) : (s.setFlags f).freq = s.freq := rfl
@[simp] theorem State.setFlags_mem (f : Flags) (s : State) : (s.setFlags f).mem = s.mem := rfl
@[simp] theorem State.setFlags_bus (f : Flags) (s : State) : (s.setFlags f).bus = s.bus := rfl
@[simp] theorem State.setFlags_cfg (f : Flags) (s : State) : (s.setFlags f).cfg = s.cfg := rfl
@[simp] theorem State.setFlags_draws (f : Flags) (s : State) : (s.setFlags f).draws = s.draws := rfl
@[simp] theorem State.setFlags_getD (f : Flags) (s : State) (r : Reg) : (s.setFlags f).getD r = s.getD r := by simp [State.getD]
@[simp] theorem State.setFlags_readByte (f : Flags) (s : State) (x : Long) : (s.setFlags f).readByte x = s.readByte x := by simp [State.readByte]
@[simp] theorem State.setFlags_memRead (f : Flags) (s : State) (x : Long) (z : Size) : (s.setFlags f).memRead x z = s.memRead x z := by
  cases z <;> simp [State.memRead, State.readByte, State.noteReads]

/-! ### `setD` -/

@[simp] theorem State.setD_d (n : Reg) (v : Long) (s : State) : (s.setD n v).d = s.d.set n v := rfl
@[simp] theorem State.setD_a (n : Reg) (v : Long) (s : State) : (s.setD n v).a = s.a := rfl
@[simp] theorem State.setD_usp (n : Reg) (v : Long) (s : State) : (s.setD n v).usp = s.usp := rfl
@[simp] theorem State.setD_ssp (n : Reg) (v : Long) (s : State) : (s.setD n v).ssp = s.ssp := rfl
@[simp] theorem State.setD_pc (n : Reg) (v : Long) (s : State) : (s.setD n v).pc = s.pc := rfl
@[simp] theorem State.setD_sr (n : Reg) (v : Long) (s : State) : (s.setD n v).sr = s.sr := rfl
@[simp] theorem State.setD_running (n : Reg) (v : Long) (s : State) : (s.setD n v).running = s.running := rfl
@[simp] theorem State.setD_stopRecord (n : Reg) (v : Long) (s : State) : (s.setD n v).stopRecord = s.stopRecord := rfl
@[simp] theorem State.setD_cycles (n : Reg) (v : Long) (s : State) : (s.setD n v).cycles = s.cycles := rfl
@[simp] theorem State.setD_instrCount (n : Reg) (v : Long) (s : State) : (s.setD n v).instrCount = s.instrCount := rfl
@[simp] theorem State.setD_freq (n : Reg) (v : Long) (s : State) : (s.setD n v).freq = s.freq := rfl
@[simp] theorem State.setD_mem (n : Reg) (v : Long) (s : State) : (s.setD n v).mem = s.mem := rfl
@[simp] theorem State.setD_bus (n : Reg) (v : Long) (s : State) : (s.setD n v).bus = s.bus := rfl
@[simp] theorem State.setD_cfg (n : Reg) (v : Long) (s : State) : (s.setD n v).cfg = s.cfg := rfl
@[simp] theorem State.setD_draws (n : Reg) (v : Long) (s : State) : (s.setD n v).draws = s.draws := rfl
@[simp] theorem State.setD_flagS (n : Reg) (v : Long) (s : State) : (s.setD n v).flagS = s.flagS := by simp [State.flagS]
@[simp] theorem State.setD_flagZ (n : Reg) (v : Long) (s : State) : (s.setD n v).flagZ = s.flagZ := by simp [State.flagZ]
@[simp] theorem State.setD_flagX (n : Reg) (v : Long) (s : State) : (s.setD n v).flagX = s.flagX := by simp [State.flagX]
@[simp] theorem State.setD_flags (n : Reg) (v : Long) (s : State) : (s.setD n v).flags = s.flags := by
  simp [State.flags, State.flagX, State.flagN, State.flagZ, State.flagV, State.flagC]
@[simp] theorem State.setD_getA (n : Reg) (v : Long) (s : State) (r : Reg) : (s.setD n v).getA r = s.getA r := by simp [State.getA]
@[simp] theorem State.setD_readByte (n : Reg) (v : Long) (s : State) (x : Long) : (s.setD n v).readByte x = s.readByte x := by simp [State.readByte]
@[simp] theorem State.setD_memRead (n : Reg) (v : Long) (s : State) (x : Long) (z : Size) : (s.setD n v).memRead x z = s.memRead x z := by
  cases z <;> simp [State.memRead, State.readByte, State.noteReads]

/-! ### `setDLow` -/

@[simp] theorem State.setDLow_a (n : Reg) (sz : Size) (v : Long) (s : State) : (s.setDLow n sz v).a = s.a := rfl
@[simp] theorem State.setDLow_usp (n : Reg) (sz : Size) (v : Long) (s : State) : (s.setDLow n sz v).usp = s.usp := rfl
@[simp] theorem State.setDLow_ssp (n : Reg) (sz : Size) (v : Long) (s : State) : (s.setDLow n sz v).ssp = s.ssp := rfl
@[simp] theorem State.setDLow_pc (n : Reg) (sz : Size) (v : Long) (s : State) : (s.setDLow n sz v).pc = s.pc := rfl
@[simp] theorem State.setDLow_sr (n : Reg) (sz : Size) (v : Long) (s : State) : (s.setDLow n sz v).sr = s.sr := rfl
@[simp] theorem State.setDLow_running (n : Reg) (sz : Size) (v : Long) (s : State) : (s.setDLow n sz v).running = s.running := rfl
@[simp] theorem State.setDLow_stopRecord (n : Reg) (sz : Size) (v : Long) (s : State) : (s.setDLow n sz v).stopRecord = s.stopRecord := rfl
@[simp] theorem State.setDLow_cycles (n : Reg) (sz : Size) (v : Long) (s : State) : (s.setDLow n sz v).cycles = s.cycles := rfl
@[simp] theorem State.setDLow_instrCount (n : Reg) (sz : Size) (v : Long) (s : State) : (s.setDLow n sz v).instrCount = s.instrCount := rfl
@[simp] theorem State.setDLow_freq (n : Reg) (sz : Size) (v : Long) (s : State) : (s.setDLow n sz v).freq = s.freq := rfl
@[simp] theorem State.setDLow_mem (n : Reg) (sz : Size) (v : Long) (s : State) : (s.setDLow n sz v).mem = s.mem := rfl
@[simp] theorem State.setDLow_bus (n : Reg) (sz : Size) (v : Long) (s : State) : (s.setDLow n sz v).bus = s.bus := rfl
@[simp] theorem State.setDLow_cfg (n : Reg) (sz : Size) (v : Long) (s : State) : (s.setDLow n sz v).cfg = s.cfg := rfl
@[simp] theorem State.setDLow_draws (n : Reg) (sz : Size) (v : Long) (s : State) : (s.setDLow n sz v).draws = s.draws := rfl
@[simp] theorem State.setDLow_flagS (n : Reg) (sz : Size) (v : Long) (s : State) : (s.setDLow n sz v).flagS = s.flagS := by simp [State.flagS]
@[simp] theorem State.setDLow_flagZ (n : Reg) (sz : Size) (v : Long) (s : State) : (s.setDLow n sz v).flagZ = s.flagZ := by simp [State.flagZ]
@[simp] theorem State.setDLow_flagX (n : Reg) (sz : Size) (v : Long) (s : State) : (s.setDLow n sz v).flagX = s.flagX := by simp [State.flagX]
@[simp] theorem State.setDLow_flags (n : Reg) (sz : Size) (v : Long) (s : State) : (s.setDLow n sz v).flags = s.flags := by
  simp [State.flags, State.flagX, State.flagN, State.flagZ, State.flagV, State.flagC]
@[simp] theorem State.setDLow_getA (n : Reg) (sz : Size) (v : Long) (s : State) (r : Reg) : (s.setDLow n sz v).getA r = s.getA r := by simp [State.getA]
@[simp] theorem State.setDLow_readByte (n : Reg) (sz : Size) (v : Long) (s : State) (x : Long) : (s.setDLow n sz v).readByte x = s.readByte x := by simp [State.readByte]
@[simp] theorem State.setDLow_memRead (n : Reg) (sz : Size) (v : Long) (s : State) (x : Long) (z : Size) : (s.setDLow n sz v).memRead x z = s.memRead x z := by
  cases z <;> simp [State.memRead, State.readByte, State.noteReads]

/-! ### `setA` -/

@[simp] theorem State.setA_d (n : Reg) (v : Long) (s : State) : (s.setA n v).d = s.d := by unfold State.setA; split <;> [rfl; (split <;> rfl)]
@[simp] theorem State.setA_pc (n : Reg) (v : Long) (s : State) : (s.setA n v).pc = s.pc := by unfold State.setA; split <;> [rfl; (split <;> rfl)]
@[simp] theorem State.setA_sr (n : Reg) (v : Long) (s : State) : (s.setA n v).sr = s.sr := by unfold State.setA; split <;> [rfl; (split <;> rfl)]
@[simp] theorem State.setA_running (n : Reg) (v : Long) (s : State) : (s.setA n v).running = s.running := by unfold State.setA; split <;> [rfl; (split <;> rfl)]
@[simp] theorem State.setA_stopRecord (n : Reg) (v : Long) (s : State) : (s.setA n v).stopRecord = s.stopRecord := by unfold State.setA; split <;> [rfl; (split <;> rfl)]
@[simp] theorem State.setA_cycles (n : Reg) (v : Long) (s : State) : (s.setA n v).cycles = s.cycles := by unfold State.setA; split <;> [rfl; (split <;> rfl)]
@[simp] theorem State.setA_instrCount (n : Reg) (v : Long) (s : State) : (s.setA n v).instrCount = s.instrCount := by unfold State.setA; split <;> [rfl; (split <;> rfl)]
@[simp] theorem State.setA_freq (n : Reg) (v : Long) (s : State) : (s.setA n v).freq = s.freq := by unfold State.setA; split <;> [rfl; (split <;> rfl)]
@[simp] theorem State.setA_mem (n : Reg) (v : Long) (s : State) : (s.setA n v).mem = s.mem := by unfold State.setA; split <;> [rfl; (split <;> rfl)]
@[simp] theorem State.setA_bus (n : Reg) (v : Long) (s : State) : (s.setA n v).bus = s.bus := by unfold State.setA; split <;> [rfl; (split <;> rfl)]
@[simp] theorem State.setA_cfg (n : Reg) (v : Long) (s : State) : (s.setA n v).cfg = s.cfg := by unfold State.setA; split <;> [rfl; (split <;> rfl)]
@[simp] theorem State.setA_draws (n : Reg) (v : Long) (s : State) : (s.setA n v).draws = s.draws := by unfold State.setA; split <;> [rfl; (split <;> rfl)]
@[simp] theorem State.setA_getD (n : Reg) (v : Long) (s : State) (r : Reg) : (s.setA n v).getD r = s.getD r := by simp [State.getD]
@[simp] theorem State.setA_flagS (n : Reg) (v : Long) (s : State) : (s.setA n v).flagS = s.flagS := by simp [State.flagS]
@[simp] theorem State.setA_flagZ (n : Reg) (v : Long) (s : State) : (s.setA n v).flagZ = s.flagZ := by simp [State.flagZ]
@[simp] theorem State.setA_flagX (n : Reg) (v : Long) (s : State) : (s.setA n v).flagX = s.flagX := by simp [State.flagX]
@[simp] theorem State.setA_flags (n : Reg) (v : Long) (s : State) : (s.setA n v).flags = s.flags := by
  simp [State.flags, State.flagX, State.flagN, State.flagZ, State.flagV, State.flagC]
@[simp] theorem State.setA_readByte (n : Reg) (v : Long) (s : State) (x : Long) : (s.setA n v).readByte x = s.readByte x := by simp [State.readByte]
@[simp] theorem State.setA_memRead (n : Reg) (v : Long) (s : State) (x : Long) (z : Size) : (s.setA n v).memRead x z = s.memRead x z := by
  cases z <;> simp [State.memRead, State.readByte, State.noteReads]

/-! ### `setUSP` -/

@[simp] theorem State.setUSP_d (v : Long) (s : State) : (s.setUSP v).d = s.d := rfl
@[simp] theorem State.setUSP_a (v : Long) (s : State) : (s.setUSP v).a = s.a := rfl
@[simp] theorem State.setUSP_usp (v : Long) (s : State) : (s.setUSP v).usp = v := rfl
@[simp] theorem State.setUSP_ssp (v : Long) (s : State) : (s.setUSP v).ssp = s.ssp := rfl
@[simp] theorem State.setUSP_pc (v : Long) (s : State) : (s.setUSP v).pc = s.pc := rfl
@[simp] theorem State.setUSP_sr (v : Long) (s : State) : (s.setUSP v).sr = s.sr := rfl
@[simp] theorem State.setUSP_running (v : Long) (s : State) : (s.setUSP v).running = s.running := rfl
@[simp] theorem State.setUSP_stopRecord (v : Long) (s : State) : (s.setUSP v).stopRecord = s.stopRecord := rfl
@[simp] theorem State.setUSP_cycles (v : Long) (s : State) : (s.setUSP v).cycles = s.cycles := rfl
@[simp] theorem State.setUSP_instrCount (v : Long) (s : State) : (s.setUSP v).instrCount = s.instrCount := rfl
@[simp] theorem State.setUSP_freq (v : Long) (s : State) : (s.setUSP v).freq = s.freq := rfl
@[simp] theorem State.setUSP_mem (v : Long) (s : State) : (s.setUSP v).mem = s.mem := rfl
@[simp] theorem State.setUSP_bus (v : Long) (s : State) : (s.setUSP v).bus = s.bus := rfl
@[simp] theorem State.setUSP_cfg (v : Long) (s : State) : (s.setUSP v).cfg = s.cfg := rfl
@[simp] theorem State.setUSP_draws (v : Long) (s : State) : (s.setUSP v).draws = s.draws := rfl
@[simp] theorem State.setUSP_getD (v : Long) (s : State) (r : Reg) : (s.setUSP v).getD r = s.getD r := by simp [State.getD]
@[simp] theorem State.setUSP_flagS (v : Long) (s : State) : (s.setUSP v).flagS = s.flagS := by simp [State.flagS]
@[simp] theorem State.setUSP_flagZ (v : Long) (s : State) : (s.setUSP v).flagZ = s.flagZ := by simp [State.flagZ]
@[simp] theorem State.setUSP_flagX (v : Long) (s : State) : (s.setUSP v).flagX = s.flagX := by simp [State.flagX]
@[simp] theorem State.setUSP_flags (v : Long) (s : State) : (s.setUSP v).flags = s.flags := by
  simp [State.flags, State.flagX, State.flagN, State.flagZ, State.flagV, State.flagC]
@[simp] theorem State.setUSP_readByte (v : Long) (s : State) (x : Long) : (s.setUSP v).readByte x = s.readByte x := by simp [State.readByte]
@[simp] theorem State.setUSP_memRead (v : Long) (s : State) (x : Long) (z : Size) : (s.setUSP v).memRead x z = s.memRead x z := by
  cases z <;> simp [State.memRead, State.readByte, State.noteReads]

/-! ### `setPC` -/

@[simp] theorem State.setPC_d (v : Long) (s : State) : (s.setPC v).d = s.d := rfl
@[simp] theorem State.setPC_a (v : Long) (s : State) : (s.setPC v).a = s.a := rfl
@[simp] theorem State.setPC_usp (v : Long) (s : State) : (s.setPC v).usp = s.usp := rfl
@[simp] theorem State.setPC_ssp (v : Long) (s : State) : (s.setPC v).ssp = s.ssp := rfl
@[simp] theorem State.setPC_pc (v : Long) (s : State) : (s.setPC v).pc = v := rfl
@[simp] theorem State.setPC_sr (v : Long) (s : State) : (s.setPC v).sr = s.sr := rfl
@[simp] theorem State.setPC_running (v : Long) (s : State) : (s.setPC v).running = s.running := rfl
@[simp] theorem State.setPC_stopRecord (v : Long) (s : State) : (s.setPC v).stopRecord = s.stopRecord := rfl
@[simp] theorem State.setPC_cycles (v : Long) (s : State) : (s.setPC v).cycles = s.cycles := rfl
@[simp] theorem State.setPC_instrCount (v : Long) (s : State) : (s.setPC v).instrCount = s.instrCount := rfl
@[simp] theorem State.setPC_freq (v : Long) (s : State) : (s.setPC v).freq = s.freq := rfl
@[simp] theorem State.setPC_mem (v : Long) (s : State) : (s.setPC v).mem = s.mem := rfl
@[simp] theorem State.setPC_bus (v : Long) (s : State) : (s.setPC v).bus = s.bus := rfl
@[simp] theorem State.setPC_cfg (v : Long) (s : State) : (s.setPC v).cfg = s.cfg := rfl
@[simp] theorem State.setPC_draws (v : Long) (s : State) : (s.setPC v).draws = s.draws := rfl
@[simp] theorem State.setPC_getD (v : Long) (s : State) (r : Reg) : (s.setPC v).getD r = s.getD r := by simp [State.getD]
@[simp] theorem State.setPC_flagS (v : Long) (s : State) : (s.setPC v).flagS = s.flagS := by simp [State.flagS]
@[simp] theorem State.setPC_flagZ (v : Long) (s : State) : (s.setPC v).flagZ = s.flagZ := by simp [State.flagZ]
@[simp] theorem State.setPC_flagX (v : Long) (s : State) : (s.setPC v).flagX = s.flagX := by simp [State.flagX]
@[simp] theorem State.setPC_flags (v : Long) (s : State) : (s.setPC v).flags = s.flags := by
  simp [State.flags, State.flagX, State.flagN, State.flagZ, State.flagV, State.flagC]
@[simp] theorem State.setPC_getA (v : Long) (s : State) (r : Reg) : (s.setPC v).getA r = s.getA r := by simp [State.getA]
@[simp] theorem State.setPC_readByte (v : Long) (s : State) (x : Long) : (s.setPC v).readByte x = s.readByte x := by simp [State.readByte]
@[simp] theorem State.setPC_memRead (v : Long) (s : State) (x : Long) (z : Size) : (s.setPC v).memRead x z = s.memRead x z := by
  cases z <;> simp [State.memRead, State.readByte, State.noteReads]

/-! ### `skip` -/

@[simp] theorem State.skip_d (n : Nat) (s : State) : (s.skip n).d = s.d := rfl
@[simp] theorem State.skip_a (n : Nat) (s : State) : (s.skip n).a = s.a := rfl
@[simp] theorem State.skip_usp (n : Nat) (s : State) : (s.skip n).usp = s.usp := rfl
@[simp] theorem State.skip_ssp (n : Nat) (s : State) : (s.skip n).ssp = s.ssp := rfl
@[simp] theorem State.skip_pc (n : Nat) (s : State) : (s.skip n).pc = s.pc + BitVec.ofNat 32 (2 * n) := rfl
@[simp] theorem State.skip_sr (n : Nat) (s : State) : (s.skip n).sr = s.sr := rfl
@[simp] theorem State.skip_running (n : Nat) (s : State) : (s.skip n).running = s.running := rfl
@[simp] theorem State.skip_stopRecord (n : Nat) (s : State) : (s.skip n).stopRecord = s.stopRecord := rfl
@[simp] theorem State.skip_cycles (n : Nat) (s : State) : (s.skip n).cycles = s.cycles := rfl
@[simp] theorem State.skip_instrCount (n : Nat) (s : State) : (s.skip n).instrCount = s.instrCount := rfl
@[simp] theorem State.skip_freq (n : Nat) (s : State) : (s.skip n).freq = s.freq := rfl
@[simp] theorem State.skip_mem (n : Nat) (s : State) : (s.skip n).mem = s.mem := rfl
@[simp] theorem State.skip_cfg (n : Nat) (s : State) : (s.skip n).cfg = s.cfg := rfl
@[simp] theorem State.skip_draws (n : Nat) (s : State) : (s.skip n).draws = s.draws := rfl
@[simp] theorem State.skip_getD (n : Nat) (s : State) (r : Reg) : (s.skip n).getD r = s.getD r := by simp [State.getD]
@[simp] theorem State.skip_flagS (n : Nat) (s : State) : (s.skip n).flagS = s.flagS := by simp [State.flagS]
@[simp] theorem State.skip_flagZ (n : Nat) (s : State) : (s.skip n).flagZ = s.flagZ := by simp [State.flagZ]
@[simp] theorem State.skip_flagX (n : Nat) (s : State) : (s.skip n).flagX = s.flagX := by simp [State.flagX]
@[simp] theorem State.skip_flags (n : Nat) (s : State) : (s.skip n).flags = s.flags := by
  simp [State.flags, State.flagX, State.flagN, State.flagZ, State.flagV, State.flagC]
@[simp] theorem State.skip_getA (n : Nat) (s : State) (r : Reg) : (s.skip n).getA r = s.getA r := by simp [State.getA]

/-! ### `halt` -/

@[simp] theorem State.halt_d (c : Ctx) (k : HaltKind) (info : Option Int) (s : State) : (s.halt c k info).d = s.d := rfl
@[simp] theorem State.halt_a (c : Ctx) (k : HaltKind) (info : Option Int) (s : State) : (s.halt c k info).a = s.a := rfl
@[simp] theorem State.halt_usp (c : Ctx) (k : HaltKind) (info : Option Int) (s : State) : (s.halt c k info).usp = s.usp := rfl
@[simp] theorem State.halt_ssp (c : Ctx) (k : HaltKind) (info : Option Int) (s : State) : (s.halt c k info).ssp = s.ssp := rfl
@[simp] theorem State.halt_pc (c : Ctx) (k : HaltKind) (info : Option Int) (s : State) : (s.halt c k info).pc = s.pc := rfl
@[simp] theorem State.halt_sr (c : Ctx) (k : HaltKind) (info : Option Int) (s : State) : (s.halt c k info).sr = s.sr := rfl
@[simp] theorem State.halt_running (c : Ctx) (k : HaltKind) (info : Option Int) (s : State) : (s.halt c k info).running = false := rfl
@[simp] theorem State.halt_stopRecord (c : Ctx) (k : HaltKind) (info : Option Int) (s : State) : (s.halt c k info).stopRecord = some { kind := k, opcode := c.op, faultPC := c.opAddr, info := info } := rfl
@[simp] theorem State.halt_cycles (c : Ctx) (k : HaltKind) (info : Option Int) (s : State) : (s.halt c k info).cycles = s.cycles := rfl
@[simp] theorem State.halt_instrCount (c : Ctx) (k : HaltKind) (info : Option Int) (s : State) : (s.halt c k info).instrCount = s.instrCount := rfl
@[simp] theorem State.halt_freq (c : Ctx) (k : HaltKind) (info : Option Int) (s : State) : (s.halt c k info).freq = s.freq := rfl
@[simp] theorem State.halt_mem (c : Ctx) (k : HaltKind) (info : Option Int) (s : State) : (s.halt c k info).mem = s.mem := rfl
@[simp] theorem State.halt_bus (c : Ctx) (k : HaltKind) (info : Option Int) (s : State) : (s.halt c k info).bus = s.bus := rfl
@[simp] theorem State.halt_cfg (c : Ctx) (k : HaltKind) (info : Option Int) (s : State) : (s.halt c k info).cfg = s.cfg := rfl
@[simp] theorem State.halt_draws (c : Ctx) (k : HaltKind) (info : Option Int) (s : State) : (s.halt c k info).draws = s.draws := rfl
@[simp] theorem State.halt_getD (c : Ctx) (k : HaltKind) (info : Option Int) (s : State) (r : Reg) : (s.halt c k info).getD r = s.getD r := by simp [State.getD]
@[simp] theorem State.halt_flagS (c : Ctx) (k : HaltKind) (info : Option Int) (s : State) : (s.halt c k info).flagS = s.flagS := by simp [State.flagS]
@[simp] theorem State.halt_flagZ (c : Ctx) (k : HaltKind) (info : Option Int) (s : State) : (s.halt c k info).flagZ = s.flagZ := by simp [State.flagZ]
@[simp] theorem State.halt_flagX (c : Ctx) (k : HaltKind) (info : Option Int) (s : State) : (s.halt c k info).flagX = s.flagX := by simp [State.flagX]
@[simp] theorem State.halt_flags (c : Ctx) (k : HaltKind) (info : Option Int) (s : State) : (s.halt c k info).flags = s.flags := by
  simp [State.flags, State.flagX, State.flagN, State.flagZ, State.flagV, State.flagC]
@[simp] theorem State.halt_getA (c : Ctx) (k : HaltKind) (info : Option Int) (s : State) (r : Reg) : (s.halt c k info).getA r = s.getA r := by simp [State.getA]
@[simp] theorem State.halt_readByte (c : Ctx) (k : HaltKind) (info : Option Int) (s : State) (x : Long) : (s.halt c k info).readByte x = s.readByte x := by simp [State.readByte]
@[simp] theorem State.halt_memRead (c : Ctx) (k : HaltKind) (info : Option Int) (s : State) (x : Long) (z : Size) : (s.halt c k info).memRead x z = s.memRead x z := by
  cases z <;> simp [State.memRead, State.readByte, State.noteReads]

end Sys2Proof.Machine
end

