-- ==== Sys2Proof/Laws/Memory.lean ====
section
/-! SUPPORT. Memory: reads after writes, and the canonical form, which every write keeps. -/

namespace Sys2Proof.Machine

/-! ## The list of cells -/

theorem Memory.lookup_store_same (a : Nat) (b : Byte) (m : List Host.Cell) :
    Memory.lookup a (Memory.store a b m) = some b := by
  induction m with
  | nil => simp [Memory.store, Memory.lookup]
  | cons c m ih =>
    obtain ⟨k, x⟩ := c
    simp only [Memory.store]
    split
    · simp [Memory.lookup]
    · split
      · simp [Memory.lookup]
      · have : k ≠ a := by omega
        simpa [Memory.lookup, this] using ih

theorem Memory.lookup_store_other {a c : Nat} (h : c ≠ a) (b : Byte) (m : List Host.Cell) :
    Memory.lookup c (Memory.store a b m) = Memory.lookup c m := by
  have h' : a ≠ c := fun e => h e.symm
  induction m with
  | nil => simp [Memory.store, Memory.lookup, h']
  | cons y m ih =>
    obtain ⟨k, x⟩ := y
    simp only [Memory.store]
    split
    · simp [Memory.lookup, h']
    · split
      · subst_vars; simp [Memory.lookup, h']
      · by_cases hk : k = c <;> simp [Memory.lookup, hk, ih]

theorem Memory.risingFrom_store {lo a : Nat} (b : Byte) (m : List Host.Cell) (hlo : lo ≤ a)
    (ha : a < 4294967296) (hm : Memory.risingFrom lo m = true) :
    Memory.risingFrom lo (Memory.store a b m) = true := by
  induction m generalizing lo with
  | nil => simp [Memory.store, Memory.risingFrom, hlo, ha]
  | cons y m ih =>
    obtain ⟨k, x⟩ := y
    simp only [Memory.risingFrom, Bool.and_eq_true, decide_eq_true_eq] at hm
    obtain ⟨⟨h1, h2⟩, h3⟩ := hm
    simp only [Memory.store]
    split
    · simp only [Memory.risingFrom, Bool.and_eq_true, decide_eq_true_eq]
      exact ⟨⟨hlo, ha⟩, ⟨by omega, h2⟩, h3⟩
    · split
      · subst_vars; simp only [Memory.risingFrom, Bool.and_eq_true, decide_eq_true_eq]
        exact ⟨⟨h1, h2⟩, h3⟩
      · simp only [Memory.risingFrom, Bool.and_eq_true, decide_eq_true_eq]
        exact ⟨⟨h1, h2⟩, ih (by omega) h3⟩

/-! ## The two kinds of `MEM` -/

theorem State.noteReads_ram {s : State} (h : s.cfg.mem = .ram) (l : List Long) : s.noteReads l = s := by
  simp [State.noteReads, h]
theorem State.afterRead_ram {s : State} (h : s.cfg.mem = .ram) (a : Long) (sz : Size) : s.afterRead a sz = s :=
  State.noteReads_ram h _
theorem State.afterReadEA_ram {s : State} (h : s.cfg.mem = .ram) (l : Loc) (sz : Size) : s.afterReadEA l sz = s := by
  simp [State.afterReadEA, State.noteReads_ram h]
theorem State.skip_ram {s : State} (h : s.cfg.mem = .ram) (n : Nat) :
    s.skip n = { s with pc := s.pc + BitVec.ofNat 32 (2 * n) } := by
  simp [State.skip, State.noteReads_ram h]
theorem State.noteReads_platform {s : State} (h : s.cfg.mem = .platform) (l : List Long) :
    (s.noteReads l).bus = s.bus ++ l.map .read := by simp [State.noteReads, h]

@[simp] theorem State.noteReads_nil (s : State) : s.noteReads [] = s := by
  cases hm : s.cfg.mem <;> simp [State.noteReads, hm]
@[simp] theorem State.skip_zero (s : State) : s.skip 0 = s := by simp [State.skip, span]
@[simp] theorem State.noteReads_noteReads (l m : List Long) (s : State) :
    (s.noteReads l).noteReads m = s.noteReads (l ++ m) := by
  cases hm : s.cfg.mem <;> simp [State.noteReads, hm]

theorem State.readByte_ram {s : State} (h : s.cfg.mem = .ram) (a : Long) :
    s.readByte a = (Memory.lookup a.toNat s.mem).getD (Config.initialByte a) := by simp [State.readByte, h]
theorem State.readByte_platform {s : State} (h : s.cfg.mem = .platform) (a : Long) :
    s.readByte a = Config.platformByte s.bus a := by simp [State.readByte, h]
/-- A byte depends on what holds memory only. -/
theorem State.readByte_congr {s t : State} (hm : t.mem = s.mem) (hb : t.bus = s.bus) (hc : t.cfg = s.cfg) (a : Long) :
    t.readByte a = s.readByte a := by simp [State.readByte, hm, hb, hc]
theorem State.memRead_congr' {s t : State} (hm : t.mem = s.mem) (hb : t.bus = s.bus) (hc : t.cfg = s.cfg) (a : Long)
    (sz : Size) : t.memRead a sz = s.memRead a sz := by
  cases sz <;> simp [State.memRead, State.readByte, State.noteReads, hm, hb, hc]

/-! ## Bytes -/

theorem State.readByte_writeByte_same {s : State} (hr : s.cfg.mem = .ram) (a : Long) (b : Byte) :
    (s.writeByte a b).readByte a = b := by
  simp [State.readByte, State.writeByte, hr, Memory.lookup_store_same]

theorem State.readByte_writeByte_other {s : State} (hr : s.cfg.mem = .ram) {a c : Long} (h : c ≠ a) (b : Byte) :
    (s.writeByte a b).readByte c = s.readByte c := by
  have : c.toNat ≠ a.toNat := fun e => h (BitVec.eq_of_toNat_eq e)
  simp [State.readByte, State.writeByte, hr, Memory.lookup_store_other this]

theorem State.readByte_writeByte {s : State} (hr : s.cfg.mem = .ram) (a c : Long) (b : Byte) :
    (s.writeByte a b).readByte c = if c = a then b else s.readByte c := by
  split
  · subst_vars; exact State.readByte_writeByte_same hr _ _
  · exact State.readByte_writeByte_other hr ‹_› _

theorem State.wf_writeByte (a : Long) (b : Byte) (s : State) (h : Memory.wf s.mem = true) :
    Memory.wf (s.writeByte a b).mem = true := by
  cases hm : s.cfg.mem <;> simp only [State.writeByte, hm]
  · exact Memory.risingFrom_store b s.mem (Nat.zero_le _) a.isLt h
  · exact h

theorem State.writeByte_bus_ram {s : State} (h : s.cfg.mem = .ram) (a : Long) (b : Byte) :
    (s.writeByte a b).bus = s.bus := by simp [State.writeByte, h]
theorem State.writeByte_bus_platform {s : State} (h : s.cfg.mem = .platform) (a : Long) (b : Byte) :
    (s.writeByte a b).bus = s.bus ++ [.write a b] := by simp [State.writeByte, h]
theorem State.writeByte_mem_platform {s : State} (h : s.cfg.mem = .platform) (a : Long) (b : Byte) :
    (s.writeByte a b).mem = s.mem := by simp [State.writeByte, h]

theorem State.wf_memWrite (a : Long) (sz : Size) (v : Long) (s : State) (h : Memory.wf s.mem = true) :
    Memory.wf (s.memWrite a sz v).mem = true := by
  cases sz <;> simp only [State.memWrite] <;> repeat' apply State.wf_writeByte
  all_goals exact h

/-- A write to memory changes memory only. -/
theorem State.memWrite_eq (a : Long) (sz : Size) (v : Long) (s : State) :
    s.memWrite a sz v = { s with mem := (s.memWrite a sz v).mem, bus := (s.memWrite a sz v).bus } := by
  cases sz <;> rfl

theorem State.memWrite_bus_ram {s : State} (h : s.cfg.mem = .ram) (a : Long) (sz : Size) (v : Long) :
    (s.memWrite a sz v).bus = s.bus := by cases sz <;> simp [State.memWrite, State.writeByte, h]
theorem State.memWrite_bus_platform {s : State} (h : s.cfg.mem = .platform) (a : Long) (sz : Size) (v : Long) :
    (s.memWrite a sz v).bus = s.bus ++ storeAccesses a sz v := by
  cases sz <;> simp [State.memWrite, State.writeByte, h, storeAccesses, Size.bytes, List.range, List.range.loop]
theorem State.memWrite_mem_platform {s : State} (h : s.cfg.mem = .platform) (a : Long) (sz : Size) (v : Long) :
    (s.memWrite a sz v).mem = s.mem := by cases sz <;> simp [State.memWrite, State.writeByte, h]

/-! ## Words and longs -/

/-- Two small distances from one address are different addresses. -/
theorem add_ofNat_ne (a : Long) {i j : Nat} (hi : i < 4294967296) (hj : j < 4294967296) (h : i ≠ j) :
    a + BitVec.ofNat 32 i ≠ a + BitVec.ofNat 32 j := by
  intro e
  have := congrArg BitVec.toNat e
  simp only [BitVec.toNat_add, BitVec.toNat_ofNat] at this
  have := a.isLt
  omega

theorem add_ofNat_ofNat (a : Long) (x j : Nat) : a + BitVec.ofNat 32 x + BitVec.ofNat 32 j = a + BitVec.ofNat 32 (x + j) := by
  rw [BitVec.add_assoc, BitVec.ofNat_add]

/-- A span is its first addresses and those after them. -/
theorem span_add (a : Long) (x n : Nat) : span a (x + n) = span a x ++ span (a + BitVec.ofNat 32 x) n := by
  simp only [span, List.range_add, List.map_append, List.map_map]
  congr 1
  apply List.map_congr_left; intro i _
  simp [add_ofNat_ofNat]

theorem within_iff (m : Long) (n : Nat) (hn : n ≤ 4294967296) (a : Long) :
    within m n a ↔ ∃ i, i < n ∧ a = m + BitVec.ofNat 32 i := by
  unfold within
  constructor
  · intro h
    refine ⟨(a - m).toNat, h, ?_⟩
    rw [BitVec.ofNat_toNat]
    simp
  · rintro ⟨i, hi, rfl⟩
    have : m + BitVec.ofNat 32 i - m = BitVec.ofNat 32 i := by
      rw [BitVec.add_comm]; simp
    rw [this, BitVec.toNat_ofNat]
    omega

/-- The bytes of a value, high byte first, as a write lays them out. -/
theorem State.memWrite_byte {s : State} (hr : s.cfg.mem = .ram) (a : Long) (sz : Size) (v : Long) (i : Nat)
    (hi : i < sz.bytes) :
    (s.memWrite a sz v).readByte (a + BitVec.ofNat 32 i) = v.extractLsb' (8 * (sz.bytes - 1 - i)) 8 := by
  have n12 : a + 1 ≠ a + 2 := add_ofNat_ne a (i := 1) (j := 2) (by omega) (by omega) (by omega)
  have n13 : a + 1 ≠ a + 3 := add_ofNat_ne a (i := 1) (j := 3) (by omega) (by omega) (by omega)
  have n23 : a + 2 ≠ a + 3 := add_ofNat_ne a (i := 2) (j := 3) (by omega) (by omega) (by omega)
  cases sz <;> simp only [Size.bytes] at hi ⊢
  · obtain rfl : i = 0 := by omega
    simp [State.memWrite, State.readByte_writeByte, hr]
  · obtain rfl | rfl : i = 0 ∨ i = 1 := by omega
    all_goals simp [State.memWrite, State.readByte_writeByte, hr]
  · obtain rfl | rfl | rfl | rfl : i = 0 ∨ i = 1 ∨ i = 2 ∨ i = 3 := by omega
    all_goals simp [State.memWrite, State.readByte_writeByte, hr]

theorem State.memWrite_other {s : State} (hr : s.cfg.mem = .ram) (a : Long) (sz : Size) (v : Long) (b : Long)
    (h : ¬ within a sz.bytes b) : (s.memWrite a sz v).readByte b = s.readByte b := by
  have key : ∀ i, i < sz.bytes → b ≠ a + BitVec.ofNat 32 i := by
    intro i hi e
    exact h ((within_iff a sz.bytes (by cases sz <;> simp [Size.bytes]) b).2 ⟨i, hi, e⟩)
  cases sz <;> simp only [Size.bytes] at key <;>
    simp only [State.memWrite, State.readByte_writeByte, State.writeByte_cfg, hr]
  · have := key 0 (by omega); simp at this; simp [this]
  · have h0 := key 0 (by omega); have h1 := key 1 (by omega); simp at h0 h1; simp [h0, h1]
  · have h0 := key 0 (by omega); have h1 := key 1 (by omega); have h2 := key 2 (by omega)
    have h3 := key 3 (by omega); simp at h0 h1 h2 h3; simp [h0, h1, h2, h3]

/-- A read composes its bytes big-endian. -/
theorem State.memRead_byte (a : Long) (sz : Size) (s : State) (i : Nat) (hi : i < sz.bytes) :
    (s.memRead a sz).extractLsb' (8 * (sz.bytes - 1 - i)) 8 =
      (s.noteReads (span a i)).readByte (a + BitVec.ofNat 32 i) := by
  apply BitVec.eq_of_getLsbD_eq; intro k hk
  cases sz <;> simp only [Size.bytes] at hi ⊢
  · obtain rfl : i = 0 := by omega
    simp only [State.memRead, BitVec.getLsbD_extractLsb', BitVec.getLsbD_setWidth]
    simp [span]; grind
  · obtain rfl | rfl : i = 0 ∨ i = 1 := by omega
    all_goals
      simp only [State.memRead, BitVec.getLsbD_extractLsb', BitVec.getLsbD_setWidth, BitVec.getLsbD_append]
      simp [span, List.range, List.range.loop]; grind
  · obtain rfl | rfl | rfl | rfl : i = 0 ∨ i = 1 ∨ i = 2 ∨ i = 3 := by omega
    all_goals
      simp only [State.memRead, BitVec.getLsbD_extractLsb', BitVec.getLsbD_append]
      simp [span, List.range, List.range.loop]; grind

/-- A long is its four bytes. -/
theorem long_ext {x y : Long} (h : ∀ i, i < 4 → x.extractLsb' (8 * (3 - i)) 8 = y.extractLsb' (8 * (3 - i)) 8) :
    x = y := by
  apply BitVec.eq_of_getLsbD_eq; intro k hk
  have := congrArg (fun b : BitVec 8 => b.getLsbD (k % 8)) (h (3 - k / 8) (by omega))
  simp only [BitVec.getLsbD_extractLsb', show k % 8 < 8 by omega, decide_true, Bool.true_and] at this
  rwa [show 8 * (3 - (3 - k / 8)) + k % 8 = k by omega] at this

theorem trunc_trunc (sz : Size) (v : Long) : trunc sz (trunc sz v) = trunc sz v := by
  cases sz
  · apply BitVec.eq_of_getLsbD_eq; intro k hk; simp [trunc, BitVec.getLsbD_setWidth]
  · apply BitVec.eq_of_getLsbD_eq; intro k hk; simp [trunc, BitVec.getLsbD_setWidth]
  · rfl

theorem trunc_getLsbD (sz : Size) (v : Long) (k : Nat) :
    (trunc sz v).getLsbD k = (decide (k < sz.bits) && v.getLsbD k) := by
  cases sz
  · simp [trunc, BitVec.getLsbD_setWidth, Size.bits, Size.bytes]; grind
  · simp [trunc, BitVec.getLsbD_setWidth, Size.bits, Size.bytes]; grind
  · simp [trunc, Size.bits, Size.bytes]; grind

theorem State.trunc_memRead (a : Long) (sz : Size) (s : State) : trunc sz (s.memRead a sz) = s.memRead a sz := by
  cases sz
  · simp [trunc, State.memRead]
  · apply BitVec.eq_of_getLsbD_eq; intro k hk
    simp [trunc, State.memRead, BitVec.getLsbD_setWidth]
  · rfl

/-- A read where a write of the same size was gives the value written. -/
theorem State.memRead_memWrite {s : State} (hr : s.cfg.mem = .ram) (a : Long) (sz : Size) (v : Long) :
    (s.memWrite a sz v).memRead a sz = trunc sz v := by
  have key : ∀ i, i < sz.bytes →
      ((s.memWrite a sz v).memRead a sz).extractLsb' (8 * (sz.bytes - 1 - i)) 8 =
        v.extractLsb' (8 * (sz.bytes - 1 - i)) 8 := fun i hi => by
    rw [State.memRead_byte _ _ _ _ hi, State.noteReads_ram (by simpa using hr), State.memWrite_byte hr _ _ _ _ hi]
  rw [← State.trunc_memRead]
  apply BitVec.eq_of_getLsbD_eq; intro k hk
  rw [trunc_getLsbD, trunc_getLsbD]
  by_cases h : k < sz.bits
  · have hk8 : k / 8 < sz.bytes := by simp only [Size.bits] at h; omega
    have := congrArg (fun b : BitVec 8 => b.getLsbD (k % 8)) (key (sz.bytes - 1 - k / 8) (by omega))
    simp only [BitVec.getLsbD_extractLsb', show k % 8 < 8 by omega, decide_true, Bool.true_and] at this
    rw [show 8 * (sz.bytes - 1 - (sz.bytes - 1 - k / 8)) + k % 8 = k by omega] at this
    rw [this]
  · simp [h]

/-- A read of plain RAM depends on its own bytes only. -/
theorem State.memRead_congr {a : Long} {sz : Size} {s t : State} (hs : s.cfg.mem = .ram) (ht : t.cfg.mem = .ram)
    (h : ∀ i, i < sz.bytes → t.readByte (a + BitVec.ofNat 32 i) = s.readByte (a + BitVec.ofNat 32 i)) :
    t.memRead a sz = s.memRead a sz := by
  cases sz <;> simp only [Size.bytes] at h
  · have h0 := h 0 (by omega); simp at h0; simp [State.memRead, h0]
  · have h0 := h 0 (by omega); have h1 := h 1 (by omega); simp at h0 h1
    simp [State.memRead, State.noteReads_ram hs, State.noteReads_ram ht, h0, h1]
  · have h0 := h 0 (by omega); have h1 := h 1 (by omega); have h2 := h 2 (by omega)
    have h3 := h 3 (by omega); simp at h0 h1 h2 h3
    simp [State.memRead, State.noteReads_ram hs, State.noteReads_ram ht, h0, h1, h2, h3]

/-! ## Stores -/

theorem State.Stored.refl {covered : Long → Prop} (s : State) : s.Stored [] covered s :=
  ⟨fun _ _ _ => rfl, fun _ => rfl, fun _ => by simp, fun _ => rfl⟩

theorem State.stored_memWrite (a : Long) (sz : Size) (v : Long) (s : State) :
    s.Stored (storeAccesses a sz v) (within a sz.bytes) (s.memWrite a sz v) :=
  ⟨fun hr b hb => State.memWrite_other hr a sz v b hb, fun hr => State.memWrite_bus_ram hr .., fun hp =>
    State.memWrite_bus_platform hp .., fun hp => State.memWrite_mem_platform hp ..⟩

/-- Fewer bytes are covered by less. -/
theorem State.Stored.mono {acc : List Config.Access} {c d : Long → Prop} {s t : State} (h : s.Stored acc c t)
    (hcd : ∀ a, c a → d a) : s.Stored acc d t :=
  { h with bytes := fun hr a ha => h.bytes hr a fun hc => ha (hcd a hc) }

/-- One store after another. -/
theorem State.Stored.trans {acc acc' : List Config.Access} {c : Long → Prop} {s t u : State} (h : s.Stored acc c t)
    (g : t.Stored acc' c u) (e : t.cfg = s.cfg) : s.Stored (acc ++ acc') c u := by
  refine ⟨fun hr a ha => ?_, fun hr => ?_, fun hp => ?_, fun hp => ?_⟩
  · rw [g.bytes (e ▸ hr) a ha, h.bytes hr a ha]
  · rw [g.ramBus (e ▸ hr), h.ramBus hr]
  · rw [g.accesses (e ▸ hp), h.accesses hp, List.append_assoc]
  · rw [g.platformMem (e ▸ hp), h.platformMem hp]

/-- A store is the same seen from states, and to states, with the same memory. -/
theorem State.Stored.congr {acc : List Config.Access} {covered : Long → Prop} {s t s' t' : State}
    (h : s.Stored acc covered t) (sm : s'.mem = s.mem) (sb : s'.bus = s.bus) (sc : s'.cfg = s.cfg)
    (tm : t'.mem = t.mem) (tb : t'.bus = t.bus) (tc : t'.cfg = t.cfg) : s'.Stored acc covered t' := by
  refine ⟨fun hr a ha => ?_, fun hr => ?_, fun hp => ?_, fun hp => ?_⟩
  · rw [State.readByte_congr tm tb tc, State.readByte_congr sm sb sc]; exact h.bytes (sc ▸ hr) a ha
  · rw [tb, sb]; exact h.ramBus (sc ▸ hr)
  · rw [tb, sb]; exact h.accesses (sc ▸ hp)
  · rw [tm, sm]; exact h.platformMem (sc ▸ hp)

end Sys2Proof.Machine
end

