-- ==== Sys2Proof/Laws/Flags.lean ====
section
/-! SUPPORT. The status register: what a write of the flags, of CCR and of SR leaves, and the draws. -/

namespace Sys2Proof

theorem Flags.bits_getLsbD (f : Flags) (k : Nat) : f.bits.getLsbD k =
    if k = 0 then f.c else if k = 1 then f.v else if k = 2 then f.z else if k = 3 then f.n
    else if k = 4 then f.x else false := by
  match k with
  | 0 => obtain ⟨x, n, z, v, c⟩ := f; revert x n z v c; decide
  | 1 => obtain ⟨x, n, z, v, c⟩ := f; revert x n z v c; decide
  | 2 => obtain ⟨x, n, z, v, c⟩ := f; revert x n z v c; decide
  | 3 => obtain ⟨x, n, z, v, c⟩ := f; revert x n z v c; decide
  | 4 => obtain ⟨x, n, z, v, c⟩ := f; revert x n z v c; decide
  | n + 5 => simp

namespace Machine

theorem State.setFlags_getLsbD (f : Flags) (s : State) (k : Nat) (hk : k < 16) :
    (s.setFlags f).sr.getLsbD k = if k < 5 then f.bits.getLsbD k else s.sr.getLsbD k := by
  have : (0xFFE0#16).getLsbD k = decide (5 ≤ k) := by
    have := (by decide : ∀ k : Fin 16, (0xFFE0#16).getLsbD k = decide (5 ≤ k.val)) ⟨k, hk⟩
    exact this
  simp only [State.setFlags_sr, BitVec.getLsbD_or, BitVec.getLsbD_and, BitVec.getLsbD_setWidth, this]
  by_cases h : k < 5
  · simp [h, hk]
    try grind
  · simp [h, hk]
    try grind

@[simp] theorem State.setFlags_flags (f : Flags) (s : State) : (s.setFlags f).flags = f := by
  simp only [State.flags, State.flagX, State.flagN, State.flagZ, State.flagV, State.flagC]
  rw [State.setFlags_getLsbD f s 4 (by omega), State.setFlags_getLsbD f s 3 (by omega),
    State.setFlags_getLsbD f s 2 (by omega), State.setFlags_getLsbD f s 1 (by omega),
    State.setFlags_getLsbD f s 0 (by omega)]
  simp only [Flags.bits_getLsbD]
  rfl

theorem State.setFlags_srRest (f : Flags) (s : State) (k : Nat) (hk : 5 ≤ k) :
    (s.setFlags f).sr.getLsbD k = s.sr.getLsbD k := by
  by_cases h : k < 16
  · rw [State.setFlags_getLsbD f s k h, if_neg (by omega)]
  · rw [BitVec.getLsbD_of_ge _ _ (by omega), BitVec.getLsbD_of_ge _ _ (by omega)]

@[simp] theorem State.setFlags_flagS (f : Flags) (s : State) : (s.setFlags f).flagS = s.flagS :=
  State.setFlags_srRest f s 13 (by omega)

@[simp] theorem State.setFlags_getA (f : Flags) (s : State) (n : Reg) : (s.setFlags f).getA n = s.getA n := by
  simp [State.getA]

theorem State.setCcr_getLsbD (b : Byte) (s : State) (k : Nat) (hk : k < 16) :
    (s.setCcr b).sr.getLsbD k = if k < 5 then b.getLsbD k else if k < 8 then false else s.sr.getLsbD k := by
  have h1 := (by decide : ∀ k : Fin 16, (0xFF00#16).getLsbD k = decide (8 ≤ k.val)) ⟨k, hk⟩
  have h2 := (by decide : ∀ k : Fin 16, (0x001F#16).getLsbD k = decide (k.val < 5)) ⟨k, hk⟩
  simp only at h1 h2
  simp only [State.setCcr_sr, BitVec.getLsbD_or, BitVec.getLsbD_and, BitVec.getLsbD_setWidth, h1, h2]
  simp [hk]; grind

@[simp] theorem State.setCcr_flagS (b : Byte) (s : State) : (s.setCcr b).flagS = s.flagS := by
  unfold State.flagS
  rw [State.setCcr_getLsbD b s 13 (by omega), if_neg (by omega), if_neg (by omega)]

@[simp] theorem State.setCcr_getA (b : Byte) (s : State) (n : Reg) : (s.setCcr b).getA n = s.getA n := by
  simp [State.getA]

theorem sr_mask_getLsbD (v : Word) (k : Nat) (hk : k < 16) : (v &&& 0xA71F#16).getLsbD k =
    (v.getLsbD k && (decide (k < 5) || k == 8 || k == 9 || k == 10 || k == 13 || k == 15)) := by
  have := (by decide : ∀ k : Fin 16, (0xA71F#16).getLsbD k =
    (decide (k.val < 5) || k.val == 8 || k.val == 9 || k.val == 10 || k.val == 13 || k.val == 15)) ⟨k, hk⟩
  simp only at this
  rw [BitVec.getLsbD_and, this]

/-- The unimplemented bits of a word are 0 exactly when masking does nothing. -/
theorem srBits_iff (v : Word) : v &&& 0xA71F#16 = v ↔
    ∀ k, k < 16 → v.getLsbD k = true → k < 5 ∨ k = 8 ∨ k = 9 ∨ k = 10 ∨ k = 13 ∨ k = 15 := by
  constructor
  · intro h k hk hv
    rw [← h, sr_mask_getLsbD v k hk] at hv
    simp at hv; omega
  · intro h
    apply BitVec.eq_of_getLsbD_eq; intro k hk
    rw [sr_mask_getLsbD v k hk]
    cases hv : v.getLsbD k
    · simp
    · have := h k hk hv; simp; omega

@[simp] theorem sr_mask_mask (v : Word) : v &&& 0xA71F#16 &&& 0xA71F#16 = v &&& 0xA71F#16 := by
  rw [BitVec.and_assoc]; simp

theorem State.setFlags_srBits (f : Flags) (s : State) (h : s.sr &&& 0xA71F#16 = s.sr) :
    (s.setFlags f).sr &&& 0xA71F#16 = (s.setFlags f).sr := by
  rw [srBits_iff] at h ⊢
  intro k hk hv
  rw [State.setFlags_getLsbD f s k hk] at hv
  split at hv
  · omega
  · exact h k hk hv

theorem State.setCcr_srBits (b : Byte) (s : State) (h : s.sr &&& 0xA71F#16 = s.sr) :
    (s.setCcr b).sr &&& 0xA71F#16 = (s.setCcr b).sr := by
  rw [srBits_iff] at h ⊢
  intro k hk hv
  rw [State.setCcr_getLsbD b s k hk] at hv
  split at hv
  · omega
  · split at hv
    · simp at hv
    · exact h k hk hv

/-- The last write of the flags counts. -/
@[simp] theorem State.setFlags_setFlags (f g : Flags) (s : State) : (s.setFlags f).setFlags g = s.setFlags g := by
  have : ((s.setFlags f).setFlags g).sr = (s.setFlags g).sr := by
    apply BitVec.eq_of_getLsbD_eq; intro k hk
    simp only [State.setFlags_getLsbD _ _ _ hk]
    split <;> rfl
  calc (s.setFlags f).setFlags g = { s with sr := ((s.setFlags f).setFlags g).sr } := rfl
    _ = s.setFlags g := by rw [this]; rfl

/-! ## Draws: one flag and the count change -/

theorem State.drawN_eq (s : State) : ∃ f : Flags, s.drawN = { s.setFlags f with draws := s.draws + 1 } ∧
    f.x = s.flags.x ∧ f.z = s.flags.z ∧ f.v = s.flags.v ∧ f.c = s.flags.c := ⟨_, rfl, rfl, rfl, rfl, rfl⟩
theorem State.drawZ_eq (s : State) : ∃ f : Flags, s.drawZ = { s.setFlags f with draws := s.draws + 1 } ∧
    f.x = s.flags.x ∧ f.n = s.flags.n ∧ f.v = s.flags.v ∧ f.c = s.flags.c := ⟨_, rfl, rfl, rfl, rfl, rfl⟩
theorem State.drawV_eq (s : State) : ∃ f : Flags, s.drawV = { s.setFlags f with draws := s.draws + 1 } ∧
    f.x = s.flags.x ∧ f.n = s.flags.n ∧ f.z = s.flags.z ∧ f.c = s.flags.c := ⟨_, rfl, rfl, rfl, rfl, rfl⟩
theorem State.drawC_eq (s : State) : ∃ f : Flags, s.drawC = { s.setFlags f with draws := s.draws + 1 } ∧
    f.x = s.flags.x ∧ f.n = s.flags.n ∧ f.z = s.flags.z ∧ f.v = s.flags.v := ⟨_, rfl, rfl, rfl, rfl, rfl⟩

/-- From `s` to `t` only flags among N, Z, V, C and the count of draws changed. -/
structure State.Drew (s t : State) : Prop where
  state : t = { s with sr := t.sr, draws := t.draws }
  srRest : ∀ k, 4 ≤ k → t.sr.getLsbD k = s.sr.getLsbD k

theorem State.Drew.refl (s : State) : s.Drew s := ⟨rfl, fun _ _ => rfl⟩

theorem State.Drew.trans {s t u : State} (h : s.Drew t) (g : t.Drew u) : s.Drew u := by
  refine ⟨?_, fun k hk => (g.srRest k hk).trans (h.srRest k hk)⟩
  have h1 := h.state; have h2 := g.state
  rw [h1] at h2
  exact h2

theorem State.drew_setFlags (f : Flags) (n : Nat) (s : State) (hx : f.x = s.flags.x) :
    s.Drew { s.setFlags f with draws := n } := by
  refine ⟨rfl, fun k hk => ?_⟩
  change (s.setFlags f).sr.getLsbD k = _
  by_cases h : k = 4
  · subst h
    rw [State.setFlags_getLsbD f s 4 (by omega)]
    simp only [Flags.bits_getLsbD]
    exact hx
  · exact State.setFlags_srRest f s k (by omega)

theorem State.drew_setFlags' (f : Flags) (s : State) (hx : f.x = s.flags.x) : s.Drew (s.setFlags f) :=
  State.drew_setFlags f s.draws s hx

theorem State.drew_drawN (s : State) : s.Drew s.drawN := by
  obtain ⟨f, h, hx, -⟩ := s.drawN_eq; rw [h]; exact State.drew_setFlags f _ s hx
theorem State.drew_drawZ (s : State) : s.Drew s.drawZ := by
  obtain ⟨f, h, hx, -⟩ := s.drawZ_eq; rw [h]; exact State.drew_setFlags f _ s hx
theorem State.drew_drawV (s : State) : s.Drew s.drawV := by
  obtain ⟨f, h, hx, -⟩ := s.drawV_eq; rw [h]; exact State.drew_setFlags f _ s hx
theorem State.drew_drawC (s : State) : s.Drew s.drawC := by
  obtain ⟨f, h, hx, -⟩ := s.drawC_eq; rw [h]; exact State.drew_setFlags f _ s hx

end Machine
end Sys2Proof
end

