-- ==== Sys2Proof/Laws/Operands.lean ====
section
/-! SUPPORT. Registers and operands: reads after writes, the effect of a write to a location, and all that
resolving and reading an operand can change. -/

namespace Sys2Proof.Machine

/-! ## Registers -/

@[simp] theorem State.getD_setD_same (n : Reg) (v : Long) (s : State) : (s.setD n v).getD n = v := by
  simp [State.getD]

theorem State.getD_setD_other {n m : Reg} (h : m ≠ n) (v : Long) (s : State) :
    (s.setD n v).getD m = s.getD m := by
  have : n.val ≠ m.val := fun e => h (Fin.ext e.symm)
  simp [State.getD, this]

theorem State.getD_setD (n m : Reg) (v : Long) (s : State) :
    (s.setD n v).getD m = if m = n then v else s.getD m := by
  split
  · subst_vars; simp
  · exact State.getD_setD_other ‹_› v s

@[simp] theorem State.getA_setA_same (n : Reg) (v : Long) (s : State) : (s.setA n v).getA n = v := by
  unfold State.setA
  split
  · simp [State.getA, *]
  · split <;> simp_all [State.getA, State.flagS]

theorem State.getA_setA_other {n m : Reg} (h : m ≠ n) (v : Long) (s : State) :
    (s.setA n v).getA m = s.getA m := by
  have hv : n.val ≠ m.val := fun e => h (Fin.ext e.symm)
  have := n.isLt; have := m.isLt
  unfold State.setA
  split
  · unfold State.getA
    split
    · simp [hv]
    · rfl
  · have hm : m.val < 7 := by omega
    split <;> simp [State.getA, hm]

theorem State.getA_setA (n m : Reg) (v : Long) (s : State) :
    (s.setA n v).getA m = if m = n then v else s.getA m := by
  split
  · subst_vars; simp
  · exact State.getA_setA_other ‹_› v s

@[simp] theorem State.setA_inactiveSP (n : Reg) (v : Long) (s : State) :
    (s.setA n v).inactiveSP = s.inactiveSP := by
  unfold State.inactiveSP
  rw [State.setA_flagS]
  unfold State.setA
  by_cases h : n.val < 7
  · simp [h]
  · cases hs : s.flagS <;> simp [h]

/-- An address register's write changes address registers and stack pointers only. -/
theorem State.setA_eq (n : Reg) (v : Long) (s : State) :
    s.setA n v = { s with a := (s.setA n v).a, usp := (s.setA n v).usp, ssp := (s.setA n v).ssp } := by
  unfold State.setA
  split
  · rfl
  · split <;> rfl

@[simp] theorem State.setA_setA (n : Reg) (v w : Long) (s : State) : (s.setA n v).setA n w = s.setA n w := by
  unfold State.setA
  split
  · simp [Vector.set_set]
  · split <;> simp_all [State.flagS]

@[simp] theorem State.setA_getA (n : Reg) (s : State) : s.setA n (s.getA n) = s := by
  unfold State.setA State.getA
  split
  · simp
  · split <;> rfl

@[simp] theorem State.memWrite_inactiveSP (a : Long) (sz : Size) (v : Long) (s : State) :
    (s.memWrite a sz v).inactiveSP = s.inactiveSP := by simp [State.inactiveSP]
@[simp] theorem State.setD_inactiveSP (n : Reg) (v : Long) (s : State) : (s.setD n v).inactiveSP = s.inactiveSP := rfl
/-- Reading memory and writing an address register commute. -/
theorem State.setA_noteReads (n : Reg) (v : Long) (l : List Long) (s : State) :
    (s.setA n v).noteReads l = (s.noteReads l).setA n v := by
  have hs : (s.noteReads l).flagS = s.flagS := rfl
  unfold State.setA
  rw [hs]
  by_cases h : n.val < 7
  · simp only [dif_pos h]; rfl
  · cases hS : s.flagS <;> simp only [dif_neg h] <;> rfl

@[simp] theorem State.noteReads_inactiveSP (l : List Long) (s : State) :
    (s.noteReads l).inactiveSP = s.inactiveSP := rfl
@[simp] theorem State.afterRead_inactiveSP (a : Long) (sz : Size) (s : State) :
    (s.afterRead a sz).inactiveSP = s.inactiveSP := rfl
@[simp] theorem State.afterReadEA_inactiveSP (l : Loc) (sz : Size) (s : State) :
    (s.afterReadEA l sz).inactiveSP = s.inactiveSP := rfl
@[simp] theorem State.skip_inactiveSP (n : Nat) (s : State) : (s.skip n).inactiveSP = s.inactiveSP := rfl
@[simp] theorem State.setPC_inactiveSP (v : Long) (s : State) : (s.setPC v).inactiveSP = s.inactiveSP := rfl
@[simp] theorem State.setFlags_inactiveSP (f : Flags) (s : State) : (s.setFlags f).inactiveSP = s.inactiveSP := by
  simp [State.inactiveSP]

/-- A state is its fields. -/
theorem State.ext_fields {s t : State} (d : s.d = t.d) (a : s.a = t.a) (usp : s.usp = t.usp) (ssp : s.ssp = t.ssp)
    (pc : s.pc = t.pc) (sr : s.sr = t.sr) (running : s.running = t.running) (stopRecord : s.stopRecord = t.stopRecord)
    (cycles : s.cycles = t.cycles) (instrCount : s.instrCount = t.instrCount) (freq : s.freq = t.freq)
    (mem : s.mem = t.mem) (bus : s.bus = t.bus) (cfg : s.cfg = t.cfg) (draws : s.draws = t.draws) : s = t := by
  cases s; cases t; simp_all

/-! ## Parts of a data register -/

theorem mergeLow_getLsbD (sz : Size) (old v : Long) (k : Nat) (hk : k < 32) :
    (mergeLow sz old v).getLsbD k = if k < sz.bits then v.getLsbD k else old.getLsbD k := by
  have hm : sz.mask.getLsbD k = decide (k < sz.bits) := by
    have := (by decide : ∀ k : Fin 32, (Size.mask .b).getLsbD k = decide (k.val < 8)) ⟨k, hk⟩
    have h2 := (by decide : ∀ k : Fin 32, (Size.mask .w).getLsbD k = decide (k.val < 16)) ⟨k, hk⟩
    have h3 := (by decide : ∀ k : Fin 32, (Size.mask .l).getLsbD k = decide (k.val < 32)) ⟨k, hk⟩
    cases sz <;> simp only [Size.bits, Size.bytes] at * <;> assumption
  simp only [mergeLow, BitVec.getLsbD_or, BitVec.getLsbD_and, BitVec.getLsbD_not, hm, trunc_getLsbD, hk,
    decide_true, Bool.true_and]
  by_cases h : k < sz.bits <;> simp [h]

theorem trunc_mergeLow (sz : Size) (old v : Long) : trunc sz (mergeLow sz old v) = trunc sz v := by
  apply BitVec.eq_of_getLsbD_eq; intro k hk
  rw [trunc_getLsbD, trunc_getLsbD, mergeLow_getLsbD sz old v k hk]
  by_cases h : k < sz.bits <;> simp [h]

theorem mergeLow_trunc (sz : Size) (old v : Long) : mergeLow sz old (trunc sz v) = mergeLow sz old v := by
  simp [mergeLow, trunc_trunc]

@[simp] theorem mergeLow_long (old v : Long) : mergeLow .l old v = v := by
  simp [mergeLow, Size.mask, trunc]

@[simp] theorem State.setDLow_long (n : Reg) (v : Long) (s : State) : s.setDLow n .l v = s.setD n v := by
  simp [State.setDLow]

/-! ## Writing a location -/

theorem State.wrote_writeEA (l : Loc) (hl : ∀ n, l ≠ .areg n) (sz : Size) (v : Long) (s : State) :
    s.Wrote l sz v (s.writeEA l sz v) := by
  cases l with
  | areg n => exact absurd rfl (hl n)
  | imm w => exact ⟨by simp, by simp, fun _ _ => rfl, by simp, rfl, rfl, rfl, State.Stored.refl s⟩
  | mem a =>
    refine ⟨by simp, ?_, ?_, by simp, ?_, ?_, ?_, ?_⟩
    · rintro m ⟨⟩ hr; exact State.memRead_memWrite hr a sz v
    · intro n _; simp [State.writeEA]
    · simp [State.writeEA]
    · simp [State.writeEA]
    · simp [State.writeEA]
    · exact State.stored_memWrite a sz v s
  | dreg n =>
    refine ⟨?_, by simp, ?_, ?_, rfl, rfl, rfl, (State.Stored.refl s).congr rfl rfl rfl rfl rfl rfl⟩
    · rintro m ⟨⟩; simp [State.writeEA, State.setDLow, trunc_mergeLow]
    · intro m hm
      have : m ≠ n := fun e => hm (by rw [e])
      simp [State.writeEA, State.setDLow, State.getD_setD, this]
    · rintro m k ⟨⟩ hk
      simp only [State.writeEA, State.setDLow, State.getD_setD_same]
      by_cases h : k < 32
      · rw [mergeLow_getLsbD _ _ _ _ h, if_neg (by omega)]
      · rw [BitVec.getLsbD_of_ge _ _ (by omega), BitVec.getLsbD_of_ge _ _ (by omega)]

/-- A write changes data registers, address registers or memory, and nothing else. -/
theorem State.writeEA_eq (l : Loc) (hl : ∀ n, l ≠ .areg n) (sz : Size) (v : Long) (s : State) :
    s.writeEA l sz v =
      { s with d := (s.writeEA l sz v).d, mem := (s.writeEA l sz v).mem, bus := (s.writeEA l sz v).bus } := by
  cases l with
  | areg n => exact absurd rfl (hl n)
  | imm w => rfl
  | mem a => cases sz <;> rfl
  | dreg n => rfl

/-- Only the low bytes of a value are stored. -/
theorem storeAccesses_congr (a : Long) {sz : Size} {v w : Long} (e : trunc sz v = trunc sz w) :
    storeAccesses a sz v = storeAccesses a sz w := by
  refine List.map_congr_left fun i hi => ?_
  have hi := List.mem_range.1 hi
  congr 1
  apply BitVec.eq_of_getLsbD_eq; intro k hk
  have := congrArg (fun x : Long => x.getLsbD (8 * (sz.bytes - 1 - i) + k)) e
  simp only [trunc_getLsbD, Size.bits, show 8 * (sz.bytes - 1 - i) + k < 8 * sz.bytes by omega, decide_true,
    Bool.true_and] at this
  simp [hk, this]

theorem Loc.storeAccesses_congr (l : Loc) {sz : Size} {v w : Long} (e : trunc sz v = trunc sz w) :
    l.storeAccesses sz v = l.storeAccesses sz w := by
  cases l <;> first | rfl | exact Machine.storeAccesses_congr _ e

theorem State.wrote_congr {l : Loc} {sz : Size} {v w : Long} {s t : State} (h : s.Wrote l sz v t)
    (e : trunc sz v = trunc sz w) : s.Wrote l sz w t :=
  { h with register := fun n hn => (h.register n hn).trans e, memory := fun m hm hr => (h.memory m hm hr).trans e,
           stored := Loc.storeAccesses_congr l e ▸ h.stored }

/-- Flags written, then a location: the shape of every read-modify-write instruction (R114). -/
theorem State.effect_writeEA (l : Loc) (hl : ∀ n, l ≠ .areg n) (sz : Size) (v : Long) (f : Flags) (s : State) :
    s.Effect l sz v f ((s.setFlags f).writeEA l sz v) := by
  have h := State.wrote_writeEA l hl sz v (s.setFlags f)
  have e := State.writeEA_eq l hl sz v (s.setFlags f)
  refine ⟨⟨h.register, h.memory, ?_, ?_, ?_, ?_, ?_, ?_⟩, ?_, ?_, ?_, ?_, ⟨?_, ?_, ?_, ?_, ?_, ?_⟩⟩
  · intro n hn; rw [h.otherD n hn]; simp
  · intro n k hn hk; rw [h.highD n k hn hk]; simp
  · rw [h.addressRegs]; simp
  · rw [h.usp]; simp
  · rw [h.ssp]; simp
  · exact h.stored.congr rfl rfl rfl rfl rfl rfl
  · rw [e]; exact State.setFlags_flags f s
  · intro k hk; rw [e]; exact State.setFlags_srRest f s k hk
  all_goals rw [e]; rfl

theorem State.effect_congr {l : Loc} {sz : Size} {v w : Long} {f g : Flags} {s t : State}
    (h : s.Effect l sz v f t) (e : trunc sz v = trunc sz w) (hf : f = g) : s.Effect l sz w g t := by
  subst hf
  exact { h with wrote := State.wrote_congr h.wrote e }

/-- A location written, then flags: the shape of a move (R141). -/
theorem State.writeEA_setFlags (l : Loc) (hl : ∀ n, l ≠ .areg n) (sz : Size) (v : Long) (f : Flags) (s : State) :
    (s.writeEA l sz v).setFlags f = (s.setFlags f).writeEA l sz v := by
  cases l with
  | areg n => exact absurd rfl (hl n)
  | imm w => rfl
  | mem a => cases sz <;> rfl
  | dreg n => rfl

/-- Writing the flags a state has changes nothing. -/
@[simp] theorem State.setFlags_self (s : State) : s.setFlags s.flags = s := by
  have : (s.setFlags s.flags).sr = s.sr := by
    apply BitVec.eq_of_getLsbD_eq; intro k hk
    rw [State.setFlags_getLsbD _ _ _ hk]
    split
    · rw [Flags.bits_getLsbD]
      have : k = 0 ∨ k = 1 ∨ k = 2 ∨ k = 3 ∨ k = 4 := by omega
      rcases this with rfl | rfl | rfl | rfl | rfl <;> rfl
    · rfl
  calc s.setFlags s.flags = { s with sr := (s.setFlags s.flags).sr } := rfl
    _ = s := by rw [this]

theorem State.flagEffect_setFlags (f : Flags) (s : State) : s.FlagEffect f (s.setFlags f) :=
  ⟨State.setFlags_flags f s, State.setFlags_srRest f s, rfl, rfl, rfl, rfl, fun _ => rfl, rfl, rfl, rfl,
    rfl, rfl, rfl, rfl, rfl, rfl⟩

/-! ## Resolving and reading -/

/-- All that resolving an operand can change: PC, one address register or stack pointer, and the effects of
fetching its extension words. -/
theorem State.resolve_eq (e : EA) (sz : Size) (s : State) : (s.resolve e sz).2 =
    { s with pc := (s.resolve e sz).2.pc, a := (s.resolve e sz).2.a, usp := (s.resolve e sz).2.usp,
             ssp := (s.resolve e sz).2.ssp, bus := (s.resolve e sz).2.bus } := by
  have key : ∀ (n : Reg) (v : Long), s.setA n v = { s with
      pc := (s.setA n v).pc, a := (s.setA n v).a, usp := (s.setA n v).usp, ssp := (s.setA n v).ssp,
      bus := (s.setA n v).bus } := by
    intro n v
    have := State.setA_eq n v s
    rw [State.setA_pc, State.setA_bus]
    exact this
  cases e <;> first | rfl | exact key ..

theorem State.resolve_bus_ram {s : State} (hr : s.cfg.mem = .ram) (e : EA) (sz : Size) :
    (s.resolve e sz).2.bus = s.bus := by
  cases e <;> simp [State.resolve, State.skip_ram hr]
@[simp] theorem State.resolve_d (e : EA) (sz : Size) (s : State) : (s.resolve e sz).2.d = s.d := by
  rw [State.resolve_eq]
@[simp] theorem State.resolve_mem (e : EA) (sz : Size) (s : State) : (s.resolve e sz).2.mem = s.mem := by
  rw [State.resolve_eq]
@[simp] theorem State.resolve_sr (e : EA) (sz : Size) (s : State) : (s.resolve e sz).2.sr = s.sr := by
  rw [State.resolve_eq]
@[simp] theorem State.resolve_running (e : EA) (sz : Size) (s : State) :
    (s.resolve e sz).2.running = s.running := by rw [State.resolve_eq]
@[simp] theorem State.resolve_stopRecord (e : EA) (sz : Size) (s : State) :
    (s.resolve e sz).2.stopRecord = s.stopRecord := by rw [State.resolve_eq]
@[simp] theorem State.resolve_cycles (e : EA) (sz : Size) (s : State) :
    (s.resolve e sz).2.cycles = s.cycles := by rw [State.resolve_eq]
@[simp] theorem State.resolve_instrCount (e : EA) (sz : Size) (s : State) :
    (s.resolve e sz).2.instrCount = s.instrCount := by rw [State.resolve_eq]
@[simp] theorem State.resolve_freq (e : EA) (sz : Size) (s : State) :
    (s.resolve e sz).2.freq = s.freq := by rw [State.resolve_eq]
@[simp] theorem State.resolve_cfg (e : EA) (sz : Size) (s : State) : (s.resolve e sz).2.cfg = s.cfg := by
  rw [State.resolve_eq]
@[simp] theorem State.resolve_draws (e : EA) (sz : Size) (s : State) :
    (s.resolve e sz).2.draws = s.draws := by rw [State.resolve_eq]
@[simp] theorem State.resolve_getD (e : EA) (sz : Size) (s : State) (n : Reg) :
    (s.resolve e sz).2.getD n = s.getD n := by simp [State.getD]
@[simp] theorem State.resolve_flags (e : EA) (sz : Size) (s : State) :
    (s.resolve e sz).2.flags = s.flags := by
  simp [State.flags, State.flagX, State.flagN, State.flagZ, State.flagV, State.flagC]
@[simp] theorem State.resolve_flagX (e : EA) (sz : Size) (s : State) :
    (s.resolve e sz).2.flagX = s.flagX := by simp [State.flagX]
@[simp] theorem State.resolve_flagS (e : EA) (sz : Size) (s : State) :
    (s.resolve e sz).2.flagS = s.flagS := by simp [State.flagS]
@[simp] theorem State.resolve_inactiveSP (e : EA) (sz : Size) (s : State) :
    (s.resolve e sz).2.inactiveSP = s.inactiveSP := by
  cases e <;> first | rfl | exact State.setA_inactiveSP ..

/-- Reading an operand: resolving it, and the effect of the read. -/
@[simp] theorem State.fetchEA_snd (e : EA) (sz : Size) (s : State) :
    (s.fetchEA e sz).2 = (s.resolve e sz).2.afterReadEA (s.resolve e sz).1 sz := rfl
theorem State.fetchEA_fst (e : EA) (sz : Size) (s : State) :
    (s.fetchEA e sz).1 = (s.resolve e sz).2.readEA (s.resolve e sz).1 sz := rfl

/-- All that a read-modify-write does: `f` sees the state after the read, and its value is written. -/
theorem State.modify_eq (l : Loc) (sz : Size) (f : Long → State → Long × State) (s : State) : s.modify l sz f =
    (f (s.readEA l sz) (s.afterReadEA l sz)).2.writeEA l sz (f (s.readEA l sz) (s.afterReadEA l sz)).1 := rfl
theorem State.trunc_readEA (l : Loc) (sz : Size) (s : State) : trunc sz (s.readEA l sz) = s.readEA l sz := by
  cases l <;> simp [State.readEA, trunc_trunc, State.trunc_memRead]

theorem State.trunc_fetchEA (e : EA) (sz : Size) (s : State) :
    trunc sz (s.fetchEA e sz).1 = (s.fetchEA e sz).1 := by
  rw [State.fetchEA_fst, State.trunc_readEA]

/-- Reading a register or an immediate has no effect. -/
@[simp] theorem State.afterReadEA_dreg (n : Reg) (sz : Size) (s : State) : s.afterReadEA (.dreg n) sz = s :=
  State.noteReads_nil s
@[simp] theorem State.afterReadEA_areg (n : Reg) (sz : Size) (s : State) : s.afterReadEA (.areg n) sz = s :=
  State.noteReads_nil s
@[simp] theorem State.afterReadEA_imm (v : Long) (sz : Size) (s : State) : s.afterReadEA (.imm v) sz = s :=
  State.noteReads_nil s
theorem State.afterReadEA_loc (a : Long) (sz : Size) (s : State) : s.afterReadEA (.mem a) sz = s.afterRead a sz := rfl

/-- The flags do not matter to a read. -/
@[simp] theorem State.setFlags_readEA (f : Flags) (l : Loc) (sz : Size) (s : State) :
    (s.setFlags f).readEA l sz = s.readEA l sz := by
  cases l <;> simp [State.readEA]

/-- A location of a class without An is no address register. -/
theorem State.resolve_ne_areg {e : EA} {c : EAClass} {sz z : Size} (h : e.ok c z = true)
    (hc : EA.inClass c (.an 0) = false) (s : State) : ∀ n, (s.resolve e sz).1 ≠ .areg n := by
  intro n
  cases e <;> simp [State.resolve]
  cases c <;> simp_all [EA.ok, EA.inClass]

end Sys2Proof.Machine
end

