-- ==== Sys2Proof/Laws/Exec.lean ====
section
/-! SUPPORT. What the shared operations of the meanings do, once each: the handler of a well-formed
instruction, the read-modify-write operations, the stack, halting. -/

namespace Sys2Proof.Machine

/-- A well-formed instruction runs its handler. -/
theorem handle_next {i : Instr} {s : State} {h : Ctx → State → State} (hw : i.wf = true) :
    handle i s h = .next (h { op := i.opcode, opAddr := s.pc - 2 } s) := by simp [handle, hw]

/-- All that an instruction can answer. -/
theorem handle_cases {i : Instr} {s t : State} {h : Ctx → State → State} (e : handle i s h = .next t) :
    i.wf = true ∧ h { op := i.opcode, opAddr := s.pc - 2 } s = t := by
  unfold handle at e
  split at e
  · exact ⟨‹_›, by simpa using e⟩
  · simp at e

theorem handle_fault {i : Instr} {s : State} {h : Ctx → State → State} (hw : i.wf = false) :
    handle i s h = .fault .illFormedInstr := by simp [handle, hw]

/-! ## Read, modify, write -/

theorem State.effect_sumInto (op : SumOp) (sz : Size) (l : Loc) (hl : ∀ n, l ≠ .areg n) (src : Long) (s : State) :
    (s.afterReadEA l sz).Effect l sz (op sz (s.readEA l sz) src false).res
      { x := (op sz (s.readEA l sz) src false).c, n := msb sz (op sz (s.readEA l sz) src false).res,
        z := decide ((op sz (s.readEA l sz) src false).res = 0), v := (op sz (s.readEA l sz) src false).v,
        c := (op sz (s.readEA l sz) src false).c } (s.sumInto op sz l src) := by
  refine State.effect_congr (State.effect_writeEA l hl sz _ _ (s.afterReadEA l sz)) rfl ?_
  simp [arithFlags, beq_eq_decide]

theorem State.effect_sumXInto (op : SumOp) (sz : Size) (l : Loc) (hl : ∀ n, l ≠ .areg n) (src : Long) (s : State) :
    (s.afterReadEA l sz).Effect l sz (op sz (s.readEA l sz) src s.flagX).res
      { x := (op sz (s.readEA l sz) src s.flagX).c, n := msb sz (op sz (s.readEA l sz) src s.flagX).res,
        z := s.flagZ && decide ((op sz (s.readEA l sz) src s.flagX).res = 0),
        v := (op sz (s.readEA l sz) src s.flagX).v, c := (op sz (s.readEA l sz) src s.flagX).c }
      (s.sumXInto op sz l src) := by
  refine State.effect_congr (State.effect_writeEA l hl sz _ _ (s.afterReadEA l sz)) rfl ?_
  simp only [xFlags, State.flags, Flags.mk.injEq, true_and, and_true]
  by_cases h : (op sz (s.readEA l sz) src s.flagX).res = 0
  · simp [h]
  · cases s.flagZ <;> simp [beq_eq_decide] <;> exact fun e => absurd e h

theorem moveFlags_eq (sz : Size) (v : Long) (f : Flags) : logicFlags sz v f = moveFlags sz v f.x := by
  simp only [logicFlags, moveFlags, msb, Size.bits, Flags.mk.injEq, true_and, and_true]
  have key : (trunc sz v).toNat = v.toNat % 2 ^ (8 * sz.bytes) := by
    have := v.isLt
    cases sz <;> simp [trunc, Size.bytes] <;> omega
  rw [← key]
  by_cases h : trunc sz v = 0
  · simp [h]
  · have : (trunc sz v).toNat ≠ 0 := fun e => h (BitVec.eq_of_toNat_eq (by simpa using e))
    simp only [this, decide_false]; simpa using h

/-- The flags of a value depend on its low bits only. -/
theorem moveFlags_trunc (sz : Size) (v : Long) (x : Bool) : moveFlags sz (trunc sz v) x = moveFlags sz v x := by
  have h := moveFlags_eq sz (trunc sz v) { x := x, n := false, z := false, v := false, c := false }
  have g := moveFlags_eq sz v { x := x, n := false, z := false, v := false, c := false }
  simp only at h g
  rw [← h, ← g]
  simp only [logicFlags, trunc_trunc, msb]
  congr 1
  rw [trunc_getLsbD]
  cases sz <;> simp [Size.bits, Size.bytes]

theorem State.effect_logicInto (op : Long → Long → Long) (sz : Size) (l : Loc) (hl : ∀ n, l ≠ .areg n)
    (src : Long) (s : State) :
    (s.afterReadEA l sz).Effect l sz (op (s.readEA l sz) src) (moveFlags sz (op (s.readEA l sz) src) s.flagX)
      (s.logicInto op sz l src) := by
  refine State.effect_congr (State.effect_writeEA l hl sz _ _ (s.afterReadEA l sz)) (trunc_trunc _ _) ?_
  rw [moveFlags_eq, moveFlags_trunc]; rfl

theorem State.effect_shiftInto (kind : ShiftKind) (left : Bool) (sz : Size) (l : Loc) (hl : ∀ n, l ≠ .areg n)
    (n : Nat) (s : State) :
    (s.afterReadEA l sz).Effect l sz (shift kind left sz (s.readEA l sz) n s.flags).1 (shift kind left sz (s.readEA l sz) n s.flags).2
      (s.shiftInto kind left sz l n) :=
  State.effect_writeEA l hl sz _ _ (s.afterReadEA l sz)

/-- A location written and then the flags: MOVE and CLR. -/
theorem State.effect_writeEA_setFlags (l : Loc) (hl : ∀ n, l ≠ .areg n) (sz : Size) (v : Long) (f : Flags)
    (s : State) : s.Effect l sz v f ((s.writeEA l sz v).setFlags f) := by
  rw [State.writeEA_setFlags l hl]
  exact State.effect_writeEA l hl sz v f s

/-- A location written, no flag changed. -/
theorem State.effect_writeEA_only (l : Loc) (hl : ∀ n, l ≠ .areg n) (sz : Size) (v : Long) (s : State) :
    s.Effect l sz v s.flags (s.writeEA l sz v) := by
  have := State.effect_writeEA l hl sz v s.flags s
  rwa [State.setFlags_self] at this

/-- A compare of a state whose X is `x`. -/
theorem State.flagEffect_setCmp (sz : Size) (r : Sum) (x : Bool) (s : State) (h : s.flagX = x) :
    s.FlagEffect { x := x, n := msb sz r.res, z := decide (r.res = 0), v := r.v, c := r.c } (s.setCmp sz r) := by
  have e : cmpFlags sz r s.flags = { x := x, n := msb sz r.res, z := decide (r.res = 0), v := r.v, c := r.c } := by
    simp [cmpFlags, State.flags, beq_eq_decide, h]
  rw [← e]; exact State.flagEffect_setFlags _ s

/-- The address of a control operand: what it resolves to, with no register changed. -/
theorem State.addressOf_spec {ea : EA} {z : Size} (h : ea.ok .ctrl z = true) (sz : Size) (s : State) :
    ∃ m, (s.resolve ea sz).1 = .mem m ∧ s.addressOf ea sz = (m, (s.resolve ea sz).2) ∧
      (s.resolve ea sz).2 = { s with pc := (s.resolve ea sz).2.pc, bus := (s.resolve ea sz).2.bus } := by
  cases ea <;> simp [EA.ok, EA.inClass] at h <;> exact ⟨_, rfl, rfl, rfl⟩

/-! ## The stack -/

/-- RTE's and RTR's two pops: two reads one after the other, and A7 past both. -/
theorem State.pop_pop (s : State) :
    (s.pop .w).2.pop .l = ((s.afterRead (s.getA 7) .w).memRead (s.getA 7 + 2) .l,
      ((s.afterRead (s.getA 7) .w).afterRead (s.getA 7 + 2) .l).setA 7 (s.getA 7 + 6)) := by
  have key : ∀ (u : State) (v w : Long), ((u.setA 7 v).afterRead w .l) = (u.afterRead w .l).setA 7 v :=
    fun u v w => State.setA_noteReads ..
  show (((s.afterRead (s.getA 7) .w).setA 7 (s.getA 7 + 2)).memRead
      (((s.afterRead (s.getA 7) .w).setA 7 (s.getA 7 + 2)).getA 7) .l,
    (((s.afterRead (s.getA 7) .w).setA 7 (s.getA 7 + 2)).afterRead
      (((s.afterRead (s.getA 7) .w).setA 7 (s.getA 7 + 2)).getA 7) .l).setA 7
        (((s.afterRead (s.getA 7) .w).setA 7 (s.getA 7 + 2)).getA 7 + 4)) = _
  rw [State.getA_setA_same, State.setA_memRead, key, State.setA_setA, BitVec.add_assoc]; rfl

/-- A push stores a long below A7 and moves A7 there, and does nothing else. -/
theorem State.push_spec (v : Long) (s : State) :
    (s.cfg.mem = .ram → (s.push v).memRead (s.getA 7 - 4) .l = v) ∧
    s.Stored (storeAccesses (s.getA 7 - 4) .l v) (within (s.getA 7 - 4) 4) (s.push v) ∧
    s.push v = { s.setA 7 (s.getA 7 - 4) with mem := (s.push v).mem, bus := (s.push v).bus } := by
  have hp : s.push v = (s.setA 7 (s.getA 7 - 4)).memWrite (s.getA 7 - 4) .l v := by
    simp [State.push, sp]
  rw [hp]
  refine ⟨fun hr => by rw [State.memRead_memWrite (by simpa using hr)]; rfl, ?_, State.memWrite_eq ..⟩
  exact (State.stored_memWrite _ .l v _).congr (by simp) (by simp) (by simp) rfl rfl rfl

/-- A push and a jump, from a state that differs from `s` in PC and in the fetches made: JSR, BSR, PEA. -/
theorem State.push_setPC_spec {u s : State} (v target : Long) (h : u = { s with pc := u.pc, bus := u.bus }) :
    (s.cfg.mem = .ram → ((u.push v).setPC target).memRead (s.getA 7 - 4) .l = v) ∧
    u.Stored (storeAccesses (s.getA 7 - 4) .l v) (within (s.getA 7 - 4) 4) ((u.push v).setPC target) ∧
    (u.push v).setPC target =
      { s.setA 7 (s.getA 7 - 4) with pc := target, mem := ((u.push v).setPC target).mem,
                                     bus := ((u.push v).setPC target).bus } := by
  have hA : u.getA 7 = s.getA 7 := by rw [h]; rfl
  have hc : u.cfg = s.cfg := by rw [h]
  obtain ⟨h1, h2, h3⟩ := State.push_spec v u
  rw [hA] at h1 h2 h3
  refine ⟨fun hr => by rw [State.setPC_memRead]; exact h1 (hc ▸ hr), h2.congr rfl rfl rfl rfl rfl rfl, ?_⟩
  have e : u.setA 7 (s.getA 7 - 4) = { s.setA 7 (s.getA 7 - 4) with pc := u.pc, bus := u.bus } := by
    conv => lhs; rw [h]
    unfold State.setA State.flagS
    split
    · rfl
    · split <;> rfl
  calc (u.push v).setPC target = { u.push v with pc := target } := rfl
    _ = { s.setA 7 (s.getA 7 - 4) with pc := target, mem := (u.push v).mem, bus := (u.push v).bus } := by
      rw [h3, e]

/-! ## Halting -/

/-- Draws, and then a halt. -/
theorem State.Drew.halt {u t : State} (h : u.Drew t) (c : Ctx) (kind : HaltKind) (info : Option Int) :
    u.DrewAndHalted kind c.op c.opAddr info (t.halt c kind info) := by
  refine ⟨?_, h.srRest⟩
  have := h.state
  rw [this]; rfl

end Sys2Proof.Machine
end

