-- ==== Sys2Proof/Laws/Arith.lean ====
section
/-! SUPPORT. Multiplication, division, bit instructions and decimal arithmetic: what each shared operation does. -/

namespace Sys2Proof.Machine

/-! ## Values of a size -/

theorem sext_w (v : Long) : sext .w v = (v.extractLsb' 0 16).signExtend 32 := by
  unfold sext; congr 1

theorem signed_w (v : Long) : signed .w v = (v.extractLsb' 0 16).toInt := by
  unfold signed sext
  rw [BitVec.toInt_signExtend_of_le (by omega)]
  congr 1

theorem trunc_w_toNat (v : Long) : (trunc .w v).toNat = (v.extractLsb' 0 16).toNat := by simp [trunc]; omega

theorem State.fetchEA_w_toNat (ea : EA) (s : State) :
    ((s.fetchEA ea .w).1).toNat = ((s.fetchEA ea .w).1.extractLsb' 0 16).toNat := by
  rw [← trunc_w_toNat, State.trunc_fetchEA]

theorem ofInt32_toNat (p : Int) : ((BitVec.ofInt 32 p).toNat : Int) = p % 4294967296 := by
  simp only [BitVec.toNat_ofInt]
  norm_num
  omega

/-- A difference is 0 exactly when the operands agree at the size. -/
theorem sub_res_eq_zero (sz : Size) (d v : Long) : (sub sz d v false).res = 0 ↔ trunc sz d = trunc sz v := by
  have : (sub sz d v false).res = trunc sz (d - v) := by simp [sub]
  rw [this]
  cases sz <;> simp only [trunc] <;> constructor <;> intro e <;> have e := congrArg BitVec.toNat e <;>
    apply BitVec.eq_of_toNat_eq <;> simp [BitVec.toNat_sub] at * <;> omega

/-! ## Multiplication and division -/

/-- A 32-bit product whose sign bit is `n`. -/
theorem State.effect_setProduct (d : Reg) (p : Int) (n : Bool) (hn : (BitVec.ofInt 32 p).getLsbD 31 = n) (s : State) :
    s.Effect (.dreg d) .l (BitVec.ofInt 32 p) { x := s.flagX, n := n, z := decide (p = 0), v := false, c := false }
      (s.setProduct d p) := by
  have := State.effect_writeEA_setFlags (.dreg d) (by simp) .l (BitVec.ofInt 32 p)
    { s.flags with n := (BitVec.ofInt 32 p).getLsbD 31, z := p == 0, v := false, c := false } s
  have e : s.writeEA (.dreg d) .l (BitVec.ofInt 32 p) = s.setD d (BitVec.ofInt 32 p) := by simp [State.writeEA]
  rw [e] at this
  refine State.effect_congr this rfl ?_
  rw [hn]; simp [State.flags, beq_eq_decide]

theorem int_tmod_nonpos {a : Int} (b : Int) (h : a ≤ 0) : a.tmod b ≤ 0 := by
  have := Int.tmod_nonneg b (a := -a) (by omega)
  rw [Int.neg_tmod] at this; omega

/-- The quotient and the remainder of the division that truncates toward zero are the only ones with these
bounds. -/
theorem int_tdiv_unique {a b q r : Int} (h : a = q * b + r) (hr : r.natAbs < b.natAbs) (hs : 0 ≤ r * a) :
    a.tdiv b = q ∧ a.tmod b = r := by
  have hb : b ≠ 0 := by rintro rfl; simp at hr
  have h1 := Int.mul_tdiv_add_tmod a b
  have h2 : (a.tmod b).natAbs < b.natAbs := by
    have := Int.natAbs_tmod a b
    rw [this]; exact Nat.mod_lt _ (by omega)
  have h3 : 0 ≤ a.tmod b * a := by
    rcases le_total 0 a with ha | ha
    · exact mul_nonneg (Int.tmod_nonneg b ha) ha
    · exact mul_nonneg_of_nonpos_of_nonpos (int_tmod_nonpos b ha) ha
  have h4 : (q - a.tdiv b) * b = a.tmod b - r := by linarith [mul_comm b (a.tdiv b)]
  have h5 : (a.tmod b - r).natAbs < b.natAbs := by
    rcases lt_trichotomy a 0 with ha | ha | ha
    · have : r ≤ 0 := by by_contra hc; rw [not_le] at hc; have := mul_neg_of_pos_of_neg hc ha; omega
      have : a.tmod b ≤ 0 := int_tmod_nonpos b ha.le
      omega
    · subst ha
      simp at h1 h4 ⊢
      have : r = 0 := by
        by_contra hr0
        have : r = -(q * b) := by linarith
        rw [this, Int.natAbs_neg, Int.natAbs_mul] at hr
        have hq : q ≠ 0 := by rintro rfl; simp at this; exact hr0 this
        have : 0 < q.natAbs := by omega
        have := Nat.le_mul_of_pos_left b.natAbs this
        omega
      subst this; simpa using hr
    · have : 0 ≤ r := by by_contra hc; rw [not_le] at hc; have := mul_neg_of_neg_of_pos hc ha; omega
      have : 0 ≤ a.tmod b := Int.tmod_nonneg b ha.le
      omega
  have h6 : q - a.tdiv b = 0 := by
    by_contra hc
    rw [← h4, Int.natAbs_mul] at h5
    have : 0 < (q - a.tdiv b).natAbs := by omega
    have := Nat.le_mul_of_pos_left b.natAbs this
    omega
  constructor
  · omega
  · rw [h6] at h4; omega

theorem State.divideByZero_spec (c : Ctx) (u : State) : u.DrewAndHalted .divideByZero c.op c.opAddr none (u.divideByZero c) ∧ (u.divideByZero c).flagC = false := by
  refine ⟨((State.drew_setFlags' { u.flags with c := false } u rfl).trans ((State.drew_drawN _).trans ((State.drew_drawZ _).trans (State.drew_drawV _)))).halt c _ _, ?_⟩
  have hc : ∀ s : State, s.flagC = s.flags.c := fun _ => rfl
  show (((u.setFlags { u.flags with c := false }).drawN.drawZ.drawV)).flagC = false
  rw [hc]
  obtain ⟨f1, e1, x1, z1, v1, c1⟩ := State.drawN_eq (u.setFlags { u.flags with c := false })
  obtain ⟨f2, e2, x2, n2, v2, c2⟩ := State.drawZ_eq (u.setFlags { u.flags with c := false }).drawN
  obtain ⟨f3, e3, x3, n3, z3, c3⟩ := State.drawV_eq (u.setFlags { u.flags with c := false }).drawN.drawZ
  have k3 : (((u.setFlags { u.flags with c := false }).drawN.drawZ.drawV)).flags = f3 := by rw [e3]; exact State.setFlags_flags ..
  have k2 : (((u.setFlags { u.flags with c := false }).drawN.drawZ)).flags = f2 := by rw [e2]; exact State.setFlags_flags ..
  have k1 : (((u.setFlags { u.flags with c := false }).drawN)).flags = f1 := by rw [e1]; exact State.setFlags_flags ..
  rw [k3, c3, k2, c2, k1, c1, State.setFlags_flags]

theorem State.divideOverflow_spec (c : Ctx) (u : State) : u.DrewAndHalted .divideOverflow c.op c.opAddr none (u.divideOverflow c) ∧ (u.divideOverflow c).flagV = true ∧ (u.divideOverflow c).flagC = false := by
  refine ⟨((State.drew_setFlags' { u.flags with v := true, c := false } u rfl).trans ((State.drew_drawN _).trans (State.drew_drawZ _))).halt c _ _, ?_⟩
  have hc : ∀ s : State, s.flagC = s.flags.c := fun _ => rfl
  have hv : ∀ s : State, s.flagV = s.flags.v := fun _ => rfl
  show (((u.setFlags { u.flags with v := true, c := false }).drawN.drawZ)).flagV = true ∧ (((u.setFlags { u.flags with v := true, c := false }).drawN.drawZ)).flagC = false
  rw [hc, hv]
  obtain ⟨f1, e1, x1, z1, v1, c1⟩ := State.drawN_eq (u.setFlags { u.flags with v := true, c := false })
  obtain ⟨f2, e2, x2, n2, v2, c2⟩ := State.drawZ_eq (u.setFlags { u.flags with v := true, c := false }).drawN
  have k2 : (((u.setFlags { u.flags with v := true, c := false }).drawN.drawZ)).flags = f2 := by rw [e2]; exact State.setFlags_flags ..
  have k1 : (((u.setFlags { u.flags with v := true, c := false }).drawN)).flags = f1 := by rw [e1]; exact State.setFlags_flags ..
  rw [k2, c2, v2, k1, c1, v1, State.setFlags_flags]; simp

theorem State.divideWord_fits (c : Ctx) (d : Reg) (a b lo hi q rm : Int) (u s : State) (hx : u.flagX = s.flagX) (h : a = q * b + rm) (hr : rm.natAbs < b.natAbs) (hs : 0 ≤ rm * a)
   (h1 : lo ≤ q) (h2 : q ≤ hi) : u.Effect (.dreg d) .l (BitVec.ofInt 16 rm ++ BitVec.ofInt 16 q) { x := s.flagX, n := (BitVec.ofInt 16 q).getLsbD 15, z := decide (q = 0), v := false, c := false } (u.divideWord c d a b lo hi) := by
  obtain ⟨e1, e2⟩ := int_tdiv_unique h hr hs
  have hb : b ≠ 0 := by rintro rfl; simp at hr
  unfold State.divideWord
  rw [if_neg hb]; dsimp only
  rw [e1, e2, if_neg (by omega)]
  have := State.effect_writeEA_setFlags (.dreg d) (by simp) .l (BitVec.ofInt 16 rm ++ BitVec.ofInt 16 q) { u.flags with n := (BitVec.ofInt 16 q).getLsbD 15, z := q == 0, v := false, c := false } u
  have e : u.writeEA (.dreg d) .l (BitVec.ofInt 16 rm ++ BitVec.ofInt 16 q) = u.setD d (BitVec.ofInt 16 rm ++ BitVec.ofInt 16 q) := by simp [State.writeEA]
  rw [e] at this
  refine State.effect_congr this rfl ?_
  simp [← hx, State.flags, beq_eq_decide]

theorem State.divideWord_over (c : Ctx) (d : Reg) (a b lo hi q rm : Int) (u : State) (h : a = q * b + rm) (hr : rm.natAbs < b.natAbs) (hs : 0 ≤ rm * a)
   (h1 : q < lo ∨ hi < q) : u.divideWord c d a b lo hi = u.divideOverflow c := by
  obtain ⟨e1, e2⟩ := int_tdiv_unique h hr hs
  have hb : b ≠ 0 := by rintro rfl; simp at hr
  unfold State.divideWord
  rw [if_neg hb]; dsimp only
  rw [e1, if_pos h1]

/-! ## Bits -/

theorem one_shiftLeft_getLsbD (b k : Nat) (hk : k < 32) : (1#32 <<< b).getLsbD k = decide (k = b) := by
  simp [BitVec.getLsbD_shiftLeft, BitVec.getLsbD_one]; grind

/-- BTST: Z is the complement of the tested bit. -/
theorem State.flagEffect_bitAt (l : Loc) (sz : Size) (b : Nat) (u : State) :
    (u.afterReadEA l sz).FlagEffect { u.flags with z := !(u.readEA l sz).getLsbD b } (u.bitAt .tst l sz b) :=
  State.flagEffect_setFlags _ (u.afterReadEA l sz)

/-- BCHG, BCLR and BSET: Z as BTST, the tested bit changed, the others kept. -/
theorem State.effect_bitAt (op : BitOp) (hop : op ≠ .tst) (l : Loc) (hl : ∀ n, l ≠ .areg n) (sz : Size) (b : Nat) (hb : b < 32) (u : State) :
   ∃ r, (u.afterReadEA l sz).Effect l sz r { u.flags with z := !(u.readEA l sz).getLsbD b } (u.bitAt op l sz b) ∧
     r.getLsbD b = (match op with | .tst => false | .chg => !(u.readEA l sz).getLsbD b | .clr => false | .set => true) ∧
     ∀ k, k ≠ b → r.getLsbD k = (u.readEA l sz).getLsbD k := by
  cases op
  · exact absurd rfl hop
  · refine ⟨_, State.effect_writeEA l hl sz _ _ (u.afterReadEA l sz), ?_, ?_⟩
    · simp [BitVec.getLsbD_xor, one_shiftLeft_getLsbD, hb]
    · intro k hk
      by_cases h : k < 32
      · simp [BitVec.getLsbD_xor, one_shiftLeft_getLsbD, h, hk] <;> grind
      · rw [BitVec.getLsbD_of_ge _ _ (by omega), BitVec.getLsbD_of_ge _ _ (by omega)]
  · refine ⟨_, State.effect_writeEA l hl sz _ _ (u.afterReadEA l sz), ?_, ?_⟩
    · simp [BitVec.getLsbD_and, one_shiftLeft_getLsbD, hb]
    · intro k hk
      by_cases h : k < 32
      · simp [BitVec.getLsbD_and, one_shiftLeft_getLsbD, h, hk] <;> grind
      · rw [BitVec.getLsbD_of_ge _ _ (by omega), BitVec.getLsbD_of_ge _ _ (by omega)]
  · refine ⟨_, State.effect_writeEA l hl sz _ _ (u.afterReadEA l sz), ?_, ?_⟩
    · simp [BitVec.getLsbD_or, one_shiftLeft_getLsbD, hb]
    · intro k hk
      by_cases h : k < 32
      · simp [BitVec.getLsbD_or, one_shiftLeft_getLsbD, h, hk] <;> grind
      · rw [BitVec.getLsbD_of_ge _ _ (by omega), BitVec.getLsbD_of_ge _ _ (by omega)]

theorem State.bitOp_eq (op : BitOp) (num : Nat) (ea : EA) (p : State) :
   p.bitOp op num ea = (let sz : Size := match ea with
        | .dn _ => .l
        | _ => .b
     (p.resolve ea sz).2.bitAt op (p.resolve ea sz).1 sz (num % sz.bits)) := by
  cases ea <;> rfl

/-! ## Decimal -/

theorem bcdPack_eq (n : Nat) (h : n ≤ 99) : bcdPack n = (BitVec.ofNat 4 (n / 10) ++ BitVec.ofNat 4 (n % 10) : BitVec 8).setWidth 32 := by
  have : ∀ n : Fin 100, bcdPack n.val = (BitVec.ofNat 4 (n.val / 10) ++ BitVec.ofNat 4 (n.val % 10) : BitVec 8).setWidth 32 := by decide +kernel
  exact this ⟨n, by omega⟩

/-- What BcdResult and the write of its byte do. -/
theorem State.bcdResult_spec (v : Int) (u : State) (l : Loc) (hl : ∀ n, l ≠ .areg n) :
  let w := if 99 < v then v - 100 else if v < 0 then v + 100 else v
  let t := (u.bcdResult v).2.writeEA l .b (u.bcdResult v).1
  ∃ (r : Byte), u.Wrote l .b (r.setWidth 32) t ∧
        (0 ≤ w → w ≤ 99 → r = BitVec.ofNat 4 (w.toNat / 10) ++ BitVec.ofNat 4 (w.toNat % 10)) ∧
        t.flagX = decide (v < 0 ∨ 99 < v) ∧ t.flagC = t.flagX ∧
        t.flagZ = (u.flagZ && decide (r = 0)) ∧ (∀ k, 5 ≤ k → t.sr.getLsbD k = u.sr.getLsbD k) ∧
        t.pc = u.pc ∧ u.SameRest t := by
  intro w t
  have hc : bcdCorrect v = (w, decide (v < 0 ∨ 99 < v)) := by
    simp only [bcdCorrect, w]; split
    · simp; omega
    · split
      · simp; omega
      · simp; omega
  obtain ⟨r, n, hr, hrw⟩ : ∃ (r : Byte) (n : Nat), u.bcdByte w = (r.setWidth 32, { u with draws := n }) ∧
     (0 ≤ w → w ≤ 99 → r = BitVec.ofNat 4 (w.toNat / 10) ++ BitVec.ofNat 4 (w.toNat % 10)) := by
    by_cases h : 0 ≤ w ∧ w ≤ 99
    · refine ⟨_, u.draws, ?_, fun _ _ => rfl⟩
      rw [State.bcdByte, if_pos h, bcdPack_eq _ (by omega)]
    · refine ⟨Config.drawByte u.draws, u.draws + 1, ?_, fun a b => absurd ⟨a, b⟩ h⟩
      rw [State.bcdByte, if_neg h]; rfl
  have hz : ((r.setWidth 32 : Long) == 0) = decide (r = 0) := (by decide +kernel : ∀ r : Byte, ((r.setWidth 32 : Long) == 0) = decide (r = 0)) r
  have hres : u.bcdResult v = (r.setWidth 32, (State.setFlags { u.flags with x := decide (v < 0 ∨ 99 < v), c := decide (v < 0 ∨ 99 < v), z := if decide (r = 0) = true then u.flagZ else false } { u with draws := n }).drawN.drawV) := by
    unfold State.bcdResult
    rw [hc]; dsimp only; rw [hr]; dsimp only; rw [hz]; rfl
  obtain ⟨m, g, h3, gx, gz, gc⟩ : ∃ m g, (u.bcdResult v).2 = State.setFlags g { u with draws := m } ∧ g.x = decide (v < 0 ∨ 99 < v) ∧ g.z = (u.flagZ && decide (r = 0)) ∧ g.c = decide (v < 0 ∨ 99 < v) := by
    generalize hF : ({ u.flags with x := decide (v < 0 ∨ 99 < v), c := decide (v < 0 ∨ 99 < v), z := if decide (r = 0) = true then u.flagZ else false } : Flags) = F at hres
    obtain ⟨f1, e1, x1, z1, v1, c1⟩ := State.drawN_eq (State.setFlags F { u with draws := n })
    obtain ⟨f2, e2, x2, n2, z2, c2⟩ := State.drawV_eq (State.drawN (State.setFlags F { u with draws := n }))
    have ef : (State.drawN (State.setFlags F { u with draws := n })).flags = f1 := by
      rw [e1]; exact State.setFlags_flags f1 _
    rw [ef] at x2 z2 c2
    rw [State.setFlags_flags] at x1 z1 c1
    rw [e2, e1] at hres
    refine ⟨n + 1 + 1, f2, ?_, ?_, ?_, ?_⟩
    · rw [hres]
      show State.setFlags f2 (State.setFlags f1 (State.setFlags F { u with draws := n + 1 + 1 })) = _
      rw [State.setFlags_setFlags, State.setFlags_setFlags]
    · rw [x2, x1, ← hF]
    · rw [z2, z1, ← hF]; cases u.flagZ <;> simp
    · rw [c2, c1, ← hF]
  have ht : t = (State.setFlags g { u with draws := m }).writeEA l .b (r.setWidth 32) := by
    have h1 : (u.bcdResult v).1 = r.setWidth 32 := by rw [hres]
    simp only [t, h3, h1]
  have key := State.effect_writeEA l hl .b (r.setWidth 32) g { u with draws := m }
  rw [← ht] at key
  have hx : t.flagX = g.x := congrArg Flags.x key.flags
  have hzz : t.flagZ = g.z := congrArg Flags.z key.flags
  have hcc : t.flagC = g.c := congrArg Flags.c key.flags
  have kw := key.wrote
  have kr := key.rest
  exact ⟨r, ⟨kw.register, kw.memory, kw.otherD, kw.highD, kw.addressRegs, kw.usp, kw.ssp, kw.stored.congr rfl rfl rfl rfl rfl rfl⟩, hrw, by rw [hx, gx],
    by rw [hcc, gc, hx, gx], by rw [hzz, gz], key.srRest, key.pc, ⟨kr.running, kr.stopRecord, kr.cycles, kr.instrCount, kr.freq, kr.cfg⟩⟩

end Sys2Proof.Machine
end

