-- ==== Sys2Proof/Laws/Step.lean ====
section
/-! SUPPORT. All that an instruction can do, said once: the part of the state every ordinary operation keeps,
the stops each instruction can raise, and the inversion lemma of `exec`. -/

namespace Sys2Proof.Machine

/-! ## What every ordinary operation keeps -/

/-- From `s` to `t` no more changed than an unprivileged instruction can change: memory stays canonical, the
upper byte of SR and the stack pointer of the other mode stay, SR's unimplemented bits stay 0, the execution
state, the counters and the parameters stay, plain RAM sees no access history, and the history of any other
`MEM` only grows. -/
structure State.Calm (s t : State) : Prop where
  wf : Memory.wf s.mem = true → Memory.wf t.mem = true
  srUpper : ∀ k, 8 ≤ k → t.sr.getLsbD k = s.sr.getLsbD k
  srBits : s.sr &&& 0xA71F#16 = s.sr → t.sr &&& 0xA71F#16 = t.sr
  uspKept : s.flagS = true → t.usp = s.usp
  sspKept : s.flagS = false → t.ssp = s.ssp
  running : t.running = s.running
  stopRecord : t.stopRecord = s.stopRecord
  cycles : t.cycles = s.cycles
  instrCount : t.instrCount = s.instrCount
  freq : t.freq = s.freq
  cfg : t.cfg = s.cfg
  ramBus : s.cfg.mem = .ram → t.bus = s.bus
  platformMem : s.cfg.mem = .platform → t.mem = s.mem
  busGrows : s.bus <+: t.bus

namespace State.Calm

variable {s t u : State}

theorem refl (s : State) : s.Calm s :=
  ⟨id, fun _ _ => rfl, id, fun _ => rfl, fun _ => rfl, rfl, rfl, rfl, rfl, rfl, rfl, fun _ => rfl, fun _ => rfl, List.prefix_rfl⟩

theorem flagS (h : s.Calm t) : t.flagS = s.flagS := h.srUpper 13 (by omega)

theorem trans (h : s.Calm t) (g : t.Calm u) : s.Calm u where
  wf := g.wf ∘ h.wf
  srUpper k hk := (g.srUpper k hk).trans (h.srUpper k hk)
  srBits := g.srBits ∘ h.srBits
  uspKept hs := (g.uspKept (h.flagS.trans hs)).trans (h.uspKept hs)
  sspKept hs := (g.sspKept (h.flagS.trans hs)).trans (h.sspKept hs)
  running := g.running.trans h.running
  stopRecord := g.stopRecord.trans h.stopRecord
  cycles := g.cycles.trans h.cycles
  instrCount := g.instrCount.trans h.instrCount
  freq := g.freq.trans h.freq
  cfg := g.cfg.trans h.cfg
  ramBus hr := (g.ramBus (h.cfg ▸ hr)).trans (h.ramBus hr)
  platformMem hp := (g.platformMem (h.cfg ▸ hp)).trans (h.platformMem hp)
  busGrows := h.busGrows.trans g.busGrows

theorem writeByte (h : s.Calm t) (a : Long) (b : Byte) : s.Calm (t.writeByte a b) := by
  refine h.trans ⟨State.wf_writeByte a b t, fun _ _ => rfl, id, fun _ => rfl, fun _ => rfl, rfl, rfl, rfl, rfl, rfl,
    rfl, fun hr => State.writeByte_bus_ram hr .., fun hp => State.writeByte_mem_platform hp .., ?_⟩
  cases hm : t.cfg.mem
  · rw [State.writeByte_bus_ram hm]
  · rw [State.writeByte_bus_platform hm]; exact List.prefix_append ..

theorem noteReads (h : s.Calm t) (l : List Long) : s.Calm (t.noteReads l) := by
  refine h.trans ⟨id, fun _ _ => rfl, id, fun _ => rfl, fun _ => rfl, rfl, rfl, rfl, rfl, rfl, rfl,
    fun hr => by rw [State.noteReads_ram hr], fun _ => rfl, ?_⟩
  cases hm : t.cfg.mem
  · rw [State.noteReads_ram hm]
  · rw [State.noteReads_platform hm]; exact List.prefix_append ..

theorem afterRead (h : s.Calm t) (a : Long) (sz : Size) : s.Calm (t.afterRead a sz) := h.noteReads _
theorem afterReadEA (h : s.Calm t) (l : Loc) (sz : Size) : s.Calm (t.afterReadEA l sz) := h.noteReads _

theorem memWrite (h : s.Calm t) (a : Long) (sz : Size) (v : Long) : s.Calm (t.memWrite a sz v) := by
  cases sz <;> simp only [State.memWrite]
  · exact h.writeByte ..
  · exact (h.writeByte ..).writeByte ..
  · exact (((h.writeByte ..).writeByte ..).writeByte ..).writeByte ..

theorem setFlags (h : s.Calm t) (f : Flags) : s.Calm (t.setFlags f) :=
  h.trans ⟨id, fun k hk => State.setFlags_srRest f t k (by omega), State.setFlags_srBits f t, fun _ => rfl,
    fun _ => rfl, rfl, rfl, rfl, rfl, rfl, rfl, fun _ => rfl, fun _ => rfl, List.prefix_rfl⟩

theorem setCcr (h : s.Calm t) (b : Byte) : s.Calm (t.setCcr b) := by
  refine h.trans ⟨id, fun k hk => ?_, State.setCcr_srBits b t, fun _ => rfl, fun _ => rfl, rfl, rfl, rfl, rfl, rfl,
    rfl, fun _ => rfl, fun _ => rfl, List.prefix_rfl⟩
  by_cases hk16 : k < 16
  · rw [State.setCcr_getLsbD b t k hk16, if_neg (by omega), if_neg (by omega)]
  · rw [BitVec.getLsbD_of_ge _ _ (by omega), BitVec.getLsbD_of_ge _ _ (by omega)]

theorem setD (h : s.Calm t) (n : Reg) (v : Long) : s.Calm (t.setD n v) :=
  h.trans ⟨id, fun _ _ => rfl, id, fun _ => rfl, fun _ => rfl, rfl, rfl, rfl, rfl, rfl, rfl, fun _ => rfl, fun _ => rfl, List.prefix_rfl⟩

theorem setDLow (h : s.Calm t) (n : Reg) (sz : Size) (v : Long) : s.Calm (t.setDLow n sz v) := h.setD ..

theorem setA (h : s.Calm t) (n : Reg) (v : Long) : s.Calm (t.setA n v) := by
  refine h.trans ?_
  unfold State.setA
  split
  · exact ⟨id, fun _ _ => rfl, id, fun _ => rfl, fun _ => rfl, rfl, rfl, rfl, rfl, rfl, rfl, fun _ => rfl, fun _ => rfl, List.prefix_rfl⟩
  · split
    · exact ⟨id, fun _ _ => rfl, id, fun _ => rfl, fun e => absurd (‹t.flagS = true›.symm.trans e) (by simp), rfl, rfl, rfl, rfl, rfl, rfl,
        fun _ => rfl, fun _ => rfl, List.prefix_rfl⟩
    · exact ⟨id, fun _ _ => rfl, id, fun e => absurd e ‹_›, fun _ => rfl, rfl, rfl, rfl, rfl, rfl, rfl,
        fun _ => rfl, fun _ => rfl, List.prefix_rfl⟩

theorem setPC (h : s.Calm t) (v : Long) : s.Calm (t.setPC v) :=
  h.trans ⟨id, fun _ _ => rfl, id, fun _ => rfl, fun _ => rfl, rfl, rfl, rfl, rfl, rfl, rfl, fun _ => rfl, fun _ => rfl, List.prefix_rfl⟩

theorem skip (h : s.Calm t) (n : Nat) : s.Calm (t.skip n) := (h.noteReads _).setPC _

theorem draws (h : s.Calm t) (n : Nat) : s.Calm { t with draws := n } :=
  h.trans ⟨id, fun _ _ => rfl, id, fun _ => rfl, fun _ => rfl, rfl, rfl, rfl, rfl, rfl, rfl, fun _ => rfl, fun _ => rfl, List.prefix_rfl⟩

theorem drawN (h : s.Calm t) : s.Calm t.drawN := (h.draws _).setFlags _
theorem drawZ (h : s.Calm t) : s.Calm t.drawZ := (h.draws _).setFlags _
theorem drawV (h : s.Calm t) : s.Calm t.drawV := (h.draws _).setFlags _
theorem drawC (h : s.Calm t) : s.Calm t.drawC := (h.draws _).setFlags _

theorem resolve (h : s.Calm t) (e : EA) (sz : Size) : s.Calm (t.resolve e sz).2 := by
  cases e <;> simp only [State.resolve] <;> first | exact h | exact h.setA .. | exact h.skip _

theorem fetchEA (h : s.Calm t) (e : EA) (sz : Size) : s.Calm (t.fetchEA e sz).2 := (h.resolve e sz).afterReadEA ..

theorem writeEA (h : s.Calm t) (l : Loc) (sz : Size) (v : Long) : s.Calm (t.writeEA l sz v) := by
  cases l
  · exact h.setDLow ..
  · exact h.setA ..
  · exact h.memWrite ..
  · exact h

theorem push (h : s.Calm t) (v : Long) : s.Calm (t.push v) := (h.setA sp _).memWrite _ .l v

theorem setListed (h : s.Calm t) (i : Fin 16) (v : Long) : s.Calm (t.setListed i v) := by
  unfold State.setListed
  split
  · exact h.setD ..
  · exact h.setA ..

theorem sumInto (h : s.Calm t) (op : SumOp) (sz : Size) (l : Loc) (v : Long) : s.Calm (t.sumInto op sz l v) :=
  ((h.afterReadEA l sz).setFlags _).writeEA ..
theorem sumXInto (h : s.Calm t) (op : SumOp) (sz : Size) (l : Loc) (v : Long) : s.Calm (t.sumXInto op sz l v) :=
  ((h.afterReadEA l sz).setFlags _).writeEA ..
theorem logicInto (h : s.Calm t) (op : Long → Long → Long) (sz : Size) (l : Loc) (v : Long) :
    s.Calm (t.logicInto op sz l v) := ((h.afterReadEA l sz).setFlags _).writeEA ..
theorem shiftInto (h : s.Calm t) (kind : ShiftKind) (left : Bool) (sz : Size) (l : Loc) (n : Nat) :
    s.Calm (t.shiftInto kind left sz l n) := ((h.afterReadEA l sz).setFlags _).writeEA ..
theorem setProduct (h : s.Calm t) (d : Reg) (p : Int) : s.Calm (t.setProduct d p) := (h.setD ..).setFlags _
theorem setLogic (h : s.Calm t) (sz : Size) (v : Long) : s.Calm (t.setLogic sz v) := h.setFlags _
theorem setCmp (h : s.Calm t) (sz : Size) (r : Sum) : s.Calm (t.setCmp sz r) := h.setFlags _

theorem bitAt (h : s.Calm t) (op : BitOp) (l : Loc) (sz : Size) (b : Nat) : s.Calm (t.bitAt op l sz b) := by
  cases op
  · exact (h.afterReadEA l sz).setFlags _
  all_goals exact ((h.afterReadEA l sz).setFlags _).writeEA ..

theorem bitOp (h : s.Calm t) (op : BitOp) (num : Nat) (ea : EA) : s.Calm (t.bitOp op num ea) := by
  rw [State.bitOp_eq]; exact (h.resolve ..).bitAt ..

theorem bcdByte (h : s.Calm t) (v : Int) : s.Calm (t.bcdByte v).2 := by
  unfold State.bcdByte
  split
  · exact h
  · exact h.draws _

theorem bcdResult (h : s.Calm t) (v : Int) : s.Calm (t.bcdResult v).2 :=
  ((h.bcdByte _).setFlags _).drawN.drawV

theorem pairOperands (h : s.Calm t) (sz : Size) (mem : Bool) (y x : Reg) :
    s.Calm (t.pairOperands sz mem y x).2.2 := by
  cases mem
  · exact h
  · exact (h.fetchEA (.preDec y) _).resolve (.preDec x) _

theorem bcdOperands (h : s.Calm t) (mem : Bool) (y x : Reg) : s.Calm (t.bcdOperands mem y x).2.2 := by
  cases mem
  · exact h
  · exact (h.fetchEA (.preDec y) _).resolve (.preDec x) _

theorem sumEaDn (h : s.Calm t) (op : SumOp) (sz : Size) (ea : EA) (d : Reg) : s.Calm (t.sumEaDn op sz ea d) := by
  have := (h.fetchEA ea sz).sumInto op sz (.dreg d) (t.fetchEA ea sz).1
  exact this
theorem sumDnEa (h : s.Calm t) (op : SumOp) (sz : Size) (d : Reg) (ea : EA) : s.Calm (t.sumDnEa op sz d ea) := by
  have := (h.resolve ea sz).sumInto op sz (t.resolve ea sz).1 (trunc sz ((t.resolve ea sz).2.getD d))
  exact this
theorem sumImm (h : s.Calm t) (op : SumOp) (sz : Size) (imm : Long) (ea : EA) : s.Calm (t.sumImm op sz imm ea) := by
  have := ((h.skip (immLen sz)).resolve ea sz).sumInto op sz ((t.skip (immLen sz)).resolve ea sz).1 imm
  exact this
theorem sumPair (h : s.Calm t) (op : SumOp) (sz : Size) (mem : Bool) (y x : Reg) :
    s.Calm (t.sumPair op sz mem y x) := by
  have := (h.pairOperands sz mem y x).sumXInto op sz (t.pairOperands sz mem y x).2.1 (t.pairOperands sz mem y x).1
  exact this
theorem logicEaDn (h : s.Calm t) (op : Long → Long → Long) (sz : Size) (ea : EA) (d : Reg) :
    s.Calm (t.logicEaDn op sz ea d) := by
  have := (h.fetchEA ea sz).logicInto op sz (.dreg d) (t.fetchEA ea sz).1
  exact this
theorem logicDnEa (h : s.Calm t) (op : Long → Long → Long) (sz : Size) (d : Reg) (ea : EA) :
    s.Calm (t.logicDnEa op sz d ea) := by
  have := (h.resolve ea sz).logicInto op sz (t.resolve ea sz).1 (trunc sz ((t.resolve ea sz).2.getD d))
  exact this
theorem logicImm (h : s.Calm t) (op : Long → Long → Long) (sz : Size) (imm : Long) (ea : EA) :
    s.Calm (t.logicImm op sz imm ea) := by
  have := ((h.skip (immLen sz)).resolve ea sz).logicInto op sz ((t.skip (immLen sz)).resolve ea sz).1 imm
  exact this
theorem shiftReg (h : s.Calm t) (kind : ShiftKind) (left : Bool) (sz : Size) (cnt : Count) (y : Reg) :
    s.Calm (t.shiftReg kind left sz cnt y) := h.shiftInto kind left sz (.dreg y) (t.shiftCount cnt)
theorem shiftMem (h : s.Calm t) (kind : ShiftKind) (left : Bool) (ea : EA) : s.Calm (t.shiftMem kind left ea) := by
  have := (h.resolve ea .w).shiftInto kind left .w (t.resolve ea .w).1 1
  exact this

theorem branchTarget (h : s.Calm t) (d : BranchDisp) : s.Calm (t.branchTarget d).2 := by
  cases d
  · exact h
  · exact h.skip 1

theorem addressOf (h : s.Calm t) (e : EA) (sz : Size) : s.Calm (t.addressOf e sz).2 := by
  have := h.resolve e sz
  unfold State.addressOf
  split <;> simp_all

theorem writeStrided (h : s.Calm t) (a : Long) (long : Bool) (v : Long) : s.Calm (t.writeStrided a long v) := by
  cases long
  · exact (h.writeByte ..).writeByte ..
  · exact (((h.writeByte ..).writeByte ..).writeByte ..).writeByte ..

theorem storeUp {p : Long × State} (h : s.Calm p.2) (sz : Size) (mask : Word) (i : Fin 16) :
    s.Calm (storeUp sz mask p i).2 := by
  unfold Machine.storeUp
  split
  · exact h.memWrite ..
  · exact h

theorem storeDown {p : Long × State} (h : s.Calm p.2) (sz : Size) (mask : Word) (i : Fin 16) :
    s.Calm (storeDown sz mask p i).2 := by
  unfold Machine.storeDown
  split
  · exact h.memWrite ..
  · exact h

theorem loadUp {p : Long × State} (h : s.Calm p.2) (sz : Size) (mask : Word) (i : Fin 16) :
    s.Calm (loadUp sz mask p i).2 := by
  unfold Machine.loadUp
  split
  · exact (h.afterRead ..).setListed ..
  · exact h

theorem foldl {p : Long × State} (h : s.Calm p.2) (f : Long × State → Fin 16 → Long × State)
    (hf : ∀ q i, s.Calm q.2 → s.Calm (f q i).2) (l : List (Fin 16)) : s.Calm (l.foldl f p).2 := by
  induction l generalizing p with
  | nil => exact h
  | cons i l ih => exact ih (hf p i h)

end State.Calm

/-! ## The stops of each instruction -/

/-- The kinds an instruction can stop with, when, and with what info (60_exceptions.md R227). -/
def CanStop (i : Instr) (s : State) (kind : HaltKind) (info : Option Int) : Prop :=
  match kind with
  | .unknownOpcode => False
  | .malformedResult => False
  | .illegalInstruction => i = .illegal ∧ info = none
  | .privilegeViolation => i.privileged = true ∧ s.flagS = false ∧ info = none
  | .divideByZero => i.mnemonic ∈ [.divuW, .divsW, .divl] ∧ info = none
  | .divideOverflow => i.mnemonic ∈ [.divuW, .divsW, .divl] ∧ info = none
  | .chkBound => i.mnemonic = .chk ∧ ∃ x : Int, info = some x ∧ -32768 ≤ x ∧ x ≤ 32767
  | .trap => i.mnemonic = .trap ∧ ∃ v : Nat, info = some (v : Int) ∧ v ≤ 15
  | .trapOverflow => i = .trapv ∧ s.flagV = true ∧ info = none
  | .trapCC => i.mnemonic = .trapcc ∧ info = none
  | .programExit => i = .rts ∧ ∃ v : Nat, info = some (v : Int) ∧ v < 4294967296
  | .stop => i.mnemonic = .stop ∧ ∃ v : Nat, info = some (v : Int) ∧ v < 65536

/-- `t` is `u`, or `u` stopped by the instruction `i` of `s` with a kind it can stop with. -/
def GoesOnOrStops (i : Instr) (s u t : State) : Prop :=
  t = u ∨ ∃ kind info, t = u.halt { op := i.opcode, opAddr := s.pc - 2 } kind info ∧ CanStop i s kind info

theorem signed_w_bounds (v : Long) : -32768 ≤ signed .w v ∧ signed .w v ≤ 32767 := by
  rw [signed_w]
  have h1 := (v.extractLsb' 0 16).toInt_lt
  have h2 := (v.extractLsb' 0 16).le_toInt
  omega

/-- What a division does: no more than an ordinary operation, or a stop after one. -/
theorem divideWord_cases {i : Instr} (hi : i.mnemonic ∈ [Mnemonic.divuW, .divsW, .divl]) {s t : State} (h : s.Calm t)
    (d : Reg) (a b low high : Int) : ∃ u, s.Calm u ∧
      GoesOnOrStops i s u (t.divideWord { op := i.opcode, opAddr := s.pc - 2 } d a b low high) := by
  unfold State.divideWord
  split
  · exact ⟨_, (h.setFlags _).drawN.drawZ.drawV, .inr ⟨_, _, rfl, hi, rfl⟩⟩
  · dsimp only
    split
    · exact ⟨_, (h.setFlags _).drawN.drawZ, .inr ⟨_, _, rfl, hi, rfl⟩⟩
    · exact ⟨_, (h.setD ..).setFlags _, .inl rfl⟩

/-- All that an instruction can do: an ordinary operation; in supervisor mode a write of SR after one, by the
instructions that write SR; in supervisor mode MOVE An,USP; each but the last possibly with a stop. -/
def Did (i : Instr) (s t : State) : Prop :=
  (∃ u, s.Calm u ∧ GoesOnOrStops i s u t) ∨
  (i.writesSr = true ∧ s.flagS = true ∧ ∃ u w, s.Calm u ∧ GoesOnOrStops i s (u.setSr w) t) ∨
  (∃ a, i = .moveToUsp a ∧ s.flagS = true ∧ t = s.setUSP (s.getA a))

/-- The first case, without a stop. -/
theorem calm_goes {i : Instr} {s t : State} (h : s.Calm t) : Did i s t := .inl ⟨t, h, .inl rfl⟩

theorem did_oriToCcr {imm : Byte} {s t : State} (e : exec (.oriToCcr imm) s = .next t) :
    Did (.oriToCcr imm) s t := by
  obtain ⟨-, rfl⟩ := handle_cases ((exec_oriToCcr ..).symm.trans e)
  have calm := State.Calm.refl s
  exact calm_goes ((calm.skip _).setCcr _)

theorem did_oriToSr {imm : Word} {s t : State} (e : exec (.oriToSr imm) s = .next t) :
    Did (.oriToSr imm) s t := by
  obtain ⟨-, rfl⟩ := handle_cases ((exec_oriToSr ..).symm.trans e)
  have calm := State.Calm.refl s
  dsimp only [State.requireSupervisor]
  split
  · exact .inr (.inl ⟨rfl, ‹_›, _, _, calm.skip 1, .inl rfl⟩)
  · exact .inl ⟨_, calm, .inr ⟨_, _, rfl, rfl, eq_false_of_ne_true ‹_›, rfl⟩⟩

theorem did_ori {sz : Size} {imm : Long} {ea : EA} {s t : State} (e : exec (.ori sz imm ea) s = .next t) :
    Did (.ori sz imm ea) s t := by
  obtain ⟨-, rfl⟩ := handle_cases ((exec_ori ..).symm.trans e)
  have calm := State.Calm.refl s
  exact calm_goes (calm.logicImm ..)

theorem did_andiToCcr {imm : Byte} {s t : State} (e : exec (.andiToCcr imm) s = .next t) :
    Did (.andiToCcr imm) s t := by
  obtain ⟨-, rfl⟩ := handle_cases ((exec_andiToCcr ..).symm.trans e)
  have calm := State.Calm.refl s
  exact calm_goes ((calm.skip _).setCcr _)

theorem did_andiToSr {imm : Word} {s t : State} (e : exec (.andiToSr imm) s = .next t) :
    Did (.andiToSr imm) s t := by
  obtain ⟨-, rfl⟩ := handle_cases ((exec_andiToSr ..).symm.trans e)
  have calm := State.Calm.refl s
  dsimp only [State.requireSupervisor]
  split
  · exact .inr (.inl ⟨rfl, ‹_›, _, _, calm.skip 1, .inl rfl⟩)
  · exact .inl ⟨_, calm, .inr ⟨_, _, rfl, rfl, eq_false_of_ne_true ‹_›, rfl⟩⟩

theorem did_andi {sz : Size} {imm : Long} {ea : EA} {s t : State} (e : exec (.andi sz imm ea) s = .next t) :
    Did (.andi sz imm ea) s t := by
  obtain ⟨-, rfl⟩ := handle_cases ((exec_andi ..).symm.trans e)
  have calm := State.Calm.refl s
  exact calm_goes (calm.logicImm ..)

theorem did_subi {sz : Size} {imm : Long} {ea : EA} {s t : State} (e : exec (.subi sz imm ea) s = .next t) :
    Did (.subi sz imm ea) s t := by
  obtain ⟨-, rfl⟩ := handle_cases ((exec_subi ..).symm.trans e)
  have calm := State.Calm.refl s
  exact calm_goes (calm.sumImm ..)

theorem did_addi {sz : Size} {imm : Long} {ea : EA} {s t : State} (e : exec (.addi sz imm ea) s = .next t) :
    Did (.addi sz imm ea) s t := by
  obtain ⟨-, rfl⟩ := handle_cases ((exec_addi ..).symm.trans e)
  have calm := State.Calm.refl s
  exact calm_goes (calm.sumImm ..)

theorem did_eoriToCcr {imm : Byte} {s t : State} (e : exec (.eoriToCcr imm) s = .next t) :
    Did (.eoriToCcr imm) s t := by
  obtain ⟨-, rfl⟩ := handle_cases ((exec_eoriToCcr ..).symm.trans e)
  have calm := State.Calm.refl s
  exact calm_goes ((calm.skip _).setCcr _)

theorem did_eoriToSr {imm : Word} {s t : State} (e : exec (.eoriToSr imm) s = .next t) :
    Did (.eoriToSr imm) s t := by
  obtain ⟨-, rfl⟩ := handle_cases ((exec_eoriToSr ..).symm.trans e)
  have calm := State.Calm.refl s
  dsimp only [State.requireSupervisor]
  split
  · exact .inr (.inl ⟨rfl, ‹_›, _, _, calm.skip 1, .inl rfl⟩)
  · exact .inl ⟨_, calm, .inr ⟨_, _, rfl, rfl, eq_false_of_ne_true ‹_›, rfl⟩⟩

theorem did_eori {sz : Size} {imm : Long} {ea : EA} {s t : State} (e : exec (.eori sz imm ea) s = .next t) :
    Did (.eori sz imm ea) s t := by
  obtain ⟨-, rfl⟩ := handle_cases ((exec_eori ..).symm.trans e)
  have calm := State.Calm.refl s
  exact calm_goes (calm.logicImm ..)

theorem did_cmpi {sz : Size} {imm : Long} {ea : EA} {s t : State} (e : exec (.cmpi sz imm ea) s = .next t) :
    Did (.cmpi sz imm ea) s t := by
  obtain ⟨-, rfl⟩ := handle_cases ((exec_cmpi ..).symm.trans e)
  have calm := State.Calm.refl s
  exact calm_goes (((calm.skip _).fetchEA ..).setCmp ..)

theorem did_btstImm {num : Byte} {ea : EA} {s t : State} (e : exec (.btstImm num ea) s = .next t) :
    Did (.btstImm num ea) s t := by
  obtain ⟨-, rfl⟩ := handle_cases ((exec_btstImm ..).symm.trans e)
  have calm := State.Calm.refl s
  exact calm_goes ((calm.skip _).bitOp ..)

theorem did_bchgImm {num : Byte} {ea : EA} {s t : State} (e : exec (.bchgImm num ea) s = .next t) :
    Did (.bchgImm num ea) s t := by
  obtain ⟨-, rfl⟩ := handle_cases ((exec_bchgImm ..).symm.trans e)
  have calm := State.Calm.refl s
  exact calm_goes ((calm.skip _).bitOp ..)

theorem did_bclrImm {num : Byte} {ea : EA} {s t : State} (e : exec (.bclrImm num ea) s = .next t) :
    Did (.bclrImm num ea) s t := by
  obtain ⟨-, rfl⟩ := handle_cases ((exec_bclrImm ..).symm.trans e)
  have calm := State.Calm.refl s
  exact calm_goes ((calm.skip _).bitOp ..)

theorem did_bsetImm {num : Byte} {ea : EA} {s t : State} (e : exec (.bsetImm num ea) s = .next t) :
    Did (.bsetImm num ea) s t := by
  obtain ⟨-, rfl⟩ := handle_cases ((exec_bsetImm ..).symm.trans e)
  have calm := State.Calm.refl s
  exact calm_goes ((calm.skip _).bitOp ..)

theorem did_btstDn {d : Reg} {ea : EA} {s t : State} (e : exec (.btstDn d ea) s = .next t) :
    Did (.btstDn d ea) s t := by
  obtain ⟨-, rfl⟩ := handle_cases ((exec_btstDn ..).symm.trans e)
  have calm := State.Calm.refl s
  exact calm_goes (calm.bitOp ..)

theorem did_bchgDn {d : Reg} {ea : EA} {s t : State} (e : exec (.bchgDn d ea) s = .next t) :
    Did (.bchgDn d ea) s t := by
  obtain ⟨-, rfl⟩ := handle_cases ((exec_bchgDn ..).symm.trans e)
  have calm := State.Calm.refl s
  exact calm_goes (calm.bitOp ..)

theorem did_bclrDn {d : Reg} {ea : EA} {s t : State} (e : exec (.bclrDn d ea) s = .next t) :
    Did (.bclrDn d ea) s t := by
  obtain ⟨-, rfl⟩ := handle_cases ((exec_bclrDn ..).symm.trans e)
  have calm := State.Calm.refl s
  exact calm_goes (calm.bitOp ..)

theorem did_bsetDn {d : Reg} {ea : EA} {s t : State} (e : exec (.bsetDn d ea) s = .next t) :
    Did (.bsetDn d ea) s t := by
  obtain ⟨-, rfl⟩ := handle_cases ((exec_bsetDn ..).symm.trans e)
  have calm := State.Calm.refl s
  exact calm_goes (calm.bitOp ..)

theorem did_movep {d : Reg} {toMem long : Bool} {a : Reg} {disp : Word} {s t : State} (e : exec (.movep d toMem long a disp) s = .next t) :
    Did (.movep d toMem long a disp) s t := by
  obtain ⟨-, rfl⟩ := handle_cases ((exec_movep ..).symm.trans e)
  have calm := State.Calm.refl s
  refine calm_goes ?_
  dsimp only
  split
  · exact (calm.skip _).writeStrided ..
  · exact ((calm.skip _).noteReads _).setDLow ..

theorem did_cas {sz : Size} {dc du : Reg} {ea : EA} {s t : State} (e : exec (.cas sz dc du ea) s = .next t) :
    Did (.cas sz dc du ea) s t := by
  obtain ⟨-, rfl⟩ := handle_cases ((exec_cas ..).symm.trans e)
  have calm := State.Calm.refl s
  refine calm_goes ?_
  dsimp only
  split
  · exact ((((calm.skip _).resolve ..).afterReadEA ..).setCmp ..).writeEA ..
  · exact ((((calm.skip _).resolve ..).afterReadEA ..).setCmp ..).setDLow ..

theorem did_move {sz : Size} {src dst : EA} {s t : State} (e : exec (.move sz src dst) s = .next t) :
    Did (.move sz src dst) s t := by
  obtain ⟨-, rfl⟩ := handle_cases ((exec_move ..).symm.trans e)
  have calm := State.Calm.refl s
  exact calm_goes ((((calm.fetchEA ..).resolve ..).writeEA ..).setLogic ..)

theorem did_movea {sz : Size} {src : EA} {a : Reg} {s t : State} (e : exec (.movea sz src a) s = .next t) :
    Did (.movea sz src a) s t := by
  obtain ⟨-, rfl⟩ := handle_cases ((exec_movea ..).symm.trans e)
  have calm := State.Calm.refl s
  exact calm_goes ((calm.fetchEA ..).setA ..)

theorem did_negx {sz : Size} {ea : EA} {s t : State} (e : exec (.negx sz ea) s = .next t) :
    Did (.negx sz ea) s t := by
  obtain ⟨-, rfl⟩ := handle_cases ((exec_negx ..).symm.trans e)
  have calm := State.Calm.refl s
  exact calm_goes ((calm.resolve ..).sumXInto ..)

theorem did_moveFromSr {ea : EA} {s t : State} (e : exec (.moveFromSr ea) s = .next t) :
    Did (.moveFromSr ea) s t := by
  obtain ⟨-, rfl⟩ := handle_cases ((exec_moveFromSr ..).symm.trans e)
  have calm := State.Calm.refl s
  exact calm_goes ((calm.resolve ..).writeEA ..)

theorem did_chk {ea : EA} {d : Reg} {s t : State} (e : exec (.chk ea d) s = .next t) :
    Did (.chk ea d) s t := by
  obtain ⟨-, rfl⟩ := handle_cases ((exec_chk ..).symm.trans e)
  have calm := State.Calm.refl s
  refine .inl ?_
  dsimp only
  have h := (calm.fetchEA ea .w).drawZ.drawV.drawC
  have hb := signed_w_bounds ((s.fetchEA ea .w).2.getD d)
  split
  · exact ⟨_, h.setFlags _, .inr ⟨_, _, rfl, rfl, _, rfl, hb⟩⟩
  · split
    · exact ⟨_, h.setFlags _, .inr ⟨_, _, rfl, rfl, _, rfl, hb⟩⟩
    · exact ⟨_, h.drawN, .inl rfl⟩

theorem did_lea {ea : EA} {a : Reg} {s t : State} (e : exec (.lea ea a) s = .next t) :
    Did (.lea ea a) s t := by
  obtain ⟨-, rfl⟩ := handle_cases ((exec_lea ..).symm.trans e)
  have calm := State.Calm.refl s
  exact calm_goes ((calm.addressOf ..).setA ..)

theorem did_clr {sz : Size} {ea : EA} {s t : State} (e : exec (.clr sz ea) s = .next t) :
    Did (.clr sz ea) s t := by
  obtain ⟨-, rfl⟩ := handle_cases ((exec_clr ..).symm.trans e)
  have calm := State.Calm.refl s
  exact calm_goes (((calm.resolve ..).writeEA ..).setFlags _)

theorem did_moveFromCcr {ea : EA} {s t : State} (e : exec (.moveFromCcr ea) s = .next t) :
    Did (.moveFromCcr ea) s t := by
  obtain ⟨-, rfl⟩ := handle_cases ((exec_moveFromCcr ..).symm.trans e)
  have calm := State.Calm.refl s
  exact calm_goes ((calm.resolve ..).writeEA ..)

theorem did_neg {sz : Size} {ea : EA} {s t : State} (e : exec (.neg sz ea) s = .next t) :
    Did (.neg sz ea) s t := by
  obtain ⟨-, rfl⟩ := handle_cases ((exec_neg ..).symm.trans e)
  have calm := State.Calm.refl s
  exact calm_goes ((calm.resolve ..).sumInto ..)

theorem did_moveToCcr {ea : EA} {s t : State} (e : exec (.moveToCcr ea) s = .next t) :
    Did (.moveToCcr ea) s t := by
  obtain ⟨-, rfl⟩ := handle_cases ((exec_moveToCcr ..).symm.trans e)
  have calm := State.Calm.refl s
  exact calm_goes ((calm.fetchEA ..).setCcr _)

theorem did_not {sz : Size} {ea : EA} {s t : State} (e : exec (.not sz ea) s = .next t) :
    Did (.not sz ea) s t := by
  obtain ⟨-, rfl⟩ := handle_cases ((exec_not ..).symm.trans e)
  have calm := State.Calm.refl s
  exact calm_goes ((calm.resolve ..).logicInto ..)

theorem did_moveToSr {ea : EA} {s t : State} (e : exec (.moveToSr ea) s = .next t) :
    Did (.moveToSr ea) s t := by
  obtain ⟨-, rfl⟩ := handle_cases ((exec_moveToSr ..).symm.trans e)
  have calm := State.Calm.refl s
  dsimp only [State.requireSupervisor]
  split
  · exact .inr (.inl ⟨rfl, ‹_›, _, _, calm.fetchEA .., .inl rfl⟩)
  · exact .inl ⟨_, calm, .inr ⟨_, _, rfl, rfl, eq_false_of_ne_true ‹_›, rfl⟩⟩

theorem did_nbcd {ea : EA} {s t : State} (e : exec (.nbcd ea) s = .next t) :
    Did (.nbcd ea) s t := by
  obtain ⟨-, rfl⟩ := handle_cases ((exec_nbcd ..).symm.trans e)
  have calm := State.Calm.refl s
  exact calm_goes ((((calm.resolve ..).afterReadEA ..).bcdResult _).writeEA ..)

theorem did_swap {d : Reg} {s t : State} (e : exec (.swap d) s = .next t) :
    Did (.swap d) s t := by
  obtain ⟨-, rfl⟩ := handle_cases ((exec_swap ..).symm.trans e)
  have calm := State.Calm.refl s
  exact calm_goes ((calm.setD ..).setLogic ..)

theorem did_pea {ea : EA} {s t : State} (e : exec (.pea ea) s = .next t) :
    Did (.pea ea) s t := by
  obtain ⟨-, rfl⟩ := handle_cases ((exec_pea ..).symm.trans e)
  have calm := State.Calm.refl s
  exact calm_goes ((calm.addressOf ..).push _)

theorem did_extW {d : Reg} {s t : State} (e : exec (.extW d) s = .next t) :
    Did (.extW d) s t := by
  obtain ⟨-, rfl⟩ := handle_cases ((exec_extW ..).symm.trans e)
  have calm := State.Calm.refl s
  exact calm_goes ((calm.setDLow ..).setLogic ..)

theorem did_extL {d : Reg} {s t : State} (e : exec (.extL d) s = .next t) :
    Did (.extL d) s t := by
  obtain ⟨-, rfl⟩ := handle_cases ((exec_extL ..).symm.trans e)
  have calm := State.Calm.refl s
  exact calm_goes ((calm.setD ..).setLogic ..)

theorem did_movemToMem {sz : Size} {mask : Word} {ea : EA} {s t : State} (e : exec (.movemToMem sz mask ea) s = .next t) :
    Did (.movemToMem sz mask ea) s t := by
  obtain ⟨-, rfl⟩ := handle_cases ((exec_movemToMem ..).symm.trans e)
  have calm := State.Calm.refl s
  refine calm_goes ?_
  dsimp only
  split
  · exact ((calm.skip 1).foldl _ (fun _ _ h => h.storeDown ..) _).setA ..
  · exact ((calm.skip 1).addressOf ..).foldl _ (fun _ _ h => h.storeUp ..) _

theorem did_tst {sz : Size} {ea : EA} {s t : State} (e : exec (.tst sz ea) s = .next t) :
    Did (.tst sz ea) s t := by
  obtain ⟨-, rfl⟩ := handle_cases ((exec_tst ..).symm.trans e)
  have calm := State.Calm.refl s
  exact calm_goes ((calm.fetchEA ..).setLogic ..)

theorem did_tas {ea : EA} {s t : State} (e : exec (.tas ea) s = .next t) :
    Did (.tas ea) s t := by
  obtain ⟨-, rfl⟩ := handle_cases ((exec_tas ..).symm.trans e)
  have calm := State.Calm.refl s
  exact calm_goes ((((calm.resolve ..).afterReadEA ..).setLogic ..).writeEA ..)

theorem did_illegal {s t : State} (e : exec .illegal s = .next t) :
    Did .illegal s t := by
  obtain ⟨-, rfl⟩ := handle_cases ((exec_illegal ..).symm.trans e)
  have calm := State.Calm.refl s
  exact .inl ⟨_, calm, .inr ⟨_, _, rfl, rfl, rfl⟩⟩

theorem did_mull {signed wide : Bool} {l h : Reg} {ea : EA} {s t : State} (e : exec (.mull signed wide l h ea) s = .next t) :
    Did (.mull signed wide l h ea) s t := by
  obtain ⟨-, rfl⟩ := handle_cases ((exec_mull ..).symm.trans e)
  have calm := State.Calm.refl s
  refine calm_goes ?_
  dsimp only
  split
  · exact ((((calm.skip _).fetchEA ..).setD ..).setD ..).setFlags _
  · exact (((calm.skip _).fetchEA ..).setD ..).setFlags _

theorem did_divl {signed wide : Bool} {q r : Reg} {ea : EA} {s t : State} (e : exec (.divl signed wide q r ea) s = .next t) :
    Did (.divl signed wide q r ea) s t := by
  obtain ⟨-, rfl⟩ := handle_cases ((exec_divl ..).symm.trans e)
  have calm := State.Calm.refl s
  refine .inl ?_
  dsimp only
  split
  · exact ⟨_, ((((calm.skip _).fetchEA ..).setFlags _).drawN.drawZ.drawV), .inr ⟨_, _, rfl, by simp [Instr.mnemonic], rfl⟩⟩
  · split
    · exact ⟨_, ((((calm.skip _).fetchEA ..).setFlags _).drawN.drawZ), .inr ⟨_, _, rfl, by simp [Instr.mnemonic], rfl⟩⟩
    · refine ⟨_, ?_, .inl rfl⟩
      split
      · exact ((((calm.skip _).fetchEA ..).setD ..).setD ..).setFlags _
      · exact (((calm.skip _).fetchEA ..).setD ..).setFlags _

theorem did_movemToReg {sz : Size} {mask : Word} {ea : EA} {s t : State} (e : exec (.movemToReg sz mask ea) s = .next t) :
    Did (.movemToReg sz mask ea) s t := by
  obtain ⟨-, rfl⟩ := handle_cases ((exec_movemToReg ..).symm.trans e)
  have calm := State.Calm.refl s
  refine calm_goes ?_
  dsimp only
  split
  · exact ((calm.skip 1).foldl _ (fun _ _ h => h.loadUp ..) _).setA ..
  · exact ((calm.skip 1).addressOf ..).foldl _ (fun _ _ h => h.loadUp ..) _

theorem did_trap {v : BitVec 4} {s t : State} (e : exec (.trap v) s = .next t) :
    Did (.trap v) s t := by
  obtain ⟨-, rfl⟩ := handle_cases ((exec_trap ..).symm.trans e)
  have calm := State.Calm.refl s
  exact .inl ⟨_, calm, .inr ⟨_, _, rfl, rfl, v.toNat, rfl, by omega⟩⟩

theorem did_link {a : Reg} {disp : Word} {s t : State} (e : exec (.link a disp) s = .next t) :
    Did (.link a disp) s t := by
  obtain ⟨-, rfl⟩ := handle_cases ((exec_link ..).symm.trans e)
  have calm := State.Calm.refl s
  exact calm_goes ((((((calm.skip _).setA ..).memWrite ..).setA ..).setA ..))

theorem did_unlk {a : Reg} {s t : State} (e : exec (.unlk a) s = .next t) :
    Did (.unlk a) s t := by
  obtain ⟨-, rfl⟩ := handle_cases ((exec_unlk ..).symm.trans e)
  have calm := State.Calm.refl s
  exact calm_goes ((((calm.setA ..).afterRead ..).setA ..).setA ..)

theorem did_moveToUsp {a : Reg} {s t : State} (e : exec (.moveToUsp a) s = .next t) :
    Did (.moveToUsp a) s t := by
  obtain ⟨-, rfl⟩ := handle_cases ((exec_moveToUsp ..).symm.trans e)
  have calm := State.Calm.refl s
  dsimp only [State.requireSupervisor]
  split
  · exact .inr (.inr ⟨a, rfl, ‹_›, rfl⟩)
  · exact .inl ⟨_, calm, .inr ⟨_, _, rfl, rfl, eq_false_of_ne_true ‹_›, rfl⟩⟩

theorem did_moveFromUsp {a : Reg} {s t : State} (e : exec (.moveFromUsp a) s = .next t) :
    Did (.moveFromUsp a) s t := by
  obtain ⟨-, rfl⟩ := handle_cases ((exec_moveFromUsp ..).symm.trans e)
  have calm := State.Calm.refl s
  dsimp only [State.requireSupervisor]
  split
  · exact calm_goes (calm.setA ..)
  · exact .inl ⟨_, calm, .inr ⟨_, _, rfl, rfl, eq_false_of_ne_true ‹_›, rfl⟩⟩

theorem did_reset {s t : State} (e : exec .reset s = .next t) :
    Did .reset s t := by
  obtain ⟨-, rfl⟩ := handle_cases ((exec_reset ..).symm.trans e)
  have calm := State.Calm.refl s
  dsimp only [State.requireSupervisor]
  split
  · exact calm_goes calm
  · exact .inl ⟨_, calm, .inr ⟨_, _, rfl, rfl, eq_false_of_ne_true ‹_›, rfl⟩⟩

theorem did_nop {s t : State} (e : exec .nop s = .next t) :
    Did .nop s t := by
  obtain ⟨-, rfl⟩ := handle_cases ((exec_nop ..).symm.trans e)
  have calm := State.Calm.refl s
  exact calm_goes (calm)

theorem did_stop {imm : Word} {s t : State} (e : exec (.stop imm) s = .next t) :
    Did (.stop imm) s t := by
  obtain ⟨-, rfl⟩ := handle_cases ((exec_stop ..).symm.trans e)
  have calm := State.Calm.refl s
  dsimp only [State.requireSupervisor]
  split
  · exact .inr (.inl ⟨rfl, ‹_›, _, imm, calm.skip 1, .inr ⟨_, _, rfl, rfl, imm.toNat, rfl, imm.isLt⟩⟩)
  · exact .inl ⟨_, calm, .inr ⟨_, _, rfl, rfl, eq_false_of_ne_true ‹_›, rfl⟩⟩

theorem did_rte {s t : State} (e : exec .rte s = .next t) :
    Did .rte s t := by
  obtain ⟨-, rfl⟩ := handle_cases ((exec_rte ..).symm.trans e)
  have calm := State.Calm.refl s
  dsimp only [State.requireSupervisor]
  split
  · exact .inr (.inl ⟨rfl, ‹_›, _, _, ((((calm.afterRead ..).setA ..).afterRead ..).setA ..).setPC _, .inl rfl⟩)
  · exact .inl ⟨_, calm, .inr ⟨_, _, rfl, rfl, eq_false_of_ne_true ‹_›, rfl⟩⟩

theorem did_rts {s t : State} (e : exec .rts s = .next t) :
    Did .rts s t := by
  obtain ⟨-, rfl⟩ := handle_cases ((exec_rts ..).symm.trans e)
  have calm := State.Calm.refl s
  refine .inl ?_
  dsimp only
  split
  · exact ⟨_, ((calm.afterRead ..).setA ..).setPC _, .inr ⟨_, _, rfl, rfl, _, rfl, BitVec.isLt _⟩⟩
  · exact ⟨_, ((calm.afterRead ..).setA ..).setPC _, .inl rfl⟩

theorem did_trapv {s t : State} (e : exec .trapv s = .next t) :
    Did .trapv s t := by
  obtain ⟨-, rfl⟩ := handle_cases ((exec_trapv ..).symm.trans e)
  have calm := State.Calm.refl s
  refine .inl ?_
  split
  · exact ⟨_, calm, .inr ⟨_, _, rfl, rfl, ‹_›, rfl⟩⟩
  · exact ⟨_, calm, .inl rfl⟩

theorem did_rtr {s t : State} (e : exec .rtr s = .next t) :
    Did .rtr s t := by
  obtain ⟨-, rfl⟩ := handle_cases ((exec_rtr ..).symm.trans e)
  have calm := State.Calm.refl s
  exact calm_goes ((((((calm.afterRead ..).setA ..).afterRead ..).setA ..).setCcr _).setPC _)

theorem did_jsr {ea : EA} {s t : State} (e : exec (.jsr ea) s = .next t) :
    Did (.jsr ea) s t := by
  obtain ⟨-, rfl⟩ := handle_cases ((exec_jsr ..).symm.trans e)
  have calm := State.Calm.refl s
  exact calm_goes (((calm.addressOf ..).push _).setPC _)

theorem did_jmp {ea : EA} {s t : State} (e : exec (.jmp ea) s = .next t) :
    Did (.jmp ea) s t := by
  obtain ⟨-, rfl⟩ := handle_cases ((exec_jmp ..).symm.trans e)
  have calm := State.Calm.refl s
  exact calm_goes ((calm.addressOf ..).setPC _)

theorem did_addq {q : BitVec 3} {sz : Size} {ea : EA} {s t : State} (e : exec (.addq q sz ea) s = .next t) :
    Did (.addq q sz ea) s t := by
  obtain ⟨-, rfl⟩ := handle_cases ((exec_addq ..).symm.trans e)
  have calm := State.Calm.refl s
  refine calm_goes ?_
  dsimp only
  split
  · exact calm.setA ..
  · exact (calm.resolve ..).sumInto ..

theorem did_subq {q : BitVec 3} {sz : Size} {ea : EA} {s t : State} (e : exec (.subq q sz ea) s = .next t) :
    Did (.subq q sz ea) s t := by
  obtain ⟨-, rfl⟩ := handle_cases ((exec_subq ..).symm.trans e)
  have calm := State.Calm.refl s
  refine calm_goes ?_
  dsimp only
  split
  · exact calm.setA ..
  · exact (calm.resolve ..).sumInto ..

theorem did_scc {c : Cond} {ea : EA} {s t : State} (e : exec (.scc c ea) s = .next t) :
    Did (.scc c ea) s t := by
  obtain ⟨-, rfl⟩ := handle_cases ((exec_scc ..).symm.trans e)
  have calm := State.Calm.refl s
  exact calm_goes ((calm.resolve ..).writeEA ..)

theorem did_dbcc {c : Cond} {d : Reg} {disp : Word} {s t : State} (e : exec (.dbcc c d disp) s = .next t) :
    Did (.dbcc c d disp) s t := by
  obtain ⟨-, rfl⟩ := handle_cases ((exec_dbcc ..).symm.trans e)
  have calm := State.Calm.refl s
  refine calm_goes ?_
  dsimp only
  split
  · exact calm.skip _
  · split
    · exact (calm.skip _).setDLow ..
    · exact ((calm.skip _).setDLow ..).setPC _

theorem did_trapcc {c : Cond} {opnd : TrapOperand} {s t : State} (e : exec (.trapcc c opnd) s = .next t) :
    Did (.trapcc c opnd) s t := by
  obtain ⟨-, rfl⟩ := handle_cases ((exec_trapcc ..).symm.trans e)
  have calm := State.Calm.refl s
  refine .inl ?_
  dsimp only
  split
  · exact ⟨_, calm.skip _, .inr ⟨_, _, rfl, rfl, rfl⟩⟩
  · exact ⟨_, calm.skip _, .inl rfl⟩

theorem did_bra {disp : BranchDisp} {s t : State} (e : exec (.bra disp) s = .next t) :
    Did (.bra disp) s t := by
  obtain ⟨-, rfl⟩ := handle_cases ((exec_bra ..).symm.trans e)
  have calm := State.Calm.refl s
  exact calm_goes ((calm.branchTarget _).setPC _)

theorem did_bsr {disp : BranchDisp} {s t : State} (e : exec (.bsr disp) s = .next t) :
    Did (.bsr disp) s t := by
  obtain ⟨-, rfl⟩ := handle_cases ((exec_bsr ..).symm.trans e)
  have calm := State.Calm.refl s
  exact calm_goes (((calm.branchTarget _).push _).setPC _)

theorem did_bcc {c : Cond} {disp : BranchDisp} {s t : State} (e : exec (.bcc c disp) s = .next t) :
    Did (.bcc c disp) s t := by
  obtain ⟨-, rfl⟩ := handle_cases ((exec_bcc ..).symm.trans e)
  have calm := State.Calm.refl s
  refine calm_goes ?_
  dsimp only
  split
  · exact (calm.branchTarget _).setPC _
  · exact calm.branchTarget _

theorem did_moveq {k : Byte} {d : Reg} {s t : State} (e : exec (.moveq k d) s = .next t) :
    Did (.moveq k d) s t := by
  obtain ⟨-, rfl⟩ := handle_cases ((exec_moveq ..).symm.trans e)
  have calm := State.Calm.refl s
  exact calm_goes ((calm.setD ..).setLogic ..)

theorem did_divuW {ea : EA} {d : Reg} {s t : State} (e : exec (.divuW ea d) s = .next t) :
    Did (.divuW ea d) s t := by
  obtain ⟨-, rfl⟩ := handle_cases ((exec_divuW ..).symm.trans e)
  have calm := State.Calm.refl s
  exact .inl (divideWord_cases (i := .divuW ..) (by simp [Instr.mnemonic]) (calm.fetchEA ..) ..)

theorem did_divsW {ea : EA} {d : Reg} {s t : State} (e : exec (.divsW ea d) s = .next t) :
    Did (.divsW ea d) s t := by
  obtain ⟨-, rfl⟩ := handle_cases ((exec_divsW ..).symm.trans e)
  have calm := State.Calm.refl s
  exact .inl (divideWord_cases (i := .divsW ..) (by simp [Instr.mnemonic]) (calm.fetchEA ..) ..)

theorem did_sbcd {mem : Bool} {y x : Reg} {s t : State} (e : exec (.sbcd mem y x) s = .next t) :
    Did (.sbcd mem y x) s t := by
  obtain ⟨-, rfl⟩ := handle_cases ((exec_sbcd ..).symm.trans e)
  have calm := State.Calm.refl s
  exact calm_goes ((((calm.bcdOperands ..).afterReadEA ..).bcdResult _).writeEA ..)

theorem did_orEaDn {sz : Size} {ea : EA} {d : Reg} {s t : State} (e : exec (.orEaDn sz ea d) s = .next t) :
    Did (.orEaDn sz ea d) s t := by
  obtain ⟨-, rfl⟩ := handle_cases ((exec_orEaDn ..).symm.trans e)
  have calm := State.Calm.refl s
  exact calm_goes (calm.logicEaDn ..)

theorem did_orDnEa {sz : Size} {d : Reg} {ea : EA} {s t : State} (e : exec (.orDnEa sz d ea) s = .next t) :
    Did (.orDnEa sz d ea) s t := by
  obtain ⟨-, rfl⟩ := handle_cases ((exec_orDnEa ..).symm.trans e)
  have calm := State.Calm.refl s
  exact calm_goes (calm.logicDnEa ..)

theorem did_subEaDn {sz : Size} {ea : EA} {d : Reg} {s t : State} (e : exec (.subEaDn sz ea d) s = .next t) :
    Did (.subEaDn sz ea d) s t := by
  obtain ⟨-, rfl⟩ := handle_cases ((exec_subEaDn ..).symm.trans e)
  have calm := State.Calm.refl s
  exact calm_goes (calm.sumEaDn ..)

theorem did_subDnEa {sz : Size} {d : Reg} {ea : EA} {s t : State} (e : exec (.subDnEa sz d ea) s = .next t) :
    Did (.subDnEa sz d ea) s t := by
  obtain ⟨-, rfl⟩ := handle_cases ((exec_subDnEa ..).symm.trans e)
  have calm := State.Calm.refl s
  exact calm_goes (calm.sumDnEa ..)

theorem did_suba {sz : Size} {ea : EA} {a : Reg} {s t : State} (e : exec (.suba sz ea a) s = .next t) :
    Did (.suba sz ea a) s t := by
  obtain ⟨-, rfl⟩ := handle_cases ((exec_suba ..).symm.trans e)
  have calm := State.Calm.refl s
  exact calm_goes ((calm.fetchEA ..).setA ..)

theorem did_subx {sz : Size} {mem : Bool} {y x : Reg} {s t : State} (e : exec (.subx sz mem y x) s = .next t) :
    Did (.subx sz mem y x) s t := by
  obtain ⟨-, rfl⟩ := handle_cases ((exec_subx ..).symm.trans e)
  have calm := State.Calm.refl s
  exact calm_goes (calm.sumPair ..)

theorem did_cmp {sz : Size} {ea : EA} {d : Reg} {s t : State} (e : exec (.cmp sz ea d) s = .next t) :
    Did (.cmp sz ea d) s t := by
  obtain ⟨-, rfl⟩ := handle_cases ((exec_cmp ..).symm.trans e)
  have calm := State.Calm.refl s
  exact calm_goes ((calm.fetchEA ea sz).setCmp ..)

theorem did_cmpa {sz : Size} {ea : EA} {a : Reg} {s t : State} (e : exec (.cmpa sz ea a) s = .next t) :
    Did (.cmpa sz ea a) s t := by
  obtain ⟨-, rfl⟩ := handle_cases ((exec_cmpa ..).symm.trans e)
  have calm := State.Calm.refl s
  exact calm_goes ((calm.fetchEA ea sz).setCmp ..)

theorem did_eor {sz : Size} {d : Reg} {ea : EA} {s t : State} (e : exec (.eor sz d ea) s = .next t) :
    Did (.eor sz d ea) s t := by
  obtain ⟨-, rfl⟩ := handle_cases ((exec_eor ..).symm.trans e)
  have calm := State.Calm.refl s
  exact calm_goes (calm.logicDnEa ..)

theorem did_cmpm {sz : Size} {y x : Reg} {s t : State} (e : exec (.cmpm sz y x) s = .next t) :
    Did (.cmpm sz y x) s t := by
  obtain ⟨-, rfl⟩ := handle_cases ((exec_cmpm ..).symm.trans e)
  have calm := State.Calm.refl s
  exact calm_goes (((calm.fetchEA (.postInc y) sz).fetchEA (.postInc x) sz).setCmp ..)

theorem did_muluW {ea : EA} {d : Reg} {s t : State} (e : exec (.muluW ea d) s = .next t) :
    Did (.muluW ea d) s t := by
  obtain ⟨-, rfl⟩ := handle_cases ((exec_muluW ..).symm.trans e)
  have calm := State.Calm.refl s
  refine calm_goes ?_
  generalize hu : s.fetchEA ea .w = p
  have h : s.Calm p.2 := hu ▸ calm.fetchEA ..
  exact h.setProduct ..

theorem did_mulsW {ea : EA} {d : Reg} {s t : State} (e : exec (.mulsW ea d) s = .next t) :
    Did (.mulsW ea d) s t := by
  obtain ⟨-, rfl⟩ := handle_cases ((exec_mulsW ..).symm.trans e)
  have calm := State.Calm.refl s
  refine calm_goes ?_
  generalize hu : s.fetchEA ea .w = p
  have h : s.Calm p.2 := hu ▸ calm.fetchEA ..
  exact h.setProduct ..

theorem did_abcd {mem : Bool} {y x : Reg} {s t : State} (e : exec (.abcd mem y x) s = .next t) :
    Did (.abcd mem y x) s t := by
  obtain ⟨-, rfl⟩ := handle_cases ((exec_abcd ..).symm.trans e)
  have calm := State.Calm.refl s
  exact calm_goes ((((calm.bcdOperands ..).afterReadEA ..).bcdResult _).writeEA ..)

theorem did_exgDD {x y : Reg} {s t : State} (e : exec (.exgDD x y) s = .next t) :
    Did (.exgDD x y) s t := by
  obtain ⟨-, rfl⟩ := handle_cases ((exec_exgDD ..).symm.trans e)
  have calm := State.Calm.refl s
  exact calm_goes ((calm.setD ..).setD ..)

theorem did_exgAA {x y : Reg} {s t : State} (e : exec (.exgAA x y) s = .next t) :
    Did (.exgAA x y) s t := by
  obtain ⟨-, rfl⟩ := handle_cases ((exec_exgAA ..).symm.trans e)
  have calm := State.Calm.refl s
  exact calm_goes ((calm.setA ..).setA ..)

theorem did_exgDA {x y : Reg} {s t : State} (e : exec (.exgDA x y) s = .next t) :
    Did (.exgDA x y) s t := by
  obtain ⟨-, rfl⟩ := handle_cases ((exec_exgDA ..).symm.trans e)
  have calm := State.Calm.refl s
  exact calm_goes ((calm.setD ..).setA ..)

theorem did_andEaDn {sz : Size} {ea : EA} {d : Reg} {s t : State} (e : exec (.andEaDn sz ea d) s = .next t) :
    Did (.andEaDn sz ea d) s t := by
  obtain ⟨-, rfl⟩ := handle_cases ((exec_andEaDn ..).symm.trans e)
  have calm := State.Calm.refl s
  exact calm_goes (calm.logicEaDn ..)

theorem did_andDnEa {sz : Size} {d : Reg} {ea : EA} {s t : State} (e : exec (.andDnEa sz d ea) s = .next t) :
    Did (.andDnEa sz d ea) s t := by
  obtain ⟨-, rfl⟩ := handle_cases ((exec_andDnEa ..).symm.trans e)
  have calm := State.Calm.refl s
  exact calm_goes (calm.logicDnEa ..)

theorem did_addEaDn {sz : Size} {ea : EA} {d : Reg} {s t : State} (e : exec (.addEaDn sz ea d) s = .next t) :
    Did (.addEaDn sz ea d) s t := by
  obtain ⟨-, rfl⟩ := handle_cases ((exec_addEaDn ..).symm.trans e)
  have calm := State.Calm.refl s
  exact calm_goes (calm.sumEaDn ..)

theorem did_addDnEa {sz : Size} {d : Reg} {ea : EA} {s t : State} (e : exec (.addDnEa sz d ea) s = .next t) :
    Did (.addDnEa sz d ea) s t := by
  obtain ⟨-, rfl⟩ := handle_cases ((exec_addDnEa ..).symm.trans e)
  have calm := State.Calm.refl s
  exact calm_goes (calm.sumDnEa ..)

theorem did_adda {sz : Size} {ea : EA} {a : Reg} {s t : State} (e : exec (.adda sz ea a) s = .next t) :
    Did (.adda sz ea a) s t := by
  obtain ⟨-, rfl⟩ := handle_cases ((exec_adda ..).symm.trans e)
  have calm := State.Calm.refl s
  exact calm_goes ((calm.fetchEA ..).setA ..)

theorem did_addx {sz : Size} {mem : Bool} {y x : Reg} {s t : State} (e : exec (.addx sz mem y x) s = .next t) :
    Did (.addx sz mem y x) s t := by
  obtain ⟨-, rfl⟩ := handle_cases ((exec_addx ..).symm.trans e)
  have calm := State.Calm.refl s
  exact calm_goes (calm.sumPair ..)

theorem did_asrReg {sz : Size} {cnt : Count} {y : Reg} {s t : State} (e : exec (.asrReg sz cnt y) s = .next t) :
    Did (.asrReg sz cnt y) s t := by
  obtain ⟨-, rfl⟩ := handle_cases ((exec_asrReg ..).symm.trans e)
  have calm := State.Calm.refl s
  exact calm_goes (calm.shiftReg ..)

theorem did_asrMem {ea : EA} {s t : State} (e : exec (.asrMem ea) s = .next t) :
    Did (.asrMem ea) s t := by
  obtain ⟨-, rfl⟩ := handle_cases ((exec_asrMem ..).symm.trans e)
  have calm := State.Calm.refl s
  exact calm_goes (calm.shiftMem ..)

theorem did_aslReg {sz : Size} {cnt : Count} {y : Reg} {s t : State} (e : exec (.aslReg sz cnt y) s = .next t) :
    Did (.aslReg sz cnt y) s t := by
  obtain ⟨-, rfl⟩ := handle_cases ((exec_aslReg ..).symm.trans e)
  have calm := State.Calm.refl s
  exact calm_goes (calm.shiftReg ..)

theorem did_aslMem {ea : EA} {s t : State} (e : exec (.aslMem ea) s = .next t) :
    Did (.aslMem ea) s t := by
  obtain ⟨-, rfl⟩ := handle_cases ((exec_aslMem ..).symm.trans e)
  have calm := State.Calm.refl s
  exact calm_goes (calm.shiftMem ..)

theorem did_lsrReg {sz : Size} {cnt : Count} {y : Reg} {s t : State} (e : exec (.lsrReg sz cnt y) s = .next t) :
    Did (.lsrReg sz cnt y) s t := by
  obtain ⟨-, rfl⟩ := handle_cases ((exec_lsrReg ..).symm.trans e)
  have calm := State.Calm.refl s
  exact calm_goes (calm.shiftReg ..)

theorem did_lsrMem {ea : EA} {s t : State} (e : exec (.lsrMem ea) s = .next t) :
    Did (.lsrMem ea) s t := by
  obtain ⟨-, rfl⟩ := handle_cases ((exec_lsrMem ..).symm.trans e)
  have calm := State.Calm.refl s
  exact calm_goes (calm.shiftMem ..)

theorem did_lslReg {sz : Size} {cnt : Count} {y : Reg} {s t : State} (e : exec (.lslReg sz cnt y) s = .next t) :
    Did (.lslReg sz cnt y) s t := by
  obtain ⟨-, rfl⟩ := handle_cases ((exec_lslReg ..).symm.trans e)
  have calm := State.Calm.refl s
  exact calm_goes (calm.shiftReg ..)

theorem did_lslMem {ea : EA} {s t : State} (e : exec (.lslMem ea) s = .next t) :
    Did (.lslMem ea) s t := by
  obtain ⟨-, rfl⟩ := handle_cases ((exec_lslMem ..).symm.trans e)
  have calm := State.Calm.refl s
  exact calm_goes (calm.shiftMem ..)

theorem did_roxrReg {sz : Size} {cnt : Count} {y : Reg} {s t : State} (e : exec (.roxrReg sz cnt y) s = .next t) :
    Did (.roxrReg sz cnt y) s t := by
  obtain ⟨-, rfl⟩ := handle_cases ((exec_roxrReg ..).symm.trans e)
  have calm := State.Calm.refl s
  exact calm_goes (calm.shiftReg ..)

theorem did_roxrMem {ea : EA} {s t : State} (e : exec (.roxrMem ea) s = .next t) :
    Did (.roxrMem ea) s t := by
  obtain ⟨-, rfl⟩ := handle_cases ((exec_roxrMem ..).symm.trans e)
  have calm := State.Calm.refl s
  exact calm_goes (calm.shiftMem ..)

theorem did_roxlReg {sz : Size} {cnt : Count} {y : Reg} {s t : State} (e : exec (.roxlReg sz cnt y) s = .next t) :
    Did (.roxlReg sz cnt y) s t := by
  obtain ⟨-, rfl⟩ := handle_cases ((exec_roxlReg ..).symm.trans e)
  have calm := State.Calm.refl s
  exact calm_goes (calm.shiftReg ..)

theorem did_roxlMem {ea : EA} {s t : State} (e : exec (.roxlMem ea) s = .next t) :
    Did (.roxlMem ea) s t := by
  obtain ⟨-, rfl⟩ := handle_cases ((exec_roxlMem ..).symm.trans e)
  have calm := State.Calm.refl s
  exact calm_goes (calm.shiftMem ..)

theorem did_rorReg {sz : Size} {cnt : Count} {y : Reg} {s t : State} (e : exec (.rorReg sz cnt y) s = .next t) :
    Did (.rorReg sz cnt y) s t := by
  obtain ⟨-, rfl⟩ := handle_cases ((exec_rorReg ..).symm.trans e)
  have calm := State.Calm.refl s
  exact calm_goes (calm.shiftReg ..)

theorem did_rorMem {ea : EA} {s t : State} (e : exec (.rorMem ea) s = .next t) :
    Did (.rorMem ea) s t := by
  obtain ⟨-, rfl⟩ := handle_cases ((exec_rorMem ..).symm.trans e)
  have calm := State.Calm.refl s
  exact calm_goes (calm.shiftMem ..)

theorem did_rolReg {sz : Size} {cnt : Count} {y : Reg} {s t : State} (e : exec (.rolReg sz cnt y) s = .next t) :
    Did (.rolReg sz cnt y) s t := by
  obtain ⟨-, rfl⟩ := handle_cases ((exec_rolReg ..).symm.trans e)
  have calm := State.Calm.refl s
  exact calm_goes (calm.shiftReg ..)

theorem did_rolMem {ea : EA} {s t : State} (e : exec (.rolMem ea) s = .next t) :
    Did (.rolMem ea) s t := by
  obtain ⟨-, rfl⟩ := handle_cases ((exec_rolMem ..).symm.trans e)
  have calm := State.Calm.refl s
  exact calm_goes (calm.shiftMem ..)

/-- The inversion lemma of `exec`. -/
theorem exec_cases {i : Instr} {s t : State} (e : exec i s = .next t) : Did i s t := by
  cases i with
  | oriToCcr imm => exact did_oriToCcr e
  | oriToSr imm => exact did_oriToSr e
  | ori sz imm ea => exact did_ori e
  | andiToCcr imm => exact did_andiToCcr e
  | andiToSr imm => exact did_andiToSr e
  | andi sz imm ea => exact did_andi e
  | subi sz imm ea => exact did_subi e
  | addi sz imm ea => exact did_addi e
  | eoriToCcr imm => exact did_eoriToCcr e
  | eoriToSr imm => exact did_eoriToSr e
  | eori sz imm ea => exact did_eori e
  | cmpi sz imm ea => exact did_cmpi e
  | btstImm num ea => exact did_btstImm e
  | bchgImm num ea => exact did_bchgImm e
  | bclrImm num ea => exact did_bclrImm e
  | bsetImm num ea => exact did_bsetImm e
  | btstDn d ea => exact did_btstDn e
  | bchgDn d ea => exact did_bchgDn e
  | bclrDn d ea => exact did_bclrDn e
  | bsetDn d ea => exact did_bsetDn e
  | movep d toMem long a disp => exact did_movep e
  | cas sz dc du ea => exact did_cas e
  | move sz src dst => exact did_move e
  | movea sz src a => exact did_movea e
  | negx sz ea => exact did_negx e
  | moveFromSr ea => exact did_moveFromSr e
  | chk ea d => exact did_chk e
  | lea ea a => exact did_lea e
  | clr sz ea => exact did_clr e
  | moveFromCcr ea => exact did_moveFromCcr e
  | neg sz ea => exact did_neg e
  | moveToCcr ea => exact did_moveToCcr e
  | not sz ea => exact did_not e
  | moveToSr ea => exact did_moveToSr e
  | nbcd ea => exact did_nbcd e
  | swap d => exact did_swap e
  | pea ea => exact did_pea e
  | extW d => exact did_extW e
  | extL d => exact did_extL e
  | movemToMem sz mask ea => exact did_movemToMem e
  | tst sz ea => exact did_tst e
  | tas ea => exact did_tas e
  | illegal => exact did_illegal e
  | mull signed wide l h ea => exact did_mull e
  | divl signed wide q r ea => exact did_divl e
  | movemToReg sz mask ea => exact did_movemToReg e
  | trap v => exact did_trap e
  | link a disp => exact did_link e
  | unlk a => exact did_unlk e
  | moveToUsp a => exact did_moveToUsp e
  | moveFromUsp a => exact did_moveFromUsp e
  | reset => exact did_reset e
  | nop => exact did_nop e
  | stop imm => exact did_stop e
  | rte => exact did_rte e
  | rts => exact did_rts e
  | trapv => exact did_trapv e
  | rtr => exact did_rtr e
  | jsr ea => exact did_jsr e
  | jmp ea => exact did_jmp e
  | addq q sz ea => exact did_addq e
  | subq q sz ea => exact did_subq e
  | scc c ea => exact did_scc e
  | dbcc c d disp => exact did_dbcc e
  | trapcc c opnd => exact did_trapcc e
  | bra disp => exact did_bra e
  | bsr disp => exact did_bsr e
  | bcc c disp => exact did_bcc e
  | moveq k d => exact did_moveq e
  | divuW ea d => exact did_divuW e
  | divsW ea d => exact did_divsW e
  | sbcd mem y x => exact did_sbcd e
  | orEaDn sz ea d => exact did_orEaDn e
  | orDnEa sz d ea => exact did_orDnEa e
  | subEaDn sz ea d => exact did_subEaDn e
  | subDnEa sz d ea => exact did_subDnEa e
  | suba sz ea a => exact did_suba e
  | subx sz mem y x => exact did_subx e
  | cmp sz ea d => exact did_cmp e
  | cmpa sz ea a => exact did_cmpa e
  | eor sz d ea => exact did_eor e
  | cmpm sz y x => exact did_cmpm e
  | muluW ea d => exact did_muluW e
  | mulsW ea d => exact did_mulsW e
  | abcd mem y x => exact did_abcd e
  | exgDD x y => exact did_exgDD e
  | exgAA x y => exact did_exgAA e
  | exgDA x y => exact did_exgDA e
  | andEaDn sz ea d => exact did_andEaDn e
  | andDnEa sz d ea => exact did_andDnEa e
  | addEaDn sz ea d => exact did_addEaDn e
  | addDnEa sz d ea => exact did_addDnEa e
  | adda sz ea a => exact did_adda e
  | addx sz mem y x => exact did_addx e
  | asrReg sz cnt y => exact did_asrReg e
  | asrMem ea => exact did_asrMem e
  | aslReg sz cnt y => exact did_aslReg e
  | aslMem ea => exact did_aslMem e
  | lsrReg sz cnt y => exact did_lsrReg e
  | lsrMem ea => exact did_lsrMem e
  | lslReg sz cnt y => exact did_lslReg e
  | lslMem ea => exact did_lslMem e
  | roxrReg sz cnt y => exact did_roxrReg e
  | roxrMem ea => exact did_roxrMem e
  | roxlReg sz cnt y => exact did_roxlReg e
  | roxlMem ea => exact did_roxlMem e
  | rorReg sz cnt y => exact did_rorReg e
  | rorMem ea => exact did_rorMem e
  | rolReg sz cnt y => exact did_rolReg e
  | rolMem ea => exact did_rolMem e

end Sys2Proof.Machine
end

