-- ==== Sys2Proof/Laws/Table.lean ====
section
/-! SUPPORT. The opcode table (30_encoding.md R81, R82): no word belongs to two rows, and what a row says of the
words it claims. -/

namespace Sys2Proof
open Machine

/-- The bits of a word a constraint reads. -/
def Check.bits : Check → Word
  | .size => 0x00C0
  | .ea _ => 0x003F
  | .sizedEA _ _ => 0x00FF
  | .moveSize => 0x3000
  | .moveaSize => 0x2000
  | .moveSource => 0x303F
  | .moveDest _ => 0x0FC0
  | .casSize => 0x0600
  | .branchCond => 0x0F00
  | .trapForm => 0x0007

theorem extract_and_mask (op m : Word) (k n : Nat) (h : m.extractLsb' k n = BitVec.allOnes n) :
    (op &&& m).extractLsb' k n = op.extractLsb' k n := by
  rw [BitVec.extractLsb'_and, h, BitVec.and_allOnes]

/-- A constraint reads no other bit. -/
theorem Check.holds_and (c : Check) (op m : Word) (h : m &&& Check.bits c = Check.bits c) :
    c.holds (op &&& m) = c.holds op := by
  have key : ∀ k n, (Check.bits c).extractLsb' k n = BitVec.allOnes n → (op &&& m).extractLsb' k n = op.extractLsb' k n := by
    intro k n hb
    apply extract_and_mask
    apply BitVec.eq_of_getLsbD_eq
    intro i hi
    have := congrArg (fun w => w.extractLsb' k n |>.getLsbD i) h
    simp only [BitVec.extractLsb'_and, hb, BitVec.and_allOnes] at this
    exact this
  cases c <;> simp only [Check.holds]
  all_goals simp only [Check.bits] at key
  case size => rw [key 6 2 rfl]
  case ea => rw [key 3 3 rfl, key 0 3 rfl]
  case sizedEA => rw [key 3 3 rfl, key 0 3 rfl, key 6 2 rfl]
  case moveSize => rw [key 12 2 rfl]
  case moveaSize => rw [key 13 1 rfl]
  case moveSource => rw [key 3 3 rfl, key 0 3 rfl, key 12 2 rfl]
  case moveDest => rw [key 6 3 rfl, key 9 3 rfl]
  case casSize => rw [key 9 2 rfl]
  case branchCond => rw [key 8 4 rfl]
  case trapForm => rw [key 0 3 rfl]

/-- What the bits `m` of a word say about a row: its fixed bits there, and the constraints on those bits alone. -/
def Row.seen (m : Word) (r : Row) (v : Word) : Bool :=
  v &&& r.mask == r.pattern &&& m && r.checks.all fun c => m &&& Check.bits c != Check.bits c || c.holds v

theorem Row.seen_of_claims {r : Row} {b op} (h : r.claims b op = true) (m : Word) : Row.seen m r (op &&& m) = true := by
  unfold Row.claims at h
  unfold Row.seen
  simp only [Bool.and_eq_true, beq_iff_eq, List.all_eq_true] at h ⊢
  obtain ⟨⟨h1, h2⟩, -⟩ := h
  refine ⟨by rw [← h1]; ac_rfl, fun c hc => ?_⟩
  by_cases hm : m &&& Check.bits c = Check.bits c
  · simp [Check.holds_and c op m hm, h2 c hc]
  · simp [hm]

/-- The words that are 0 outside a field. -/
def fieldWords (shift n : Nat) : List Word := (List.range (2^n)).map fun k => BitVec.ofNat 16 (k * 2^shift)

/-- The fieldViews: fields -/
def fieldViews : List (Nat × Nat) := [(12,2),(6,2),(0,6),(6,6),(9,2),(8,4)]
/-- The mask of a field, given by lowest bit and width. -/
def fieldMask (p : Nat × Nat) : Word := BitVec.ofNat 16 ((2 ^ p.2 - 1) * 2^p.1)

/-- Two rows no word belongs to: their fixed bits differ, or no value of some field suits both. -/
def Row.apart (a b : Row) : Bool :=
  (a.pattern ^^^ b.pattern) &&& (a.mask &&& b.mask) != 0 ||
   fieldViews.any fun p => (fieldWords p.1 p.2).all fun v => !(Row.seen (fieldMask p) a v && Row.seen (fieldMask p) b v)

theorem mem_fieldWords (op : Word) (k n : Nat) (h : k + n ≤ 16): op &&& fieldMask (k,n) ∈ fieldWords k n := by
  unfold fieldWords fieldMask
  simp only [List.mem_map, List.mem_range]
  refine ⟨op.toNat / 2^k % 2^n, Nat.mod_lt _ (by positivity), ?_⟩
  apply BitVec.eq_of_getLsbD_eq
  intro i hi
  have e1 : ∀ x : Nat, (x * 2 ^ k).testBit i = (decide (k ≤ i) && x.testBit (i-k)) := by
    intro x; rw [Nat.mul_comm, Nat.testBit_two_pow_mul]
  simp only [BitVec.getLsbD_and, BitVec.getLsbD_ofNat, e1, Nat.testBit_mod_two_pow, Nat.testBit_div_two_pow, Nat.testBit_two_pow_sub_one, hi, decide_true, Bool.true_and]
  by_cases hk : k ≤ i
  · have : i - k + k = i := by omega
    simp [hk, this, BitVec.getLsbD]
    exact Bool.and_comm _ _
  · simp [hk]

/-- Any two rows of the table are apart (R82). -/
theorem table_apart : opcodeTable.Pairwise (fun a b => Row.apart a b = true) := by decide +kernel

theorem Row.apart_claims {a b : Row} (h : Row.apart a b = true) (c₁ c₂ : Bool) (op : Word) (ha : a.claims c₁ op = true) (hb : b.claims c₂ op = true) : False := by
  unfold Row.apart at h
  simp only [Bool.or_eq_true, List.any_eq_true, List.all_eq_true] at h
  rcases h with h | ⟨⟨k, n⟩, hp, h⟩
  · simp only [Row.claims, Bool.and_eq_true, beq_iff_eq] at ha hb
    rw [← ha.1.1, ← hb.1.1] at h
    simp only [bne_iff_ne] at h
    apply h
    apply BitVec.eq_of_getLsbD_eq
    intro i hi
    rw [show (0 : Word) = 0#16 from rfl]
    simp only [BitVec.getLsbD_and, BitVec.getLsbD_xor, BitVec.getLsbD_zero]
    cases op.getLsbD i <;> cases a.mask.getLsbD i <;> cases b.mask.getLsbD i <;> rfl
  · have := h (op &&& fieldMask (k, n)) (mem_fieldWords op k n (by
      simp only [fieldViews, List.mem_cons, Prod.mk.injEq, List.not_mem_nil, or_false] at hp; omega))
    simp [Row.seen_of_claims ha, Row.seen_of_claims hb] at this

/-- One row at most claims a word (R82). -/
theorem claims_unique {a b : Row} (ha : a ∈ opcodeTable) (hb : b ∈ opcodeTable) {c₁ c₂ : Bool} {op : Word} (h1 : a.claims c₁ op = true) (h2 : b.claims c₂ op = true) : a = b := by
  have key : ∀ x ∈ opcodeTable, ∀ y ∈ opcodeTable, ∀ c₁ c₂ op, x.claims c₁ op = true → y.claims c₂ op = true → x = y := by
    refine fun x hx y hy => List.Pairwise.forall_of_forall_of_flip (R := fun x y => ∀ c₁ c₂ op, Row.claims c₁ op x = true → Row.claims c₂ op y = true → x = y) ?_ (table_apart.imp ?_) (table_apart.imp ?_) hx hy
    · intros; rfl
    · intro x y h c₁ c₂ op h1 h2; exact (Row.apart_claims h c₁ c₂ op h1 h2).elim
    · intro x y h c₁ c₂ op h1 h2; exact (Row.apart_claims h c₂ c₁ op h2 h1).elim
  exact key a ha b hb _ _ _ h1 h2

/-- Every row of a list belongs to one line. -/
def onLine (l : Nat) (rows : List Row) : Bool := rows.all fun r => (fieldWords 12 4).all fun v => !Row.seen 0xF000 r v || v == BitVec.ofNat 16 (l * 4096)

theorem line_of_claims {rows : List Row} {l : Nat} (h : onLine l rows = true) {r} (hr : r ∈ rows) {b op} (hc : r.claims b op = true) : op.extractLsb' 12 4 = BitVec.ofNat 4 l := by
  simp only [onLine, List.all_eq_true] at h
  have h1 := h r hr _ (mem_fieldWords op 12 4 (by omega))
  have h2 : Row.seen 0xF000 r (op &&& 0xF000#16) = true := Row.seen_of_claims hc 0xF000
  rw [show fieldMask (12,4) = 0xF000#16 from rfl, h2] at h1
  simp at h1
  rw [← extract_and_mask op 0xF000#16 12 4 rfl, h1]
  apply BitVec.eq_of_getLsbD_eq
  intro i hi
  have : (l * 4096).testBit (12 + i) = l.testBit i := by
    rw [Nat.mul_comm, show 4096 = 2^12 from rfl, Nat.testBit_two_pow_mul]; simp
  have h16 : 12 + i < 16 := by omega
  rw [BitVec.getLsbD_extractLsb', BitVec.getLsbD_ofNat, BitVec.getLsbD_ofNat, this]
  simp [hi, h16]

/-- A row that claims a word is on the word's line. -/
theorem mem_rowsOfLine {r : Row} (hr : r ∈ opcodeTable) {b op} (h : r.claims b op = true) : r ∈ rowsOfLine (op.extractLsb' 12 4) := by
  simp only [opcodeTable, List.mem_append] at hr
  have hmove : ∀ r ∈ rowsMove, (fieldWords 12 4).all (fun v => !Row.seen 0xF000 r v || (v == 0x1000 || v == 0x2000 || v == 0x3000)) = true := by decide +kernel
  rcases hr with ((((((((((hr|hr)|hr)|hr)|hr)|hr)|hr)|hr)|hr)|hr)|hr)|hr
  · rw [line_of_claims (l := 0) (by decide +kernel) hr h]; exact hr
  · have h1 := List.all_eq_true.mp (hmove r hr) _ (mem_fieldWords op 12 4 (by omega))
    have h2 : Row.seen 0xF000 r (op &&& 0xF000#16) = true := Row.seen_of_claims h 0xF000
    rw [show fieldMask (12,4) = 0xF000#16 from rfl, h2] at h1
    simp only [Bool.not_true, Bool.false_or, Bool.or_eq_true, beq_iff_eq] at h1
    rw [← extract_and_mask op 0xF000#16 12 4 rfl]
    rcases h1 with (h1|h1)|h1 <;> rw [h1] <;> exact hr
  · rw [line_of_claims (l := 4) (by decide +kernel) hr h]; exact hr
  · rw [line_of_claims (l := 5) (by decide +kernel) hr h]; exact hr
  · rw [line_of_claims (l := 6) (by decide +kernel) hr h]; exact hr
  · rw [line_of_claims (l := 7) (by decide +kernel) hr h]; exact hr
  · rw [line_of_claims (l := 8) (by decide +kernel) hr h]; exact hr
  · rw [line_of_claims (l := 9) (by decide +kernel) hr h]; exact hr
  · rw [line_of_claims (l := 11) (by decide +kernel) hr h]; exact hr
  · rw [line_of_claims (l := 12) (by decide +kernel) hr h]; exact hr
  · rw [line_of_claims (l := 13) (by decide +kernel) hr h]; exact hr
  · rw [line_of_claims (l := 14) (by decide +kernel) hr h]; exact hr

theorem mem_opcodeTable {l : BitVec 4} {r} (h : r ∈ rowsOfLine l) : r ∈ opcodeTable := by
  unfold rowsOfLine at h
  simp only [opcodeTable, List.mem_append]
  split at h <;> first | exact (List.not_mem_nil h).elim | tauto

/-- The decoder's row is the one that claims the word. -/
theorem lookup_eq {b : Bool} {op : Word} {r : Row} (hr : r ∈ opcodeTable) (h : r.claims b op = true) : lookup b op = some r.row := by
  unfold lookup
  cases hf : (rowsOfLine (op.extractLsb' 12 4)).find? (Row.claims b op) with
  | none => exact absurd h (by simpa using List.find?_eq_none.mp hf r (mem_rowsOfLine hr h))
  | some q =>
    rw [claims_unique (mem_opcodeTable (List.mem_of_find?_eq_some hf)) hr (List.find?_some hf) h]; rfl

theorem lookup_some {b : Bool} {op : Word} {m} (h : lookup b op = some m) : ∃ r ∈ opcodeTable, r.claims b op = true ∧ r.row = m := by
  unfold lookup at h
  rw [Option.map_eq_some_iff] at h
  obtain ⟨r, hf, rfl⟩ := h
  exact ⟨r, mem_opcodeTable (List.mem_of_find?_eq_some hf), List.find?_some hf, rfl⟩

/-- The rows the source does not name (00_scope.md R3). -/
def unnamedRows : List Mnemonic := [.oriToCcr, .oriToSr, .andiToCcr, .andiToSr, .eoriToCcr, .eoriToSr, .swap, .extW, .extL, .tst, .tas,
          .trap, .suba, .cmpa, .cmpm, .exgDD, .exgAA, .exgDA, .adda, .asrMem, .aslMem, .lsrMem, .lslMem,
          .roxrReg, .roxrMem, .roxlReg, .roxlMem, .rorReg, .rorMem, .rolReg, .rolMem]
theorem naming_table : ∀ r ∈ opcodeTable, r.naming = (if unnamedRows.contains r.row then .unnamed else if ([.asrReg, .aslReg, .lsrReg, .lslReg] : List Mnemonic).contains r.row then .immediateCount else .named) := by
  have : opcodeTable.all (fun r => decide (r.naming = (if unnamedRows.contains r.row then .unnamed else if ([.asrReg, .aslReg, .lsrReg, .lslReg] : List Mnemonic).contains r.row then .immediateCount else .named))) = true := by decide +kernel
  simpa using List.all_eq_true.mp this

theorem table_index : opcodeTable.map (fun r => (mnemonicIndex r.row).val) = List.range 110 := by decide +kernel

/-- The row of a mnemonic claims the words that decode to it. -/
theorem row_claims {b op m} (k : Nat) {r : Row} (hr : opcodeTable[k]? = some r) (hrow : r.row = m) (h : lookup b op = some m) :
    r.claims b op = true := by
  obtain ⟨q, hq, hc, hm⟩ := lookup_some h
  obtain ⟨j, hj⟩ := List.getElem?_of_mem hq
  have e : ∀ (n : Nat) (x : Row), opcodeTable[n]? = some x → (mnemonicIndex x.row).val = n := by
    intro n x hx
    have h1 : (opcodeTable.map (fun r => (mnemonicIndex r.row).val))[n]? = some (mnemonicIndex x.row).val := by
      rw [List.getElem?_map, hx]; rfl
    rw [table_index] at h1
    have := List.getElem?_eq_some_iff.mp h1
    obtain ⟨h2, h3⟩ := this
    simpa using h3.symm
  have : j = k := by rw [← e j q hj, ← e k r hr, hm, hrow]
  subst this
  rw [hr] at hj
  cases hj
  exact hc

/-- The fixed fields of a word that a row claims. -/
theorem field_of_claims {b op} {r : Row} (h : r.claims b op = true) (f : Nat × Nat) (hf : r.mask.extractLsb' f.1 f.2 = BitVec.allOnes f.2) :
    op.extractLsb' f.1 f.2 = r.pattern.extractLsb' f.1 f.2 := by
  unfold Row.claims at h
  simp only [Bool.and_eq_true, beq_iff_eq] at h
  rw [← h.1.1, extract_and_mask _ _ _ _ hf]

/-! ## The fields of a row (R83, R100) -/

/-- The fields of a row are its free bits, each bit in one field. -/
theorem slots_free : ∀ r ∈ opcodeTable, (∀ f ∈ r.row.slots, f.lo ≤ f.hi ∧ f.hi < 16) ∧ ∀ k < 16,
    ((r.mask.toNat.testBit k = true ∧ r.row.slots.countP (fun f => decide (f.lo ≤ k ∧ k ≤ f.hi)) = 0) ∨ 
   (r.mask.toNat.testBit k = false ∧ r.pattern.toNat.testBit k = false ∧ r.row.slots.countP (fun f => decide (f.lo ≤ k ∧ k ≤ f.hi)) = 1)) := by
  decide +kernel

/-- A number is the sum of its bits. -/
theorem bits_sum (x n : Nat) : x % 2 ^ n = ∑ k ∈ Finset.range n, (x.testBit k).toNat * 2 ^ k := by
  induction n with
  | zero => simp [Nat.mod_one]
  | succ n ih => rw [Finset.sum_range_succ, ← ih, Nat.pow_succ, Nat.mod_mul, Nat.testBit_eq_decide_div_mod_eq]; rcases Nat.mod_two_eq_zero_or_one (x / 2 ^ n) with h | h <;> simp [h]

theorem slot_sum (x : Nat) (f : Slot) (h : f.lo ≤ f.hi ∧ f.hi < 16) :
    x / 2 ^ f.lo % 2 ^ (f.hi - f.lo + 1) * 2 ^ f.lo = 
      ∑ k ∈ Finset.range 16, (x.testBit k).toNat * 2 ^ k * (if f.lo ≤ k ∧ k ≤ f.hi then 1 else 0) := by
  rw [bits_sum, Finset.sum_mul]
  have : ∀ k, (x.testBit k).toNat * 2 ^ k * (if f.lo ≤ k ∧ k ≤ f.hi then 1 else 0) = if f.lo ≤ k ∧ k ≤ f.hi then (x.testBit k).toNat * 2 ^ k else 0 := by
    intro k; split <;> simp
  simp only [this]
  rw [← Finset.sum_filter]
  have hf : (Finset.range 16).filter (fun k => f.lo ≤ k ∧ k ≤ f.hi) = Finset.Ico f.lo (f.hi + 1) := by
    ext k; simp; omega
  rw [hf, Finset.sum_Ico_eq_sum_range, show f.hi + 1 - f.lo = f.hi - f.lo + 1 by omega]
  apply Finset.sum_congr rfl
  intro j _
  rw [Nat.testBit_div_two_pow, pow_add, Nat.add_comm j]; ring

theorem slots_sum (x : Nat) (l : List Slot) (h : ∀ f ∈ l, f.lo ≤ f.hi ∧ f.hi < 16) :
    (l.map fun f => x / 2 ^ f.lo % 2 ^ (f.hi - f.lo + 1) * 2 ^ f.lo).sum = ∑ k ∈ Finset.range 16, (x.testBit k).toNat * 2 ^ k * l.countP (fun f => decide (f.lo ≤ k ∧ k ≤ f.hi)) := by
  induction l with
  | nil => simp
  | cons f l ih =>
    rw [List.map_cons, List.sum_cons, slot_sum _ _ (h f (by simp)), ih (fun g hg => h g (by simp [hg])), ← Finset.sum_add_distrib]
    apply Finset.sum_congr rfl
    intro k _
    rw [List.countP_cons]; simp only [decide_eq_true_eq]; ring

/-- A word a row claims is the row's pattern and the values of the row's fields, each at its place. -/
theorem word_sum {op : Word} {r : Row} {b} (hr : r ∈ opcodeTable) (hc : r.claims b op = true) :
    op.toNat = r.pattern.toNat + (r.row.slots.map fun f => op.toNat / 2 ^ f.lo % 2 ^ (f.hi - f.lo + 1) * 2 ^ f.lo).sum := by
  obtain ⟨h1, h2⟩ := slots_free r hr
  rw [slots_sum _ _ h1]
  have ho : op.toNat = op.toNat % 2 ^ 16 := (Nat.mod_eq_of_lt op.isLt).symm
  have hp : r.pattern.toNat = r.pattern.toNat % 2 ^ 16 := (Nat.mod_eq_of_lt r.pattern.isLt).symm
  conv => lhs; rw [ho, bits_sum]
  conv => rhs; rw [hp, bits_sum]
  rw [← Finset.sum_add_distrib]
  apply Finset.sum_congr rfl
  intro k hk
  have hk : k < 16 := by simpa using hk
  have hm : op &&& r.mask = r.pattern := by
    simp only [Row.claims, Bool.and_eq_true, beq_iff_eq] at hc
    exact hc.1.1
  have hb := congrArg (fun w : Word => w.toNat.testBit k) hm
  simp only [BitVec.toNat_and, Nat.testBit_and] at hb
  obtain ⟨m, c⟩ | ⟨m, p, c⟩ := h2 k hk
  · rw [c]; rw [m] at hb; simp at hb; simp [hb]
  · rw [c, p]; simp

end Sys2Proof
end

