-- ==== Sys2Proof/Laws/Fields.lean ====
section
/-! SUPPORT. Opcode words as their fields: for each layout of 30_encoding.md R68, the fields of a word put
together from its fields, and the word put together again from them. -/

namespace Sys2Proof

/-- A word has a row's fixed bits where its fields have. -/
theorem and_of_fields (op m p : Word) (fs : List (Nat × Nat))
    (hm : (fs.foldr (fun f w => fieldMask f ||| w) 0) = m) (hp : p &&& m = p)
    (h : ∀ f ∈ fs, op.extractLsb' f.1 f.2 = p.extractLsb' f.1 f.2) : op &&& m = p := by
  rw [← hp]
  clear hp
  subst hm
  induction fs with
  | nil => simp
  | cons f fs ih =>
    have ih := ih fun g hg => h g (List.mem_cons_of_mem _ hg)
    have h0 := h f (List.mem_cons_self ..)
    have h0' : op &&& fieldMask f = p &&& fieldMask f := by
      apply BitVec.eq_of_getLsbD_eq
      intro i hi
      have e1 : ∀ x : Nat, (x * 2 ^ f.1).testBit i = (decide (f.1 ≤ i) && x.testBit (i-f.1)) := by
        intro x; rw [Nat.mul_comm, Nat.testBit_two_pow_mul]
      simp only [BitVec.getLsbD_and, fieldMask, BitVec.getLsbD_ofNat, e1, Nat.testBit_two_pow_sub_one, hi, decide_true, Bool.true_and]
      by_cases hk : f.1 ≤ i ∧ i - f.1 < f.2
      · have h1 := congrArg (·.getLsbD (i - f.1)) h0
        simp only [BitVec.getLsbD_extractLsb', hk.2, decide_true, Bool.true_and, show f.1 + (i - f.1) = i from by omega] at h1
        rw [h1]
      · have : (decide (f.1 ≤ i) && decide (i - f.1 < f.2)) = false := by simpa using hk
        simp [this]
    rw [List.foldr_cons]
    have dist : ∀ x a b : Word, x &&& (a ||| b) = (x &&& a) ||| (x &&& b) := by
      intro x a b
      apply BitVec.eq_of_getLsbD_eq
      intro i _
      simp [Bool.and_or_distrib_left]
    rw [dist, dist, h0', ih]

/-- Words that agree on all their fields are equal. -/
theorem eq_of_fields (p op : Word) (fs : List (Nat × Nat)) (hm : (fs.foldr (fun f w => fieldMask f ||| w) 0) = 0xFFFF)
    (h : ∀ f ∈ fs, p.extractLsb' f.1 f.2 = op.extractLsb' f.1 f.2) : p = op := by
  have e : ∀ x : Word, x &&& 0xFFFF = x := fun x => BitVec.and_allOnes
  exact (e p).symm.trans (and_of_fields p 0xFFFF op fs hm (e op) h)

theorem fields_8_2_ea (a : BitVec 8) (b : BitVec 2) (c : BitVec 3) (d : BitVec 3) :
    (a ++ b ++ (c ++ d) : Word).extractLsb' 8 8 = a ∧
    (a ++ b ++ (c ++ d) : Word).extractLsb' 6 2 = b ∧
    (a ++ b ++ (c ++ d) : Word).extractLsb' 3 3 = c ∧
    (a ++ b ++ (c ++ d) : Word).extractLsb' 0 3 = d :=
  ⟨(@BitVec.extractLsb'_append_eq_of_le 10 6 (a ++ b) (c ++ d) 8 8 (by decide)).trans ((@BitVec.extractLsb'_append_eq_of_le 8 2 (a) b 2 8 (by decide)).trans (BitVec.extractLsb'_eq_self)),
   (@BitVec.extractLsb'_append_eq_of_le 10 6 (a ++ b) (c ++ d) 6 2 (by decide)).trans ((@BitVec.extractLsb'_append_eq_of_add_le 8 2 (a) b 0 2 (by decide)).trans (BitVec.extractLsb'_eq_self)),
   (@BitVec.extractLsb'_append_eq_of_add_le 10 6 (a ++ b) (c ++ d) 3 3 (by decide)).trans (BitVec.extractLsb'_append_eq_left),
   (@BitVec.extractLsb'_append_eq_of_add_le 10 6 (a ++ b) (c ++ d) 0 3 (by decide)).trans (BitVec.extractLsb'_append_eq_right)⟩
theorem fields_8_2_ea_eta (op : Word) :
    op.extractLsb' 8 8 ++ op.extractLsb' 6 2 ++ (op.extractLsb' 3 3 ++ op.extractLsb' 0 3) = op := by
  refine eq_of_fields _ _ [(8, 8), (6, 2), (3, 3), (0, 3)] (by decide) ?_
  simp only [List.forall_mem_cons, fields_8_2_ea, List.not_mem_nil, false_imp_iff, forall_const, and_self]

theorem fields_4_3_1_2_ea (a : BitVec 4) (b : BitVec 3) (c : BitVec 1) (d : BitVec 2) (e : BitVec 3) (f : BitVec 3) :
    (a ++ b ++ c ++ d ++ (e ++ f) : Word).extractLsb' 12 4 = a ∧
    (a ++ b ++ c ++ d ++ (e ++ f) : Word).extractLsb' 9 3 = b ∧
    (a ++ b ++ c ++ d ++ (e ++ f) : Word).extractLsb' 8 1 = c ∧
    (a ++ b ++ c ++ d ++ (e ++ f) : Word).extractLsb' 6 2 = d ∧
    (a ++ b ++ c ++ d ++ (e ++ f) : Word).extractLsb' 3 3 = e ∧
    (a ++ b ++ c ++ d ++ (e ++ f) : Word).extractLsb' 0 3 = f :=
  ⟨(@BitVec.extractLsb'_append_eq_of_le 10 6 (a ++ b ++ c ++ d) (e ++ f) 12 4 (by decide)).trans ((@BitVec.extractLsb'_append_eq_of_le 8 2 (a ++ b ++ c) d 6 4 (by decide)).trans ((@BitVec.extractLsb'_append_eq_of_le 7 1 (a ++ b) c 4 4 (by decide)).trans ((@BitVec.extractLsb'_append_eq_of_le 4 3 (a) b 3 4 (by decide)).trans (BitVec.extractLsb'_eq_self)))),
   (@BitVec.extractLsb'_append_eq_of_le 10 6 (a ++ b ++ c ++ d) (e ++ f) 9 3 (by decide)).trans ((@BitVec.extractLsb'_append_eq_of_le 8 2 (a ++ b ++ c) d 3 3 (by decide)).trans ((@BitVec.extractLsb'_append_eq_of_le 7 1 (a ++ b) c 1 3 (by decide)).trans ((@BitVec.extractLsb'_append_eq_of_add_le 4 3 (a) b 0 3 (by decide)).trans (BitVec.extractLsb'_eq_self)))),
   (@BitVec.extractLsb'_append_eq_of_le 10 6 (a ++ b ++ c ++ d) (e ++ f) 8 1 (by decide)).trans ((@BitVec.extractLsb'_append_eq_of_le 8 2 (a ++ b ++ c) d 2 1 (by decide)).trans ((@BitVec.extractLsb'_append_eq_of_add_le 7 1 (a ++ b) c 0 1 (by decide)).trans (BitVec.extractLsb'_eq_self))),
   (@BitVec.extractLsb'_append_eq_of_le 10 6 (a ++ b ++ c ++ d) (e ++ f) 6 2 (by decide)).trans ((@BitVec.extractLsb'_append_eq_of_add_le 8 2 (a ++ b ++ c) d 0 2 (by decide)).trans (BitVec.extractLsb'_eq_self)),
   (@BitVec.extractLsb'_append_eq_of_add_le 10 6 (a ++ b ++ c ++ d) (e ++ f) 3 3 (by decide)).trans (BitVec.extractLsb'_append_eq_left),
   (@BitVec.extractLsb'_append_eq_of_add_le 10 6 (a ++ b ++ c ++ d) (e ++ f) 0 3 (by decide)).trans (BitVec.extractLsb'_append_eq_right)⟩
theorem fields_4_3_1_2_ea_eta (op : Word) :
    op.extractLsb' 12 4 ++ op.extractLsb' 9 3 ++ op.extractLsb' 8 1 ++ op.extractLsb' 6 2 ++ (op.extractLsb' 3 3 ++ op.extractLsb' 0 3) = op := by
  refine eq_of_fields _ _ [(12, 4), (9, 3), (8, 1), (6, 2), (3, 3), (0, 3)] (by decide) ?_
  simp only [List.forall_mem_cons, fields_4_3_1_2_ea, List.not_mem_nil, false_imp_iff, forall_const, and_self]

theorem fields_4_3_1_1_1_3_3 (a : BitVec 4) (b : BitVec 3) (c : BitVec 1) (d : BitVec 1) (e : BitVec 1) (f : BitVec 3) (g : BitVec 3) :
    (a ++ b ++ c ++ d ++ e ++ f ++ g : Word).extractLsb' 12 4 = a ∧
    (a ++ b ++ c ++ d ++ e ++ f ++ g : Word).extractLsb' 9 3 = b ∧
    (a ++ b ++ c ++ d ++ e ++ f ++ g : Word).extractLsb' 8 1 = c ∧
    (a ++ b ++ c ++ d ++ e ++ f ++ g : Word).extractLsb' 7 1 = d ∧
    (a ++ b ++ c ++ d ++ e ++ f ++ g : Word).extractLsb' 6 1 = e ∧
    (a ++ b ++ c ++ d ++ e ++ f ++ g : Word).extractLsb' 3 3 = f ∧
    (a ++ b ++ c ++ d ++ e ++ f ++ g : Word).extractLsb' 0 3 = g :=
  ⟨(@BitVec.extractLsb'_append_eq_of_le 13 3 (a ++ b ++ c ++ d ++ e ++ f) g 12 4 (by decide)).trans ((@BitVec.extractLsb'_append_eq_of_le 10 3 (a ++ b ++ c ++ d ++ e) f 9 4 (by decide)).trans ((@BitVec.extractLsb'_append_eq_of_le 9 1 (a ++ b ++ c ++ d) e 6 4 (by decide)).trans ((@BitVec.extractLsb'_append_eq_of_le 8 1 (a ++ b ++ c) d 5 4 (by decide)).trans ((@BitVec.extractLsb'_append_eq_of_le 7 1 (a ++ b) c 4 4 (by decide)).trans ((@BitVec.extractLsb'_append_eq_of_le 4 3 (a) b 3 4 (by decide)).trans (BitVec.extractLsb'_eq_self)))))),
   (@BitVec.extractLsb'_append_eq_of_le 13 3 (a ++ b ++ c ++ d ++ e ++ f) g 9 3 (by decide)).trans ((@BitVec.extractLsb'_append_eq_of_le 10 3 (a ++ b ++ c ++ d ++ e) f 6 3 (by decide)).trans ((@BitVec.extractLsb'_append_eq_of_le 9 1 (a ++ b ++ c ++ d) e 3 3 (by decide)).trans ((@BitVec.extractLsb'_append_eq_of_le 8 1 (a ++ b ++ c) d 2 3 (by decide)).trans ((@BitVec.extractLsb'_append_eq_of_le 7 1 (a ++ b) c 1 3 (by decide)).trans ((@BitVec.extractLsb'_append_eq_of_add_le 4 3 (a) b 0 3 (by decide)).trans (BitVec.extractLsb'_eq_self)))))),
   (@BitVec.extractLsb'_append_eq_of_le 13 3 (a ++ b ++ c ++ d ++ e ++ f) g 8 1 (by decide)).trans ((@BitVec.extractLsb'_append_eq_of_le 10 3 (a ++ b ++ c ++ d ++ e) f 5 1 (by decide)).trans ((@BitVec.extractLsb'_append_eq_of_le 9 1 (a ++ b ++ c ++ d) e 2 1 (by decide)).trans ((@BitVec.extractLsb'_append_eq_of_le 8 1 (a ++ b ++ c) d 1 1 (by decide)).trans ((@BitVec.extractLsb'_append_eq_of_add_le 7 1 (a ++ b) c 0 1 (by decide)).trans (BitVec.extractLsb'_eq_self))))),
   (@BitVec.extractLsb'_append_eq_of_le 13 3 (a ++ b ++ c ++ d ++ e ++ f) g 7 1 (by decide)).trans ((@BitVec.extractLsb'_append_eq_of_le 10 3 (a ++ b ++ c ++ d ++ e) f 4 1 (by decide)).trans ((@BitVec.extractLsb'_append_eq_of_le 9 1 (a ++ b ++ c ++ d) e 1 1 (by decide)).trans ((@BitVec.extractLsb'_append_eq_of_add_le 8 1 (a ++ b ++ c) d 0 1 (by decide)).trans (BitVec.extractLsb'_eq_self)))),
   (@BitVec.extractLsb'_append_eq_of_le 13 3 (a ++ b ++ c ++ d ++ e ++ f) g 6 1 (by decide)).trans ((@BitVec.extractLsb'_append_eq_of_le 10 3 (a ++ b ++ c ++ d ++ e) f 3 1 (by decide)).trans ((@BitVec.extractLsb'_append_eq_of_add_le 9 1 (a ++ b ++ c ++ d) e 0 1 (by decide)).trans (BitVec.extractLsb'_eq_self))),
   (@BitVec.extractLsb'_append_eq_of_le 13 3 (a ++ b ++ c ++ d ++ e ++ f) g 3 3 (by decide)).trans ((@BitVec.extractLsb'_append_eq_of_add_le 10 3 (a ++ b ++ c ++ d ++ e) f 0 3 (by decide)).trans (BitVec.extractLsb'_eq_self)),
   (@BitVec.extractLsb'_append_eq_of_add_le 13 3 (a ++ b ++ c ++ d ++ e ++ f) g 0 3 (by decide)).trans (BitVec.extractLsb'_eq_self)⟩
theorem fields_4_3_1_1_1_3_3_eta (op : Word) :
    op.extractLsb' 12 4 ++ op.extractLsb' 9 3 ++ op.extractLsb' 8 1 ++ op.extractLsb' 7 1 ++ op.extractLsb' 6 1 ++ op.extractLsb' 3 3 ++ op.extractLsb' 0 3 = op := by
  refine eq_of_fields _ _ [(12, 4), (9, 3), (8, 1), (7, 1), (6, 1), (3, 3), (0, 3)] (by decide) ?_
  simp only [List.forall_mem_cons, fields_4_3_1_1_1_3_3, List.not_mem_nil, false_imp_iff, forall_const, and_self]

theorem fields_5_2_1_2_ea (a : BitVec 5) (b : BitVec 2) (c : BitVec 1) (d : BitVec 2) (e : BitVec 3) (f : BitVec 3) :
    (a ++ b ++ c ++ d ++ (e ++ f) : Word).extractLsb' 11 5 = a ∧
    (a ++ b ++ c ++ d ++ (e ++ f) : Word).extractLsb' 9 2 = b ∧
    (a ++ b ++ c ++ d ++ (e ++ f) : Word).extractLsb' 8 1 = c ∧
    (a ++ b ++ c ++ d ++ (e ++ f) : Word).extractLsb' 6 2 = d ∧
    (a ++ b ++ c ++ d ++ (e ++ f) : Word).extractLsb' 3 3 = e ∧
    (a ++ b ++ c ++ d ++ (e ++ f) : Word).extractLsb' 0 3 = f :=
  ⟨(@BitVec.extractLsb'_append_eq_of_le 10 6 (a ++ b ++ c ++ d) (e ++ f) 11 5 (by decide)).trans ((@BitVec.extractLsb'_append_eq_of_le 8 2 (a ++ b ++ c) d 5 5 (by decide)).trans ((@BitVec.extractLsb'_append_eq_of_le 7 1 (a ++ b) c 3 5 (by decide)).trans ((@BitVec.extractLsb'_append_eq_of_le 5 2 (a) b 2 5 (by decide)).trans (BitVec.extractLsb'_eq_self)))),
   (@BitVec.extractLsb'_append_eq_of_le 10 6 (a ++ b ++ c ++ d) (e ++ f) 9 2 (by decide)).trans ((@BitVec.extractLsb'_append_eq_of_le 8 2 (a ++ b ++ c) d 3 2 (by decide)).trans ((@BitVec.extractLsb'_append_eq_of_le 7 1 (a ++ b) c 1 2 (by decide)).trans ((@BitVec.extractLsb'_append_eq_of_add_le 5 2 (a) b 0 2 (by decide)).trans (BitVec.extractLsb'_eq_self)))),
   (@BitVec.extractLsb'_append_eq_of_le 10 6 (a ++ b ++ c ++ d) (e ++ f) 8 1 (by decide)).trans ((@BitVec.extractLsb'_append_eq_of_le 8 2 (a ++ b ++ c) d 2 1 (by decide)).trans ((@BitVec.extractLsb'_append_eq_of_add_le 7 1 (a ++ b) c 0 1 (by decide)).trans (BitVec.extractLsb'_eq_self))),
   (@BitVec.extractLsb'_append_eq_of_le 10 6 (a ++ b ++ c ++ d) (e ++ f) 6 2 (by decide)).trans ((@BitVec.extractLsb'_append_eq_of_add_le 8 2 (a ++ b ++ c) d 0 2 (by decide)).trans (BitVec.extractLsb'_eq_self)),
   (@BitVec.extractLsb'_append_eq_of_add_le 10 6 (a ++ b ++ c ++ d) (e ++ f) 3 3 (by decide)).trans (BitVec.extractLsb'_append_eq_left),
   (@BitVec.extractLsb'_append_eq_of_add_le 10 6 (a ++ b ++ c ++ d) (e ++ f) 0 3 (by decide)).trans (BitVec.extractLsb'_append_eq_right)⟩
theorem fields_5_2_1_2_ea_eta (op : Word) :
    op.extractLsb' 11 5 ++ op.extractLsb' 9 2 ++ op.extractLsb' 8 1 ++ op.extractLsb' 6 2 ++ (op.extractLsb' 3 3 ++ op.extractLsb' 0 3) = op := by
  refine eq_of_fields _ _ [(11, 5), (9, 2), (8, 1), (6, 2), (3, 3), (0, 3)] (by decide) ?_
  simp only [List.forall_mem_cons, fields_5_2_1_2_ea, List.not_mem_nil, false_imp_iff, forall_const, and_self]

theorem fields_2_2_3_3_ea (a : BitVec 2) (b : BitVec 2) (c : BitVec 3) (d : BitVec 3) (e : BitVec 3) (f : BitVec 3) :
    (a ++ b ++ c ++ d ++ (e ++ f) : Word).extractLsb' 14 2 = a ∧
    (a ++ b ++ c ++ d ++ (e ++ f) : Word).extractLsb' 12 2 = b ∧
    (a ++ b ++ c ++ d ++ (e ++ f) : Word).extractLsb' 9 3 = c ∧
    (a ++ b ++ c ++ d ++ (e ++ f) : Word).extractLsb' 6 3 = d ∧
    (a ++ b ++ c ++ d ++ (e ++ f) : Word).extractLsb' 3 3 = e ∧
    (a ++ b ++ c ++ d ++ (e ++ f) : Word).extractLsb' 0 3 = f :=
  ⟨(@BitVec.extractLsb'_append_eq_of_le 10 6 (a ++ b ++ c ++ d) (e ++ f) 14 2 (by decide)).trans ((@BitVec.extractLsb'_append_eq_of_le 7 3 (a ++ b ++ c) d 8 2 (by decide)).trans ((@BitVec.extractLsb'_append_eq_of_le 4 3 (a ++ b) c 5 2 (by decide)).trans ((@BitVec.extractLsb'_append_eq_of_le 2 2 (a) b 2 2 (by decide)).trans (BitVec.extractLsb'_eq_self)))),
   (@BitVec.extractLsb'_append_eq_of_le 10 6 (a ++ b ++ c ++ d) (e ++ f) 12 2 (by decide)).trans ((@BitVec.extractLsb'_append_eq_of_le 7 3 (a ++ b ++ c) d 6 2 (by decide)).trans ((@BitVec.extractLsb'_append_eq_of_le 4 3 (a ++ b) c 3 2 (by decide)).trans ((@BitVec.extractLsb'_append_eq_of_add_le 2 2 (a) b 0 2 (by decide)).trans (BitVec.extractLsb'_eq_self)))),
   (@BitVec.extractLsb'_append_eq_of_le 10 6 (a ++ b ++ c ++ d) (e ++ f) 9 3 (by decide)).trans ((@BitVec.extractLsb'_append_eq_of_le 7 3 (a ++ b ++ c) d 3 3 (by decide)).trans ((@BitVec.extractLsb'_append_eq_of_add_le 4 3 (a ++ b) c 0 3 (by decide)).trans (BitVec.extractLsb'_eq_self))),
   (@BitVec.extractLsb'_append_eq_of_le 10 6 (a ++ b ++ c ++ d) (e ++ f) 6 3 (by decide)).trans ((@BitVec.extractLsb'_append_eq_of_add_le 7 3 (a ++ b ++ c) d 0 3 (by decide)).trans (BitVec.extractLsb'_eq_self)),
   (@BitVec.extractLsb'_append_eq_of_add_le 10 6 (a ++ b ++ c ++ d) (e ++ f) 3 3 (by decide)).trans (BitVec.extractLsb'_append_eq_left),
   (@BitVec.extractLsb'_append_eq_of_add_le 10 6 (a ++ b ++ c ++ d) (e ++ f) 0 3 (by decide)).trans (BitVec.extractLsb'_append_eq_right)⟩
theorem fields_2_2_3_3_ea_eta (op : Word) :
    op.extractLsb' 14 2 ++ op.extractLsb' 12 2 ++ op.extractLsb' 9 3 ++ op.extractLsb' 6 3 ++ (op.extractLsb' 3 3 ++ op.extractLsb' 0 3) = op := by
  refine eq_of_fields _ _ [(14, 2), (12, 2), (9, 3), (6, 3), (3, 3), (0, 3)] (by decide) ?_
  simp only [List.forall_mem_cons, fields_2_2_3_3_ea, List.not_mem_nil, false_imp_iff, forall_const, and_self]

theorem fields_8_2_3_3 (a : BitVec 8) (b : BitVec 2) (c : BitVec 3) (d : BitVec 3) :
    (a ++ b ++ c ++ d : Word).extractLsb' 8 8 = a ∧
    (a ++ b ++ c ++ d : Word).extractLsb' 6 2 = b ∧
    (a ++ b ++ c ++ d : Word).extractLsb' 3 3 = c ∧
    (a ++ b ++ c ++ d : Word).extractLsb' 0 3 = d :=
  ⟨(@BitVec.extractLsb'_append_eq_of_le 13 3 (a ++ b ++ c) d 8 8 (by decide)).trans ((@BitVec.extractLsb'_append_eq_of_le 10 3 (a ++ b) c 5 8 (by decide)).trans ((@BitVec.extractLsb'_append_eq_of_le 8 2 (a) b 2 8 (by decide)).trans (BitVec.extractLsb'_eq_self))),
   (@BitVec.extractLsb'_append_eq_of_le 13 3 (a ++ b ++ c) d 6 2 (by decide)).trans ((@BitVec.extractLsb'_append_eq_of_le 10 3 (a ++ b) c 3 2 (by decide)).trans ((@BitVec.extractLsb'_append_eq_of_add_le 8 2 (a) b 0 2 (by decide)).trans (BitVec.extractLsb'_eq_self))),
   (@BitVec.extractLsb'_append_eq_of_le 13 3 (a ++ b ++ c) d 3 3 (by decide)).trans ((@BitVec.extractLsb'_append_eq_of_add_le 10 3 (a ++ b) c 0 3 (by decide)).trans (BitVec.extractLsb'_eq_self)),
   (@BitVec.extractLsb'_append_eq_of_add_le 13 3 (a ++ b ++ c) d 0 3 (by decide)).trans (BitVec.extractLsb'_eq_self)⟩
theorem fields_8_2_3_3_eta (op : Word) :
    op.extractLsb' 8 8 ++ op.extractLsb' 6 2 ++ op.extractLsb' 3 3 ++ op.extractLsb' 0 3 = op := by
  refine eq_of_fields _ _ [(8, 8), (6, 2), (3, 3), (0, 3)] (by decide) ?_
  simp only [List.forall_mem_cons, fields_8_2_3_3, List.not_mem_nil, false_imp_iff, forall_const, and_self]

theorem fields_8_1_1_ea (a : BitVec 8) (b : BitVec 1) (c : BitVec 1) (d : BitVec 3) (e : BitVec 3) :
    (a ++ b ++ c ++ (d ++ e) : Word).extractLsb' 8 8 = a ∧
    (a ++ b ++ c ++ (d ++ e) : Word).extractLsb' 7 1 = b ∧
    (a ++ b ++ c ++ (d ++ e) : Word).extractLsb' 6 1 = c ∧
    (a ++ b ++ c ++ (d ++ e) : Word).extractLsb' 3 3 = d ∧
    (a ++ b ++ c ++ (d ++ e) : Word).extractLsb' 0 3 = e :=
  ⟨(@BitVec.extractLsb'_append_eq_of_le 10 6 (a ++ b ++ c) (d ++ e) 8 8 (by decide)).trans ((@BitVec.extractLsb'_append_eq_of_le 9 1 (a ++ b) c 2 8 (by decide)).trans ((@BitVec.extractLsb'_append_eq_of_le 8 1 (a) b 1 8 (by decide)).trans (BitVec.extractLsb'_eq_self))),
   (@BitVec.extractLsb'_append_eq_of_le 10 6 (a ++ b ++ c) (d ++ e) 7 1 (by decide)).trans ((@BitVec.extractLsb'_append_eq_of_le 9 1 (a ++ b) c 1 1 (by decide)).trans ((@BitVec.extractLsb'_append_eq_of_add_le 8 1 (a) b 0 1 (by decide)).trans (BitVec.extractLsb'_eq_self))),
   (@BitVec.extractLsb'_append_eq_of_le 10 6 (a ++ b ++ c) (d ++ e) 6 1 (by decide)).trans ((@BitVec.extractLsb'_append_eq_of_add_le 9 1 (a ++ b) c 0 1 (by decide)).trans (BitVec.extractLsb'_eq_self)),
   (@BitVec.extractLsb'_append_eq_of_add_le 10 6 (a ++ b ++ c) (d ++ e) 3 3 (by decide)).trans (BitVec.extractLsb'_append_eq_left),
   (@BitVec.extractLsb'_append_eq_of_add_le 10 6 (a ++ b ++ c) (d ++ e) 0 3 (by decide)).trans (BitVec.extractLsb'_append_eq_right)⟩
theorem fields_8_1_1_ea_eta (op : Word) :
    op.extractLsb' 8 8 ++ op.extractLsb' 7 1 ++ op.extractLsb' 6 1 ++ (op.extractLsb' 3 3 ++ op.extractLsb' 0 3) = op := by
  refine eq_of_fields _ _ [(8, 8), (7, 1), (6, 1), (3, 3), (0, 3)] (by decide) ?_
  simp only [List.forall_mem_cons, fields_8_1_1_ea, List.not_mem_nil, false_imp_iff, forall_const, and_self]

theorem fields_12_4 (a : BitVec 12) (b : BitVec 4) :
    (a ++ b : Word).extractLsb' 4 12 = a ∧
    (a ++ b : Word).extractLsb' 0 4 = b :=
  ⟨(@BitVec.extractLsb'_append_eq_of_le 12 4 (a) b 4 12 (by decide)).trans (BitVec.extractLsb'_eq_self),
   (@BitVec.extractLsb'_append_eq_of_add_le 12 4 (a) b 0 4 (by decide)).trans (BitVec.extractLsb'_eq_self)⟩
theorem fields_12_4_eta (op : Word) :
    op.extractLsb' 4 12 ++ op.extractLsb' 0 4 = op := by
  refine eq_of_fields _ _ [(4, 12), (0, 4)] (by decide) ?_
  simp only [List.forall_mem_cons, fields_12_4, List.not_mem_nil, false_imp_iff, forall_const, and_self]

theorem fields_8_5_3 (a : BitVec 8) (b : BitVec 5) (c : BitVec 3) :
    (a ++ b ++ c : Word).extractLsb' 8 8 = a ∧
    (a ++ b ++ c : Word).extractLsb' 3 5 = b ∧
    (a ++ b ++ c : Word).extractLsb' 0 3 = c :=
  ⟨(@BitVec.extractLsb'_append_eq_of_le 13 3 (a ++ b) c 8 8 (by decide)).trans ((@BitVec.extractLsb'_append_eq_of_le 8 5 (a) b 5 8 (by decide)).trans (BitVec.extractLsb'_eq_self)),
   (@BitVec.extractLsb'_append_eq_of_le 13 3 (a ++ b) c 3 5 (by decide)).trans ((@BitVec.extractLsb'_append_eq_of_add_le 8 5 (a) b 0 5 (by decide)).trans (BitVec.extractLsb'_eq_self)),
   (@BitVec.extractLsb'_append_eq_of_add_le 13 3 (a ++ b) c 0 3 (by decide)).trans (BitVec.extractLsb'_eq_self)⟩
theorem fields_8_5_3_eta (op : Word) :
    op.extractLsb' 8 8 ++ op.extractLsb' 3 5 ++ op.extractLsb' 0 3 = op := by
  refine eq_of_fields _ _ [(8, 8), (3, 5), (0, 3)] (by decide) ?_
  simp only [List.forall_mem_cons, fields_8_5_3, List.not_mem_nil, false_imp_iff, forall_const, and_self]

theorem fields_4_4_2_ea (a : BitVec 4) (b : BitVec 4) (c : BitVec 2) (d : BitVec 3) (e : BitVec 3) :
    (a ++ b ++ c ++ (d ++ e) : Word).extractLsb' 12 4 = a ∧
    (a ++ b ++ c ++ (d ++ e) : Word).extractLsb' 8 4 = b ∧
    (a ++ b ++ c ++ (d ++ e) : Word).extractLsb' 6 2 = c ∧
    (a ++ b ++ c ++ (d ++ e) : Word).extractLsb' 3 3 = d ∧
    (a ++ b ++ c ++ (d ++ e) : Word).extractLsb' 0 3 = e :=
  ⟨(@BitVec.extractLsb'_append_eq_of_le 10 6 (a ++ b ++ c) (d ++ e) 12 4 (by decide)).trans ((@BitVec.extractLsb'_append_eq_of_le 8 2 (a ++ b) c 6 4 (by decide)).trans ((@BitVec.extractLsb'_append_eq_of_le 4 4 (a) b 4 4 (by decide)).trans (BitVec.extractLsb'_eq_self))),
   (@BitVec.extractLsb'_append_eq_of_le 10 6 (a ++ b ++ c) (d ++ e) 8 4 (by decide)).trans ((@BitVec.extractLsb'_append_eq_of_le 8 2 (a ++ b) c 2 4 (by decide)).trans ((@BitVec.extractLsb'_append_eq_of_add_le 4 4 (a) b 0 4 (by decide)).trans (BitVec.extractLsb'_eq_self))),
   (@BitVec.extractLsb'_append_eq_of_le 10 6 (a ++ b ++ c) (d ++ e) 6 2 (by decide)).trans ((@BitVec.extractLsb'_append_eq_of_add_le 8 2 (a ++ b) c 0 2 (by decide)).trans (BitVec.extractLsb'_eq_self)),
   (@BitVec.extractLsb'_append_eq_of_add_le 10 6 (a ++ b ++ c) (d ++ e) 3 3 (by decide)).trans (BitVec.extractLsb'_append_eq_left),
   (@BitVec.extractLsb'_append_eq_of_add_le 10 6 (a ++ b ++ c) (d ++ e) 0 3 (by decide)).trans (BitVec.extractLsb'_append_eq_right)⟩
theorem fields_4_4_2_ea_eta (op : Word) :
    op.extractLsb' 12 4 ++ op.extractLsb' 8 4 ++ op.extractLsb' 6 2 ++ (op.extractLsb' 3 3 ++ op.extractLsb' 0 3) = op := by
  refine eq_of_fields _ _ [(12, 4), (8, 4), (6, 2), (3, 3), (0, 3)] (by decide) ?_
  simp only [List.forall_mem_cons, fields_4_4_2_ea, List.not_mem_nil, false_imp_iff, forall_const, and_self]

theorem fields_4_4_2_3_3 (a : BitVec 4) (b : BitVec 4) (c : BitVec 2) (d : BitVec 3) (e : BitVec 3) :
    (a ++ b ++ c ++ d ++ e : Word).extractLsb' 12 4 = a ∧
    (a ++ b ++ c ++ d ++ e : Word).extractLsb' 8 4 = b ∧
    (a ++ b ++ c ++ d ++ e : Word).extractLsb' 6 2 = c ∧
    (a ++ b ++ c ++ d ++ e : Word).extractLsb' 3 3 = d ∧
    (a ++ b ++ c ++ d ++ e : Word).extractLsb' 0 3 = e :=
  ⟨(@BitVec.extractLsb'_append_eq_of_le 13 3 (a ++ b ++ c ++ d) e 12 4 (by decide)).trans ((@BitVec.extractLsb'_append_eq_of_le 10 3 (a ++ b ++ c) d 9 4 (by decide)).trans ((@BitVec.extractLsb'_append_eq_of_le 8 2 (a ++ b) c 6 4 (by decide)).trans ((@BitVec.extractLsb'_append_eq_of_le 4 4 (a) b 4 4 (by decide)).trans (BitVec.extractLsb'_eq_self)))),
   (@BitVec.extractLsb'_append_eq_of_le 13 3 (a ++ b ++ c ++ d) e 8 4 (by decide)).trans ((@BitVec.extractLsb'_append_eq_of_le 10 3 (a ++ b ++ c) d 5 4 (by decide)).trans ((@BitVec.extractLsb'_append_eq_of_le 8 2 (a ++ b) c 2 4 (by decide)).trans ((@BitVec.extractLsb'_append_eq_of_add_le 4 4 (a) b 0 4 (by decide)).trans (BitVec.extractLsb'_eq_self)))),
   (@BitVec.extractLsb'_append_eq_of_le 13 3 (a ++ b ++ c ++ d) e 6 2 (by decide)).trans ((@BitVec.extractLsb'_append_eq_of_le 10 3 (a ++ b ++ c) d 3 2 (by decide)).trans ((@BitVec.extractLsb'_append_eq_of_add_le 8 2 (a ++ b) c 0 2 (by decide)).trans (BitVec.extractLsb'_eq_self))),
   (@BitVec.extractLsb'_append_eq_of_le 13 3 (a ++ b ++ c ++ d) e 3 3 (by decide)).trans ((@BitVec.extractLsb'_append_eq_of_add_le 10 3 (a ++ b ++ c) d 0 3 (by decide)).trans (BitVec.extractLsb'_eq_self)),
   (@BitVec.extractLsb'_append_eq_of_add_le 13 3 (a ++ b ++ c ++ d) e 0 3 (by decide)).trans (BitVec.extractLsb'_eq_self)⟩
theorem fields_4_4_2_3_3_eta (op : Word) :
    op.extractLsb' 12 4 ++ op.extractLsb' 8 4 ++ op.extractLsb' 6 2 ++ op.extractLsb' 3 3 ++ op.extractLsb' 0 3 = op := by
  refine eq_of_fields _ _ [(12, 4), (8, 4), (6, 2), (3, 3), (0, 3)] (by decide) ?_
  simp only [List.forall_mem_cons, fields_4_4_2_3_3, List.not_mem_nil, false_imp_iff, forall_const, and_self]

theorem fields_8_8 (a : BitVec 8) (b : BitVec 8) :
    (a ++ b : Word).extractLsb' 8 8 = a ∧
    (a ++ b : Word).extractLsb' 0 8 = b :=
  ⟨(@BitVec.extractLsb'_append_eq_of_le 8 8 (a) b 8 8 (by decide)).trans (BitVec.extractLsb'_eq_self),
   (@BitVec.extractLsb'_append_eq_of_add_le 8 8 (a) b 0 8 (by decide)).trans (BitVec.extractLsb'_eq_self)⟩
theorem fields_8_8_eta (op : Word) :
    op.extractLsb' 8 8 ++ op.extractLsb' 0 8 = op := by
  refine eq_of_fields _ _ [(8, 8), (0, 8)] (by decide) ?_
  simp only [List.forall_mem_cons, fields_8_8, List.not_mem_nil, false_imp_iff, forall_const, and_self]

theorem fields_4_4_8 (a : BitVec 4) (b : BitVec 4) (c : BitVec 8) :
    (a ++ b ++ c : Word).extractLsb' 12 4 = a ∧
    (a ++ b ++ c : Word).extractLsb' 8 4 = b ∧
    (a ++ b ++ c : Word).extractLsb' 0 8 = c :=
  ⟨(@BitVec.extractLsb'_append_eq_of_le 8 8 (a ++ b) c 12 4 (by decide)).trans ((@BitVec.extractLsb'_append_eq_of_le 4 4 (a) b 4 4 (by decide)).trans (BitVec.extractLsb'_eq_self)),
   (@BitVec.extractLsb'_append_eq_of_le 8 8 (a ++ b) c 8 4 (by decide)).trans ((@BitVec.extractLsb'_append_eq_of_add_le 4 4 (a) b 0 4 (by decide)).trans (BitVec.extractLsb'_eq_self)),
   (@BitVec.extractLsb'_append_eq_of_add_le 8 8 (a ++ b) c 0 8 (by decide)).trans (BitVec.extractLsb'_eq_self)⟩
theorem fields_4_4_8_eta (op : Word) :
    op.extractLsb' 12 4 ++ op.extractLsb' 8 4 ++ op.extractLsb' 0 8 = op := by
  refine eq_of_fields _ _ [(12, 4), (8, 4), (0, 8)] (by decide) ?_
  simp only [List.forall_mem_cons, fields_4_4_8, List.not_mem_nil, false_imp_iff, forall_const, and_self]

theorem fields_4_3_1_8 (a : BitVec 4) (b : BitVec 3) (c : BitVec 1) (d : BitVec 8) :
    (a ++ b ++ c ++ d : Word).extractLsb' 12 4 = a ∧
    (a ++ b ++ c ++ d : Word).extractLsb' 9 3 = b ∧
    (a ++ b ++ c ++ d : Word).extractLsb' 8 1 = c ∧
    (a ++ b ++ c ++ d : Word).extractLsb' 0 8 = d :=
  ⟨(@BitVec.extractLsb'_append_eq_of_le 8 8 (a ++ b ++ c) d 12 4 (by decide)).trans ((@BitVec.extractLsb'_append_eq_of_le 7 1 (a ++ b) c 4 4 (by decide)).trans ((@BitVec.extractLsb'_append_eq_of_le 4 3 (a) b 3 4 (by decide)).trans (BitVec.extractLsb'_eq_self))),
   (@BitVec.extractLsb'_append_eq_of_le 8 8 (a ++ b ++ c) d 9 3 (by decide)).trans ((@BitVec.extractLsb'_append_eq_of_le 7 1 (a ++ b) c 1 3 (by decide)).trans ((@BitVec.extractLsb'_append_eq_of_add_le 4 3 (a) b 0 3 (by decide)).trans (BitVec.extractLsb'_eq_self))),
   (@BitVec.extractLsb'_append_eq_of_le 8 8 (a ++ b ++ c) d 8 1 (by decide)).trans ((@BitVec.extractLsb'_append_eq_of_add_le 7 1 (a ++ b) c 0 1 (by decide)).trans (BitVec.extractLsb'_eq_self)),
   (@BitVec.extractLsb'_append_eq_of_add_le 8 8 (a ++ b ++ c) d 0 8 (by decide)).trans (BitVec.extractLsb'_eq_self)⟩
theorem fields_4_3_1_8_eta (op : Word) :
    op.extractLsb' 12 4 ++ op.extractLsb' 9 3 ++ op.extractLsb' 8 1 ++ op.extractLsb' 0 8 = op := by
  refine eq_of_fields _ _ [(12, 4), (9, 3), (8, 1), (0, 8)] (by decide) ?_
  simp only [List.forall_mem_cons, fields_4_3_1_8, List.not_mem_nil, false_imp_iff, forall_const, and_self]

theorem fields_4_3_1_4_1_3 (a : BitVec 4) (b : BitVec 3) (c : BitVec 1) (d : BitVec 4) (e : BitVec 1) (f : BitVec 3) :
    (a ++ b ++ c ++ d ++ e ++ f : Word).extractLsb' 12 4 = a ∧
    (a ++ b ++ c ++ d ++ e ++ f : Word).extractLsb' 9 3 = b ∧
    (a ++ b ++ c ++ d ++ e ++ f : Word).extractLsb' 8 1 = c ∧
    (a ++ b ++ c ++ d ++ e ++ f : Word).extractLsb' 4 4 = d ∧
    (a ++ b ++ c ++ d ++ e ++ f : Word).extractLsb' 3 1 = e ∧
    (a ++ b ++ c ++ d ++ e ++ f : Word).extractLsb' 0 3 = f :=
  ⟨(@BitVec.extractLsb'_append_eq_of_le 13 3 (a ++ b ++ c ++ d ++ e) f 12 4 (by decide)).trans ((@BitVec.extractLsb'_append_eq_of_le 12 1 (a ++ b ++ c ++ d) e 9 4 (by decide)).trans ((@BitVec.extractLsb'_append_eq_of_le 8 4 (a ++ b ++ c) d 8 4 (by decide)).trans ((@BitVec.extractLsb'_append_eq_of_le 7 1 (a ++ b) c 4 4 (by decide)).trans ((@BitVec.extractLsb'_append_eq_of_le 4 3 (a) b 3 4 (by decide)).trans (BitVec.extractLsb'_eq_self))))),
   (@BitVec.extractLsb'_append_eq_of_le 13 3 (a ++ b ++ c ++ d ++ e) f 9 3 (by decide)).trans ((@BitVec.extractLsb'_append_eq_of_le 12 1 (a ++ b ++ c ++ d) e 6 3 (by decide)).trans ((@BitVec.extractLsb'_append_eq_of_le 8 4 (a ++ b ++ c) d 5 3 (by decide)).trans ((@BitVec.extractLsb'_append_eq_of_le 7 1 (a ++ b) c 1 3 (by decide)).trans ((@BitVec.extractLsb'_append_eq_of_add_le 4 3 (a) b 0 3 (by decide)).trans (BitVec.extractLsb'_eq_self))))),
   (@BitVec.extractLsb'_append_eq_of_le 13 3 (a ++ b ++ c ++ d ++ e) f 8 1 (by decide)).trans ((@BitVec.extractLsb'_append_eq_of_le 12 1 (a ++ b ++ c ++ d) e 5 1 (by decide)).trans ((@BitVec.extractLsb'_append_eq_of_le 8 4 (a ++ b ++ c) d 4 1 (by decide)).trans ((@BitVec.extractLsb'_append_eq_of_add_le 7 1 (a ++ b) c 0 1 (by decide)).trans (BitVec.extractLsb'_eq_self)))),
   (@BitVec.extractLsb'_append_eq_of_le 13 3 (a ++ b ++ c ++ d ++ e) f 4 4 (by decide)).trans ((@BitVec.extractLsb'_append_eq_of_le 12 1 (a ++ b ++ c ++ d) e 1 4 (by decide)).trans ((@BitVec.extractLsb'_append_eq_of_add_le 8 4 (a ++ b ++ c) d 0 4 (by decide)).trans (BitVec.extractLsb'_eq_self))),
   (@BitVec.extractLsb'_append_eq_of_le 13 3 (a ++ b ++ c ++ d ++ e) f 3 1 (by decide)).trans ((@BitVec.extractLsb'_append_eq_of_add_le 12 1 (a ++ b ++ c ++ d) e 0 1 (by decide)).trans (BitVec.extractLsb'_eq_self)),
   (@BitVec.extractLsb'_append_eq_of_add_le 13 3 (a ++ b ++ c ++ d ++ e) f 0 3 (by decide)).trans (BitVec.extractLsb'_eq_self)⟩
theorem fields_4_3_1_4_1_3_eta (op : Word) :
    op.extractLsb' 12 4 ++ op.extractLsb' 9 3 ++ op.extractLsb' 8 1 ++ op.extractLsb' 4 4 ++ op.extractLsb' 3 1 ++ op.extractLsb' 0 3 = op := by
  refine eq_of_fields _ _ [(12, 4), (9, 3), (8, 1), (4, 4), (3, 1), (0, 3)] (by decide) ?_
  simp only [List.forall_mem_cons, fields_4_3_1_4_1_3, List.not_mem_nil, false_imp_iff, forall_const, and_self]

theorem fields_4_3_1_2_2_1_3 (a : BitVec 4) (b : BitVec 3) (c : BitVec 1) (d : BitVec 2) (e : BitVec 2) (f : BitVec 1) (g : BitVec 3) :
    (a ++ b ++ c ++ d ++ e ++ f ++ g : Word).extractLsb' 12 4 = a ∧
    (a ++ b ++ c ++ d ++ e ++ f ++ g : Word).extractLsb' 9 3 = b ∧
    (a ++ b ++ c ++ d ++ e ++ f ++ g : Word).extractLsb' 8 1 = c ∧
    (a ++ b ++ c ++ d ++ e ++ f ++ g : Word).extractLsb' 6 2 = d ∧
    (a ++ b ++ c ++ d ++ e ++ f ++ g : Word).extractLsb' 4 2 = e ∧
    (a ++ b ++ c ++ d ++ e ++ f ++ g : Word).extractLsb' 3 1 = f ∧
    (a ++ b ++ c ++ d ++ e ++ f ++ g : Word).extractLsb' 0 3 = g :=
  ⟨(@BitVec.extractLsb'_append_eq_of_le 13 3 (a ++ b ++ c ++ d ++ e ++ f) g 12 4 (by decide)).trans ((@BitVec.extractLsb'_append_eq_of_le 12 1 (a ++ b ++ c ++ d ++ e) f 9 4 (by decide)).trans ((@BitVec.extractLsb'_append_eq_of_le 10 2 (a ++ b ++ c ++ d) e 8 4 (by decide)).trans ((@BitVec.extractLsb'_append_eq_of_le 8 2 (a ++ b ++ c) d 6 4 (by decide)).trans ((@BitVec.extractLsb'_append_eq_of_le 7 1 (a ++ b) c 4 4 (by decide)).trans ((@BitVec.extractLsb'_append_eq_of_le 4 3 (a) b 3 4 (by decide)).trans (BitVec.extractLsb'_eq_self)))))),
   (@BitVec.extractLsb'_append_eq_of_le 13 3 (a ++ b ++ c ++ d ++ e ++ f) g 9 3 (by decide)).trans ((@BitVec.extractLsb'_append_eq_of_le 12 1 (a ++ b ++ c ++ d ++ e) f 6 3 (by decide)).trans ((@BitVec.extractLsb'_append_eq_of_le 10 2 (a ++ b ++ c ++ d) e 5 3 (by decide)).trans ((@BitVec.extractLsb'_append_eq_of_le 8 2 (a ++ b ++ c) d 3 3 (by decide)).trans ((@BitVec.extractLsb'_append_eq_of_le 7 1 (a ++ b) c 1 3 (by decide)).trans ((@BitVec.extractLsb'_append_eq_of_add_le 4 3 (a) b 0 3 (by decide)).trans (BitVec.extractLsb'_eq_self)))))),
   (@BitVec.extractLsb'_append_eq_of_le 13 3 (a ++ b ++ c ++ d ++ e ++ f) g 8 1 (by decide)).trans ((@BitVec.extractLsb'_append_eq_of_le 12 1 (a ++ b ++ c ++ d ++ e) f 5 1 (by decide)).trans ((@BitVec.extractLsb'_append_eq_of_le 10 2 (a ++ b ++ c ++ d) e 4 1 (by decide)).trans ((@BitVec.extractLsb'_append_eq_of_le 8 2 (a ++ b ++ c) d 2 1 (by decide)).trans ((@BitVec.extractLsb'_append_eq_of_add_le 7 1 (a ++ b) c 0 1 (by decide)).trans (BitVec.extractLsb'_eq_self))))),
   (@BitVec.extractLsb'_append_eq_of_le 13 3 (a ++ b ++ c ++ d ++ e ++ f) g 6 2 (by decide)).trans ((@BitVec.extractLsb'_append_eq_of_le 12 1 (a ++ b ++ c ++ d ++ e) f 3 2 (by decide)).trans ((@BitVec.extractLsb'_append_eq_of_le 10 2 (a ++ b ++ c ++ d) e 2 2 (by decide)).trans ((@BitVec.extractLsb'_append_eq_of_add_le 8 2 (a ++ b ++ c) d 0 2 (by decide)).trans (BitVec.extractLsb'_eq_self)))),
   (@BitVec.extractLsb'_append_eq_of_le 13 3 (a ++ b ++ c ++ d ++ e ++ f) g 4 2 (by decide)).trans ((@BitVec.extractLsb'_append_eq_of_le 12 1 (a ++ b ++ c ++ d ++ e) f 1 2 (by decide)).trans ((@BitVec.extractLsb'_append_eq_of_add_le 10 2 (a ++ b ++ c ++ d) e 0 2 (by decide)).trans (BitVec.extractLsb'_eq_self))),
   (@BitVec.extractLsb'_append_eq_of_le 13 3 (a ++ b ++ c ++ d ++ e ++ f) g 3 1 (by decide)).trans ((@BitVec.extractLsb'_append_eq_of_add_le 12 1 (a ++ b ++ c ++ d ++ e) f 0 1 (by decide)).trans (BitVec.extractLsb'_eq_self)),
   (@BitVec.extractLsb'_append_eq_of_add_le 13 3 (a ++ b ++ c ++ d ++ e ++ f) g 0 3 (by decide)).trans (BitVec.extractLsb'_eq_self)⟩
theorem fields_4_3_1_2_2_1_3_eta (op : Word) :
    op.extractLsb' 12 4 ++ op.extractLsb' 9 3 ++ op.extractLsb' 8 1 ++ op.extractLsb' 6 2 ++ op.extractLsb' 4 2 ++ op.extractLsb' 3 1 ++ op.extractLsb' 0 3 = op := by
  refine eq_of_fields _ _ [(12, 4), (9, 3), (8, 1), (6, 2), (4, 2), (3, 1), (0, 3)] (by decide) ?_
  simp only [List.forall_mem_cons, fields_4_3_1_2_2_1_3, List.not_mem_nil, false_imp_iff, forall_const, and_self]

theorem fields_4_3_1_5_3 (a : BitVec 4) (b : BitVec 3) (c : BitVec 1) (d : BitVec 5) (e : BitVec 3) :
    (a ++ b ++ c ++ d ++ e : Word).extractLsb' 12 4 = a ∧
    (a ++ b ++ c ++ d ++ e : Word).extractLsb' 9 3 = b ∧
    (a ++ b ++ c ++ d ++ e : Word).extractLsb' 8 1 = c ∧
    (a ++ b ++ c ++ d ++ e : Word).extractLsb' 3 5 = d ∧
    (a ++ b ++ c ++ d ++ e : Word).extractLsb' 0 3 = e :=
  ⟨(@BitVec.extractLsb'_append_eq_of_le 13 3 (a ++ b ++ c ++ d) e 12 4 (by decide)).trans ((@BitVec.extractLsb'_append_eq_of_le 8 5 (a ++ b ++ c) d 9 4 (by decide)).trans ((@BitVec.extractLsb'_append_eq_of_le 7 1 (a ++ b) c 4 4 (by decide)).trans ((@BitVec.extractLsb'_append_eq_of_le 4 3 (a) b 3 4 (by decide)).trans (BitVec.extractLsb'_eq_self)))),
   (@BitVec.extractLsb'_append_eq_of_le 13 3 (a ++ b ++ c ++ d) e 9 3 (by decide)).trans ((@BitVec.extractLsb'_append_eq_of_le 8 5 (a ++ b ++ c) d 6 3 (by decide)).trans ((@BitVec.extractLsb'_append_eq_of_le 7 1 (a ++ b) c 1 3 (by decide)).trans ((@BitVec.extractLsb'_append_eq_of_add_le 4 3 (a) b 0 3 (by decide)).trans (BitVec.extractLsb'_eq_self)))),
   (@BitVec.extractLsb'_append_eq_of_le 13 3 (a ++ b ++ c ++ d) e 8 1 (by decide)).trans ((@BitVec.extractLsb'_append_eq_of_le 8 5 (a ++ b ++ c) d 5 1 (by decide)).trans ((@BitVec.extractLsb'_append_eq_of_add_le 7 1 (a ++ b) c 0 1 (by decide)).trans (BitVec.extractLsb'_eq_self))),
   (@BitVec.extractLsb'_append_eq_of_le 13 3 (a ++ b ++ c ++ d) e 3 5 (by decide)).trans ((@BitVec.extractLsb'_append_eq_of_add_le 8 5 (a ++ b ++ c) d 0 5 (by decide)).trans (BitVec.extractLsb'_eq_self)),
   (@BitVec.extractLsb'_append_eq_of_add_le 13 3 (a ++ b ++ c ++ d) e 0 3 (by decide)).trans (BitVec.extractLsb'_eq_self)⟩
theorem fields_4_3_1_5_3_eta (op : Word) :
    op.extractLsb' 12 4 ++ op.extractLsb' 9 3 ++ op.extractLsb' 8 1 ++ op.extractLsb' 3 5 ++ op.extractLsb' 0 3 = op := by
  refine eq_of_fields _ _ [(12, 4), (9, 3), (8, 1), (3, 5), (0, 3)] (by decide) ?_
  simp only [List.forall_mem_cons, fields_4_3_1_5_3, List.not_mem_nil, false_imp_iff, forall_const, and_self]

theorem fields_4_3_1_2_1_2_3 (a : BitVec 4) (b : BitVec 3) (c : BitVec 1) (d : BitVec 2) (e : BitVec 1) (f : BitVec 2) (g : BitVec 3) :
    (a ++ b ++ c ++ d ++ e ++ f ++ g : Word).extractLsb' 12 4 = a ∧
    (a ++ b ++ c ++ d ++ e ++ f ++ g : Word).extractLsb' 9 3 = b ∧
    (a ++ b ++ c ++ d ++ e ++ f ++ g : Word).extractLsb' 8 1 = c ∧
    (a ++ b ++ c ++ d ++ e ++ f ++ g : Word).extractLsb' 6 2 = d ∧
    (a ++ b ++ c ++ d ++ e ++ f ++ g : Word).extractLsb' 5 1 = e ∧
    (a ++ b ++ c ++ d ++ e ++ f ++ g : Word).extractLsb' 3 2 = f ∧
    (a ++ b ++ c ++ d ++ e ++ f ++ g : Word).extractLsb' 0 3 = g :=
  ⟨(@BitVec.extractLsb'_append_eq_of_le 13 3 (a ++ b ++ c ++ d ++ e ++ f) g 12 4 (by decide)).trans ((@BitVec.extractLsb'_append_eq_of_le 11 2 (a ++ b ++ c ++ d ++ e) f 9 4 (by decide)).trans ((@BitVec.extractLsb'_append_eq_of_le 10 1 (a ++ b ++ c ++ d) e 7 4 (by decide)).trans ((@BitVec.extractLsb'_append_eq_of_le 8 2 (a ++ b ++ c) d 6 4 (by decide)).trans ((@BitVec.extractLsb'_append_eq_of_le 7 1 (a ++ b) c 4 4 (by decide)).trans ((@BitVec.extractLsb'_append_eq_of_le 4 3 (a) b 3 4 (by decide)).trans (BitVec.extractLsb'_eq_self)))))),
   (@BitVec.extractLsb'_append_eq_of_le 13 3 (a ++ b ++ c ++ d ++ e ++ f) g 9 3 (by decide)).trans ((@BitVec.extractLsb'_append_eq_of_le 11 2 (a ++ b ++ c ++ d ++ e) f 6 3 (by decide)).trans ((@BitVec.extractLsb'_append_eq_of_le 10 1 (a ++ b ++ c ++ d) e 4 3 (by decide)).trans ((@BitVec.extractLsb'_append_eq_of_le 8 2 (a ++ b ++ c) d 3 3 (by decide)).trans ((@BitVec.extractLsb'_append_eq_of_le 7 1 (a ++ b) c 1 3 (by decide)).trans ((@BitVec.extractLsb'_append_eq_of_add_le 4 3 (a) b 0 3 (by decide)).trans (BitVec.extractLsb'_eq_self)))))),
   (@BitVec.extractLsb'_append_eq_of_le 13 3 (a ++ b ++ c ++ d ++ e ++ f) g 8 1 (by decide)).trans ((@BitVec.extractLsb'_append_eq_of_le 11 2 (a ++ b ++ c ++ d ++ e) f 5 1 (by decide)).trans ((@BitVec.extractLsb'_append_eq_of_le 10 1 (a ++ b ++ c ++ d) e 3 1 (by decide)).trans ((@BitVec.extractLsb'_append_eq_of_le 8 2 (a ++ b ++ c) d 2 1 (by decide)).trans ((@BitVec.extractLsb'_append_eq_of_add_le 7 1 (a ++ b) c 0 1 (by decide)).trans (BitVec.extractLsb'_eq_self))))),
   (@BitVec.extractLsb'_append_eq_of_le 13 3 (a ++ b ++ c ++ d ++ e ++ f) g 6 2 (by decide)).trans ((@BitVec.extractLsb'_append_eq_of_le 11 2 (a ++ b ++ c ++ d ++ e) f 3 2 (by decide)).trans ((@BitVec.extractLsb'_append_eq_of_le 10 1 (a ++ b ++ c ++ d) e 1 2 (by decide)).trans ((@BitVec.extractLsb'_append_eq_of_add_le 8 2 (a ++ b ++ c) d 0 2 (by decide)).trans (BitVec.extractLsb'_eq_self)))),
   (@BitVec.extractLsb'_append_eq_of_le 13 3 (a ++ b ++ c ++ d ++ e ++ f) g 5 1 (by decide)).trans ((@BitVec.extractLsb'_append_eq_of_le 11 2 (a ++ b ++ c ++ d ++ e) f 2 1 (by decide)).trans ((@BitVec.extractLsb'_append_eq_of_add_le 10 1 (a ++ b ++ c ++ d) e 0 1 (by decide)).trans (BitVec.extractLsb'_eq_self))),
   (@BitVec.extractLsb'_append_eq_of_le 13 3 (a ++ b ++ c ++ d ++ e ++ f) g 3 2 (by decide)).trans ((@BitVec.extractLsb'_append_eq_of_add_le 11 2 (a ++ b ++ c ++ d ++ e) f 0 2 (by decide)).trans (BitVec.extractLsb'_eq_self)),
   (@BitVec.extractLsb'_append_eq_of_add_le 13 3 (a ++ b ++ c ++ d ++ e ++ f) g 0 3 (by decide)).trans (BitVec.extractLsb'_eq_self)⟩
theorem fields_4_3_1_2_1_2_3_eta (op : Word) :
    op.extractLsb' 12 4 ++ op.extractLsb' 9 3 ++ op.extractLsb' 8 1 ++ op.extractLsb' 6 2 ++ op.extractLsb' 5 1 ++ op.extractLsb' 3 2 ++ op.extractLsb' 0 3 = op := by
  refine eq_of_fields _ _ [(12, 4), (9, 3), (8, 1), (6, 2), (5, 1), (3, 2), (0, 3)] (by decide) ?_
  simp only [List.forall_mem_cons, fields_4_3_1_2_1_2_3, List.not_mem_nil, false_imp_iff, forall_const, and_self]

theorem fields_4_1_2_1_2_ea (a : BitVec 4) (b : BitVec 1) (c : BitVec 2) (d : BitVec 1) (e : BitVec 2) (f : BitVec 3) (g : BitVec 3) :
    (a ++ b ++ c ++ d ++ e ++ (f ++ g) : Word).extractLsb' 12 4 = a ∧
    (a ++ b ++ c ++ d ++ e ++ (f ++ g) : Word).extractLsb' 11 1 = b ∧
    (a ++ b ++ c ++ d ++ e ++ (f ++ g) : Word).extractLsb' 9 2 = c ∧
    (a ++ b ++ c ++ d ++ e ++ (f ++ g) : Word).extractLsb' 8 1 = d ∧
    (a ++ b ++ c ++ d ++ e ++ (f ++ g) : Word).extractLsb' 6 2 = e ∧
    (a ++ b ++ c ++ d ++ e ++ (f ++ g) : Word).extractLsb' 3 3 = f ∧
    (a ++ b ++ c ++ d ++ e ++ (f ++ g) : Word).extractLsb' 0 3 = g :=
  ⟨(@BitVec.extractLsb'_append_eq_of_le 10 6 (a ++ b ++ c ++ d ++ e) (f ++ g) 12 4 (by decide)).trans ((@BitVec.extractLsb'_append_eq_of_le 8 2 (a ++ b ++ c ++ d) e 6 4 (by decide)).trans ((@BitVec.extractLsb'_append_eq_of_le 7 1 (a ++ b ++ c) d 4 4 (by decide)).trans ((@BitVec.extractLsb'_append_eq_of_le 5 2 (a ++ b) c 3 4 (by decide)).trans ((@BitVec.extractLsb'_append_eq_of_le 4 1 (a) b 1 4 (by decide)).trans (BitVec.extractLsb'_eq_self))))),
   (@BitVec.extractLsb'_append_eq_of_le 10 6 (a ++ b ++ c ++ d ++ e) (f ++ g) 11 1 (by decide)).trans ((@BitVec.extractLsb'_append_eq_of_le 8 2 (a ++ b ++ c ++ d) e 5 1 (by decide)).trans ((@BitVec.extractLsb'_append_eq_of_le 7 1 (a ++ b ++ c) d 3 1 (by decide)).trans ((@BitVec.extractLsb'_append_eq_of_le 5 2 (a ++ b) c 2 1 (by decide)).trans ((@BitVec.extractLsb'_append_eq_of_add_le 4 1 (a) b 0 1 (by decide)).trans (BitVec.extractLsb'_eq_self))))),
   (@BitVec.extractLsb'_append_eq_of_le 10 6 (a ++ b ++ c ++ d ++ e) (f ++ g) 9 2 (by decide)).trans ((@BitVec.extractLsb'_append_eq_of_le 8 2 (a ++ b ++ c ++ d) e 3 2 (by decide)).trans ((@BitVec.extractLsb'_append_eq_of_le 7 1 (a ++ b ++ c) d 1 2 (by decide)).trans ((@BitVec.extractLsb'_append_eq_of_add_le 5 2 (a ++ b) c 0 2 (by decide)).trans (BitVec.extractLsb'_eq_self)))),
   (@BitVec.extractLsb'_append_eq_of_le 10 6 (a ++ b ++ c ++ d ++ e) (f ++ g) 8 1 (by decide)).trans ((@BitVec.extractLsb'_append_eq_of_le 8 2 (a ++ b ++ c ++ d) e 2 1 (by decide)).trans ((@BitVec.extractLsb'_append_eq_of_add_le 7 1 (a ++ b ++ c) d 0 1 (by decide)).trans (BitVec.extractLsb'_eq_self))),
   (@BitVec.extractLsb'_append_eq_of_le 10 6 (a ++ b ++ c ++ d ++ e) (f ++ g) 6 2 (by decide)).trans ((@BitVec.extractLsb'_append_eq_of_add_le 8 2 (a ++ b ++ c ++ d) e 0 2 (by decide)).trans (BitVec.extractLsb'_eq_self)),
   (@BitVec.extractLsb'_append_eq_of_add_le 10 6 (a ++ b ++ c ++ d ++ e) (f ++ g) 3 3 (by decide)).trans (BitVec.extractLsb'_append_eq_left),
   (@BitVec.extractLsb'_append_eq_of_add_le 10 6 (a ++ b ++ c ++ d ++ e) (f ++ g) 0 3 (by decide)).trans (BitVec.extractLsb'_append_eq_right)⟩
theorem fields_4_1_2_1_2_ea_eta (op : Word) :
    op.extractLsb' 12 4 ++ op.extractLsb' 11 1 ++ op.extractLsb' 9 2 ++ op.extractLsb' 8 1 ++ op.extractLsb' 6 2 ++ (op.extractLsb' 3 3 ++ op.extractLsb' 0 3) = op := by
  refine eq_of_fields _ _ [(12, 4), (11, 1), (9, 2), (8, 1), (6, 2), (3, 3), (0, 3)] (by decide) ?_
  simp only [List.forall_mem_cons, fields_4_1_2_1_2_ea, List.not_mem_nil, false_imp_iff, forall_const, and_self]

theorem fields_7_3_3_3 (a : BitVec 7) (b : BitVec 3) (c : BitVec 3) (d : BitVec 3) :
    (a ++ b ++ c ++ d : Word).extractLsb' 9 7 = a ∧
    (a ++ b ++ c ++ d : Word).extractLsb' 6 3 = b ∧
    (a ++ b ++ c ++ d : Word).extractLsb' 3 3 = c ∧
    (a ++ b ++ c ++ d : Word).extractLsb' 0 3 = d :=
  ⟨(@BitVec.extractLsb'_append_eq_of_le 13 3 (a ++ b ++ c) d 9 7 (by decide)).trans ((@BitVec.extractLsb'_append_eq_of_le 10 3 (a ++ b) c 6 7 (by decide)).trans ((@BitVec.extractLsb'_append_eq_of_le 7 3 (a) b 3 7 (by decide)).trans (BitVec.extractLsb'_eq_self))),
   (@BitVec.extractLsb'_append_eq_of_le 13 3 (a ++ b ++ c) d 6 3 (by decide)).trans ((@BitVec.extractLsb'_append_eq_of_le 10 3 (a ++ b) c 3 3 (by decide)).trans ((@BitVec.extractLsb'_append_eq_of_add_le 7 3 (a) b 0 3 (by decide)).trans (BitVec.extractLsb'_eq_self))),
   (@BitVec.extractLsb'_append_eq_of_le 13 3 (a ++ b ++ c) d 3 3 (by decide)).trans ((@BitVec.extractLsb'_append_eq_of_add_le 10 3 (a ++ b) c 0 3 (by decide)).trans (BitVec.extractLsb'_eq_self)),
   (@BitVec.extractLsb'_append_eq_of_add_le 13 3 (a ++ b ++ c) d 0 3 (by decide)).trans (BitVec.extractLsb'_eq_self)⟩
theorem fields_7_3_3_3_eta (op : Word) :
    op.extractLsb' 9 7 ++ op.extractLsb' 6 3 ++ op.extractLsb' 3 3 ++ op.extractLsb' 0 3 = op := by
  refine eq_of_fields _ _ [(9, 7), (6, 3), (3, 3), (0, 3)] (by decide) ?_
  simp only [List.forall_mem_cons, fields_7_3_3_3, List.not_mem_nil, false_imp_iff, forall_const, and_self]

theorem fields_1_3_1_1_7_3 (a : BitVec 1) (b : BitVec 3) (c : BitVec 1) (d : BitVec 1) (e : BitVec 7) (f : BitVec 3) :
    (a ++ b ++ c ++ d ++ e ++ f : Word).extractLsb' 15 1 = a ∧
    (a ++ b ++ c ++ d ++ e ++ f : Word).extractLsb' 12 3 = b ∧
    (a ++ b ++ c ++ d ++ e ++ f : Word).extractLsb' 11 1 = c ∧
    (a ++ b ++ c ++ d ++ e ++ f : Word).extractLsb' 10 1 = d ∧
    (a ++ b ++ c ++ d ++ e ++ f : Word).extractLsb' 3 7 = e ∧
    (a ++ b ++ c ++ d ++ e ++ f : Word).extractLsb' 0 3 = f :=
  ⟨(@BitVec.extractLsb'_append_eq_of_le 13 3 (a ++ b ++ c ++ d ++ e) f 15 1 (by decide)).trans ((@BitVec.extractLsb'_append_eq_of_le 6 7 (a ++ b ++ c ++ d) e 12 1 (by decide)).trans ((@BitVec.extractLsb'_append_eq_of_le 5 1 (a ++ b ++ c) d 5 1 (by decide)).trans ((@BitVec.extractLsb'_append_eq_of_le 4 1 (a ++ b) c 4 1 (by decide)).trans ((@BitVec.extractLsb'_append_eq_of_le 1 3 (a) b 3 1 (by decide)).trans (BitVec.extractLsb'_eq_self))))),
   (@BitVec.extractLsb'_append_eq_of_le 13 3 (a ++ b ++ c ++ d ++ e) f 12 3 (by decide)).trans ((@BitVec.extractLsb'_append_eq_of_le 6 7 (a ++ b ++ c ++ d) e 9 3 (by decide)).trans ((@BitVec.extractLsb'_append_eq_of_le 5 1 (a ++ b ++ c) d 2 3 (by decide)).trans ((@BitVec.extractLsb'_append_eq_of_le 4 1 (a ++ b) c 1 3 (by decide)).trans ((@BitVec.extractLsb'_append_eq_of_add_le 1 3 (a) b 0 3 (by decide)).trans (BitVec.extractLsb'_eq_self))))),
   (@BitVec.extractLsb'_append_eq_of_le 13 3 (a ++ b ++ c ++ d ++ e) f 11 1 (by decide)).trans ((@BitVec.extractLsb'_append_eq_of_le 6 7 (a ++ b ++ c ++ d) e 8 1 (by decide)).trans ((@BitVec.extractLsb'_append_eq_of_le 5 1 (a ++ b ++ c) d 1 1 (by decide)).trans ((@BitVec.extractLsb'_append_eq_of_add_le 4 1 (a ++ b) c 0 1 (by decide)).trans (BitVec.extractLsb'_eq_self)))),
   (@BitVec.extractLsb'_append_eq_of_le 13 3 (a ++ b ++ c ++ d ++ e) f 10 1 (by decide)).trans ((@BitVec.extractLsb'_append_eq_of_le 6 7 (a ++ b ++ c ++ d) e 7 1 (by decide)).trans ((@BitVec.extractLsb'_append_eq_of_add_le 5 1 (a ++ b ++ c) d 0 1 (by decide)).trans (BitVec.extractLsb'_eq_self))),
   (@BitVec.extractLsb'_append_eq_of_le 13 3 (a ++ b ++ c ++ d ++ e) f 3 7 (by decide)).trans ((@BitVec.extractLsb'_append_eq_of_add_le 6 7 (a ++ b ++ c ++ d) e 0 7 (by decide)).trans (BitVec.extractLsb'_eq_self)),
   (@BitVec.extractLsb'_append_eq_of_add_le 13 3 (a ++ b ++ c ++ d ++ e) f 0 3 (by decide)).trans (BitVec.extractLsb'_eq_self)⟩
theorem fields_1_3_1_1_7_3_eta (op : Word) :
    op.extractLsb' 15 1 ++ op.extractLsb' 12 3 ++ op.extractLsb' 11 1 ++ op.extractLsb' 10 1 ++ op.extractLsb' 3 7 ++ op.extractLsb' 0 3 = op := by
  refine eq_of_fields _ _ [(15, 1), (12, 3), (11, 1), (10, 1), (3, 7), (0, 3)] (by decide) ?_
  simp only [List.forall_mem_cons, fields_1_3_1_1_7_3, List.not_mem_nil, false_imp_iff, forall_const, and_self]

theorem fields_1_3_1_3_8 (a : BitVec 1) (b : BitVec 3) (c : BitVec 1) (d : BitVec 3) (e : BitVec 8) :
    (a ++ b ++ c ++ d ++ e : Word).extractLsb' 15 1 = a ∧
    (a ++ b ++ c ++ d ++ e : Word).extractLsb' 12 3 = b ∧
    (a ++ b ++ c ++ d ++ e : Word).extractLsb' 11 1 = c ∧
    (a ++ b ++ c ++ d ++ e : Word).extractLsb' 8 3 = d ∧
    (a ++ b ++ c ++ d ++ e : Word).extractLsb' 0 8 = e :=
  ⟨(@BitVec.extractLsb'_append_eq_of_le 8 8 (a ++ b ++ c ++ d) e 15 1 (by decide)).trans ((@BitVec.extractLsb'_append_eq_of_le 5 3 (a ++ b ++ c) d 7 1 (by decide)).trans ((@BitVec.extractLsb'_append_eq_of_le 4 1 (a ++ b) c 4 1 (by decide)).trans ((@BitVec.extractLsb'_append_eq_of_le 1 3 (a) b 3 1 (by decide)).trans (BitVec.extractLsb'_eq_self)))),
   (@BitVec.extractLsb'_append_eq_of_le 8 8 (a ++ b ++ c ++ d) e 12 3 (by decide)).trans ((@BitVec.extractLsb'_append_eq_of_le 5 3 (a ++ b ++ c) d 4 3 (by decide)).trans ((@BitVec.extractLsb'_append_eq_of_le 4 1 (a ++ b) c 1 3 (by decide)).trans ((@BitVec.extractLsb'_append_eq_of_add_le 1 3 (a) b 0 3 (by decide)).trans (BitVec.extractLsb'_eq_self)))),
   (@BitVec.extractLsb'_append_eq_of_le 8 8 (a ++ b ++ c ++ d) e 11 1 (by decide)).trans ((@BitVec.extractLsb'_append_eq_of_le 5 3 (a ++ b ++ c) d 3 1 (by decide)).trans ((@BitVec.extractLsb'_append_eq_of_add_le 4 1 (a ++ b) c 0 1 (by decide)).trans (BitVec.extractLsb'_eq_self))),
   (@BitVec.extractLsb'_append_eq_of_le 8 8 (a ++ b ++ c ++ d) e 8 3 (by decide)).trans ((@BitVec.extractLsb'_append_eq_of_add_le 5 3 (a ++ b ++ c) d 0 3 (by decide)).trans (BitVec.extractLsb'_eq_self)),
   (@BitVec.extractLsb'_append_eq_of_add_le 8 8 (a ++ b ++ c ++ d) e 0 8 (by decide)).trans (BitVec.extractLsb'_eq_self)⟩
theorem fields_1_3_1_3_8_eta (op : Word) :
    op.extractLsb' 15 1 ++ op.extractLsb' 12 3 ++ op.extractLsb' 11 1 ++ op.extractLsb' 8 3 ++ op.extractLsb' 0 8 = op := by
  refine eq_of_fields _ _ [(15, 1), (12, 3), (11, 1), (8, 3), (0, 8)] (by decide) ?_
  simp only [List.forall_mem_cons, fields_1_3_1_3_8, List.not_mem_nil, false_imp_iff, forall_const, and_self]

end Sys2Proof
end

