-- ==== Sys2Proof/Laws/Encode.lean ====
section
/-! SUPPORT. What the encoder writes meets the constraints of its row, and its fields and extension words read
back (30_encoding.md R62 to R67). -/

namespace Sys2Proof
open Machine

/-- The code of an addressing mode, as `eaCode` numbers the fields. -/
def EA.code : EA → Nat
  | .dn _ => 0
  | .an _ => 1
  | .ind _ => 2
  | .postInc _ => 3
  | .preDec _ => 4
  | .disp .. => 5
  | .index .. => 6
  | .absW _ => 7
  | .absL _ => 8
  | .pcDisp _ => 9
  | .pcIndex _ => 10
  | .imm _ => 11

theorem EA.code_eq (e : EA) : eaCode e.mode e.reg = e.code := by cases e <;> rfl

/-- The fields of an operand of a class are admitted by the class (R66, R81). -/
theorem EA.admits {e : EA} {c : EAClass} {sz : Size} (h : e.ok c sz = true) : c.admits e.mode e.reg = true := by
  rw [EAClass.admits, EA.code_eq]
  revert h
  cases c <;> cases e <;> first
    | exact fun _ => rfl
    | exact fun h => Bool.noConfusion h

theorem Size.std_ne (sz : Size) : sz.std ≠ 3#2 := by cases sz <;> decide
theorem Size.moveBits_ne (sz : Size) : sz.moveBits ≠ 0#2 := by cases sz <;> decide
theorem Size.casBits_ne (sz : Size) : sz.casBits ≠ 0#2 := by cases sz <;> decide
theorem quick_admits {e : EA} {sz : Size} (h : e.ok (.quick sz) sz = true) :
    (if sz.std = 0#2 then EAClass.altnoAn else .alt).admits e.mode e.reg = true := by
  cases sz <;> exact EA.admits h
theorem source_admits {e : EA} {sz : Size} (h : e.ok (.source sz) sz = true) :
    (if sz.std = 0#2 then EAClass.allnoAn else .all).admits e.mode e.reg = true := by
  cases sz <;> exact EA.admits h
theorem move_admits {e : EA} {sz : Size} (h : e.ok (.source sz) sz = true) :
    (if sz.moveBits = 1#2 then EAClass.allnoAn else .all).admits e.mode e.reg = true := by
  cases sz <;> exact EA.admits h
theorem Cond.branches_bits {c : Cond} (h : c.branches = true) : 2 ≤ c.bits.toNat := by
  cases c <;> first | exact Bool.noConfusion h | decide
theorem trapForm_ok (o : TrapOperand) : o.bits = 2#3 ∨ o.bits = 3#3 ∨ o.bits = 4#3 := by
  cases o <;> simp [TrapOperand.bits]
theorem extract_13_1 (op : Word) : op.extractLsb' 13 1 = (op.extractLsb' 12 2).extractLsb' 1 1 := by
  apply BitVec.eq_of_getLsbD_eq
  intro i hi
  have h : 1 + i < 2 := by omega
  simp [hi, h, ← Nat.add_assoc]
theorem moveaSize_ok {sz : Size} (h : sz.wordOrLong = true) : sz.moveBits.extractLsb' 1 1 = 1#1 := by
  cases sz <;> first | exact Bool.noConfusion h | decide

/-- Two words agree on some fields, given by lowest bit and width. -/
def FieldsAgree (op p : Word) : List (Nat × Nat) → Prop
  | [] => True
  | f :: fs => op.extractLsb' f.1 f.2 = p.extractLsb' f.1 f.2 ∧ FieldsAgree op p fs

theorem FieldsAgree.mem {op p : Word} : ∀ {fs : List (Nat × Nat)}, FieldsAgree op p fs →
    ∀ f ∈ fs, op.extractLsb' f.1 f.2 = p.extractLsb' f.1 f.2
  | _ :: _, h, _, .head _ => h.1
  | _ :: _, h, g, .tail _ m => FieldsAgree.mem h.2 g m

/-- A word meets some constraints. -/
def AllHold (op : Word) : List Check → Prop
  | [] => True
  | c :: cs => c.holds op = true ∧ AllHold op cs

theorem AllHold.all {op : Word} : ∀ {cs : List Check}, AllHold op cs → cs.all (Check.holds op) = true
  | [], _ => rfl
  | _ :: _, h => by rw [List.all_cons, h.1, AllHold.all h.2]; rfl

theorem holds_size {op : Word} {s : BitVec 2} (h : op.extractLsb' 6 2 = s) (k : s ≠ 3#2) : Check.size.holds op = true := by
  subst h; exact bne_iff_ne.mpr k
theorem holds_ea {op : Word} {m r : BitVec 3} {c : EAClass} (h1 : op.extractLsb' 3 3 = m) (h2 : op.extractLsb' 0 3 = r)
    (k : c.admits m r = true) : (Check.ea c).holds op = true := by
  subst h1 h2; exact k
theorem holds_sizedEA {op : Word} {m r : BitVec 3} {s : BitVec 2} {c d : EAClass} (h0 : op.extractLsb' 6 2 = s)
    (h1 : op.extractLsb' 3 3 = m) (h2 : op.extractLsb' 0 3 = r)
    (k : (if s = 0#2 then c else d).admits m r = true) : (Check.sizedEA c d).holds op = true := by
  subst h0 h1 h2; exact k
theorem holds_moveSize {op : Word} {s : BitVec 2} (h : op.extractLsb' 12 2 = s) (k : s ≠ 0#2) :
    Check.moveSize.holds op = true := by
  subst h; exact bne_iff_ne.mpr k
theorem holds_moveaSize {op : Word} {s : BitVec 2} (h : op.extractLsb' 12 2 = s) (k : s.extractLsb' 1 1 = 1#1) :
    Check.moveaSize.holds op = true := by
  subst h; exact beq_iff_eq.mpr ((extract_13_1 op).trans k)
theorem holds_moveSource {op : Word} {m r : BitVec 3} {s : BitVec 2} (h0 : op.extractLsb' 12 2 = s)
    (h1 : op.extractLsb' 3 3 = m) (h2 : op.extractLsb' 0 3 = r)
    (k : (if s = 1#2 then EAClass.allnoAn else .all).admits m r = true) : Check.moveSource.holds op = true := by
  subst h0 h1 h2; exact k
theorem holds_moveDest {op : Word} {m r : BitVec 3} {c : EAClass} (h1 : op.extractLsb' 6 3 = m)
    (h2 : op.extractLsb' 9 3 = r) (k : c.admits m r = true) : (Check.moveDest c).holds op = true := by
  subst h1 h2; exact k
theorem holds_casSize {op : Word} {s : BitVec 2} (h : op.extractLsb' 9 2 = s) (k : s ≠ 0#2) :
    Check.casSize.holds op = true := by
  subst h; exact bne_iff_ne.mpr k
theorem holds_branchCond {op : Word} {c : BitVec 4} (h : op.extractLsb' 8 4 = c) (k : 2 ≤ c.toNat) :
    Check.branchCond.holds op = true := by
  subst h; exact decide_eq_true k
theorem holds_trapForm {op : Word} {p : BitVec 3} (h : op.extractLsb' 0 3 = p) (k : p = 2#3 ∨ p = 3#3 ∨ p = 4#3) :
    Check.trapForm.holds op = true := by
  simp only [Check.holds, h]; rcases k with rfl | rfl | rfl <;> rfl

/-- A word with a row's fixed fields that meets its constraints belongs to the row. -/
theorem lookup_row {op : Word} {r : Row} (k : Nat) (hr : opcodeTable[k]? = some r) (fs : List (Nat × Nat))
    (hm : fs.foldr (fun f w => fieldMask f ||| w) 0 = r.mask) (hp : r.pattern &&& r.mask = r.pattern)
    (h : FieldsAgree op r.pattern fs) (hc : AllHold op r.checks) : lookup true op = some r.row := by
  refine lookup_eq (List.mem_of_getElem? hr) ?_
  have hn : r.naming.admits true op = true := by cases r.naming <;> rfl
  simp [Row.claims, and_of_fields op r.mask r.pattern fs hm hp h.mem, hc.all, hn]

/-! ## Reading back what the encoder wrote -/

@[simp] theorem regOf_regBits (r : Reg) : regOf (regBits r) = r := rfl
theorem Size.ofStd_std (sz : Size) : Size.ofStd sz.std = sz := by cases sz <;> rfl
theorem Size.ofMove_moveBits (sz : Size) : Size.ofMove sz.moveBits = sz := by cases sz <;> rfl
theorem Size.ofCas_casBits (sz : Size) : Size.ofCas sz.casBits = sz := by cases sz <;> rfl
theorem Size.of_longBit {sz : Size} (h : sz.wordOrLong = true) : Size.ofLongBit sz.longBit = sz := by
  cases sz <;> first | rfl | exact Bool.noConfusion h
theorem Cond.ofBits_bits (c : Cond) : Cond.ofBits c.bits = c := by cases c <;> rfl
theorem bit_get (b : Bool) : (bit b).getLsbD 0 = b := by cases b <;> rfl
theorem Word.getLsbD_field (w : Word) (k : Nat) : w.getLsbD k = (w.extractLsb' k 1).getLsbD 0 := by
  simp
theorem byte_get (b : Byte) : (BitVec.setWidth 16 b).extractLsb' 0 8 = b := by
  apply BitVec.eq_of_getLsbD_eq
  intro i hi
  have : i < 16 := by omega
  simp [hi, this]
theorem longWords_get (v : Long) : v.extractLsb' 16 16 ++ v.extractLsb' 0 16 = v := by
  apply BitVec.eq_of_getLsbD_eq
  intro i hi
  simp only [BitVec.getLsbD_append, BitVec.getLsbD_extractLsb']
  split <;> grind
theorem Index.ofWord_toWord (x : Index) : Index.ofWord x.toWord = x := by
  have f := fields_1_3_1_3_8 (bit x.isAddr) (regBits x.reg) (bit x.long) 0#3 x.disp
  cases x
  simp only [-BitVec.reduceAppend, Index.ofWord, Index.toWord, Word.getLsbD_field, f, bit_get, regOf_regBits] at *
/-- An immediate reads back (R67). -/
theorem takeImm_words {sz : Size} {v : Long} (h : sz.fits v = true) (rest : List Word) :
    takeImm sz (immWords sz v ++ rest) = some (v, rest) := by
  cases sz
  · simp only [Size.fits, decide_eq_true_eq] at h
    simp only [immWords, List.cons_append, List.nil_append, takeImm, byte_get]
    congr 2
    apply BitVec.eq_of_toNat_eq
    simp; omega
  · simp only [Size.fits, decide_eq_true_eq] at h
    simp only [immWords, List.cons_append, List.nil_append, takeImm]
    congr 2
    apply BitVec.eq_of_toNat_eq
    simp; omega
  · simp only [immWords, longWords, List.cons_append, List.nil_append, takeImm, takeLong, longWords_get]
/-- An operand reads back (R64). -/
theorem takeEA_words {c : EAClass} {sz : Size} {e : EA} (h : e.ok c sz = true) (rest : List Word) :
    takeEA e.mode e.reg sz (e.words sz ++ rest) = some (e, rest) := by
  cases e with
  | imm v =>
    simp only [EA.ok, Bool.and_eq_true] at h
    simp only [takeEA, EA.mode, EA.reg, EA.words, takeImm_words h.2, Option.map_some]
    rfl
  | _ =>
    simp only [takeEA, EA.mode, EA.reg, EA.words, longWords, takeLong, takeWord, List.cons_append, List.nil_append, Option.map_some, regOf_regBits, longWords_get, Index.ofWord_toWord] <;> rfl
theorem branchDisp_words {d : BranchDisp} (h : d.ok = true) {op : Word} (e : op.extractLsb' 0 8 = d.bits) (rest : List Word) (k : BranchDisp → Instr) :
    withBranchDisp op (d.words ++ rest) k = some (k d, rest) := by
  cases d with
  | byte b =>
    simp only [BranchDisp.ok, bne_iff_ne] at h
    simp only [withBranchDisp, e, BranchDisp.bits, BranchDisp.words, List.nil_append]
    rw [if_neg (by exact h)]
  | word w =>
    simp only [withBranchDisp, e, BranchDisp.bits, BranchDisp.words, takeWord, List.cons_append, List.nil_append, Option.map_some, if_pos]
theorem Count.of_fields (c : Count) :
    (if c.byReg.getLsbD 0 = true then Count.reg (regOf c.field) else Count.imm c.field) = c := by
  cases c <;> simp [Count.byReg, Count.field]

end Sys2Proof
end

