-- ==== Sys2Proof/Laws/PerInstr.lean ====
section
/-! SUPPORT. Three families of statements about the instructions as syntax, one lemma per constructor: how many
words an instruction has, which row its opcode word belongs to, and that its operands read back. -/

set_option linter.unusedSimpArgs false

namespace Sys2Proof

/-! ## Length: one to five words (30_encoding.md R61) -/

theorem immWords_length_le (sz : Size) (v : Long) : (immWords sz v).length ≤ 2 := by cases sz <;> simp [immWords, longWords]
theorem EA.words_length_le (sz : Size) (e : EA) : (e.words sz).length ≤ 2 := by
  cases e <;> simp [EA.words, longWords, immWords_length_le]

namespace Laws.Length

def Statement (i : Instr) : Prop := 1 ≤ (encode i).length ∧ (encode i).length ≤ 5

variable {op w : Word}

def Short (l : List Word) : Prop := 1 ≤ (op :: l).length ∧ (op :: l).length ≤ 5

theorem length_imm_ea (sz : Size) (v : Long) (e : EA) : Short (op := op) (immWords sz v ++ e.words sz) := by
  have := immWords_length_le sz v
  have := e.words_length_le sz
  simp only [Short, List.length_cons, List.length_append]; omega
theorem length_ea_ea (sz : Size) (e f : EA) : Short (op := op) (e.words sz ++ f.words sz) := by
  have := e.words_length_le sz
  have := f.words_length_le sz
  simp only [Short, List.length_cons, List.length_append]; omega
theorem length_word_ea (w : Word) (sz : Size) (e : EA) : Short (op := op) (w :: e.words sz) := by
  have := e.words_length_le sz
  simp only [Short, List.length_cons]; omega
theorem length_ea (sz : Size) (e : EA) : Short (op := op) (e.words sz) := by
  have := e.words_length_le sz
  simp only [Short, List.length_cons]; omega
theorem length_none : Short (op := op) [] := by simp [Short]
theorem length_one (w : Word) : Short (op := op) [w] := by simp [Short]
theorem length_disp (d : BranchDisp) : Short (op := op) d.words := by cases d <;> simp [Short, BranchDisp.words]
theorem length_trap (o : TrapOperand) : Short (op := op) o.words := by
  cases o <;> simp [Short, TrapOperand.words, longWords]

theorem oriToCcr (imm : Byte) : Statement (.oriToCcr imm) := length_one _
theorem oriToSr (imm : Word) : Statement (.oriToSr imm) := length_one _
theorem ori (sz : Size) (imm : Long) (ea : EA) : Statement (.ori sz imm ea) := length_imm_ea _ _ _
theorem andiToCcr (imm : Byte) : Statement (.andiToCcr imm) := length_one _
theorem andiToSr (imm : Word) : Statement (.andiToSr imm) := length_one _
theorem andi (sz : Size) (imm : Long) (ea : EA) : Statement (.andi sz imm ea) := length_imm_ea _ _ _
theorem subi (sz : Size) (imm : Long) (ea : EA) : Statement (.subi sz imm ea) := length_imm_ea _ _ _
theorem addi (sz : Size) (imm : Long) (ea : EA) : Statement (.addi sz imm ea) := length_imm_ea _ _ _
theorem eoriToCcr (imm : Byte) : Statement (.eoriToCcr imm) := length_one _
theorem eoriToSr (imm : Word) : Statement (.eoriToSr imm) := length_one _
theorem eori (sz : Size) (imm : Long) (ea : EA) : Statement (.eori sz imm ea) := length_imm_ea _ _ _
theorem cmpi (sz : Size) (imm : Long) (ea : EA) : Statement (.cmpi sz imm ea) := length_imm_ea _ _ _
theorem btstImm (num : Byte) (ea : EA) : Statement (.btstImm num ea) := length_word_ea _ _ _
theorem bchgImm (num : Byte) (ea : EA) : Statement (.bchgImm num ea) := length_word_ea _ _ _
theorem bclrImm (num : Byte) (ea : EA) : Statement (.bclrImm num ea) := length_word_ea _ _ _
theorem bsetImm (num : Byte) (ea : EA) : Statement (.bsetImm num ea) := length_word_ea _ _ _
theorem btstDn (d : Reg) (ea : EA) : Statement (.btstDn d ea) := length_ea _ _
theorem bchgDn (d : Reg) (ea : EA) : Statement (.bchgDn d ea) := length_ea _ _
theorem bclrDn (d : Reg) (ea : EA) : Statement (.bclrDn d ea) := length_ea _ _
theorem bsetDn (d : Reg) (ea : EA) : Statement (.bsetDn d ea) := length_ea _ _
theorem movep (d : Reg) (toMem : Bool) (long : Bool) (a : Reg) (disp : Word) : Statement (.movep d toMem long a disp) := length_one _
theorem cas (sz : Size) (dc : Reg) (du : Reg) (ea : EA) : Statement (.cas sz dc du ea) := length_word_ea _ _ _
theorem move (sz : Size) (src : EA) (dst : EA) : Statement (.move sz src dst) := length_ea_ea _ _ _
theorem movea (sz : Size) (src : EA) (a : Reg) : Statement (.movea sz src a) := length_ea _ _
theorem negx (sz : Size) (ea : EA) : Statement (.negx sz ea) := length_ea _ _
theorem moveFromSr (ea : EA) : Statement (.moveFromSr ea) := length_ea _ _
theorem chk (ea : EA) (d : Reg) : Statement (.chk ea d) := length_ea _ _
theorem lea (ea : EA) (a : Reg) : Statement (.lea ea a) := length_ea _ _
theorem clr (sz : Size) (ea : EA) : Statement (.clr sz ea) := length_ea _ _
theorem moveFromCcr (ea : EA) : Statement (.moveFromCcr ea) := length_ea _ _
theorem neg (sz : Size) (ea : EA) : Statement (.neg sz ea) := length_ea _ _
theorem moveToCcr (ea : EA) : Statement (.moveToCcr ea) := length_ea _ _
theorem not (sz : Size) (ea : EA) : Statement (.not sz ea) := length_ea _ _
theorem moveToSr (ea : EA) : Statement (.moveToSr ea) := length_ea _ _
theorem nbcd (ea : EA) : Statement (.nbcd ea) := length_ea _ _
theorem swap (d : Reg) : Statement (.swap d) := length_none
theorem pea (ea : EA) : Statement (.pea ea) := length_ea _ _
theorem extW (d : Reg) : Statement (.extW d) := length_none
theorem extL (d : Reg) : Statement (.extL d) := length_none
theorem movemToMem (sz : Size) (mask : Word) (ea : EA) : Statement (.movemToMem sz mask ea) := length_word_ea _ _ _
theorem tst (sz : Size) (ea : EA) : Statement (.tst sz ea) := length_ea _ _
theorem tas (ea : EA) : Statement (.tas ea) := length_ea _ _
theorem illegal : Statement (.illegal) := length_none
theorem mull (signed : Bool) (wide : Bool) (l : Reg) (h : Reg) (ea : EA) : Statement (.mull signed wide l h ea) := length_word_ea _ _ _
theorem divl (signed : Bool) (wide : Bool) (q : Reg) (r : Reg) (ea : EA) : Statement (.divl signed wide q r ea) := length_word_ea _ _ _
theorem movemToReg (sz : Size) (mask : Word) (ea : EA) : Statement (.movemToReg sz mask ea) := length_word_ea _ _ _
theorem trap (v : BitVec 4) : Statement (.trap v) := length_none
theorem link (a : Reg) (disp : Word) : Statement (.link a disp) := length_one _
theorem unlk (a : Reg) : Statement (.unlk a) := length_none
theorem moveToUsp (a : Reg) : Statement (.moveToUsp a) := length_none
theorem moveFromUsp (a : Reg) : Statement (.moveFromUsp a) := length_none
theorem reset : Statement (.reset) := length_none
theorem nop : Statement (.nop) := length_none
theorem stop (imm : Word) : Statement (.stop imm) := length_one _
theorem rte : Statement (.rte) := length_none
theorem rts : Statement (.rts) := length_none
theorem trapv : Statement (.trapv) := length_none
theorem rtr : Statement (.rtr) := length_none
theorem jsr (ea : EA) : Statement (.jsr ea) := length_ea _ _
theorem jmp (ea : EA) : Statement (.jmp ea) := length_ea _ _
theorem addq (q : BitVec 3) (sz : Size) (ea : EA) : Statement (.addq q sz ea) := length_ea _ _
theorem subq (q : BitVec 3) (sz : Size) (ea : EA) : Statement (.subq q sz ea) := length_ea _ _
theorem scc (c : Cond) (ea : EA) : Statement (.scc c ea) := length_ea _ _
theorem dbcc (c : Cond) (d : Reg) (disp : Word) : Statement (.dbcc c d disp) := length_one _
theorem trapcc (c : Cond) (opnd : TrapOperand) : Statement (.trapcc c opnd) := length_trap _
theorem bra (disp : BranchDisp) : Statement (.bra disp) := length_disp _
theorem bsr (disp : BranchDisp) : Statement (.bsr disp) := length_disp _
theorem bcc (c : Cond) (disp : BranchDisp) : Statement (.bcc c disp) := length_disp _
theorem moveq (k : Byte) (d : Reg) : Statement (.moveq k d) := length_none
theorem divuW (ea : EA) (d : Reg) : Statement (.divuW ea d) := length_ea _ _
theorem divsW (ea : EA) (d : Reg) : Statement (.divsW ea d) := length_ea _ _
theorem sbcd (mem : Bool) (y : Reg) (x : Reg) : Statement (.sbcd mem y x) := length_none
theorem orEaDn (sz : Size) (ea : EA) (d : Reg) : Statement (.orEaDn sz ea d) := length_ea _ _
theorem orDnEa (sz : Size) (d : Reg) (ea : EA) : Statement (.orDnEa sz d ea) := length_ea _ _
theorem subEaDn (sz : Size) (ea : EA) (d : Reg) : Statement (.subEaDn sz ea d) := length_ea _ _
theorem subDnEa (sz : Size) (d : Reg) (ea : EA) : Statement (.subDnEa sz d ea) := length_ea _ _
theorem suba (sz : Size) (ea : EA) (a : Reg) : Statement (.suba sz ea a) := length_ea _ _
theorem subx (sz : Size) (mem : Bool) (y : Reg) (x : Reg) : Statement (.subx sz mem y x) := length_none
theorem cmp (sz : Size) (ea : EA) (d : Reg) : Statement (.cmp sz ea d) := length_ea _ _
theorem cmpa (sz : Size) (ea : EA) (a : Reg) : Statement (.cmpa sz ea a) := length_ea _ _
theorem eor (sz : Size) (d : Reg) (ea : EA) : Statement (.eor sz d ea) := length_ea _ _
theorem cmpm (sz : Size) (y : Reg) (x : Reg) : Statement (.cmpm sz y x) := length_none
theorem muluW (ea : EA) (d : Reg) : Statement (.muluW ea d) := length_ea _ _
theorem mulsW (ea : EA) (d : Reg) : Statement (.mulsW ea d) := length_ea _ _
theorem abcd (mem : Bool) (y : Reg) (x : Reg) : Statement (.abcd mem y x) := length_none
theorem exgDD (x : Reg) (y : Reg) : Statement (.exgDD x y) := length_none
theorem exgAA (x : Reg) (y : Reg) : Statement (.exgAA x y) := length_none
theorem exgDA (x : Reg) (y : Reg) : Statement (.exgDA x y) := length_none
theorem andEaDn (sz : Size) (ea : EA) (d : Reg) : Statement (.andEaDn sz ea d) := length_ea _ _
theorem andDnEa (sz : Size) (d : Reg) (ea : EA) : Statement (.andDnEa sz d ea) := length_ea _ _
theorem addEaDn (sz : Size) (ea : EA) (d : Reg) : Statement (.addEaDn sz ea d) := length_ea _ _
theorem addDnEa (sz : Size) (d : Reg) (ea : EA) : Statement (.addDnEa sz d ea) := length_ea _ _
theorem adda (sz : Size) (ea : EA) (a : Reg) : Statement (.adda sz ea a) := length_ea _ _
theorem addx (sz : Size) (mem : Bool) (y : Reg) (x : Reg) : Statement (.addx sz mem y x) := length_none
theorem asrReg (sz : Size) (cnt : Count) (y : Reg) : Statement (.asrReg sz cnt y) := length_none
theorem asrMem (ea : EA) : Statement (.asrMem ea) := length_ea _ _
theorem aslReg (sz : Size) (cnt : Count) (y : Reg) : Statement (.aslReg sz cnt y) := length_none
theorem aslMem (ea : EA) : Statement (.aslMem ea) := length_ea _ _
theorem lsrReg (sz : Size) (cnt : Count) (y : Reg) : Statement (.lsrReg sz cnt y) := length_none
theorem lsrMem (ea : EA) : Statement (.lsrMem ea) := length_ea _ _
theorem lslReg (sz : Size) (cnt : Count) (y : Reg) : Statement (.lslReg sz cnt y) := length_none
theorem lslMem (ea : EA) : Statement (.lslMem ea) := length_ea _ _
theorem roxrReg (sz : Size) (cnt : Count) (y : Reg) : Statement (.roxrReg sz cnt y) := length_none
theorem roxrMem (ea : EA) : Statement (.roxrMem ea) := length_ea _ _
theorem roxlReg (sz : Size) (cnt : Count) (y : Reg) : Statement (.roxlReg sz cnt y) := length_none
theorem roxlMem (ea : EA) : Statement (.roxlMem ea) := length_ea _ _
theorem rorReg (sz : Size) (cnt : Count) (y : Reg) : Statement (.rorReg sz cnt y) := length_none
theorem rorMem (ea : EA) : Statement (.rorMem ea) := length_ea _ _
theorem rolReg (sz : Size) (cnt : Count) (y : Reg) : Statement (.rolReg sz cnt y) := length_none
theorem rolMem (ea : EA) : Statement (.rolMem ea) := length_ea _ _

end Laws.Length

/-! ## Opcode: the row of an instruction's opcode word is the instruction's (R81) -/

namespace Laws.Opcode

def Statement (i : Instr) : Prop := i.wf = true → lookup true i.opcode = some i.mnemonic

theorem oriToCcr (imm : Byte) : Statement (.oriToCcr imm) := fun _ =>
  lookup_row 0 rfl [(0, 16)] rfl rfl ⟨rfl, trivial⟩ trivial
theorem oriToSr (imm : Word) : Statement (.oriToSr imm) := fun _ =>
  lookup_row 1 rfl [(0, 16)] rfl rfl ⟨rfl, trivial⟩ trivial
theorem ori (sz : Size) (imm : Long) (ea : EA) : Statement (.ori sz imm ea) := by
  intro hwf
  have hwf := Bool.and_eq_true_iff.mp (show (sz.fits imm && ea.ok .DA sz) = true from hwf)
  have f := fields_8_2_ea 0x00#8 sz.std ea.mode ea.reg
  exact lookup_row (op := 0x00#8 ++ sz.std ++ (ea.mode ++ ea.reg)) 2 rfl [(8, 8)] rfl rfl ⟨f.1, trivial⟩
    ⟨holds_size f.2.1 (Size.std_ne _), holds_ea f.2.2.1 f.2.2.2 (EA.admits hwf.2), trivial⟩
theorem andiToCcr (imm : Byte) : Statement (.andiToCcr imm) := fun _ =>
  lookup_row 3 rfl [(0, 16)] rfl rfl ⟨rfl, trivial⟩ trivial
theorem andiToSr (imm : Word) : Statement (.andiToSr imm) := fun _ =>
  lookup_row 4 rfl [(0, 16)] rfl rfl ⟨rfl, trivial⟩ trivial
theorem andi (sz : Size) (imm : Long) (ea : EA) : Statement (.andi sz imm ea) := by
  intro hwf
  have hwf := Bool.and_eq_true_iff.mp (show (sz.fits imm && ea.ok .DA sz) = true from hwf)
  have f := fields_8_2_ea 0x02#8 sz.std ea.mode ea.reg
  exact lookup_row (op := 0x02#8 ++ sz.std ++ (ea.mode ++ ea.reg)) 5 rfl [(8, 8)] rfl rfl ⟨f.1, trivial⟩
    ⟨holds_size f.2.1 (Size.std_ne _), holds_ea f.2.2.1 f.2.2.2 (EA.admits hwf.2), trivial⟩
theorem subi (sz : Size) (imm : Long) (ea : EA) : Statement (.subi sz imm ea) := by
  intro hwf
  have hwf := Bool.and_eq_true_iff.mp (show (sz.fits imm && ea.ok .DA sz) = true from hwf)
  have f := fields_8_2_ea 0x04#8 sz.std ea.mode ea.reg
  exact lookup_row (op := 0x04#8 ++ sz.std ++ (ea.mode ++ ea.reg)) 6 rfl [(8, 8)] rfl rfl ⟨f.1, trivial⟩
    ⟨holds_size f.2.1 (Size.std_ne _), holds_ea f.2.2.1 f.2.2.2 (EA.admits hwf.2), trivial⟩
theorem addi (sz : Size) (imm : Long) (ea : EA) : Statement (.addi sz imm ea) := by
  intro hwf
  have hwf := Bool.and_eq_true_iff.mp (show (sz.fits imm && ea.ok .DA sz) = true from hwf)
  have f := fields_8_2_ea 0x06#8 sz.std ea.mode ea.reg
  exact lookup_row (op := 0x06#8 ++ sz.std ++ (ea.mode ++ ea.reg)) 7 rfl [(8, 8)] rfl rfl ⟨f.1, trivial⟩
    ⟨holds_size f.2.1 (Size.std_ne _), holds_ea f.2.2.1 f.2.2.2 (EA.admits hwf.2), trivial⟩
theorem eoriToCcr (imm : Byte) : Statement (.eoriToCcr imm) := fun _ =>
  lookup_row 8 rfl [(0, 16)] rfl rfl ⟨rfl, trivial⟩ trivial
theorem eoriToSr (imm : Word) : Statement (.eoriToSr imm) := fun _ =>
  lookup_row 9 rfl [(0, 16)] rfl rfl ⟨rfl, trivial⟩ trivial
theorem eori (sz : Size) (imm : Long) (ea : EA) : Statement (.eori sz imm ea) := by
  intro hwf
  have hwf := Bool.and_eq_true_iff.mp (show (sz.fits imm && ea.ok .DA sz) = true from hwf)
  have f := fields_8_2_ea 0x0A#8 sz.std ea.mode ea.reg
  exact lookup_row (op := 0x0A#8 ++ sz.std ++ (ea.mode ++ ea.reg)) 10 rfl [(8, 8)] rfl rfl ⟨f.1, trivial⟩
    ⟨holds_size f.2.1 (Size.std_ne _), holds_ea f.2.2.1 f.2.2.2 (EA.admits hwf.2), trivial⟩
theorem cmpi (sz : Size) (imm : Long) (ea : EA) : Statement (.cmpi sz imm ea) := by
  intro hwf
  have hwf := Bool.and_eq_true_iff.mp (show (sz.fits imm && ea.ok .DA sz) = true from hwf)
  have f := fields_8_2_ea 0x0C#8 sz.std ea.mode ea.reg
  exact lookup_row (op := 0x0C#8 ++ sz.std ++ (ea.mode ++ ea.reg)) 11 rfl [(8, 8)] rfl rfl ⟨f.1, trivial⟩
    ⟨holds_size f.2.1 (Size.std_ne _), holds_ea f.2.2.1 f.2.2.2 (EA.admits hwf.2), trivial⟩
theorem btstImm (num : Byte) (ea : EA) : Statement (.btstImm num ea) := by
  intro hwf
  have hwf : ea.ok .dataNoImm .b = true := hwf
  have f := fields_8_2_ea 0x08#8 0#2 ea.mode ea.reg
  exact lookup_row (op := 0x08#8 ++ 0#2 ++ (ea.mode ++ ea.reg)) 12 rfl [(8, 8), (6, 2)] rfl rfl ⟨f.1, f.2.1, trivial⟩
    ⟨holds_ea f.2.2.1 f.2.2.2 (EA.admits hwf), trivial⟩
theorem bchgImm (num : Byte) (ea : EA) : Statement (.bchgImm num ea) := by
  intro hwf
  have hwf : ea.ok .DA .b = true := hwf
  have f := fields_8_2_ea 0x08#8 1#2 ea.mode ea.reg
  exact lookup_row (op := 0x08#8 ++ 1#2 ++ (ea.mode ++ ea.reg)) 13 rfl [(8, 8), (6, 2)] rfl rfl ⟨f.1, f.2.1, trivial⟩
    ⟨holds_ea f.2.2.1 f.2.2.2 (EA.admits hwf), trivial⟩
theorem bclrImm (num : Byte) (ea : EA) : Statement (.bclrImm num ea) := by
  intro hwf
  have hwf : ea.ok .DA .b = true := hwf
  have f := fields_8_2_ea 0x08#8 2#2 ea.mode ea.reg
  exact lookup_row (op := 0x08#8 ++ 2#2 ++ (ea.mode ++ ea.reg)) 14 rfl [(8, 8), (6, 2)] rfl rfl ⟨f.1, f.2.1, trivial⟩
    ⟨holds_ea f.2.2.1 f.2.2.2 (EA.admits hwf), trivial⟩
theorem bsetImm (num : Byte) (ea : EA) : Statement (.bsetImm num ea) := by
  intro hwf
  have hwf : ea.ok .DA .b = true := hwf
  have f := fields_8_2_ea 0x08#8 3#2 ea.mode ea.reg
  exact lookup_row (op := 0x08#8 ++ 3#2 ++ (ea.mode ++ ea.reg)) 15 rfl [(8, 8), (6, 2)] rfl rfl ⟨f.1, f.2.1, trivial⟩
    ⟨holds_ea f.2.2.1 f.2.2.2 (EA.admits hwf), trivial⟩
theorem btstDn (d : Reg) (ea : EA) : Statement (.btstDn d ea) := by
  intro hwf
  have hwf : ea.ok .data .b = true := hwf
  have f := fields_4_3_1_2_ea 0#4 (regBits d) 1#1 0#2 ea.mode ea.reg
  exact lookup_row (op := 0#4 ++ (regBits d) ++ 1#1 ++ 0#2 ++ (ea.mode ++ ea.reg)) 16 rfl [(12, 4), (8, 1), (6, 2)] rfl rfl ⟨f.1, f.2.2.1, f.2.2.2.1, trivial⟩
    ⟨holds_ea f.2.2.2.2.1 f.2.2.2.2.2 (EA.admits hwf), trivial⟩
theorem bchgDn (d : Reg) (ea : EA) : Statement (.bchgDn d ea) := by
  intro hwf
  have hwf : ea.ok .DA .b = true := hwf
  have f := fields_4_3_1_2_ea 0#4 (regBits d) 1#1 1#2 ea.mode ea.reg
  exact lookup_row (op := 0#4 ++ (regBits d) ++ 1#1 ++ 1#2 ++ (ea.mode ++ ea.reg)) 17 rfl [(12, 4), (8, 1), (6, 2)] rfl rfl ⟨f.1, f.2.2.1, f.2.2.2.1, trivial⟩
    ⟨holds_ea f.2.2.2.2.1 f.2.2.2.2.2 (EA.admits hwf), trivial⟩
theorem bclrDn (d : Reg) (ea : EA) : Statement (.bclrDn d ea) := by
  intro hwf
  have hwf : ea.ok .DA .b = true := hwf
  have f := fields_4_3_1_2_ea 0#4 (regBits d) 1#1 2#2 ea.mode ea.reg
  exact lookup_row (op := 0#4 ++ (regBits d) ++ 1#1 ++ 2#2 ++ (ea.mode ++ ea.reg)) 18 rfl [(12, 4), (8, 1), (6, 2)] rfl rfl ⟨f.1, f.2.2.1, f.2.2.2.1, trivial⟩
    ⟨holds_ea f.2.2.2.2.1 f.2.2.2.2.2 (EA.admits hwf), trivial⟩
theorem bsetDn (d : Reg) (ea : EA) : Statement (.bsetDn d ea) := by
  intro hwf
  have hwf : ea.ok .DA .b = true := hwf
  have f := fields_4_3_1_2_ea 0#4 (regBits d) 1#1 3#2 ea.mode ea.reg
  exact lookup_row (op := 0#4 ++ (regBits d) ++ 1#1 ++ 3#2 ++ (ea.mode ++ ea.reg)) 19 rfl [(12, 4), (8, 1), (6, 2)] rfl rfl ⟨f.1, f.2.2.1, f.2.2.2.1, trivial⟩
    ⟨holds_ea f.2.2.2.2.1 f.2.2.2.2.2 (EA.admits hwf), trivial⟩
theorem movep (d : Reg) (toMem : Bool) (long : Bool) (a : Reg) (disp : Word) : Statement (.movep d toMem long a disp) := by
  intro _
  have f := fields_4_3_1_1_1_3_3 0#4 (regBits d) 1#1 (bit toMem) (bit long) 1#3 (regBits a)
  exact lookup_row (op := 0#4 ++ (regBits d) ++ 1#1 ++ (bit toMem) ++ (bit long) ++ 1#3 ++ (regBits a)) 20 rfl [(12, 4), (8, 1), (3, 3)] rfl rfl ⟨f.1, f.2.2.1, f.2.2.2.2.2.1, trivial⟩
    trivial
theorem cas (sz : Size) (dc : Reg) (du : Reg) (ea : EA) : Statement (.cas sz dc du ea) := by
  intro hwf
  have hwf : ea.ok .MA sz = true := hwf
  have f := fields_5_2_1_2_ea 1#5 sz.casBits 0#1 3#2 ea.mode ea.reg
  exact lookup_row (op := 1#5 ++ sz.casBits ++ 0#1 ++ 3#2 ++ (ea.mode ++ ea.reg)) 21 rfl [(11, 5), (8, 1), (6, 2)] rfl rfl ⟨f.1, f.2.2.1, f.2.2.2.1, trivial⟩
    ⟨holds_casSize f.2.1 (Size.casBits_ne _), holds_ea f.2.2.2.2.1 f.2.2.2.2.2 (EA.admits hwf), trivial⟩
theorem move (sz : Size) (src : EA) (dst : EA) : Statement (.move sz src dst) := by
  intro hwf
  have hwf := Bool.and_eq_true_iff.mp (show (src.ok (.source sz) sz && dst.ok .DA sz) = true from hwf)
  have f := fields_2_2_3_3_ea 0#2 sz.moveBits dst.reg dst.mode src.mode src.reg
  exact lookup_row (op := 0#2 ++ sz.moveBits ++ dst.reg ++ dst.mode ++ (src.mode ++ src.reg)) 22 rfl [(14, 2)] rfl rfl ⟨f.1, trivial⟩
    ⟨holds_moveSize f.2.1 (Size.moveBits_ne _), holds_moveSource f.2.1 f.2.2.2.2.1 f.2.2.2.2.2 (move_admits hwf.1), holds_moveDest f.2.2.2.1 f.2.2.1 (EA.admits hwf.2), trivial⟩
theorem movea (sz : Size) (src : EA) (a : Reg) : Statement (.movea sz src a) := by
  intro hwf
  have hwf := Bool.and_eq_true_iff.mp (show (sz.wordOrLong && src.ok .all sz) = true from hwf)
  have f := fields_2_2_3_3_ea 0#2 sz.moveBits (regBits a) 1#3 src.mode src.reg
  exact lookup_row (op := 0#2 ++ sz.moveBits ++ (regBits a) ++ 1#3 ++ (src.mode ++ src.reg)) 23 rfl [(14, 2), (6, 3)] rfl rfl ⟨f.1, f.2.2.2.1, trivial⟩
    ⟨holds_moveaSize f.2.1 (moveaSize_ok hwf.1), holds_ea f.2.2.2.2.1 f.2.2.2.2.2 (EA.admits hwf.2), trivial⟩
theorem negx (sz : Size) (ea : EA) : Statement (.negx sz ea) := by
  intro hwf
  have hwf : ea.ok .DA sz = true := hwf
  have f := fields_8_2_ea 0x40#8 sz.std ea.mode ea.reg
  exact lookup_row (op := 0x40#8 ++ sz.std ++ (ea.mode ++ ea.reg)) 24 rfl [(8, 8)] rfl rfl ⟨f.1, trivial⟩
    ⟨holds_size f.2.1 (Size.std_ne _), holds_ea f.2.2.1 f.2.2.2 (EA.admits hwf), trivial⟩
theorem moveFromSr (ea : EA) : Statement (.moveFromSr ea) := by
  intro hwf
  have hwf : ea.ok .DA .w = true := hwf
  have f := fields_8_2_ea 0x40#8 3#2 ea.mode ea.reg
  exact lookup_row (op := 0x40#8 ++ 3#2 ++ (ea.mode ++ ea.reg)) 25 rfl [(8, 8), (6, 2)] rfl rfl ⟨f.1, f.2.1, trivial⟩
    ⟨holds_ea f.2.2.1 f.2.2.2 (EA.admits hwf), trivial⟩
theorem chk (ea : EA) (d : Reg) : Statement (.chk ea d) := by
  intro hwf
  have hwf : ea.ok .data .w = true := hwf
  have f := fields_4_3_1_2_ea 4#4 (regBits d) 1#1 2#2 ea.mode ea.reg
  exact lookup_row (op := 4#4 ++ (regBits d) ++ 1#1 ++ 2#2 ++ (ea.mode ++ ea.reg)) 26 rfl [(12, 4), (8, 1), (6, 2)] rfl rfl ⟨f.1, f.2.2.1, f.2.2.2.1, trivial⟩
    ⟨holds_ea f.2.2.2.2.1 f.2.2.2.2.2 (EA.admits hwf), trivial⟩
theorem lea (ea : EA) (a : Reg) : Statement (.lea ea a) := by
  intro hwf
  have hwf : ea.ok .ctrl .l = true := hwf
  have f := fields_4_3_1_2_ea 4#4 (regBits a) 1#1 3#2 ea.mode ea.reg
  exact lookup_row (op := 4#4 ++ (regBits a) ++ 1#1 ++ 3#2 ++ (ea.mode ++ ea.reg)) 27 rfl [(12, 4), (8, 1), (6, 2)] rfl rfl ⟨f.1, f.2.2.1, f.2.2.2.1, trivial⟩
    ⟨holds_ea f.2.2.2.2.1 f.2.2.2.2.2 (EA.admits hwf), trivial⟩
theorem clr (sz : Size) (ea : EA) : Statement (.clr sz ea) := by
  intro hwf
  have hwf : ea.ok .DA sz = true := hwf
  have f := fields_8_2_ea 0x42#8 sz.std ea.mode ea.reg
  exact lookup_row (op := 0x42#8 ++ sz.std ++ (ea.mode ++ ea.reg)) 28 rfl [(8, 8)] rfl rfl ⟨f.1, trivial⟩
    ⟨holds_size f.2.1 (Size.std_ne _), holds_ea f.2.2.1 f.2.2.2 (EA.admits hwf), trivial⟩
theorem moveFromCcr (ea : EA) : Statement (.moveFromCcr ea) := by
  intro hwf
  have hwf : ea.ok .DA .w = true := hwf
  have f := fields_8_2_ea 0x42#8 3#2 ea.mode ea.reg
  exact lookup_row (op := 0x42#8 ++ 3#2 ++ (ea.mode ++ ea.reg)) 29 rfl [(8, 8), (6, 2)] rfl rfl ⟨f.1, f.2.1, trivial⟩
    ⟨holds_ea f.2.2.1 f.2.2.2 (EA.admits hwf), trivial⟩
theorem neg (sz : Size) (ea : EA) : Statement (.neg sz ea) := by
  intro hwf
  have hwf : ea.ok .DA sz = true := hwf
  have f := fields_8_2_ea 0x44#8 sz.std ea.mode ea.reg
  exact lookup_row (op := 0x44#8 ++ sz.std ++ (ea.mode ++ ea.reg)) 30 rfl [(8, 8)] rfl rfl ⟨f.1, trivial⟩
    ⟨holds_size f.2.1 (Size.std_ne _), holds_ea f.2.2.1 f.2.2.2 (EA.admits hwf), trivial⟩
theorem moveToCcr (ea : EA) : Statement (.moveToCcr ea) := by
  intro hwf
  have hwf : ea.ok .data .w = true := hwf
  have f := fields_8_2_ea 0x44#8 3#2 ea.mode ea.reg
  exact lookup_row (op := 0x44#8 ++ 3#2 ++ (ea.mode ++ ea.reg)) 31 rfl [(8, 8), (6, 2)] rfl rfl ⟨f.1, f.2.1, trivial⟩
    ⟨holds_ea f.2.2.1 f.2.2.2 (EA.admits hwf), trivial⟩
theorem not (sz : Size) (ea : EA) : Statement (.not sz ea) := by
  intro hwf
  have hwf : ea.ok .DA sz = true := hwf
  have f := fields_8_2_ea 0x46#8 sz.std ea.mode ea.reg
  exact lookup_row (op := 0x46#8 ++ sz.std ++ (ea.mode ++ ea.reg)) 32 rfl [(8, 8)] rfl rfl ⟨f.1, trivial⟩
    ⟨holds_size f.2.1 (Size.std_ne _), holds_ea f.2.2.1 f.2.2.2 (EA.admits hwf), trivial⟩
theorem moveToSr (ea : EA) : Statement (.moveToSr ea) := by
  intro hwf
  have hwf : ea.ok .data .w = true := hwf
  have f := fields_8_2_ea 0x46#8 3#2 ea.mode ea.reg
  exact lookup_row (op := 0x46#8 ++ 3#2 ++ (ea.mode ++ ea.reg)) 33 rfl [(8, 8), (6, 2)] rfl rfl ⟨f.1, f.2.1, trivial⟩
    ⟨holds_ea f.2.2.1 f.2.2.2 (EA.admits hwf), trivial⟩
theorem nbcd (ea : EA) : Statement (.nbcd ea) := by
  intro hwf
  have hwf : ea.ok .DA .b = true := hwf
  have f := fields_8_2_ea 0x48#8 0#2 ea.mode ea.reg
  exact lookup_row (op := 0x48#8 ++ 0#2 ++ (ea.mode ++ ea.reg)) 34 rfl [(8, 8), (6, 2)] rfl rfl ⟨f.1, f.2.1, trivial⟩
    ⟨holds_ea f.2.2.1 f.2.2.2 (EA.admits hwf), trivial⟩
theorem swap (d : Reg) : Statement (.swap d) := by
  intro _
  have f := fields_8_2_3_3 0x48#8 1#2 0#3 (regBits d)
  exact lookup_row (op := 0x48#8 ++ 1#2 ++ 0#3 ++ (regBits d)) 35 rfl [(8, 8), (6, 2), (3, 3)] rfl rfl ⟨f.1, f.2.1, f.2.2.1, trivial⟩
    trivial
theorem pea (ea : EA) : Statement (.pea ea) := by
  intro hwf
  have hwf : ea.ok .ctrl .l = true := hwf
  have f := fields_8_2_ea 0x48#8 1#2 ea.mode ea.reg
  exact lookup_row (op := 0x48#8 ++ 1#2 ++ (ea.mode ++ ea.reg)) 36 rfl [(8, 8), (6, 2)] rfl rfl ⟨f.1, f.2.1, trivial⟩
    ⟨holds_ea f.2.2.1 f.2.2.2 (EA.admits hwf), trivial⟩
theorem extW (d : Reg) : Statement (.extW d) := by
  intro _
  have f := fields_8_2_3_3 0x48#8 2#2 0#3 (regBits d)
  exact lookup_row (op := 0x48#8 ++ 2#2 ++ 0#3 ++ (regBits d)) 37 rfl [(8, 8), (6, 2), (3, 3)] rfl rfl ⟨f.1, f.2.1, f.2.2.1, trivial⟩
    trivial
theorem extL (d : Reg) : Statement (.extL d) := by
  intro _
  have f := fields_8_2_3_3 0x48#8 3#2 0#3 (regBits d)
  exact lookup_row (op := 0x48#8 ++ 3#2 ++ 0#3 ++ (regBits d)) 38 rfl [(8, 8), (6, 2), (3, 3)] rfl rfl ⟨f.1, f.2.1, f.2.2.1, trivial⟩
    trivial
theorem movemToMem (sz : Size) (mask : Word) (ea : EA) : Statement (.movemToMem sz mask ea) := by
  intro hwf
  have hwf := Bool.and_eq_true_iff.mp (show (sz.wordOrLong && ea.ok .CAorPre sz) = true from hwf)
  have f := fields_8_1_1_ea 0x48#8 1#1 sz.longBit ea.mode ea.reg
  exact lookup_row (op := 0x48#8 ++ 1#1 ++ sz.longBit ++ (ea.mode ++ ea.reg)) 39 rfl [(8, 8), (7, 1)] rfl rfl ⟨f.1, f.2.1, trivial⟩
    ⟨holds_ea f.2.2.2.1 f.2.2.2.2 (EA.admits hwf.2), trivial⟩
theorem tst (sz : Size) (ea : EA) : Statement (.tst sz ea) := by
  intro hwf
  have hwf : ea.ok .DA sz = true := hwf
  have f := fields_8_2_ea 0x4A#8 sz.std ea.mode ea.reg
  exact lookup_row (op := 0x4A#8 ++ sz.std ++ (ea.mode ++ ea.reg)) 40 rfl [(8, 8)] rfl rfl ⟨f.1, trivial⟩
    ⟨holds_size f.2.1 (Size.std_ne _), holds_ea f.2.2.1 f.2.2.2 (EA.admits hwf), trivial⟩
theorem tas (ea : EA) : Statement (.tas ea) := by
  intro hwf
  have hwf : ea.ok .DA .b = true := hwf
  have f := fields_8_2_ea 0x4A#8 3#2 ea.mode ea.reg
  exact lookup_row (op := 0x4A#8 ++ 3#2 ++ (ea.mode ++ ea.reg)) 41 rfl [(8, 8), (6, 2)] rfl rfl ⟨f.1, f.2.1, trivial⟩
    ⟨holds_ea f.2.2.1 f.2.2.2 (EA.admits hwf), trivial⟩
theorem illegal : Statement (.illegal) := fun _ =>
  lookup_row 42 rfl [(0, 16)] rfl rfl ⟨rfl, trivial⟩ trivial
theorem mull (signed : Bool) (wide : Bool) (l : Reg) (h : Reg) (ea : EA) : Statement (.mull signed wide l h ea) := by
  intro hwf
  have hwf : ea.ok .data .l = true := hwf
  have f := fields_8_2_ea 0x4C#8 0#2 ea.mode ea.reg
  exact lookup_row (op := 0x4C#8 ++ 0#2 ++ (ea.mode ++ ea.reg)) 43 rfl [(8, 8), (6, 2)] rfl rfl ⟨f.1, f.2.1, trivial⟩
    ⟨holds_ea f.2.2.1 f.2.2.2 (EA.admits hwf), trivial⟩
theorem divl (signed : Bool) (wide : Bool) (q : Reg) (r : Reg) (ea : EA) : Statement (.divl signed wide q r ea) := by
  intro hwf
  have hwf : ea.ok .data .l = true := hwf
  have f := fields_8_2_ea 0x4C#8 1#2 ea.mode ea.reg
  exact lookup_row (op := 0x4C#8 ++ 1#2 ++ (ea.mode ++ ea.reg)) 44 rfl [(8, 8), (6, 2)] rfl rfl ⟨f.1, f.2.1, trivial⟩
    ⟨holds_ea f.2.2.1 f.2.2.2 (EA.admits hwf), trivial⟩
theorem movemToReg (sz : Size) (mask : Word) (ea : EA) : Statement (.movemToReg sz mask ea) := by
  intro hwf
  have hwf := Bool.and_eq_true_iff.mp (show (sz.wordOrLong && ea.ok .CorPost sz) = true from hwf)
  have f := fields_8_1_1_ea 0x4C#8 1#1 sz.longBit ea.mode ea.reg
  exact lookup_row (op := 0x4C#8 ++ 1#1 ++ sz.longBit ++ (ea.mode ++ ea.reg)) 45 rfl [(8, 8), (7, 1)] rfl rfl ⟨f.1, f.2.1, trivial⟩
    ⟨holds_ea f.2.2.2.1 f.2.2.2.2 (EA.admits hwf.2), trivial⟩
theorem trap (v : BitVec 4) : Statement (.trap v) := by
  intro _
  have f := fields_12_4 0x4E4#12 v
  exact lookup_row (op := 0x4E4#12 ++ v) 46 rfl [(4, 12)] rfl rfl ⟨f.1, trivial⟩
    trivial
theorem link (a : Reg) (disp : Word) : Statement (.link a disp) := by
  intro _
  have f := fields_8_5_3 0x4E#8 0b01010#5 (regBits a)
  exact lookup_row (op := 0x4E#8 ++ 0b01010#5 ++ (regBits a)) 47 rfl [(8, 8), (3, 5)] rfl rfl ⟨f.1, f.2.1, trivial⟩
    trivial
theorem unlk (a : Reg) : Statement (.unlk a) := by
  intro _
  have f := fields_8_5_3 0x4E#8 0b01011#5 (regBits a)
  exact lookup_row (op := 0x4E#8 ++ 0b01011#5 ++ (regBits a)) 48 rfl [(8, 8), (3, 5)] rfl rfl ⟨f.1, f.2.1, trivial⟩
    trivial
theorem moveToUsp (a : Reg) : Statement (.moveToUsp a) := by
  intro _
  have f := fields_8_5_3 0x4E#8 0b01100#5 (regBits a)
  exact lookup_row (op := 0x4E#8 ++ 0b01100#5 ++ (regBits a)) 49 rfl [(8, 8), (3, 5)] rfl rfl ⟨f.1, f.2.1, trivial⟩
    trivial
theorem moveFromUsp (a : Reg) : Statement (.moveFromUsp a) := by
  intro _
  have f := fields_8_5_3 0x4E#8 0b01101#5 (regBits a)
  exact lookup_row (op := 0x4E#8 ++ 0b01101#5 ++ (regBits a)) 50 rfl [(8, 8), (3, 5)] rfl rfl ⟨f.1, f.2.1, trivial⟩
    trivial
theorem reset : Statement (.reset) := fun _ =>
  lookup_row 51 rfl [(0, 16)] rfl rfl ⟨rfl, trivial⟩ trivial
theorem nop : Statement (.nop) := fun _ =>
  lookup_row 52 rfl [(0, 16)] rfl rfl ⟨rfl, trivial⟩ trivial
theorem stop (imm : Word) : Statement (.stop imm) := fun _ =>
  lookup_row 53 rfl [(0, 16)] rfl rfl ⟨rfl, trivial⟩ trivial
theorem rte : Statement (.rte) := fun _ =>
  lookup_row 54 rfl [(0, 16)] rfl rfl ⟨rfl, trivial⟩ trivial
theorem rts : Statement (.rts) := fun _ =>
  lookup_row 55 rfl [(0, 16)] rfl rfl ⟨rfl, trivial⟩ trivial
theorem trapv : Statement (.trapv) := fun _ =>
  lookup_row 56 rfl [(0, 16)] rfl rfl ⟨rfl, trivial⟩ trivial
theorem rtr : Statement (.rtr) := fun _ =>
  lookup_row 57 rfl [(0, 16)] rfl rfl ⟨rfl, trivial⟩ trivial
theorem jsr (ea : EA) : Statement (.jsr ea) := by
  intro hwf
  have hwf : ea.ok .ctrl .l = true := hwf
  have f := fields_8_2_ea 0x4E#8 2#2 ea.mode ea.reg
  exact lookup_row (op := 0x4E#8 ++ 2#2 ++ (ea.mode ++ ea.reg)) 58 rfl [(8, 8), (6, 2)] rfl rfl ⟨f.1, f.2.1, trivial⟩
    ⟨holds_ea f.2.2.1 f.2.2.2 (EA.admits hwf), trivial⟩
theorem jmp (ea : EA) : Statement (.jmp ea) := by
  intro hwf
  have hwf : ea.ok .ctrl .l = true := hwf
  have f := fields_8_2_ea 0x4E#8 3#2 ea.mode ea.reg
  exact lookup_row (op := 0x4E#8 ++ 3#2 ++ (ea.mode ++ ea.reg)) 59 rfl [(8, 8), (6, 2)] rfl rfl ⟨f.1, f.2.1, trivial⟩
    ⟨holds_ea f.2.2.1 f.2.2.2 (EA.admits hwf), trivial⟩
theorem addq (q : BitVec 3) (sz : Size) (ea : EA) : Statement (.addq q sz ea) := by
  intro hwf
  have hwf : ea.ok (.quick sz) sz = true := hwf
  have f := fields_4_3_1_2_ea 5#4 q 0#1 sz.std ea.mode ea.reg
  exact lookup_row (op := 5#4 ++ q ++ 0#1 ++ sz.std ++ (ea.mode ++ ea.reg)) 60 rfl [(12, 4), (8, 1)] rfl rfl ⟨f.1, f.2.2.1, trivial⟩
    ⟨holds_size f.2.2.2.1 (Size.std_ne _), holds_sizedEA f.2.2.2.1 f.2.2.2.2.1 f.2.2.2.2.2 (quick_admits hwf), trivial⟩
theorem subq (q : BitVec 3) (sz : Size) (ea : EA) : Statement (.subq q sz ea) := by
  intro hwf
  have hwf : ea.ok (.quick sz) sz = true := hwf
  have f := fields_4_3_1_2_ea 5#4 q 1#1 sz.std ea.mode ea.reg
  exact lookup_row (op := 5#4 ++ q ++ 1#1 ++ sz.std ++ (ea.mode ++ ea.reg)) 61 rfl [(12, 4), (8, 1)] rfl rfl ⟨f.1, f.2.2.1, trivial⟩
    ⟨holds_size f.2.2.2.1 (Size.std_ne _), holds_sizedEA f.2.2.2.1 f.2.2.2.2.1 f.2.2.2.2.2 (quick_admits hwf), trivial⟩
theorem scc (c : Cond) (ea : EA) : Statement (.scc c ea) := by
  intro hwf
  have hwf : ea.ok .DA .b = true := hwf
  have f := fields_4_4_2_ea 5#4 c.bits 3#2 ea.mode ea.reg
  exact lookup_row (op := 5#4 ++ c.bits ++ 3#2 ++ (ea.mode ++ ea.reg)) 62 rfl [(12, 4), (6, 2)] rfl rfl ⟨f.1, f.2.2.1, trivial⟩
    ⟨holds_ea f.2.2.2.1 f.2.2.2.2 (EA.admits hwf), trivial⟩
theorem dbcc (c : Cond) (d : Reg) (disp : Word) : Statement (.dbcc c d disp) := by
  intro _
  have f := fields_4_4_2_3_3 5#4 c.bits 3#2 1#3 (regBits d)
  exact lookup_row (op := 5#4 ++ c.bits ++ 3#2 ++ 1#3 ++ (regBits d)) 63 rfl [(12, 4), (6, 2), (3, 3)] rfl rfl ⟨f.1, f.2.2.1, f.2.2.2.1, trivial⟩
    trivial
theorem trapcc (c : Cond) (opnd : TrapOperand) : Statement (.trapcc c opnd) := by
  intro _
  have f := fields_4_4_2_3_3 5#4 c.bits 3#2 7#3 opnd.bits
  exact lookup_row (op := 5#4 ++ c.bits ++ 3#2 ++ 7#3 ++ opnd.bits) 64 rfl [(12, 4), (6, 2), (3, 3)] rfl rfl ⟨f.1, f.2.2.1, f.2.2.2.1, trivial⟩
    ⟨holds_trapForm f.2.2.2.2 (trapForm_ok _), trivial⟩
theorem bra (disp : BranchDisp) : Statement (.bra disp) := by
  intro _
  have f := fields_8_8 0x60#8 disp.bits
  exact lookup_row (op := 0x60#8 ++ disp.bits) 65 rfl [(8, 8)] rfl rfl ⟨f.1, trivial⟩
    trivial
theorem bsr (disp : BranchDisp) : Statement (.bsr disp) := by
  intro _
  have f := fields_8_8 0x61#8 disp.bits
  exact lookup_row (op := 0x61#8 ++ disp.bits) 66 rfl [(8, 8)] rfl rfl ⟨f.1, trivial⟩
    trivial
theorem bcc (c : Cond) (disp : BranchDisp) : Statement (.bcc c disp) := by
  intro hwf
  have hwf := Bool.and_eq_true_iff.mp (show (c.branches && disp.ok) = true from hwf)
  have f := fields_4_4_8 6#4 c.bits disp.bits
  exact lookup_row (op := 6#4 ++ c.bits ++ disp.bits) 67 rfl [(12, 4)] rfl rfl ⟨f.1, trivial⟩
    ⟨holds_branchCond f.2.1 (Cond.branches_bits hwf.1), trivial⟩
theorem moveq (k : Byte) (d : Reg) : Statement (.moveq k d) := by
  intro _
  have f := fields_4_3_1_8 7#4 (regBits d) 0#1 k
  exact lookup_row (op := 7#4 ++ (regBits d) ++ 0#1 ++ k) 68 rfl [(12, 4), (8, 1)] rfl rfl ⟨f.1, f.2.2.1, trivial⟩
    trivial
theorem divuW (ea : EA) (d : Reg) : Statement (.divuW ea d) := by
  intro hwf
  have hwf : ea.ok .data .w = true := hwf
  have f := fields_4_3_1_2_ea 0x8#4 (regBits d) 0#1 3#2 ea.mode ea.reg
  exact lookup_row (op := 0x8#4 ++ (regBits d) ++ 0#1 ++ 3#2 ++ (ea.mode ++ ea.reg)) 69 rfl [(12, 4), (8, 1), (6, 2)] rfl rfl ⟨f.1, f.2.2.1, f.2.2.2.1, trivial⟩
    ⟨holds_ea f.2.2.2.2.1 f.2.2.2.2.2 (EA.admits hwf), trivial⟩
theorem divsW (ea : EA) (d : Reg) : Statement (.divsW ea d) := by
  intro hwf
  have hwf : ea.ok .data .w = true := hwf
  have f := fields_4_3_1_2_ea 0x8#4 (regBits d) 1#1 3#2 ea.mode ea.reg
  exact lookup_row (op := 0x8#4 ++ (regBits d) ++ 1#1 ++ 3#2 ++ (ea.mode ++ ea.reg)) 70 rfl [(12, 4), (8, 1), (6, 2)] rfl rfl ⟨f.1, f.2.2.1, f.2.2.2.1, trivial⟩
    ⟨holds_ea f.2.2.2.2.1 f.2.2.2.2.2 (EA.admits hwf), trivial⟩
theorem sbcd (mem : Bool) (y : Reg) (x : Reg) : Statement (.sbcd mem y x) := by
  intro _
  have f := fields_4_3_1_4_1_3 0x8#4 (regBits x) 1#1 0#4 (bit mem) (regBits y)
  exact lookup_row (op := 0x8#4 ++ (regBits x) ++ 1#1 ++ 0#4 ++ (bit mem) ++ (regBits y)) 71 rfl [(12, 4), (8, 1), (4, 4)] rfl rfl ⟨f.1, f.2.2.1, f.2.2.2.1, trivial⟩
    trivial
theorem orEaDn (sz : Size) (ea : EA) (d : Reg) : Statement (.orEaDn sz ea d) := by
  intro hwf
  have hwf : ea.ok .data sz = true := hwf
  have f := fields_4_3_1_2_ea 0x8#4 (regBits d) 0#1 sz.std ea.mode ea.reg
  exact lookup_row (op := 0x8#4 ++ (regBits d) ++ 0#1 ++ sz.std ++ (ea.mode ++ ea.reg)) 72 rfl [(12, 4), (8, 1)] rfl rfl ⟨f.1, f.2.2.1, trivial⟩
    ⟨holds_size f.2.2.2.1 (Size.std_ne _), holds_ea f.2.2.2.2.1 f.2.2.2.2.2 (EA.admits hwf), trivial⟩
theorem orDnEa (sz : Size) (d : Reg) (ea : EA) : Statement (.orDnEa sz d ea) := by
  intro hwf
  have hwf : ea.ok .MA sz = true := hwf
  have f := fields_4_3_1_2_ea 0x8#4 (regBits d) 1#1 sz.std ea.mode ea.reg
  exact lookup_row (op := 0x8#4 ++ (regBits d) ++ 1#1 ++ sz.std ++ (ea.mode ++ ea.reg)) 73 rfl [(12, 4), (8, 1)] rfl rfl ⟨f.1, f.2.2.1, trivial⟩
    ⟨holds_size f.2.2.2.1 (Size.std_ne _), holds_ea f.2.2.2.2.1 f.2.2.2.2.2 (EA.admits hwf), trivial⟩
theorem subEaDn (sz : Size) (ea : EA) (d : Reg) : Statement (.subEaDn sz ea d) := by
  intro hwf
  have hwf : ea.ok (.source sz) sz = true := hwf
  have f := fields_4_3_1_2_ea 0x9#4 (regBits d) 0#1 sz.std ea.mode ea.reg
  exact lookup_row (op := 0x9#4 ++ (regBits d) ++ 0#1 ++ sz.std ++ (ea.mode ++ ea.reg)) 74 rfl [(12, 4), (8, 1)] rfl rfl ⟨f.1, f.2.2.1, trivial⟩
    ⟨holds_size f.2.2.2.1 (Size.std_ne _), holds_sizedEA f.2.2.2.1 f.2.2.2.2.1 f.2.2.2.2.2 (source_admits hwf), trivial⟩
theorem subDnEa (sz : Size) (d : Reg) (ea : EA) : Statement (.subDnEa sz d ea) := by
  intro hwf
  have hwf : ea.ok .MA sz = true := hwf
  have f := fields_4_3_1_2_ea 0x9#4 (regBits d) 1#1 sz.std ea.mode ea.reg
  exact lookup_row (op := 0x9#4 ++ (regBits d) ++ 1#1 ++ sz.std ++ (ea.mode ++ ea.reg)) 75 rfl [(12, 4), (8, 1)] rfl rfl ⟨f.1, f.2.2.1, trivial⟩
    ⟨holds_size f.2.2.2.1 (Size.std_ne _), holds_ea f.2.2.2.2.1 f.2.2.2.2.2 (EA.admits hwf), trivial⟩
theorem suba (sz : Size) (ea : EA) (a : Reg) : Statement (.suba sz ea a) := by
  intro hwf
  have hwf := Bool.and_eq_true_iff.mp (show (sz.wordOrLong && ea.ok .all sz) = true from hwf)
  have f := fields_4_3_1_2_ea 0x9#4 (regBits a) sz.longBit 3#2 ea.mode ea.reg
  exact lookup_row (op := 0x9#4 ++ (regBits a) ++ sz.longBit ++ 3#2 ++ (ea.mode ++ ea.reg)) 76 rfl [(12, 4), (6, 2)] rfl rfl ⟨f.1, f.2.2.2.1, trivial⟩
    ⟨holds_ea f.2.2.2.2.1 f.2.2.2.2.2 (EA.admits hwf.2), trivial⟩
theorem subx (sz : Size) (mem : Bool) (y : Reg) (x : Reg) : Statement (.subx sz mem y x) := by
  intro _
  have f := fields_4_3_1_2_2_1_3 0x9#4 (regBits x) 1#1 sz.std 0#2 (bit mem) (regBits y)
  exact lookup_row (op := 0x9#4 ++ (regBits x) ++ 1#1 ++ sz.std ++ 0#2 ++ (bit mem) ++ (regBits y)) 77 rfl [(12, 4), (8, 1), (4, 2)] rfl rfl ⟨f.1, f.2.2.1, f.2.2.2.2.1, trivial⟩
    ⟨holds_size f.2.2.2.1 (Size.std_ne _), trivial⟩
theorem cmp (sz : Size) (ea : EA) (d : Reg) : Statement (.cmp sz ea d) := by
  intro hwf
  have hwf : ea.ok (.source sz) sz = true := hwf
  have f := fields_4_3_1_2_ea 0xB#4 (regBits d) 0#1 sz.std ea.mode ea.reg
  exact lookup_row (op := 0xB#4 ++ (regBits d) ++ 0#1 ++ sz.std ++ (ea.mode ++ ea.reg)) 78 rfl [(12, 4), (8, 1)] rfl rfl ⟨f.1, f.2.2.1, trivial⟩
    ⟨holds_size f.2.2.2.1 (Size.std_ne _), holds_sizedEA f.2.2.2.1 f.2.2.2.2.1 f.2.2.2.2.2 (source_admits hwf), trivial⟩
theorem cmpa (sz : Size) (ea : EA) (a : Reg) : Statement (.cmpa sz ea a) := by
  intro hwf
  have hwf := Bool.and_eq_true_iff.mp (show (sz.wordOrLong && ea.ok .all sz) = true from hwf)
  have f := fields_4_3_1_2_ea 0xB#4 (regBits a) sz.longBit 3#2 ea.mode ea.reg
  exact lookup_row (op := 0xB#4 ++ (regBits a) ++ sz.longBit ++ 3#2 ++ (ea.mode ++ ea.reg)) 79 rfl [(12, 4), (6, 2)] rfl rfl ⟨f.1, f.2.2.2.1, trivial⟩
    ⟨holds_ea f.2.2.2.2.1 f.2.2.2.2.2 (EA.admits hwf.2), trivial⟩
theorem eor (sz : Size) (d : Reg) (ea : EA) : Statement (.eor sz d ea) := by
  intro hwf
  have hwf : ea.ok .DA sz = true := hwf
  have f := fields_4_3_1_2_ea 0xB#4 (regBits d) 1#1 sz.std ea.mode ea.reg
  exact lookup_row (op := 0xB#4 ++ (regBits d) ++ 1#1 ++ sz.std ++ (ea.mode ++ ea.reg)) 80 rfl [(12, 4), (8, 1)] rfl rfl ⟨f.1, f.2.2.1, trivial⟩
    ⟨holds_size f.2.2.2.1 (Size.std_ne _), holds_ea f.2.2.2.2.1 f.2.2.2.2.2 (EA.admits hwf), trivial⟩
theorem cmpm (sz : Size) (y : Reg) (x : Reg) : Statement (.cmpm sz y x) := by
  intro _
  have f := fields_4_3_1_2_2_1_3 0xB#4 (regBits x) 1#1 sz.std 0#2 1#1 (regBits y)
  exact lookup_row (op := 0xB#4 ++ (regBits x) ++ 1#1 ++ sz.std ++ 0#2 ++ 1#1 ++ (regBits y)) 81 rfl [(12, 4), (8, 1), (4, 2), (3, 1)] rfl rfl ⟨f.1, f.2.2.1, f.2.2.2.2.1, f.2.2.2.2.2.1, trivial⟩
    ⟨holds_size f.2.2.2.1 (Size.std_ne _), trivial⟩
theorem muluW (ea : EA) (d : Reg) : Statement (.muluW ea d) := by
  intro hwf
  have hwf : ea.ok .data .w = true := hwf
  have f := fields_4_3_1_2_ea 0xC#4 (regBits d) 0#1 3#2 ea.mode ea.reg
  exact lookup_row (op := 0xC#4 ++ (regBits d) ++ 0#1 ++ 3#2 ++ (ea.mode ++ ea.reg)) 82 rfl [(12, 4), (8, 1), (6, 2)] rfl rfl ⟨f.1, f.2.2.1, f.2.2.2.1, trivial⟩
    ⟨holds_ea f.2.2.2.2.1 f.2.2.2.2.2 (EA.admits hwf), trivial⟩
theorem mulsW (ea : EA) (d : Reg) : Statement (.mulsW ea d) := by
  intro hwf
  have hwf : ea.ok .data .w = true := hwf
  have f := fields_4_3_1_2_ea 0xC#4 (regBits d) 1#1 3#2 ea.mode ea.reg
  exact lookup_row (op := 0xC#4 ++ (regBits d) ++ 1#1 ++ 3#2 ++ (ea.mode ++ ea.reg)) 83 rfl [(12, 4), (8, 1), (6, 2)] rfl rfl ⟨f.1, f.2.2.1, f.2.2.2.1, trivial⟩
    ⟨holds_ea f.2.2.2.2.1 f.2.2.2.2.2 (EA.admits hwf), trivial⟩
theorem abcd (mem : Bool) (y : Reg) (x : Reg) : Statement (.abcd mem y x) := by
  intro _
  have f := fields_4_3_1_4_1_3 0xC#4 (regBits x) 1#1 0#4 (bit mem) (regBits y)
  exact lookup_row (op := 0xC#4 ++ (regBits x) ++ 1#1 ++ 0#4 ++ (bit mem) ++ (regBits y)) 84 rfl [(12, 4), (8, 1), (4, 4)] rfl rfl ⟨f.1, f.2.2.1, f.2.2.2.1, trivial⟩
    trivial
theorem exgDD (x : Reg) (y : Reg) : Statement (.exgDD x y) := by
  intro _
  have f := fields_4_3_1_5_3 0xC#4 (regBits x) 1#1 0b01000#5 (regBits y)
  exact lookup_row (op := 0xC#4 ++ (regBits x) ++ 1#1 ++ 0b01000#5 ++ (regBits y)) 85 rfl [(12, 4), (8, 1), (3, 5)] rfl rfl ⟨f.1, f.2.2.1, f.2.2.2.1, trivial⟩
    trivial
theorem exgAA (x : Reg) (y : Reg) : Statement (.exgAA x y) := by
  intro _
  have f := fields_4_3_1_5_3 0xC#4 (regBits x) 1#1 0b01001#5 (regBits y)
  exact lookup_row (op := 0xC#4 ++ (regBits x) ++ 1#1 ++ 0b01001#5 ++ (regBits y)) 86 rfl [(12, 4), (8, 1), (3, 5)] rfl rfl ⟨f.1, f.2.2.1, f.2.2.2.1, trivial⟩
    trivial
theorem exgDA (x : Reg) (y : Reg) : Statement (.exgDA x y) := by
  intro _
  have f := fields_4_3_1_5_3 0xC#4 (regBits x) 1#1 0b10001#5 (regBits y)
  exact lookup_row (op := 0xC#4 ++ (regBits x) ++ 1#1 ++ 0b10001#5 ++ (regBits y)) 87 rfl [(12, 4), (8, 1), (3, 5)] rfl rfl ⟨f.1, f.2.2.1, f.2.2.2.1, trivial⟩
    trivial
theorem andEaDn (sz : Size) (ea : EA) (d : Reg) : Statement (.andEaDn sz ea d) := by
  intro hwf
  have hwf : ea.ok .data sz = true := hwf
  have f := fields_4_3_1_2_ea 0xC#4 (regBits d) 0#1 sz.std ea.mode ea.reg
  exact lookup_row (op := 0xC#4 ++ (regBits d) ++ 0#1 ++ sz.std ++ (ea.mode ++ ea.reg)) 88 rfl [(12, 4), (8, 1)] rfl rfl ⟨f.1, f.2.2.1, trivial⟩
    ⟨holds_size f.2.2.2.1 (Size.std_ne _), holds_ea f.2.2.2.2.1 f.2.2.2.2.2 (EA.admits hwf), trivial⟩
theorem andDnEa (sz : Size) (d : Reg) (ea : EA) : Statement (.andDnEa sz d ea) := by
  intro hwf
  have hwf : ea.ok .MA sz = true := hwf
  have f := fields_4_3_1_2_ea 0xC#4 (regBits d) 1#1 sz.std ea.mode ea.reg
  exact lookup_row (op := 0xC#4 ++ (regBits d) ++ 1#1 ++ sz.std ++ (ea.mode ++ ea.reg)) 89 rfl [(12, 4), (8, 1)] rfl rfl ⟨f.1, f.2.2.1, trivial⟩
    ⟨holds_size f.2.2.2.1 (Size.std_ne _), holds_ea f.2.2.2.2.1 f.2.2.2.2.2 (EA.admits hwf), trivial⟩
theorem addEaDn (sz : Size) (ea : EA) (d : Reg) : Statement (.addEaDn sz ea d) := by
  intro hwf
  have hwf : ea.ok (.source sz) sz = true := hwf
  have f := fields_4_3_1_2_ea 0xD#4 (regBits d) 0#1 sz.std ea.mode ea.reg
  exact lookup_row (op := 0xD#4 ++ (regBits d) ++ 0#1 ++ sz.std ++ (ea.mode ++ ea.reg)) 90 rfl [(12, 4), (8, 1)] rfl rfl ⟨f.1, f.2.2.1, trivial⟩
    ⟨holds_size f.2.2.2.1 (Size.std_ne _), holds_sizedEA f.2.2.2.1 f.2.2.2.2.1 f.2.2.2.2.2 (source_admits hwf), trivial⟩
theorem addDnEa (sz : Size) (d : Reg) (ea : EA) : Statement (.addDnEa sz d ea) := by
  intro hwf
  have hwf : ea.ok .MA sz = true := hwf
  have f := fields_4_3_1_2_ea 0xD#4 (regBits d) 1#1 sz.std ea.mode ea.reg
  exact lookup_row (op := 0xD#4 ++ (regBits d) ++ 1#1 ++ sz.std ++ (ea.mode ++ ea.reg)) 91 rfl [(12, 4), (8, 1)] rfl rfl ⟨f.1, f.2.2.1, trivial⟩
    ⟨holds_size f.2.2.2.1 (Size.std_ne _), holds_ea f.2.2.2.2.1 f.2.2.2.2.2 (EA.admits hwf), trivial⟩
theorem adda (sz : Size) (ea : EA) (a : Reg) : Statement (.adda sz ea a) := by
  intro hwf
  have hwf := Bool.and_eq_true_iff.mp (show (sz.wordOrLong && ea.ok .all sz) = true from hwf)
  have f := fields_4_3_1_2_ea 0xD#4 (regBits a) sz.longBit 3#2 ea.mode ea.reg
  exact lookup_row (op := 0xD#4 ++ (regBits a) ++ sz.longBit ++ 3#2 ++ (ea.mode ++ ea.reg)) 92 rfl [(12, 4), (6, 2)] rfl rfl ⟨f.1, f.2.2.2.1, trivial⟩
    ⟨holds_ea f.2.2.2.2.1 f.2.2.2.2.2 (EA.admits hwf.2), trivial⟩
theorem addx (sz : Size) (mem : Bool) (y : Reg) (x : Reg) : Statement (.addx sz mem y x) := by
  intro _
  have f := fields_4_3_1_2_2_1_3 0xD#4 (regBits x) 1#1 sz.std 0#2 (bit mem) (regBits y)
  exact lookup_row (op := 0xD#4 ++ (regBits x) ++ 1#1 ++ sz.std ++ 0#2 ++ (bit mem) ++ (regBits y)) 93 rfl [(12, 4), (8, 1), (4, 2)] rfl rfl ⟨f.1, f.2.2.1, f.2.2.2.2.1, trivial⟩
    ⟨holds_size f.2.2.2.1 (Size.std_ne _), trivial⟩
theorem asrReg (sz : Size) (cnt : Count) (y : Reg) : Statement (.asrReg sz cnt y) := by
  intro _
  have f := fields_4_3_1_2_1_2_3 0xE#4 cnt.field 0#1 sz.std cnt.byReg 0#2 (regBits y)
  exact lookup_row (op := 0xE#4 ++ cnt.field ++ 0#1 ++ sz.std ++ cnt.byReg ++ 0#2 ++ (regBits y)) 94 rfl [(12, 4), (8, 1), (3, 2)] rfl rfl ⟨f.1, f.2.2.1, f.2.2.2.2.2.1, trivial⟩
    ⟨holds_size f.2.2.2.1 (Size.std_ne _), trivial⟩
theorem asrMem (ea : EA) : Statement (.asrMem ea) := by
  intro hwf
  have hwf : ea.ok .MA .w = true := hwf
  have f := fields_4_1_2_1_2_ea 0xE#4 0#1 0#2 0#1 3#2 ea.mode ea.reg
  exact lookup_row (op := 0xE#4 ++ 0#1 ++ 0#2 ++ 0#1 ++ 3#2 ++ (ea.mode ++ ea.reg)) 95 rfl [(12, 4), (11, 1), (9, 2), (8, 1), (6, 2)] rfl rfl ⟨f.1, f.2.1, f.2.2.1, f.2.2.2.1, f.2.2.2.2.1, trivial⟩
    ⟨holds_ea f.2.2.2.2.2.1 f.2.2.2.2.2.2 (EA.admits hwf), trivial⟩
theorem aslReg (sz : Size) (cnt : Count) (y : Reg) : Statement (.aslReg sz cnt y) := by
  intro _
  have f := fields_4_3_1_2_1_2_3 0xE#4 cnt.field 1#1 sz.std cnt.byReg 0#2 (regBits y)
  exact lookup_row (op := 0xE#4 ++ cnt.field ++ 1#1 ++ sz.std ++ cnt.byReg ++ 0#2 ++ (regBits y)) 96 rfl [(12, 4), (8, 1), (3, 2)] rfl rfl ⟨f.1, f.2.2.1, f.2.2.2.2.2.1, trivial⟩
    ⟨holds_size f.2.2.2.1 (Size.std_ne _), trivial⟩
theorem aslMem (ea : EA) : Statement (.aslMem ea) := by
  intro hwf
  have hwf : ea.ok .MA .w = true := hwf
  have f := fields_4_1_2_1_2_ea 0xE#4 0#1 0#2 1#1 3#2 ea.mode ea.reg
  exact lookup_row (op := 0xE#4 ++ 0#1 ++ 0#2 ++ 1#1 ++ 3#2 ++ (ea.mode ++ ea.reg)) 97 rfl [(12, 4), (11, 1), (9, 2), (8, 1), (6, 2)] rfl rfl ⟨f.1, f.2.1, f.2.2.1, f.2.2.2.1, f.2.2.2.2.1, trivial⟩
    ⟨holds_ea f.2.2.2.2.2.1 f.2.2.2.2.2.2 (EA.admits hwf), trivial⟩
theorem lsrReg (sz : Size) (cnt : Count) (y : Reg) : Statement (.lsrReg sz cnt y) := by
  intro _
  have f := fields_4_3_1_2_1_2_3 0xE#4 cnt.field 0#1 sz.std cnt.byReg 1#2 (regBits y)
  exact lookup_row (op := 0xE#4 ++ cnt.field ++ 0#1 ++ sz.std ++ cnt.byReg ++ 1#2 ++ (regBits y)) 98 rfl [(12, 4), (8, 1), (3, 2)] rfl rfl ⟨f.1, f.2.2.1, f.2.2.2.2.2.1, trivial⟩
    ⟨holds_size f.2.2.2.1 (Size.std_ne _), trivial⟩
theorem lsrMem (ea : EA) : Statement (.lsrMem ea) := by
  intro hwf
  have hwf : ea.ok .MA .w = true := hwf
  have f := fields_4_1_2_1_2_ea 0xE#4 0#1 1#2 0#1 3#2 ea.mode ea.reg
  exact lookup_row (op := 0xE#4 ++ 0#1 ++ 1#2 ++ 0#1 ++ 3#2 ++ (ea.mode ++ ea.reg)) 99 rfl [(12, 4), (11, 1), (9, 2), (8, 1), (6, 2)] rfl rfl ⟨f.1, f.2.1, f.2.2.1, f.2.2.2.1, f.2.2.2.2.1, trivial⟩
    ⟨holds_ea f.2.2.2.2.2.1 f.2.2.2.2.2.2 (EA.admits hwf), trivial⟩
theorem lslReg (sz : Size) (cnt : Count) (y : Reg) : Statement (.lslReg sz cnt y) := by
  intro _
  have f := fields_4_3_1_2_1_2_3 0xE#4 cnt.field 1#1 sz.std cnt.byReg 1#2 (regBits y)
  exact lookup_row (op := 0xE#4 ++ cnt.field ++ 1#1 ++ sz.std ++ cnt.byReg ++ 1#2 ++ (regBits y)) 100 rfl [(12, 4), (8, 1), (3, 2)] rfl rfl ⟨f.1, f.2.2.1, f.2.2.2.2.2.1, trivial⟩
    ⟨holds_size f.2.2.2.1 (Size.std_ne _), trivial⟩
theorem lslMem (ea : EA) : Statement (.lslMem ea) := by
  intro hwf
  have hwf : ea.ok .MA .w = true := hwf
  have f := fields_4_1_2_1_2_ea 0xE#4 0#1 1#2 1#1 3#2 ea.mode ea.reg
  exact lookup_row (op := 0xE#4 ++ 0#1 ++ 1#2 ++ 1#1 ++ 3#2 ++ (ea.mode ++ ea.reg)) 101 rfl [(12, 4), (11, 1), (9, 2), (8, 1), (6, 2)] rfl rfl ⟨f.1, f.2.1, f.2.2.1, f.2.2.2.1, f.2.2.2.2.1, trivial⟩
    ⟨holds_ea f.2.2.2.2.2.1 f.2.2.2.2.2.2 (EA.admits hwf), trivial⟩
theorem roxrReg (sz : Size) (cnt : Count) (y : Reg) : Statement (.roxrReg sz cnt y) := by
  intro _
  have f := fields_4_3_1_2_1_2_3 0xE#4 cnt.field 0#1 sz.std cnt.byReg 2#2 (regBits y)
  exact lookup_row (op := 0xE#4 ++ cnt.field ++ 0#1 ++ sz.std ++ cnt.byReg ++ 2#2 ++ (regBits y)) 102 rfl [(12, 4), (8, 1), (3, 2)] rfl rfl ⟨f.1, f.2.2.1, f.2.2.2.2.2.1, trivial⟩
    ⟨holds_size f.2.2.2.1 (Size.std_ne _), trivial⟩
theorem roxrMem (ea : EA) : Statement (.roxrMem ea) := by
  intro hwf
  have hwf : ea.ok .MA .w = true := hwf
  have f := fields_4_1_2_1_2_ea 0xE#4 0#1 2#2 0#1 3#2 ea.mode ea.reg
  exact lookup_row (op := 0xE#4 ++ 0#1 ++ 2#2 ++ 0#1 ++ 3#2 ++ (ea.mode ++ ea.reg)) 103 rfl [(12, 4), (11, 1), (9, 2), (8, 1), (6, 2)] rfl rfl ⟨f.1, f.2.1, f.2.2.1, f.2.2.2.1, f.2.2.2.2.1, trivial⟩
    ⟨holds_ea f.2.2.2.2.2.1 f.2.2.2.2.2.2 (EA.admits hwf), trivial⟩
theorem roxlReg (sz : Size) (cnt : Count) (y : Reg) : Statement (.roxlReg sz cnt y) := by
  intro _
  have f := fields_4_3_1_2_1_2_3 0xE#4 cnt.field 1#1 sz.std cnt.byReg 2#2 (regBits y)
  exact lookup_row (op := 0xE#4 ++ cnt.field ++ 1#1 ++ sz.std ++ cnt.byReg ++ 2#2 ++ (regBits y)) 104 rfl [(12, 4), (8, 1), (3, 2)] rfl rfl ⟨f.1, f.2.2.1, f.2.2.2.2.2.1, trivial⟩
    ⟨holds_size f.2.2.2.1 (Size.std_ne _), trivial⟩
theorem roxlMem (ea : EA) : Statement (.roxlMem ea) := by
  intro hwf
  have hwf : ea.ok .MA .w = true := hwf
  have f := fields_4_1_2_1_2_ea 0xE#4 0#1 2#2 1#1 3#2 ea.mode ea.reg
  exact lookup_row (op := 0xE#4 ++ 0#1 ++ 2#2 ++ 1#1 ++ 3#2 ++ (ea.mode ++ ea.reg)) 105 rfl [(12, 4), (11, 1), (9, 2), (8, 1), (6, 2)] rfl rfl ⟨f.1, f.2.1, f.2.2.1, f.2.2.2.1, f.2.2.2.2.1, trivial⟩
    ⟨holds_ea f.2.2.2.2.2.1 f.2.2.2.2.2.2 (EA.admits hwf), trivial⟩
theorem rorReg (sz : Size) (cnt : Count) (y : Reg) : Statement (.rorReg sz cnt y) := by
  intro _
  have f := fields_4_3_1_2_1_2_3 0xE#4 cnt.field 0#1 sz.std cnt.byReg 3#2 (regBits y)
  exact lookup_row (op := 0xE#4 ++ cnt.field ++ 0#1 ++ sz.std ++ cnt.byReg ++ 3#2 ++ (regBits y)) 106 rfl [(12, 4), (8, 1), (3, 2)] rfl rfl ⟨f.1, f.2.2.1, f.2.2.2.2.2.1, trivial⟩
    ⟨holds_size f.2.2.2.1 (Size.std_ne _), trivial⟩
theorem rorMem (ea : EA) : Statement (.rorMem ea) := by
  intro hwf
  have hwf : ea.ok .MA .w = true := hwf
  have f := fields_4_1_2_1_2_ea 0xE#4 0#1 3#2 0#1 3#2 ea.mode ea.reg
  exact lookup_row (op := 0xE#4 ++ 0#1 ++ 3#2 ++ 0#1 ++ 3#2 ++ (ea.mode ++ ea.reg)) 107 rfl [(12, 4), (11, 1), (9, 2), (8, 1), (6, 2)] rfl rfl ⟨f.1, f.2.1, f.2.2.1, f.2.2.2.1, f.2.2.2.2.1, trivial⟩
    ⟨holds_ea f.2.2.2.2.2.1 f.2.2.2.2.2.2 (EA.admits hwf), trivial⟩
theorem rolReg (sz : Size) (cnt : Count) (y : Reg) : Statement (.rolReg sz cnt y) := by
  intro _
  have f := fields_4_3_1_2_1_2_3 0xE#4 cnt.field 1#1 sz.std cnt.byReg 3#2 (regBits y)
  exact lookup_row (op := 0xE#4 ++ cnt.field ++ 1#1 ++ sz.std ++ cnt.byReg ++ 3#2 ++ (regBits y)) 108 rfl [(12, 4), (8, 1), (3, 2)] rfl rfl ⟨f.1, f.2.2.1, f.2.2.2.2.2.1, trivial⟩
    ⟨holds_size f.2.2.2.1 (Size.std_ne _), trivial⟩
theorem rolMem (ea : EA) : Statement (.rolMem ea) := by
  intro hwf
  have hwf : ea.ok .MA .w = true := hwf
  have f := fields_4_1_2_1_2_ea 0xE#4 0#1 3#2 1#1 3#2 ea.mode ea.reg
  exact lookup_row (op := 0xE#4 ++ 0#1 ++ 3#2 ++ 1#1 ++ 3#2 ++ (ea.mode ++ ea.reg)) 109 rfl [(12, 4), (11, 1), (9, 2), (8, 1), (6, 2)] rfl rfl ⟨f.1, f.2.1, f.2.2.1, f.2.2.2.1, f.2.2.2.2.1, trivial⟩
    ⟨holds_ea f.2.2.2.2.2.1 f.2.2.2.2.2.2 (EA.admits hwf), trivial⟩

end Laws.Opcode

/-! ## Operands: the operands of an instruction read back from its words (R62 to R67) -/

namespace Laws.Operands

def Statement (i : Instr) : Prop := ∀ rest : List Word, i.wf = true →
  assemble i.mnemonic i.opcode (i.extWords ++ rest) = some (i, rest)

theorem oriToCcr (imm : Byte) : Statement (.oriToCcr imm) := by
  intro rest _
  change assemble .oriToCcr (0x003C#16) ([imm.setWidth 16] ++ rest) = some (.oriToCcr imm, rest)
  simp only [-BitVec.reduceAppend, assemble, withWord, withEA, withWordEA, withImmEA, withSizeEA, withLongBitEA, shiftReg, countOf, takeWord, List.cons_append, List.nil_append, List.append_assoc, Option.map_some, Option.bind_some, regOf_regBits, Size.ofStd_std, Size.ofMove_moveBits, Size.ofCas_casBits, Cond.ofBits_bits, Word.getLsbD_field, bit_get, byte_get]

theorem oriToSr (imm : Word) : Statement (.oriToSr imm) := by
  intro rest _
  change assemble .oriToSr (0x007C#16) ([imm] ++ rest) = some (.oriToSr imm, rest)
  simp only [-BitVec.reduceAppend, assemble, withWord, withEA, withWordEA, withImmEA, withSizeEA, withLongBitEA, shiftReg, countOf, takeWord, List.cons_append, List.nil_append, List.append_assoc, Option.map_some, Option.bind_some, regOf_regBits, Size.ofStd_std, Size.ofMove_moveBits, Size.ofCas_casBits, Cond.ofBits_bits, Word.getLsbD_field, bit_get, byte_get]

theorem ori (sz : Size) (imm : Long) (ea : EA) : Statement (.ori sz imm ea) := by
  intro rest hwf
  have hwf := Bool.and_eq_true_iff.mp (show (sz.fits imm && ea.ok .DA sz) = true from hwf)
  change assemble .ori (0x00#8 ++ sz.std ++ (ea.mode ++ ea.reg)) (immWords sz imm ++ ea.words sz ++ rest) = some (.ori sz imm ea, rest)
  have f := fields_8_2_ea 0x00#8 sz.std ea.mode ea.reg
  simp only [-BitVec.reduceAppend, assemble, withWord, withEA, withWordEA, withImmEA, withSizeEA, withLongBitEA, shiftReg, countOf, takeWord, List.cons_append, List.nil_append, List.append_assoc, Option.map_some, Option.bind_some, regOf_regBits, Size.ofStd_std, Size.ofMove_moveBits, Size.ofCas_casBits, Cond.ofBits_bits, Word.getLsbD_field, bit_get, byte_get, f, takeImm_words hwf.1, takeEA_words hwf.2]

theorem andiToCcr (imm : Byte) : Statement (.andiToCcr imm) := by
  intro rest _
  change assemble .andiToCcr (0x023C#16) ([imm.setWidth 16] ++ rest) = some (.andiToCcr imm, rest)
  simp only [-BitVec.reduceAppend, assemble, withWord, withEA, withWordEA, withImmEA, withSizeEA, withLongBitEA, shiftReg, countOf, takeWord, List.cons_append, List.nil_append, List.append_assoc, Option.map_some, Option.bind_some, regOf_regBits, Size.ofStd_std, Size.ofMove_moveBits, Size.ofCas_casBits, Cond.ofBits_bits, Word.getLsbD_field, bit_get, byte_get]

theorem andiToSr (imm : Word) : Statement (.andiToSr imm) := by
  intro rest _
  change assemble .andiToSr (0x027C#16) ([imm] ++ rest) = some (.andiToSr imm, rest)
  simp only [-BitVec.reduceAppend, assemble, withWord, withEA, withWordEA, withImmEA, withSizeEA, withLongBitEA, shiftReg, countOf, takeWord, List.cons_append, List.nil_append, List.append_assoc, Option.map_some, Option.bind_some, regOf_regBits, Size.ofStd_std, Size.ofMove_moveBits, Size.ofCas_casBits, Cond.ofBits_bits, Word.getLsbD_field, bit_get, byte_get]

theorem andi (sz : Size) (imm : Long) (ea : EA) : Statement (.andi sz imm ea) := by
  intro rest hwf
  have hwf := Bool.and_eq_true_iff.mp (show (sz.fits imm && ea.ok .DA sz) = true from hwf)
  change assemble .andi (0x02#8 ++ sz.std ++ (ea.mode ++ ea.reg)) (immWords sz imm ++ ea.words sz ++ rest) = some (.andi sz imm ea, rest)
  have f := fields_8_2_ea 0x02#8 sz.std ea.mode ea.reg
  simp only [-BitVec.reduceAppend, assemble, withWord, withEA, withWordEA, withImmEA, withSizeEA, withLongBitEA, shiftReg, countOf, takeWord, List.cons_append, List.nil_append, List.append_assoc, Option.map_some, Option.bind_some, regOf_regBits, Size.ofStd_std, Size.ofMove_moveBits, Size.ofCas_casBits, Cond.ofBits_bits, Word.getLsbD_field, bit_get, byte_get, f, takeImm_words hwf.1, takeEA_words hwf.2]

theorem subi (sz : Size) (imm : Long) (ea : EA) : Statement (.subi sz imm ea) := by
  intro rest hwf
  have hwf := Bool.and_eq_true_iff.mp (show (sz.fits imm && ea.ok .DA sz) = true from hwf)
  change assemble .subi (0x04#8 ++ sz.std ++ (ea.mode ++ ea.reg)) (immWords sz imm ++ ea.words sz ++ rest) = some (.subi sz imm ea, rest)
  have f := fields_8_2_ea 0x04#8 sz.std ea.mode ea.reg
  simp only [-BitVec.reduceAppend, assemble, withWord, withEA, withWordEA, withImmEA, withSizeEA, withLongBitEA, shiftReg, countOf, takeWord, List.cons_append, List.nil_append, List.append_assoc, Option.map_some, Option.bind_some, regOf_regBits, Size.ofStd_std, Size.ofMove_moveBits, Size.ofCas_casBits, Cond.ofBits_bits, Word.getLsbD_field, bit_get, byte_get, f, takeImm_words hwf.1, takeEA_words hwf.2]

theorem addi (sz : Size) (imm : Long) (ea : EA) : Statement (.addi sz imm ea) := by
  intro rest hwf
  have hwf := Bool.and_eq_true_iff.mp (show (sz.fits imm && ea.ok .DA sz) = true from hwf)
  change assemble .addi (0x06#8 ++ sz.std ++ (ea.mode ++ ea.reg)) (immWords sz imm ++ ea.words sz ++ rest) = some (.addi sz imm ea, rest)
  have f := fields_8_2_ea 0x06#8 sz.std ea.mode ea.reg
  simp only [-BitVec.reduceAppend, assemble, withWord, withEA, withWordEA, withImmEA, withSizeEA, withLongBitEA, shiftReg, countOf, takeWord, List.cons_append, List.nil_append, List.append_assoc, Option.map_some, Option.bind_some, regOf_regBits, Size.ofStd_std, Size.ofMove_moveBits, Size.ofCas_casBits, Cond.ofBits_bits, Word.getLsbD_field, bit_get, byte_get, f, takeImm_words hwf.1, takeEA_words hwf.2]

theorem eoriToCcr (imm : Byte) : Statement (.eoriToCcr imm) := by
  intro rest _
  change assemble .eoriToCcr (0x0A3C#16) ([imm.setWidth 16] ++ rest) = some (.eoriToCcr imm, rest)
  simp only [-BitVec.reduceAppend, assemble, withWord, withEA, withWordEA, withImmEA, withSizeEA, withLongBitEA, shiftReg, countOf, takeWord, List.cons_append, List.nil_append, List.append_assoc, Option.map_some, Option.bind_some, regOf_regBits, Size.ofStd_std, Size.ofMove_moveBits, Size.ofCas_casBits, Cond.ofBits_bits, Word.getLsbD_field, bit_get, byte_get]

theorem eoriToSr (imm : Word) : Statement (.eoriToSr imm) := by
  intro rest _
  change assemble .eoriToSr (0x0A7C#16) ([imm] ++ rest) = some (.eoriToSr imm, rest)
  simp only [-BitVec.reduceAppend, assemble, withWord, withEA, withWordEA, withImmEA, withSizeEA, withLongBitEA, shiftReg, countOf, takeWord, List.cons_append, List.nil_append, List.append_assoc, Option.map_some, Option.bind_some, regOf_regBits, Size.ofStd_std, Size.ofMove_moveBits, Size.ofCas_casBits, Cond.ofBits_bits, Word.getLsbD_field, bit_get, byte_get]

theorem eori (sz : Size) (imm : Long) (ea : EA) : Statement (.eori sz imm ea) := by
  intro rest hwf
  have hwf := Bool.and_eq_true_iff.mp (show (sz.fits imm && ea.ok .DA sz) = true from hwf)
  change assemble .eori (0x0A#8 ++ sz.std ++ (ea.mode ++ ea.reg)) (immWords sz imm ++ ea.words sz ++ rest) = some (.eori sz imm ea, rest)
  have f := fields_8_2_ea 0x0A#8 sz.std ea.mode ea.reg
  simp only [-BitVec.reduceAppend, assemble, withWord, withEA, withWordEA, withImmEA, withSizeEA, withLongBitEA, shiftReg, countOf, takeWord, List.cons_append, List.nil_append, List.append_assoc, Option.map_some, Option.bind_some, regOf_regBits, Size.ofStd_std, Size.ofMove_moveBits, Size.ofCas_casBits, Cond.ofBits_bits, Word.getLsbD_field, bit_get, byte_get, f, takeImm_words hwf.1, takeEA_words hwf.2]

theorem cmpi (sz : Size) (imm : Long) (ea : EA) : Statement (.cmpi sz imm ea) := by
  intro rest hwf
  have hwf := Bool.and_eq_true_iff.mp (show (sz.fits imm && ea.ok .DA sz) = true from hwf)
  change assemble .cmpi (0x0C#8 ++ sz.std ++ (ea.mode ++ ea.reg)) (immWords sz imm ++ ea.words sz ++ rest) = some (.cmpi sz imm ea, rest)
  have f := fields_8_2_ea 0x0C#8 sz.std ea.mode ea.reg
  simp only [-BitVec.reduceAppend, assemble, withWord, withEA, withWordEA, withImmEA, withSizeEA, withLongBitEA, shiftReg, countOf, takeWord, List.cons_append, List.nil_append, List.append_assoc, Option.map_some, Option.bind_some, regOf_regBits, Size.ofStd_std, Size.ofMove_moveBits, Size.ofCas_casBits, Cond.ofBits_bits, Word.getLsbD_field, bit_get, byte_get, f, takeImm_words hwf.1, takeEA_words hwf.2]

theorem btstImm (num : Byte) (ea : EA) : Statement (.btstImm num ea) := by
  intro rest hwf
  have hwf : ea.ok .dataNoImm .b = true := hwf
  change assemble .btstImm (0x08#8 ++ 0#2 ++ (ea.mode ++ ea.reg)) (num.setWidth 16 :: ea.words .b ++ rest) = some (.btstImm num ea, rest)
  have f := fields_8_2_ea 0x08#8 0#2 ea.mode ea.reg
  simp only [-BitVec.reduceAppend, assemble, withWord, withEA, withWordEA, withImmEA, withSizeEA, withLongBitEA, shiftReg, countOf, takeWord, List.cons_append, List.nil_append, List.append_assoc, Option.map_some, Option.bind_some, regOf_regBits, Size.ofStd_std, Size.ofMove_moveBits, Size.ofCas_casBits, Cond.ofBits_bits, Word.getLsbD_field, bit_get, byte_get, f, takeEA_words hwf]

theorem bchgImm (num : Byte) (ea : EA) : Statement (.bchgImm num ea) := by
  intro rest hwf
  have hwf : ea.ok .DA .b = true := hwf
  change assemble .bchgImm (0x08#8 ++ 1#2 ++ (ea.mode ++ ea.reg)) (num.setWidth 16 :: ea.words .b ++ rest) = some (.bchgImm num ea, rest)
  have f := fields_8_2_ea 0x08#8 1#2 ea.mode ea.reg
  simp only [-BitVec.reduceAppend, assemble, withWord, withEA, withWordEA, withImmEA, withSizeEA, withLongBitEA, shiftReg, countOf, takeWord, List.cons_append, List.nil_append, List.append_assoc, Option.map_some, Option.bind_some, regOf_regBits, Size.ofStd_std, Size.ofMove_moveBits, Size.ofCas_casBits, Cond.ofBits_bits, Word.getLsbD_field, bit_get, byte_get, f, takeEA_words hwf]

theorem bclrImm (num : Byte) (ea : EA) : Statement (.bclrImm num ea) := by
  intro rest hwf
  have hwf : ea.ok .DA .b = true := hwf
  change assemble .bclrImm (0x08#8 ++ 2#2 ++ (ea.mode ++ ea.reg)) (num.setWidth 16 :: ea.words .b ++ rest) = some (.bclrImm num ea, rest)
  have f := fields_8_2_ea 0x08#8 2#2 ea.mode ea.reg
  simp only [-BitVec.reduceAppend, assemble, withWord, withEA, withWordEA, withImmEA, withSizeEA, withLongBitEA, shiftReg, countOf, takeWord, List.cons_append, List.nil_append, List.append_assoc, Option.map_some, Option.bind_some, regOf_regBits, Size.ofStd_std, Size.ofMove_moveBits, Size.ofCas_casBits, Cond.ofBits_bits, Word.getLsbD_field, bit_get, byte_get, f, takeEA_words hwf]

theorem bsetImm (num : Byte) (ea : EA) : Statement (.bsetImm num ea) := by
  intro rest hwf
  have hwf : ea.ok .DA .b = true := hwf
  change assemble .bsetImm (0x08#8 ++ 3#2 ++ (ea.mode ++ ea.reg)) (num.setWidth 16 :: ea.words .b ++ rest) = some (.bsetImm num ea, rest)
  have f := fields_8_2_ea 0x08#8 3#2 ea.mode ea.reg
  simp only [-BitVec.reduceAppend, assemble, withWord, withEA, withWordEA, withImmEA, withSizeEA, withLongBitEA, shiftReg, countOf, takeWord, List.cons_append, List.nil_append, List.append_assoc, Option.map_some, Option.bind_some, regOf_regBits, Size.ofStd_std, Size.ofMove_moveBits, Size.ofCas_casBits, Cond.ofBits_bits, Word.getLsbD_field, bit_get, byte_get, f, takeEA_words hwf]

theorem btstDn (d : Reg) (ea : EA) : Statement (.btstDn d ea) := by
  intro rest hwf
  have hwf : ea.ok .data .b = true := hwf
  change assemble .btstDn (0#4 ++ (regBits d) ++ 1#1 ++ 0#2 ++ (ea.mode ++ ea.reg)) (ea.words .b ++ rest) = some (.btstDn d ea, rest)
  have f := fields_4_3_1_2_ea 0#4 (regBits d) 1#1 0#2 ea.mode ea.reg
  simp only [-BitVec.reduceAppend, assemble, withWord, withEA, withWordEA, withImmEA, withSizeEA, withLongBitEA, shiftReg, countOf, takeWord, List.cons_append, List.nil_append, List.append_assoc, Option.map_some, Option.bind_some, regOf_regBits, Size.ofStd_std, Size.ofMove_moveBits, Size.ofCas_casBits, Cond.ofBits_bits, Word.getLsbD_field, bit_get, byte_get, f, takeEA_words hwf]

theorem bchgDn (d : Reg) (ea : EA) : Statement (.bchgDn d ea) := by
  intro rest hwf
  have hwf : ea.ok .DA .b = true := hwf
  change assemble .bchgDn (0#4 ++ (regBits d) ++ 1#1 ++ 1#2 ++ (ea.mode ++ ea.reg)) (ea.words .b ++ rest) = some (.bchgDn d ea, rest)
  have f := fields_4_3_1_2_ea 0#4 (regBits d) 1#1 1#2 ea.mode ea.reg
  simp only [-BitVec.reduceAppend, assemble, withWord, withEA, withWordEA, withImmEA, withSizeEA, withLongBitEA, shiftReg, countOf, takeWord, List.cons_append, List.nil_append, List.append_assoc, Option.map_some, Option.bind_some, regOf_regBits, Size.ofStd_std, Size.ofMove_moveBits, Size.ofCas_casBits, Cond.ofBits_bits, Word.getLsbD_field, bit_get, byte_get, f, takeEA_words hwf]

theorem bclrDn (d : Reg) (ea : EA) : Statement (.bclrDn d ea) := by
  intro rest hwf
  have hwf : ea.ok .DA .b = true := hwf
  change assemble .bclrDn (0#4 ++ (regBits d) ++ 1#1 ++ 2#2 ++ (ea.mode ++ ea.reg)) (ea.words .b ++ rest) = some (.bclrDn d ea, rest)
  have f := fields_4_3_1_2_ea 0#4 (regBits d) 1#1 2#2 ea.mode ea.reg
  simp only [-BitVec.reduceAppend, assemble, withWord, withEA, withWordEA, withImmEA, withSizeEA, withLongBitEA, shiftReg, countOf, takeWord, List.cons_append, List.nil_append, List.append_assoc, Option.map_some, Option.bind_some, regOf_regBits, Size.ofStd_std, Size.ofMove_moveBits, Size.ofCas_casBits, Cond.ofBits_bits, Word.getLsbD_field, bit_get, byte_get, f, takeEA_words hwf]

theorem bsetDn (d : Reg) (ea : EA) : Statement (.bsetDn d ea) := by
  intro rest hwf
  have hwf : ea.ok .DA .b = true := hwf
  change assemble .bsetDn (0#4 ++ (regBits d) ++ 1#1 ++ 3#2 ++ (ea.mode ++ ea.reg)) (ea.words .b ++ rest) = some (.bsetDn d ea, rest)
  have f := fields_4_3_1_2_ea 0#4 (regBits d) 1#1 3#2 ea.mode ea.reg
  simp only [-BitVec.reduceAppend, assemble, withWord, withEA, withWordEA, withImmEA, withSizeEA, withLongBitEA, shiftReg, countOf, takeWord, List.cons_append, List.nil_append, List.append_assoc, Option.map_some, Option.bind_some, regOf_regBits, Size.ofStd_std, Size.ofMove_moveBits, Size.ofCas_casBits, Cond.ofBits_bits, Word.getLsbD_field, bit_get, byte_get, f, takeEA_words hwf]

theorem movep (d : Reg) (toMem : Bool) (long : Bool) (a : Reg) (disp : Word) : Statement (.movep d toMem long a disp) := by
  intro rest _
  change assemble .movep (0#4 ++ (regBits d) ++ 1#1 ++ (bit toMem) ++ (bit long) ++ 1#3 ++ (regBits a)) ([disp] ++ rest) = some (.movep d toMem long a disp, rest)
  have f := fields_4_3_1_1_1_3_3 0#4 (regBits d) 1#1 (bit toMem) (bit long) 1#3 (regBits a)
  simp only [-BitVec.reduceAppend, assemble, withWord, withEA, withWordEA, withImmEA, withSizeEA, withLongBitEA, shiftReg, countOf, takeWord, List.cons_append, List.nil_append, List.append_assoc, Option.map_some, Option.bind_some, regOf_regBits, Size.ofStd_std, Size.ofMove_moveBits, Size.ofCas_casBits, Cond.ofBits_bits, Word.getLsbD_field, bit_get, byte_get, f]

theorem cas (sz : Size) (dc : Reg) (du : Reg) (ea : EA) : Statement (.cas sz dc du ea) := by
  intro rest hwf
  have hwf : ea.ok .MA sz = true := hwf
  change assemble .cas (1#5 ++ sz.casBits ++ 0#1 ++ 3#2 ++ (ea.mode ++ ea.reg)) ((0#7 ++ regBits du ++ 0#3 ++ regBits dc) :: ea.words sz ++ rest) = some (.cas sz dc du ea, rest)
  have f := fields_5_2_1_2_ea 1#5 sz.casBits 0#1 3#2 ea.mode ea.reg
  have g := fields_7_3_3_3 0#7 (regBits du) 0#3 (regBits dc)
  simp only [-BitVec.reduceAppend, assemble, withWord, withEA, withWordEA, withImmEA, withSizeEA, withLongBitEA, shiftReg, countOf, takeWord, List.cons_append, List.nil_append, List.append_assoc, Option.map_some, Option.bind_some, regOf_regBits, Size.ofStd_std, Size.ofMove_moveBits, Size.ofCas_casBits, Cond.ofBits_bits, Word.getLsbD_field, bit_get, byte_get, f, takeEA_words hwf, g]

theorem move (sz : Size) (src : EA) (dst : EA) : Statement (.move sz src dst) := by
  intro rest hwf
  have hwf := Bool.and_eq_true_iff.mp (show (src.ok (.source sz) sz && dst.ok .DA sz) = true from hwf)
  change assemble .move (0#2 ++ sz.moveBits ++ dst.reg ++ dst.mode ++ (src.mode ++ src.reg)) (src.words sz ++ dst.words sz ++ rest) = some (.move sz src dst, rest)
  have f := fields_2_2_3_3_ea 0#2 sz.moveBits dst.reg dst.mode src.mode src.reg
  simp only [-BitVec.reduceAppend, assemble, withWord, withEA, withWordEA, withImmEA, withSizeEA, withLongBitEA, shiftReg, countOf, takeWord, List.cons_append, List.nil_append, List.append_assoc, Option.map_some, Option.bind_some, regOf_regBits, Size.ofStd_std, Size.ofMove_moveBits, Size.ofCas_casBits, Cond.ofBits_bits, Word.getLsbD_field, bit_get, byte_get, f, takeEA_words hwf.1, takeEA_words hwf.2]

theorem movea (sz : Size) (src : EA) (a : Reg) : Statement (.movea sz src a) := by
  intro rest hwf
  have hwf := Bool.and_eq_true_iff.mp (show (sz.wordOrLong && src.ok .all sz) = true from hwf)
  change assemble .movea (0#2 ++ sz.moveBits ++ (regBits a) ++ 1#3 ++ (src.mode ++ src.reg)) (src.words sz ++ rest) = some (.movea sz src a, rest)
  have f := fields_2_2_3_3_ea 0#2 sz.moveBits (regBits a) 1#3 src.mode src.reg
  simp only [-BitVec.reduceAppend, assemble, withWord, withEA, withWordEA, withImmEA, withSizeEA, withLongBitEA, shiftReg, countOf, takeWord, List.cons_append, List.nil_append, List.append_assoc, Option.map_some, Option.bind_some, regOf_regBits, Size.ofStd_std, Size.ofMove_moveBits, Size.ofCas_casBits, Cond.ofBits_bits, Word.getLsbD_field, bit_get, byte_get, f, takeEA_words hwf.2]

theorem negx (sz : Size) (ea : EA) : Statement (.negx sz ea) := by
  intro rest hwf
  have hwf : ea.ok .DA sz = true := hwf
  change assemble .negx (0x40#8 ++ sz.std ++ (ea.mode ++ ea.reg)) (ea.words sz ++ rest) = some (.negx sz ea, rest)
  have f := fields_8_2_ea 0x40#8 sz.std ea.mode ea.reg
  simp only [-BitVec.reduceAppend, assemble, withWord, withEA, withWordEA, withImmEA, withSizeEA, withLongBitEA, shiftReg, countOf, takeWord, List.cons_append, List.nil_append, List.append_assoc, Option.map_some, Option.bind_some, regOf_regBits, Size.ofStd_std, Size.ofMove_moveBits, Size.ofCas_casBits, Cond.ofBits_bits, Word.getLsbD_field, bit_get, byte_get, f, takeEA_words hwf]

theorem moveFromSr (ea : EA) : Statement (.moveFromSr ea) := by
  intro rest hwf
  have hwf : ea.ok .DA .w = true := hwf
  change assemble .moveFromSr (0x40#8 ++ 3#2 ++ (ea.mode ++ ea.reg)) (ea.words .w ++ rest) = some (.moveFromSr ea, rest)
  have f := fields_8_2_ea 0x40#8 3#2 ea.mode ea.reg
  simp only [-BitVec.reduceAppend, assemble, withWord, withEA, withWordEA, withImmEA, withSizeEA, withLongBitEA, shiftReg, countOf, takeWord, List.cons_append, List.nil_append, List.append_assoc, Option.map_some, Option.bind_some, regOf_regBits, Size.ofStd_std, Size.ofMove_moveBits, Size.ofCas_casBits, Cond.ofBits_bits, Word.getLsbD_field, bit_get, byte_get, f, takeEA_words hwf]

theorem chk (ea : EA) (d : Reg) : Statement (.chk ea d) := by
  intro rest hwf
  have hwf : ea.ok .data .w = true := hwf
  change assemble .chk (4#4 ++ (regBits d) ++ 1#1 ++ 2#2 ++ (ea.mode ++ ea.reg)) (ea.words .w ++ rest) = some (.chk ea d, rest)
  have f := fields_4_3_1_2_ea 4#4 (regBits d) 1#1 2#2 ea.mode ea.reg
  simp only [-BitVec.reduceAppend, assemble, withWord, withEA, withWordEA, withImmEA, withSizeEA, withLongBitEA, shiftReg, countOf, takeWord, List.cons_append, List.nil_append, List.append_assoc, Option.map_some, Option.bind_some, regOf_regBits, Size.ofStd_std, Size.ofMove_moveBits, Size.ofCas_casBits, Cond.ofBits_bits, Word.getLsbD_field, bit_get, byte_get, f, takeEA_words hwf]

theorem lea (ea : EA) (a : Reg) : Statement (.lea ea a) := by
  intro rest hwf
  have hwf : ea.ok .ctrl .l = true := hwf
  change assemble .lea (4#4 ++ (regBits a) ++ 1#1 ++ 3#2 ++ (ea.mode ++ ea.reg)) (ea.words .l ++ rest) = some (.lea ea a, rest)
  have f := fields_4_3_1_2_ea 4#4 (regBits a) 1#1 3#2 ea.mode ea.reg
  simp only [-BitVec.reduceAppend, assemble, withWord, withEA, withWordEA, withImmEA, withSizeEA, withLongBitEA, shiftReg, countOf, takeWord, List.cons_append, List.nil_append, List.append_assoc, Option.map_some, Option.bind_some, regOf_regBits, Size.ofStd_std, Size.ofMove_moveBits, Size.ofCas_casBits, Cond.ofBits_bits, Word.getLsbD_field, bit_get, byte_get, f, takeEA_words hwf]

theorem clr (sz : Size) (ea : EA) : Statement (.clr sz ea) := by
  intro rest hwf
  have hwf : ea.ok .DA sz = true := hwf
  change assemble .clr (0x42#8 ++ sz.std ++ (ea.mode ++ ea.reg)) (ea.words sz ++ rest) = some (.clr sz ea, rest)
  have f := fields_8_2_ea 0x42#8 sz.std ea.mode ea.reg
  simp only [-BitVec.reduceAppend, assemble, withWord, withEA, withWordEA, withImmEA, withSizeEA, withLongBitEA, shiftReg, countOf, takeWord, List.cons_append, List.nil_append, List.append_assoc, Option.map_some, Option.bind_some, regOf_regBits, Size.ofStd_std, Size.ofMove_moveBits, Size.ofCas_casBits, Cond.ofBits_bits, Word.getLsbD_field, bit_get, byte_get, f, takeEA_words hwf]

theorem moveFromCcr (ea : EA) : Statement (.moveFromCcr ea) := by
  intro rest hwf
  have hwf : ea.ok .DA .w = true := hwf
  change assemble .moveFromCcr (0x42#8 ++ 3#2 ++ (ea.mode ++ ea.reg)) (ea.words .w ++ rest) = some (.moveFromCcr ea, rest)
  have f := fields_8_2_ea 0x42#8 3#2 ea.mode ea.reg
  simp only [-BitVec.reduceAppend, assemble, withWord, withEA, withWordEA, withImmEA, withSizeEA, withLongBitEA, shiftReg, countOf, takeWord, List.cons_append, List.nil_append, List.append_assoc, Option.map_some, Option.bind_some, regOf_regBits, Size.ofStd_std, Size.ofMove_moveBits, Size.ofCas_casBits, Cond.ofBits_bits, Word.getLsbD_field, bit_get, byte_get, f, takeEA_words hwf]

theorem neg (sz : Size) (ea : EA) : Statement (.neg sz ea) := by
  intro rest hwf
  have hwf : ea.ok .DA sz = true := hwf
  change assemble .neg (0x44#8 ++ sz.std ++ (ea.mode ++ ea.reg)) (ea.words sz ++ rest) = some (.neg sz ea, rest)
  have f := fields_8_2_ea 0x44#8 sz.std ea.mode ea.reg
  simp only [-BitVec.reduceAppend, assemble, withWord, withEA, withWordEA, withImmEA, withSizeEA, withLongBitEA, shiftReg, countOf, takeWord, List.cons_append, List.nil_append, List.append_assoc, Option.map_some, Option.bind_some, regOf_regBits, Size.ofStd_std, Size.ofMove_moveBits, Size.ofCas_casBits, Cond.ofBits_bits, Word.getLsbD_field, bit_get, byte_get, f, takeEA_words hwf]

theorem moveToCcr (ea : EA) : Statement (.moveToCcr ea) := by
  intro rest hwf
  have hwf : ea.ok .data .w = true := hwf
  change assemble .moveToCcr (0x44#8 ++ 3#2 ++ (ea.mode ++ ea.reg)) (ea.words .w ++ rest) = some (.moveToCcr ea, rest)
  have f := fields_8_2_ea 0x44#8 3#2 ea.mode ea.reg
  simp only [-BitVec.reduceAppend, assemble, withWord, withEA, withWordEA, withImmEA, withSizeEA, withLongBitEA, shiftReg, countOf, takeWord, List.cons_append, List.nil_append, List.append_assoc, Option.map_some, Option.bind_some, regOf_regBits, Size.ofStd_std, Size.ofMove_moveBits, Size.ofCas_casBits, Cond.ofBits_bits, Word.getLsbD_field, bit_get, byte_get, f, takeEA_words hwf]

theorem not (sz : Size) (ea : EA) : Statement (.not sz ea) := by
  intro rest hwf
  have hwf : ea.ok .DA sz = true := hwf
  change assemble .not (0x46#8 ++ sz.std ++ (ea.mode ++ ea.reg)) (ea.words sz ++ rest) = some (.not sz ea, rest)
  have f := fields_8_2_ea 0x46#8 sz.std ea.mode ea.reg
  simp only [-BitVec.reduceAppend, assemble, withWord, withEA, withWordEA, withImmEA, withSizeEA, withLongBitEA, shiftReg, countOf, takeWord, List.cons_append, List.nil_append, List.append_assoc, Option.map_some, Option.bind_some, regOf_regBits, Size.ofStd_std, Size.ofMove_moveBits, Size.ofCas_casBits, Cond.ofBits_bits, Word.getLsbD_field, bit_get, byte_get, f, takeEA_words hwf]

theorem moveToSr (ea : EA) : Statement (.moveToSr ea) := by
  intro rest hwf
  have hwf : ea.ok .data .w = true := hwf
  change assemble .moveToSr (0x46#8 ++ 3#2 ++ (ea.mode ++ ea.reg)) (ea.words .w ++ rest) = some (.moveToSr ea, rest)
  have f := fields_8_2_ea 0x46#8 3#2 ea.mode ea.reg
  simp only [-BitVec.reduceAppend, assemble, withWord, withEA, withWordEA, withImmEA, withSizeEA, withLongBitEA, shiftReg, countOf, takeWord, List.cons_append, List.nil_append, List.append_assoc, Option.map_some, Option.bind_some, regOf_regBits, Size.ofStd_std, Size.ofMove_moveBits, Size.ofCas_casBits, Cond.ofBits_bits, Word.getLsbD_field, bit_get, byte_get, f, takeEA_words hwf]

theorem nbcd (ea : EA) : Statement (.nbcd ea) := by
  intro rest hwf
  have hwf : ea.ok .DA .b = true := hwf
  change assemble .nbcd (0x48#8 ++ 0#2 ++ (ea.mode ++ ea.reg)) (ea.words .b ++ rest) = some (.nbcd ea, rest)
  have f := fields_8_2_ea 0x48#8 0#2 ea.mode ea.reg
  simp only [-BitVec.reduceAppend, assemble, withWord, withEA, withWordEA, withImmEA, withSizeEA, withLongBitEA, shiftReg, countOf, takeWord, List.cons_append, List.nil_append, List.append_assoc, Option.map_some, Option.bind_some, regOf_regBits, Size.ofStd_std, Size.ofMove_moveBits, Size.ofCas_casBits, Cond.ofBits_bits, Word.getLsbD_field, bit_get, byte_get, f, takeEA_words hwf]

theorem swap (d : Reg) : Statement (.swap d) := by
  intro rest _
  change assemble .swap (0x48#8 ++ 1#2 ++ 0#3 ++ (regBits d)) ([] ++ rest) = some (.swap d, rest)
  have f := fields_8_2_3_3 0x48#8 1#2 0#3 (regBits d)
  simp only [-BitVec.reduceAppend, assemble, withWord, withEA, withWordEA, withImmEA, withSizeEA, withLongBitEA, shiftReg, countOf, takeWord, List.cons_append, List.nil_append, List.append_assoc, Option.map_some, Option.bind_some, regOf_regBits, Size.ofStd_std, Size.ofMove_moveBits, Size.ofCas_casBits, Cond.ofBits_bits, Word.getLsbD_field, bit_get, byte_get, f]

theorem pea (ea : EA) : Statement (.pea ea) := by
  intro rest hwf
  have hwf : ea.ok .ctrl .l = true := hwf
  change assemble .pea (0x48#8 ++ 1#2 ++ (ea.mode ++ ea.reg)) (ea.words .l ++ rest) = some (.pea ea, rest)
  have f := fields_8_2_ea 0x48#8 1#2 ea.mode ea.reg
  simp only [-BitVec.reduceAppend, assemble, withWord, withEA, withWordEA, withImmEA, withSizeEA, withLongBitEA, shiftReg, countOf, takeWord, List.cons_append, List.nil_append, List.append_assoc, Option.map_some, Option.bind_some, regOf_regBits, Size.ofStd_std, Size.ofMove_moveBits, Size.ofCas_casBits, Cond.ofBits_bits, Word.getLsbD_field, bit_get, byte_get, f, takeEA_words hwf]

theorem extW (d : Reg) : Statement (.extW d) := by
  intro rest _
  change assemble .extW (0x48#8 ++ 2#2 ++ 0#3 ++ (regBits d)) ([] ++ rest) = some (.extW d, rest)
  have f := fields_8_2_3_3 0x48#8 2#2 0#3 (regBits d)
  simp only [-BitVec.reduceAppend, assemble, withWord, withEA, withWordEA, withImmEA, withSizeEA, withLongBitEA, shiftReg, countOf, takeWord, List.cons_append, List.nil_append, List.append_assoc, Option.map_some, Option.bind_some, regOf_regBits, Size.ofStd_std, Size.ofMove_moveBits, Size.ofCas_casBits, Cond.ofBits_bits, Word.getLsbD_field, bit_get, byte_get, f]

theorem extL (d : Reg) : Statement (.extL d) := by
  intro rest _
  change assemble .extL (0x48#8 ++ 3#2 ++ 0#3 ++ (regBits d)) ([] ++ rest) = some (.extL d, rest)
  have f := fields_8_2_3_3 0x48#8 3#2 0#3 (regBits d)
  simp only [-BitVec.reduceAppend, assemble, withWord, withEA, withWordEA, withImmEA, withSizeEA, withLongBitEA, shiftReg, countOf, takeWord, List.cons_append, List.nil_append, List.append_assoc, Option.map_some, Option.bind_some, regOf_regBits, Size.ofStd_std, Size.ofMove_moveBits, Size.ofCas_casBits, Cond.ofBits_bits, Word.getLsbD_field, bit_get, byte_get, f]

theorem movemToMem (sz : Size) (mask : Word) (ea : EA) : Statement (.movemToMem sz mask ea) := by
  intro rest hwf
  have hwf := Bool.and_eq_true_iff.mp (show (sz.wordOrLong && ea.ok .CAorPre sz) = true from hwf)
  change assemble .movemToMem (0x48#8 ++ 1#1 ++ sz.longBit ++ (ea.mode ++ ea.reg)) (mask :: ea.words sz ++ rest) = some (.movemToMem sz mask ea, rest)
  have f := fields_8_1_1_ea 0x48#8 1#1 sz.longBit ea.mode ea.reg
  simp only [-BitVec.reduceAppend, assemble, withWord, withEA, withWordEA, withImmEA, withSizeEA, withLongBitEA, shiftReg, countOf, takeWord, List.cons_append, List.nil_append, List.append_assoc, Option.map_some, Option.bind_some, regOf_regBits, Size.ofStd_std, Size.ofMove_moveBits, Size.ofCas_casBits, Cond.ofBits_bits, Word.getLsbD_field, bit_get, byte_get, f, Size.of_longBit hwf.1, takeEA_words hwf.2]

theorem tst (sz : Size) (ea : EA) : Statement (.tst sz ea) := by
  intro rest hwf
  have hwf : ea.ok .DA sz = true := hwf
  change assemble .tst (0x4A#8 ++ sz.std ++ (ea.mode ++ ea.reg)) (ea.words sz ++ rest) = some (.tst sz ea, rest)
  have f := fields_8_2_ea 0x4A#8 sz.std ea.mode ea.reg
  simp only [-BitVec.reduceAppend, assemble, withWord, withEA, withWordEA, withImmEA, withSizeEA, withLongBitEA, shiftReg, countOf, takeWord, List.cons_append, List.nil_append, List.append_assoc, Option.map_some, Option.bind_some, regOf_regBits, Size.ofStd_std, Size.ofMove_moveBits, Size.ofCas_casBits, Cond.ofBits_bits, Word.getLsbD_field, bit_get, byte_get, f, takeEA_words hwf]

theorem tas (ea : EA) : Statement (.tas ea) := by
  intro rest hwf
  have hwf : ea.ok .DA .b = true := hwf
  change assemble .tas (0x4A#8 ++ 3#2 ++ (ea.mode ++ ea.reg)) (ea.words .b ++ rest) = some (.tas ea, rest)
  have f := fields_8_2_ea 0x4A#8 3#2 ea.mode ea.reg
  simp only [-BitVec.reduceAppend, assemble, withWord, withEA, withWordEA, withImmEA, withSizeEA, withLongBitEA, shiftReg, countOf, takeWord, List.cons_append, List.nil_append, List.append_assoc, Option.map_some, Option.bind_some, regOf_regBits, Size.ofStd_std, Size.ofMove_moveBits, Size.ofCas_casBits, Cond.ofBits_bits, Word.getLsbD_field, bit_get, byte_get, f, takeEA_words hwf]

theorem illegal : Statement (.illegal) := by
  intro rest _
  change assemble .illegal (0x4AFC#16) ([] ++ rest) = some (.illegal, rest)
  simp only [-BitVec.reduceAppend, assemble, withWord, withEA, withWordEA, withImmEA, withSizeEA, withLongBitEA, shiftReg, countOf, takeWord, List.cons_append, List.nil_append, List.append_assoc, Option.map_some, Option.bind_some, regOf_regBits, Size.ofStd_std, Size.ofMove_moveBits, Size.ofCas_casBits, Cond.ofBits_bits, Word.getLsbD_field, bit_get, byte_get]

theorem mull (signed : Bool) (wide : Bool) (l : Reg) (h : Reg) (ea : EA) : Statement (.mull signed wide l h ea) := by
  intro rest hwf
  have hwf : ea.ok .data .l = true := hwf
  change assemble .mull (0x4C#8 ++ 0#2 ++ (ea.mode ++ ea.reg)) ((0#1 ++ regBits l ++ bit signed ++ bit wide ++ 0#7 ++ regBits h) :: ea.words .l ++ rest) = some (.mull signed wide l h ea, rest)
  have f := fields_8_2_ea 0x4C#8 0#2 ea.mode ea.reg
  have g := fields_1_3_1_1_7_3 0#1 (regBits l) (bit signed) (bit wide) 0#7 (regBits h)
  simp only [-BitVec.reduceAppend, assemble, withWord, withEA, withWordEA, withImmEA, withSizeEA, withLongBitEA, shiftReg, countOf, takeWord, List.cons_append, List.nil_append, List.append_assoc, Option.map_some, Option.bind_some, regOf_regBits, Size.ofStd_std, Size.ofMove_moveBits, Size.ofCas_casBits, Cond.ofBits_bits, Word.getLsbD_field, bit_get, byte_get, f, takeEA_words hwf, g]

theorem divl (signed : Bool) (wide : Bool) (q : Reg) (r : Reg) (ea : EA) : Statement (.divl signed wide q r ea) := by
  intro rest hwf
  have hwf : ea.ok .data .l = true := hwf
  change assemble .divl (0x4C#8 ++ 1#2 ++ (ea.mode ++ ea.reg)) ((0#1 ++ regBits q ++ bit signed ++ bit wide ++ 0#7 ++ regBits r) :: ea.words .l ++ rest) = some (.divl signed wide q r ea, rest)
  have f := fields_8_2_ea 0x4C#8 1#2 ea.mode ea.reg
  have g := fields_1_3_1_1_7_3 0#1 (regBits q) (bit signed) (bit wide) 0#7 (regBits r)
  simp only [-BitVec.reduceAppend, assemble, withWord, withEA, withWordEA, withImmEA, withSizeEA, withLongBitEA, shiftReg, countOf, takeWord, List.cons_append, List.nil_append, List.append_assoc, Option.map_some, Option.bind_some, regOf_regBits, Size.ofStd_std, Size.ofMove_moveBits, Size.ofCas_casBits, Cond.ofBits_bits, Word.getLsbD_field, bit_get, byte_get, f, takeEA_words hwf, g]

theorem movemToReg (sz : Size) (mask : Word) (ea : EA) : Statement (.movemToReg sz mask ea) := by
  intro rest hwf
  have hwf := Bool.and_eq_true_iff.mp (show (sz.wordOrLong && ea.ok .CorPost sz) = true from hwf)
  change assemble .movemToReg (0x4C#8 ++ 1#1 ++ sz.longBit ++ (ea.mode ++ ea.reg)) (mask :: ea.words sz ++ rest) = some (.movemToReg sz mask ea, rest)
  have f := fields_8_1_1_ea 0x4C#8 1#1 sz.longBit ea.mode ea.reg
  simp only [-BitVec.reduceAppend, assemble, withWord, withEA, withWordEA, withImmEA, withSizeEA, withLongBitEA, shiftReg, countOf, takeWord, List.cons_append, List.nil_append, List.append_assoc, Option.map_some, Option.bind_some, regOf_regBits, Size.ofStd_std, Size.ofMove_moveBits, Size.ofCas_casBits, Cond.ofBits_bits, Word.getLsbD_field, bit_get, byte_get, f, Size.of_longBit hwf.1, takeEA_words hwf.2]

theorem trap (v : BitVec 4) : Statement (.trap v) := by
  intro rest _
  change assemble .trap (0x4E4#12 ++ v) ([] ++ rest) = some (.trap v, rest)
  have f := fields_12_4 0x4E4#12 v
  simp only [-BitVec.reduceAppend, assemble, withWord, withEA, withWordEA, withImmEA, withSizeEA, withLongBitEA, shiftReg, countOf, takeWord, List.cons_append, List.nil_append, List.append_assoc, Option.map_some, Option.bind_some, regOf_regBits, Size.ofStd_std, Size.ofMove_moveBits, Size.ofCas_casBits, Cond.ofBits_bits, Word.getLsbD_field, bit_get, byte_get, f]

theorem link (a : Reg) (disp : Word) : Statement (.link a disp) := by
  intro rest _
  change assemble .link (0x4E#8 ++ 0b01010#5 ++ (regBits a)) ([disp] ++ rest) = some (.link a disp, rest)
  have f := fields_8_5_3 0x4E#8 0b01010#5 (regBits a)
  simp only [-BitVec.reduceAppend, assemble, withWord, withEA, withWordEA, withImmEA, withSizeEA, withLongBitEA, shiftReg, countOf, takeWord, List.cons_append, List.nil_append, List.append_assoc, Option.map_some, Option.bind_some, regOf_regBits, Size.ofStd_std, Size.ofMove_moveBits, Size.ofCas_casBits, Cond.ofBits_bits, Word.getLsbD_field, bit_get, byte_get, f]

theorem unlk (a : Reg) : Statement (.unlk a) := by
  intro rest _
  change assemble .unlk (0x4E#8 ++ 0b01011#5 ++ (regBits a)) ([] ++ rest) = some (.unlk a, rest)
  have f := fields_8_5_3 0x4E#8 0b01011#5 (regBits a)
  simp only [-BitVec.reduceAppend, assemble, withWord, withEA, withWordEA, withImmEA, withSizeEA, withLongBitEA, shiftReg, countOf, takeWord, List.cons_append, List.nil_append, List.append_assoc, Option.map_some, Option.bind_some, regOf_regBits, Size.ofStd_std, Size.ofMove_moveBits, Size.ofCas_casBits, Cond.ofBits_bits, Word.getLsbD_field, bit_get, byte_get, f]

theorem moveToUsp (a : Reg) : Statement (.moveToUsp a) := by
  intro rest _
  change assemble .moveToUsp (0x4E#8 ++ 0b01100#5 ++ (regBits a)) ([] ++ rest) = some (.moveToUsp a, rest)
  have f := fields_8_5_3 0x4E#8 0b01100#5 (regBits a)
  simp only [-BitVec.reduceAppend, assemble, withWord, withEA, withWordEA, withImmEA, withSizeEA, withLongBitEA, shiftReg, countOf, takeWord, List.cons_append, List.nil_append, List.append_assoc, Option.map_some, Option.bind_some, regOf_regBits, Size.ofStd_std, Size.ofMove_moveBits, Size.ofCas_casBits, Cond.ofBits_bits, Word.getLsbD_field, bit_get, byte_get, f]

theorem moveFromUsp (a : Reg) : Statement (.moveFromUsp a) := by
  intro rest _
  change assemble .moveFromUsp (0x4E#8 ++ 0b01101#5 ++ (regBits a)) ([] ++ rest) = some (.moveFromUsp a, rest)
  have f := fields_8_5_3 0x4E#8 0b01101#5 (regBits a)
  simp only [-BitVec.reduceAppend, assemble, withWord, withEA, withWordEA, withImmEA, withSizeEA, withLongBitEA, shiftReg, countOf, takeWord, List.cons_append, List.nil_append, List.append_assoc, Option.map_some, Option.bind_some, regOf_regBits, Size.ofStd_std, Size.ofMove_moveBits, Size.ofCas_casBits, Cond.ofBits_bits, Word.getLsbD_field, bit_get, byte_get, f]

theorem reset : Statement (.reset) := by
  intro rest _
  change assemble .reset (0x4E70#16) ([] ++ rest) = some (.reset, rest)
  simp only [-BitVec.reduceAppend, assemble, withWord, withEA, withWordEA, withImmEA, withSizeEA, withLongBitEA, shiftReg, countOf, takeWord, List.cons_append, List.nil_append, List.append_assoc, Option.map_some, Option.bind_some, regOf_regBits, Size.ofStd_std, Size.ofMove_moveBits, Size.ofCas_casBits, Cond.ofBits_bits, Word.getLsbD_field, bit_get, byte_get]

theorem nop : Statement (.nop) := by
  intro rest _
  change assemble .nop (0x4E71#16) ([] ++ rest) = some (.nop, rest)
  simp only [-BitVec.reduceAppend, assemble, withWord, withEA, withWordEA, withImmEA, withSizeEA, withLongBitEA, shiftReg, countOf, takeWord, List.cons_append, List.nil_append, List.append_assoc, Option.map_some, Option.bind_some, regOf_regBits, Size.ofStd_std, Size.ofMove_moveBits, Size.ofCas_casBits, Cond.ofBits_bits, Word.getLsbD_field, bit_get, byte_get]

theorem stop (imm : Word) : Statement (.stop imm) := by
  intro rest _
  change assemble .stop (0x4E72#16) ([imm] ++ rest) = some (.stop imm, rest)
  simp only [-BitVec.reduceAppend, assemble, withWord, withEA, withWordEA, withImmEA, withSizeEA, withLongBitEA, shiftReg, countOf, takeWord, List.cons_append, List.nil_append, List.append_assoc, Option.map_some, Option.bind_some, regOf_regBits, Size.ofStd_std, Size.ofMove_moveBits, Size.ofCas_casBits, Cond.ofBits_bits, Word.getLsbD_field, bit_get, byte_get]

theorem rte : Statement (.rte) := by
  intro rest _
  change assemble .rte (0x4E73#16) ([] ++ rest) = some (.rte, rest)
  simp only [-BitVec.reduceAppend, assemble, withWord, withEA, withWordEA, withImmEA, withSizeEA, withLongBitEA, shiftReg, countOf, takeWord, List.cons_append, List.nil_append, List.append_assoc, Option.map_some, Option.bind_some, regOf_regBits, Size.ofStd_std, Size.ofMove_moveBits, Size.ofCas_casBits, Cond.ofBits_bits, Word.getLsbD_field, bit_get, byte_get]

theorem rts : Statement (.rts) := by
  intro rest _
  change assemble .rts (0x4E75#16) ([] ++ rest) = some (.rts, rest)
  simp only [-BitVec.reduceAppend, assemble, withWord, withEA, withWordEA, withImmEA, withSizeEA, withLongBitEA, shiftReg, countOf, takeWord, List.cons_append, List.nil_append, List.append_assoc, Option.map_some, Option.bind_some, regOf_regBits, Size.ofStd_std, Size.ofMove_moveBits, Size.ofCas_casBits, Cond.ofBits_bits, Word.getLsbD_field, bit_get, byte_get]

theorem trapv : Statement (.trapv) := by
  intro rest _
  change assemble .trapv (0x4E76#16) ([] ++ rest) = some (.trapv, rest)
  simp only [-BitVec.reduceAppend, assemble, withWord, withEA, withWordEA, withImmEA, withSizeEA, withLongBitEA, shiftReg, countOf, takeWord, List.cons_append, List.nil_append, List.append_assoc, Option.map_some, Option.bind_some, regOf_regBits, Size.ofStd_std, Size.ofMove_moveBits, Size.ofCas_casBits, Cond.ofBits_bits, Word.getLsbD_field, bit_get, byte_get]

theorem rtr : Statement (.rtr) := by
  intro rest _
  change assemble .rtr (0x4E77#16) ([] ++ rest) = some (.rtr, rest)
  simp only [-BitVec.reduceAppend, assemble, withWord, withEA, withWordEA, withImmEA, withSizeEA, withLongBitEA, shiftReg, countOf, takeWord, List.cons_append, List.nil_append, List.append_assoc, Option.map_some, Option.bind_some, regOf_regBits, Size.ofStd_std, Size.ofMove_moveBits, Size.ofCas_casBits, Cond.ofBits_bits, Word.getLsbD_field, bit_get, byte_get]

theorem jsr (ea : EA) : Statement (.jsr ea) := by
  intro rest hwf
  have hwf : ea.ok .ctrl .l = true := hwf
  change assemble .jsr (0x4E#8 ++ 2#2 ++ (ea.mode ++ ea.reg)) (ea.words .l ++ rest) = some (.jsr ea, rest)
  have f := fields_8_2_ea 0x4E#8 2#2 ea.mode ea.reg
  simp only [-BitVec.reduceAppend, assemble, withWord, withEA, withWordEA, withImmEA, withSizeEA, withLongBitEA, shiftReg, countOf, takeWord, List.cons_append, List.nil_append, List.append_assoc, Option.map_some, Option.bind_some, regOf_regBits, Size.ofStd_std, Size.ofMove_moveBits, Size.ofCas_casBits, Cond.ofBits_bits, Word.getLsbD_field, bit_get, byte_get, f, takeEA_words hwf]

theorem jmp (ea : EA) : Statement (.jmp ea) := by
  intro rest hwf
  have hwf : ea.ok .ctrl .l = true := hwf
  change assemble .jmp (0x4E#8 ++ 3#2 ++ (ea.mode ++ ea.reg)) (ea.words .l ++ rest) = some (.jmp ea, rest)
  have f := fields_8_2_ea 0x4E#8 3#2 ea.mode ea.reg
  simp only [-BitVec.reduceAppend, assemble, withWord, withEA, withWordEA, withImmEA, withSizeEA, withLongBitEA, shiftReg, countOf, takeWord, List.cons_append, List.nil_append, List.append_assoc, Option.map_some, Option.bind_some, regOf_regBits, Size.ofStd_std, Size.ofMove_moveBits, Size.ofCas_casBits, Cond.ofBits_bits, Word.getLsbD_field, bit_get, byte_get, f, takeEA_words hwf]

theorem addq (q : BitVec 3) (sz : Size) (ea : EA) : Statement (.addq q sz ea) := by
  intro rest hwf
  have hwf : ea.ok (.quick sz) sz = true := hwf
  change assemble .addq (5#4 ++ q ++ 0#1 ++ sz.std ++ (ea.mode ++ ea.reg)) (ea.words sz ++ rest) = some (.addq q sz ea, rest)
  have f := fields_4_3_1_2_ea 5#4 q 0#1 sz.std ea.mode ea.reg
  simp only [-BitVec.reduceAppend, assemble, withWord, withEA, withWordEA, withImmEA, withSizeEA, withLongBitEA, shiftReg, countOf, takeWord, List.cons_append, List.nil_append, List.append_assoc, Option.map_some, Option.bind_some, regOf_regBits, Size.ofStd_std, Size.ofMove_moveBits, Size.ofCas_casBits, Cond.ofBits_bits, Word.getLsbD_field, bit_get, byte_get, f, takeEA_words hwf]

theorem subq (q : BitVec 3) (sz : Size) (ea : EA) : Statement (.subq q sz ea) := by
  intro rest hwf
  have hwf : ea.ok (.quick sz) sz = true := hwf
  change assemble .subq (5#4 ++ q ++ 1#1 ++ sz.std ++ (ea.mode ++ ea.reg)) (ea.words sz ++ rest) = some (.subq q sz ea, rest)
  have f := fields_4_3_1_2_ea 5#4 q 1#1 sz.std ea.mode ea.reg
  simp only [-BitVec.reduceAppend, assemble, withWord, withEA, withWordEA, withImmEA, withSizeEA, withLongBitEA, shiftReg, countOf, takeWord, List.cons_append, List.nil_append, List.append_assoc, Option.map_some, Option.bind_some, regOf_regBits, Size.ofStd_std, Size.ofMove_moveBits, Size.ofCas_casBits, Cond.ofBits_bits, Word.getLsbD_field, bit_get, byte_get, f, takeEA_words hwf]

theorem scc (c : Cond) (ea : EA) : Statement (.scc c ea) := by
  intro rest hwf
  have hwf : ea.ok .DA .b = true := hwf
  change assemble .scc (5#4 ++ c.bits ++ 3#2 ++ (ea.mode ++ ea.reg)) (ea.words .b ++ rest) = some (.scc c ea, rest)
  have f := fields_4_4_2_ea 5#4 c.bits 3#2 ea.mode ea.reg
  simp only [-BitVec.reduceAppend, assemble, withWord, withEA, withWordEA, withImmEA, withSizeEA, withLongBitEA, shiftReg, countOf, takeWord, List.cons_append, List.nil_append, List.append_assoc, Option.map_some, Option.bind_some, regOf_regBits, Size.ofStd_std, Size.ofMove_moveBits, Size.ofCas_casBits, Cond.ofBits_bits, Word.getLsbD_field, bit_get, byte_get, f, takeEA_words hwf]

theorem dbcc (c : Cond) (d : Reg) (disp : Word) : Statement (.dbcc c d disp) := by
  intro rest _
  change assemble .dbcc (5#4 ++ c.bits ++ 3#2 ++ 1#3 ++ (regBits d)) ([disp] ++ rest) = some (.dbcc c d disp, rest)
  have f := fields_4_4_2_3_3 5#4 c.bits 3#2 1#3 (regBits d)
  simp only [-BitVec.reduceAppend, assemble, withWord, withEA, withWordEA, withImmEA, withSizeEA, withLongBitEA, shiftReg, countOf, takeWord, List.cons_append, List.nil_append, List.append_assoc, Option.map_some, Option.bind_some, regOf_regBits, Size.ofStd_std, Size.ofMove_moveBits, Size.ofCas_casBits, Cond.ofBits_bits, Word.getLsbD_field, bit_get, byte_get, f]

theorem trapcc (c : Cond) (opnd : TrapOperand) : Statement (.trapcc c opnd) := by
  intro rest _
  change assemble .trapcc (5#4 ++ c.bits ++ 3#2 ++ 7#3 ++ opnd.bits) (opnd.words ++ rest) = some (.trapcc c opnd, rest)
  have f := fields_4_4_2_3_3 5#4 c.bits 3#2 7#3 opnd.bits
  cases opnd
  all_goals try simp only [TrapOperand.bits] at f
  all_goals simp only [-BitVec.reduceAppend, assemble, withWord, withEA, withWordEA, withImmEA, withSizeEA, withLongBitEA, shiftReg, countOf, takeWord, List.cons_append, List.nil_append, List.append_assoc, Option.map_some, Option.bind_some, regOf_regBits, Size.ofStd_std, Size.ofMove_moveBits, Size.ofCas_casBits, Cond.ofBits_bits, Word.getLsbD_field, bit_get, byte_get, f, TrapOperand.bits, TrapOperand.words, longWords, takeLong, longWords_get]
  all_goals rfl

theorem bra (disp : BranchDisp) : Statement (.bra disp) := by
  intro rest hwf
  have hwf : disp.ok = true := hwf
  change assemble .bra (0x60#8 ++ disp.bits) (disp.words ++ rest) = some (.bra disp, rest)
  have f := fields_8_8 0x60#8 disp.bits
  simp only [-BitVec.reduceAppend, assemble, withWord, withEA, withWordEA, withImmEA, withSizeEA, withLongBitEA, shiftReg, countOf, takeWord, List.cons_append, List.nil_append, List.append_assoc, Option.map_some, Option.bind_some, regOf_regBits, Size.ofStd_std, Size.ofMove_moveBits, Size.ofCas_casBits, Cond.ofBits_bits, Word.getLsbD_field, bit_get, byte_get, f, branchDisp_words hwf]

theorem bsr (disp : BranchDisp) : Statement (.bsr disp) := by
  intro rest hwf
  have hwf : disp.ok = true := hwf
  change assemble .bsr (0x61#8 ++ disp.bits) (disp.words ++ rest) = some (.bsr disp, rest)
  have f := fields_8_8 0x61#8 disp.bits
  simp only [-BitVec.reduceAppend, assemble, withWord, withEA, withWordEA, withImmEA, withSizeEA, withLongBitEA, shiftReg, countOf, takeWord, List.cons_append, List.nil_append, List.append_assoc, Option.map_some, Option.bind_some, regOf_regBits, Size.ofStd_std, Size.ofMove_moveBits, Size.ofCas_casBits, Cond.ofBits_bits, Word.getLsbD_field, bit_get, byte_get, f, branchDisp_words hwf]

theorem bcc (c : Cond) (disp : BranchDisp) : Statement (.bcc c disp) := by
  intro rest hwf
  have hwf := Bool.and_eq_true_iff.mp (show (c.branches && disp.ok) = true from hwf)
  change assemble .bcc (6#4 ++ c.bits ++ disp.bits) (disp.words ++ rest) = some (.bcc c disp, rest)
  have f := fields_4_4_8 6#4 c.bits disp.bits
  simp only [-BitVec.reduceAppend, assemble, withWord, withEA, withWordEA, withImmEA, withSizeEA, withLongBitEA, shiftReg, countOf, takeWord, List.cons_append, List.nil_append, List.append_assoc, Option.map_some, Option.bind_some, regOf_regBits, Size.ofStd_std, Size.ofMove_moveBits, Size.ofCas_casBits, Cond.ofBits_bits, Word.getLsbD_field, bit_get, byte_get, f, branchDisp_words hwf.2]

theorem moveq (k : Byte) (d : Reg) : Statement (.moveq k d) := by
  intro rest _
  change assemble .moveq (7#4 ++ (regBits d) ++ 0#1 ++ k) ([] ++ rest) = some (.moveq k d, rest)
  have f := fields_4_3_1_8 7#4 (regBits d) 0#1 k
  simp only [-BitVec.reduceAppend, assemble, withWord, withEA, withWordEA, withImmEA, withSizeEA, withLongBitEA, shiftReg, countOf, takeWord, List.cons_append, List.nil_append, List.append_assoc, Option.map_some, Option.bind_some, regOf_regBits, Size.ofStd_std, Size.ofMove_moveBits, Size.ofCas_casBits, Cond.ofBits_bits, Word.getLsbD_field, bit_get, byte_get, f]

theorem divuW (ea : EA) (d : Reg) : Statement (.divuW ea d) := by
  intro rest hwf
  have hwf : ea.ok .data .w = true := hwf
  change assemble .divuW (0x8#4 ++ (regBits d) ++ 0#1 ++ 3#2 ++ (ea.mode ++ ea.reg)) (ea.words .w ++ rest) = some (.divuW ea d, rest)
  have f := fields_4_3_1_2_ea 0x8#4 (regBits d) 0#1 3#2 ea.mode ea.reg
  simp only [-BitVec.reduceAppend, assemble, withWord, withEA, withWordEA, withImmEA, withSizeEA, withLongBitEA, shiftReg, countOf, takeWord, List.cons_append, List.nil_append, List.append_assoc, Option.map_some, Option.bind_some, regOf_regBits, Size.ofStd_std, Size.ofMove_moveBits, Size.ofCas_casBits, Cond.ofBits_bits, Word.getLsbD_field, bit_get, byte_get, f, takeEA_words hwf]

theorem divsW (ea : EA) (d : Reg) : Statement (.divsW ea d) := by
  intro rest hwf
  have hwf : ea.ok .data .w = true := hwf
  change assemble .divsW (0x8#4 ++ (regBits d) ++ 1#1 ++ 3#2 ++ (ea.mode ++ ea.reg)) (ea.words .w ++ rest) = some (.divsW ea d, rest)
  have f := fields_4_3_1_2_ea 0x8#4 (regBits d) 1#1 3#2 ea.mode ea.reg
  simp only [-BitVec.reduceAppend, assemble, withWord, withEA, withWordEA, withImmEA, withSizeEA, withLongBitEA, shiftReg, countOf, takeWord, List.cons_append, List.nil_append, List.append_assoc, Option.map_some, Option.bind_some, regOf_regBits, Size.ofStd_std, Size.ofMove_moveBits, Size.ofCas_casBits, Cond.ofBits_bits, Word.getLsbD_field, bit_get, byte_get, f, takeEA_words hwf]

theorem sbcd (mem : Bool) (y : Reg) (x : Reg) : Statement (.sbcd mem y x) := by
  intro rest _
  change assemble .sbcd (0x8#4 ++ (regBits x) ++ 1#1 ++ 0#4 ++ (bit mem) ++ (regBits y)) ([] ++ rest) = some (.sbcd mem y x, rest)
  have f := fields_4_3_1_4_1_3 0x8#4 (regBits x) 1#1 0#4 (bit mem) (regBits y)
  simp only [-BitVec.reduceAppend, assemble, withWord, withEA, withWordEA, withImmEA, withSizeEA, withLongBitEA, shiftReg, countOf, takeWord, List.cons_append, List.nil_append, List.append_assoc, Option.map_some, Option.bind_some, regOf_regBits, Size.ofStd_std, Size.ofMove_moveBits, Size.ofCas_casBits, Cond.ofBits_bits, Word.getLsbD_field, bit_get, byte_get, f]

theorem orEaDn (sz : Size) (ea : EA) (d : Reg) : Statement (.orEaDn sz ea d) := by
  intro rest hwf
  have hwf : ea.ok .data sz = true := hwf
  change assemble .orEaDn (0x8#4 ++ (regBits d) ++ 0#1 ++ sz.std ++ (ea.mode ++ ea.reg)) (ea.words sz ++ rest) = some (.orEaDn sz ea d, rest)
  have f := fields_4_3_1_2_ea 0x8#4 (regBits d) 0#1 sz.std ea.mode ea.reg
  simp only [-BitVec.reduceAppend, assemble, withWord, withEA, withWordEA, withImmEA, withSizeEA, withLongBitEA, shiftReg, countOf, takeWord, List.cons_append, List.nil_append, List.append_assoc, Option.map_some, Option.bind_some, regOf_regBits, Size.ofStd_std, Size.ofMove_moveBits, Size.ofCas_casBits, Cond.ofBits_bits, Word.getLsbD_field, bit_get, byte_get, f, takeEA_words hwf]

theorem orDnEa (sz : Size) (d : Reg) (ea : EA) : Statement (.orDnEa sz d ea) := by
  intro rest hwf
  have hwf : ea.ok .MA sz = true := hwf
  change assemble .orDnEa (0x8#4 ++ (regBits d) ++ 1#1 ++ sz.std ++ (ea.mode ++ ea.reg)) (ea.words sz ++ rest) = some (.orDnEa sz d ea, rest)
  have f := fields_4_3_1_2_ea 0x8#4 (regBits d) 1#1 sz.std ea.mode ea.reg
  simp only [-BitVec.reduceAppend, assemble, withWord, withEA, withWordEA, withImmEA, withSizeEA, withLongBitEA, shiftReg, countOf, takeWord, List.cons_append, List.nil_append, List.append_assoc, Option.map_some, Option.bind_some, regOf_regBits, Size.ofStd_std, Size.ofMove_moveBits, Size.ofCas_casBits, Cond.ofBits_bits, Word.getLsbD_field, bit_get, byte_get, f, takeEA_words hwf]

theorem subEaDn (sz : Size) (ea : EA) (d : Reg) : Statement (.subEaDn sz ea d) := by
  intro rest hwf
  have hwf : ea.ok (.source sz) sz = true := hwf
  change assemble .subEaDn (0x9#4 ++ (regBits d) ++ 0#1 ++ sz.std ++ (ea.mode ++ ea.reg)) (ea.words sz ++ rest) = some (.subEaDn sz ea d, rest)
  have f := fields_4_3_1_2_ea 0x9#4 (regBits d) 0#1 sz.std ea.mode ea.reg
  simp only [-BitVec.reduceAppend, assemble, withWord, withEA, withWordEA, withImmEA, withSizeEA, withLongBitEA, shiftReg, countOf, takeWord, List.cons_append, List.nil_append, List.append_assoc, Option.map_some, Option.bind_some, regOf_regBits, Size.ofStd_std, Size.ofMove_moveBits, Size.ofCas_casBits, Cond.ofBits_bits, Word.getLsbD_field, bit_get, byte_get, f, takeEA_words hwf]

theorem subDnEa (sz : Size) (d : Reg) (ea : EA) : Statement (.subDnEa sz d ea) := by
  intro rest hwf
  have hwf : ea.ok .MA sz = true := hwf
  change assemble .subDnEa (0x9#4 ++ (regBits d) ++ 1#1 ++ sz.std ++ (ea.mode ++ ea.reg)) (ea.words sz ++ rest) = some (.subDnEa sz d ea, rest)
  have f := fields_4_3_1_2_ea 0x9#4 (regBits d) 1#1 sz.std ea.mode ea.reg
  simp only [-BitVec.reduceAppend, assemble, withWord, withEA, withWordEA, withImmEA, withSizeEA, withLongBitEA, shiftReg, countOf, takeWord, List.cons_append, List.nil_append, List.append_assoc, Option.map_some, Option.bind_some, regOf_regBits, Size.ofStd_std, Size.ofMove_moveBits, Size.ofCas_casBits, Cond.ofBits_bits, Word.getLsbD_field, bit_get, byte_get, f, takeEA_words hwf]

theorem suba (sz : Size) (ea : EA) (a : Reg) : Statement (.suba sz ea a) := by
  intro rest hwf
  have hwf := Bool.and_eq_true_iff.mp (show (sz.wordOrLong && ea.ok .all sz) = true from hwf)
  change assemble .suba (0x9#4 ++ (regBits a) ++ sz.longBit ++ 3#2 ++ (ea.mode ++ ea.reg)) (ea.words sz ++ rest) = some (.suba sz ea a, rest)
  have f := fields_4_3_1_2_ea 0x9#4 (regBits a) sz.longBit 3#2 ea.mode ea.reg
  simp only [-BitVec.reduceAppend, assemble, withWord, withEA, withWordEA, withImmEA, withSizeEA, withLongBitEA, shiftReg, countOf, takeWord, List.cons_append, List.nil_append, List.append_assoc, Option.map_some, Option.bind_some, regOf_regBits, Size.ofStd_std, Size.ofMove_moveBits, Size.ofCas_casBits, Cond.ofBits_bits, Word.getLsbD_field, bit_get, byte_get, f, Size.of_longBit hwf.1, takeEA_words hwf.2]

theorem subx (sz : Size) (mem : Bool) (y : Reg) (x : Reg) : Statement (.subx sz mem y x) := by
  intro rest _
  change assemble .subx (0x9#4 ++ (regBits x) ++ 1#1 ++ sz.std ++ 0#2 ++ (bit mem) ++ (regBits y)) ([] ++ rest) = some (.subx sz mem y x, rest)
  have f := fields_4_3_1_2_2_1_3 0x9#4 (regBits x) 1#1 sz.std 0#2 (bit mem) (regBits y)
  simp only [-BitVec.reduceAppend, assemble, withWord, withEA, withWordEA, withImmEA, withSizeEA, withLongBitEA, shiftReg, countOf, takeWord, List.cons_append, List.nil_append, List.append_assoc, Option.map_some, Option.bind_some, regOf_regBits, Size.ofStd_std, Size.ofMove_moveBits, Size.ofCas_casBits, Cond.ofBits_bits, Word.getLsbD_field, bit_get, byte_get, f]

theorem cmp (sz : Size) (ea : EA) (d : Reg) : Statement (.cmp sz ea d) := by
  intro rest hwf
  have hwf : ea.ok (.source sz) sz = true := hwf
  change assemble .cmp (0xB#4 ++ (regBits d) ++ 0#1 ++ sz.std ++ (ea.mode ++ ea.reg)) (ea.words sz ++ rest) = some (.cmp sz ea d, rest)
  have f := fields_4_3_1_2_ea 0xB#4 (regBits d) 0#1 sz.std ea.mode ea.reg
  simp only [-BitVec.reduceAppend, assemble, withWord, withEA, withWordEA, withImmEA, withSizeEA, withLongBitEA, shiftReg, countOf, takeWord, List.cons_append, List.nil_append, List.append_assoc, Option.map_some, Option.bind_some, regOf_regBits, Size.ofStd_std, Size.ofMove_moveBits, Size.ofCas_casBits, Cond.ofBits_bits, Word.getLsbD_field, bit_get, byte_get, f, takeEA_words hwf]

theorem cmpa (sz : Size) (ea : EA) (a : Reg) : Statement (.cmpa sz ea a) := by
  intro rest hwf
  have hwf := Bool.and_eq_true_iff.mp (show (sz.wordOrLong && ea.ok .all sz) = true from hwf)
  change assemble .cmpa (0xB#4 ++ (regBits a) ++ sz.longBit ++ 3#2 ++ (ea.mode ++ ea.reg)) (ea.words sz ++ rest) = some (.cmpa sz ea a, rest)
  have f := fields_4_3_1_2_ea 0xB#4 (regBits a) sz.longBit 3#2 ea.mode ea.reg
  simp only [-BitVec.reduceAppend, assemble, withWord, withEA, withWordEA, withImmEA, withSizeEA, withLongBitEA, shiftReg, countOf, takeWord, List.cons_append, List.nil_append, List.append_assoc, Option.map_some, Option.bind_some, regOf_regBits, Size.ofStd_std, Size.ofMove_moveBits, Size.ofCas_casBits, Cond.ofBits_bits, Word.getLsbD_field, bit_get, byte_get, f, Size.of_longBit hwf.1, takeEA_words hwf.2]

theorem eor (sz : Size) (d : Reg) (ea : EA) : Statement (.eor sz d ea) := by
  intro rest hwf
  have hwf : ea.ok .DA sz = true := hwf
  change assemble .eor (0xB#4 ++ (regBits d) ++ 1#1 ++ sz.std ++ (ea.mode ++ ea.reg)) (ea.words sz ++ rest) = some (.eor sz d ea, rest)
  have f := fields_4_3_1_2_ea 0xB#4 (regBits d) 1#1 sz.std ea.mode ea.reg
  simp only [-BitVec.reduceAppend, assemble, withWord, withEA, withWordEA, withImmEA, withSizeEA, withLongBitEA, shiftReg, countOf, takeWord, List.cons_append, List.nil_append, List.append_assoc, Option.map_some, Option.bind_some, regOf_regBits, Size.ofStd_std, Size.ofMove_moveBits, Size.ofCas_casBits, Cond.ofBits_bits, Word.getLsbD_field, bit_get, byte_get, f, takeEA_words hwf]

theorem cmpm (sz : Size) (y : Reg) (x : Reg) : Statement (.cmpm sz y x) := by
  intro rest _
  change assemble .cmpm (0xB#4 ++ (regBits x) ++ 1#1 ++ sz.std ++ 0#2 ++ 1#1 ++ (regBits y)) ([] ++ rest) = some (.cmpm sz y x, rest)
  have f := fields_4_3_1_2_2_1_3 0xB#4 (regBits x) 1#1 sz.std 0#2 1#1 (regBits y)
  simp only [-BitVec.reduceAppend, assemble, withWord, withEA, withWordEA, withImmEA, withSizeEA, withLongBitEA, shiftReg, countOf, takeWord, List.cons_append, List.nil_append, List.append_assoc, Option.map_some, Option.bind_some, regOf_regBits, Size.ofStd_std, Size.ofMove_moveBits, Size.ofCas_casBits, Cond.ofBits_bits, Word.getLsbD_field, bit_get, byte_get, f]

theorem muluW (ea : EA) (d : Reg) : Statement (.muluW ea d) := by
  intro rest hwf
  have hwf : ea.ok .data .w = true := hwf
  change assemble .muluW (0xC#4 ++ (regBits d) ++ 0#1 ++ 3#2 ++ (ea.mode ++ ea.reg)) (ea.words .w ++ rest) = some (.muluW ea d, rest)
  have f := fields_4_3_1_2_ea 0xC#4 (regBits d) 0#1 3#2 ea.mode ea.reg
  simp only [-BitVec.reduceAppend, assemble, withWord, withEA, withWordEA, withImmEA, withSizeEA, withLongBitEA, shiftReg, countOf, takeWord, List.cons_append, List.nil_append, List.append_assoc, Option.map_some, Option.bind_some, regOf_regBits, Size.ofStd_std, Size.ofMove_moveBits, Size.ofCas_casBits, Cond.ofBits_bits, Word.getLsbD_field, bit_get, byte_get, f, takeEA_words hwf]

theorem mulsW (ea : EA) (d : Reg) : Statement (.mulsW ea d) := by
  intro rest hwf
  have hwf : ea.ok .data .w = true := hwf
  change assemble .mulsW (0xC#4 ++ (regBits d) ++ 1#1 ++ 3#2 ++ (ea.mode ++ ea.reg)) (ea.words .w ++ rest) = some (.mulsW ea d, rest)
  have f := fields_4_3_1_2_ea 0xC#4 (regBits d) 1#1 3#2 ea.mode ea.reg
  simp only [-BitVec.reduceAppend, assemble, withWord, withEA, withWordEA, withImmEA, withSizeEA, withLongBitEA, shiftReg, countOf, takeWord, List.cons_append, List.nil_append, List.append_assoc, Option.map_some, Option.bind_some, regOf_regBits, Size.ofStd_std, Size.ofMove_moveBits, Size.ofCas_casBits, Cond.ofBits_bits, Word.getLsbD_field, bit_get, byte_get, f, takeEA_words hwf]

theorem abcd (mem : Bool) (y : Reg) (x : Reg) : Statement (.abcd mem y x) := by
  intro rest _
  change assemble .abcd (0xC#4 ++ (regBits x) ++ 1#1 ++ 0#4 ++ (bit mem) ++ (regBits y)) ([] ++ rest) = some (.abcd mem y x, rest)
  have f := fields_4_3_1_4_1_3 0xC#4 (regBits x) 1#1 0#4 (bit mem) (regBits y)
  simp only [-BitVec.reduceAppend, assemble, withWord, withEA, withWordEA, withImmEA, withSizeEA, withLongBitEA, shiftReg, countOf, takeWord, List.cons_append, List.nil_append, List.append_assoc, Option.map_some, Option.bind_some, regOf_regBits, Size.ofStd_std, Size.ofMove_moveBits, Size.ofCas_casBits, Cond.ofBits_bits, Word.getLsbD_field, bit_get, byte_get, f]

theorem exgDD (x : Reg) (y : Reg) : Statement (.exgDD x y) := by
  intro rest _
  change assemble .exgDD (0xC#4 ++ (regBits x) ++ 1#1 ++ 0b01000#5 ++ (regBits y)) ([] ++ rest) = some (.exgDD x y, rest)
  have f := fields_4_3_1_5_3 0xC#4 (regBits x) 1#1 0b01000#5 (regBits y)
  simp only [-BitVec.reduceAppend, assemble, withWord, withEA, withWordEA, withImmEA, withSizeEA, withLongBitEA, shiftReg, countOf, takeWord, List.cons_append, List.nil_append, List.append_assoc, Option.map_some, Option.bind_some, regOf_regBits, Size.ofStd_std, Size.ofMove_moveBits, Size.ofCas_casBits, Cond.ofBits_bits, Word.getLsbD_field, bit_get, byte_get, f]

theorem exgAA (x : Reg) (y : Reg) : Statement (.exgAA x y) := by
  intro rest _
  change assemble .exgAA (0xC#4 ++ (regBits x) ++ 1#1 ++ 0b01001#5 ++ (regBits y)) ([] ++ rest) = some (.exgAA x y, rest)
  have f := fields_4_3_1_5_3 0xC#4 (regBits x) 1#1 0b01001#5 (regBits y)
  simp only [-BitVec.reduceAppend, assemble, withWord, withEA, withWordEA, withImmEA, withSizeEA, withLongBitEA, shiftReg, countOf, takeWord, List.cons_append, List.nil_append, List.append_assoc, Option.map_some, Option.bind_some, regOf_regBits, Size.ofStd_std, Size.ofMove_moveBits, Size.ofCas_casBits, Cond.ofBits_bits, Word.getLsbD_field, bit_get, byte_get, f]

theorem exgDA (x : Reg) (y : Reg) : Statement (.exgDA x y) := by
  intro rest _
  change assemble .exgDA (0xC#4 ++ (regBits x) ++ 1#1 ++ 0b10001#5 ++ (regBits y)) ([] ++ rest) = some (.exgDA x y, rest)
  have f := fields_4_3_1_5_3 0xC#4 (regBits x) 1#1 0b10001#5 (regBits y)
  simp only [-BitVec.reduceAppend, assemble, withWord, withEA, withWordEA, withImmEA, withSizeEA, withLongBitEA, shiftReg, countOf, takeWord, List.cons_append, List.nil_append, List.append_assoc, Option.map_some, Option.bind_some, regOf_regBits, Size.ofStd_std, Size.ofMove_moveBits, Size.ofCas_casBits, Cond.ofBits_bits, Word.getLsbD_field, bit_get, byte_get, f]

theorem andEaDn (sz : Size) (ea : EA) (d : Reg) : Statement (.andEaDn sz ea d) := by
  intro rest hwf
  have hwf : ea.ok .data sz = true := hwf
  change assemble .andEaDn (0xC#4 ++ (regBits d) ++ 0#1 ++ sz.std ++ (ea.mode ++ ea.reg)) (ea.words sz ++ rest) = some (.andEaDn sz ea d, rest)
  have f := fields_4_3_1_2_ea 0xC#4 (regBits d) 0#1 sz.std ea.mode ea.reg
  simp only [-BitVec.reduceAppend, assemble, withWord, withEA, withWordEA, withImmEA, withSizeEA, withLongBitEA, shiftReg, countOf, takeWord, List.cons_append, List.nil_append, List.append_assoc, Option.map_some, Option.bind_some, regOf_regBits, Size.ofStd_std, Size.ofMove_moveBits, Size.ofCas_casBits, Cond.ofBits_bits, Word.getLsbD_field, bit_get, byte_get, f, takeEA_words hwf]

theorem andDnEa (sz : Size) (d : Reg) (ea : EA) : Statement (.andDnEa sz d ea) := by
  intro rest hwf
  have hwf : ea.ok .MA sz = true := hwf
  change assemble .andDnEa (0xC#4 ++ (regBits d) ++ 1#1 ++ sz.std ++ (ea.mode ++ ea.reg)) (ea.words sz ++ rest) = some (.andDnEa sz d ea, rest)
  have f := fields_4_3_1_2_ea 0xC#4 (regBits d) 1#1 sz.std ea.mode ea.reg
  simp only [-BitVec.reduceAppend, assemble, withWord, withEA, withWordEA, withImmEA, withSizeEA, withLongBitEA, shiftReg, countOf, takeWord, List.cons_append, List.nil_append, List.append_assoc, Option.map_some, Option.bind_some, regOf_regBits, Size.ofStd_std, Size.ofMove_moveBits, Size.ofCas_casBits, Cond.ofBits_bits, Word.getLsbD_field, bit_get, byte_get, f, takeEA_words hwf]

theorem addEaDn (sz : Size) (ea : EA) (d : Reg) : Statement (.addEaDn sz ea d) := by
  intro rest hwf
  have hwf : ea.ok (.source sz) sz = true := hwf
  change assemble .addEaDn (0xD#4 ++ (regBits d) ++ 0#1 ++ sz.std ++ (ea.mode ++ ea.reg)) (ea.words sz ++ rest) = some (.addEaDn sz ea d, rest)
  have f := fields_4_3_1_2_ea 0xD#4 (regBits d) 0#1 sz.std ea.mode ea.reg
  simp only [-BitVec.reduceAppend, assemble, withWord, withEA, withWordEA, withImmEA, withSizeEA, withLongBitEA, shiftReg, countOf, takeWord, List.cons_append, List.nil_append, List.append_assoc, Option.map_some, Option.bind_some, regOf_regBits, Size.ofStd_std, Size.ofMove_moveBits, Size.ofCas_casBits, Cond.ofBits_bits, Word.getLsbD_field, bit_get, byte_get, f, takeEA_words hwf]

theorem addDnEa (sz : Size) (d : Reg) (ea : EA) : Statement (.addDnEa sz d ea) := by
  intro rest hwf
  have hwf : ea.ok .MA sz = true := hwf
  change assemble .addDnEa (0xD#4 ++ (regBits d) ++ 1#1 ++ sz.std ++ (ea.mode ++ ea.reg)) (ea.words sz ++ rest) = some (.addDnEa sz d ea, rest)
  have f := fields_4_3_1_2_ea 0xD#4 (regBits d) 1#1 sz.std ea.mode ea.reg
  simp only [-BitVec.reduceAppend, assemble, withWord, withEA, withWordEA, withImmEA, withSizeEA, withLongBitEA, shiftReg, countOf, takeWord, List.cons_append, List.nil_append, List.append_assoc, Option.map_some, Option.bind_some, regOf_regBits, Size.ofStd_std, Size.ofMove_moveBits, Size.ofCas_casBits, Cond.ofBits_bits, Word.getLsbD_field, bit_get, byte_get, f, takeEA_words hwf]

theorem adda (sz : Size) (ea : EA) (a : Reg) : Statement (.adda sz ea a) := by
  intro rest hwf
  have hwf := Bool.and_eq_true_iff.mp (show (sz.wordOrLong && ea.ok .all sz) = true from hwf)
  change assemble .adda (0xD#4 ++ (regBits a) ++ sz.longBit ++ 3#2 ++ (ea.mode ++ ea.reg)) (ea.words sz ++ rest) = some (.adda sz ea a, rest)
  have f := fields_4_3_1_2_ea 0xD#4 (regBits a) sz.longBit 3#2 ea.mode ea.reg
  simp only [-BitVec.reduceAppend, assemble, withWord, withEA, withWordEA, withImmEA, withSizeEA, withLongBitEA, shiftReg, countOf, takeWord, List.cons_append, List.nil_append, List.append_assoc, Option.map_some, Option.bind_some, regOf_regBits, Size.ofStd_std, Size.ofMove_moveBits, Size.ofCas_casBits, Cond.ofBits_bits, Word.getLsbD_field, bit_get, byte_get, f, Size.of_longBit hwf.1, takeEA_words hwf.2]

theorem addx (sz : Size) (mem : Bool) (y : Reg) (x : Reg) : Statement (.addx sz mem y x) := by
  intro rest _
  change assemble .addx (0xD#4 ++ (regBits x) ++ 1#1 ++ sz.std ++ 0#2 ++ (bit mem) ++ (regBits y)) ([] ++ rest) = some (.addx sz mem y x, rest)
  have f := fields_4_3_1_2_2_1_3 0xD#4 (regBits x) 1#1 sz.std 0#2 (bit mem) (regBits y)
  simp only [-BitVec.reduceAppend, assemble, withWord, withEA, withWordEA, withImmEA, withSizeEA, withLongBitEA, shiftReg, countOf, takeWord, List.cons_append, List.nil_append, List.append_assoc, Option.map_some, Option.bind_some, regOf_regBits, Size.ofStd_std, Size.ofMove_moveBits, Size.ofCas_casBits, Cond.ofBits_bits, Word.getLsbD_field, bit_get, byte_get, f]

theorem asrReg (sz : Size) (cnt : Count) (y : Reg) : Statement (.asrReg sz cnt y) := by
  intro rest _
  change assemble .asrReg (0xE#4 ++ cnt.field ++ 0#1 ++ sz.std ++ cnt.byReg ++ 0#2 ++ (regBits y)) ([] ++ rest) = some (.asrReg sz cnt y, rest)
  have f := fields_4_3_1_2_1_2_3 0xE#4 cnt.field 0#1 sz.std cnt.byReg 0#2 (regBits y)
  simp only [-BitVec.reduceAppend, assemble, withWord, withEA, withWordEA, withImmEA, withSizeEA, withLongBitEA, shiftReg, countOf, takeWord, List.cons_append, List.nil_append, List.append_assoc, Option.map_some, Option.bind_some, regOf_regBits, Size.ofStd_std, Size.ofMove_moveBits, Size.ofCas_casBits, Cond.ofBits_bits, Word.getLsbD_field, bit_get, byte_get, f, Count.of_fields]

theorem asrMem (ea : EA) : Statement (.asrMem ea) := by
  intro rest hwf
  have hwf : ea.ok .MA .w = true := hwf
  change assemble .asrMem (0xE#4 ++ 0#1 ++ 0#2 ++ 0#1 ++ 3#2 ++ (ea.mode ++ ea.reg)) (ea.words .w ++ rest) = some (.asrMem ea, rest)
  have f := fields_4_1_2_1_2_ea 0xE#4 0#1 0#2 0#1 3#2 ea.mode ea.reg
  simp only [-BitVec.reduceAppend, assemble, withWord, withEA, withWordEA, withImmEA, withSizeEA, withLongBitEA, shiftReg, countOf, takeWord, List.cons_append, List.nil_append, List.append_assoc, Option.map_some, Option.bind_some, regOf_regBits, Size.ofStd_std, Size.ofMove_moveBits, Size.ofCas_casBits, Cond.ofBits_bits, Word.getLsbD_field, bit_get, byte_get, f, takeEA_words hwf]

theorem aslReg (sz : Size) (cnt : Count) (y : Reg) : Statement (.aslReg sz cnt y) := by
  intro rest _
  change assemble .aslReg (0xE#4 ++ cnt.field ++ 1#1 ++ sz.std ++ cnt.byReg ++ 0#2 ++ (regBits y)) ([] ++ rest) = some (.aslReg sz cnt y, rest)
  have f := fields_4_3_1_2_1_2_3 0xE#4 cnt.field 1#1 sz.std cnt.byReg 0#2 (regBits y)
  simp only [-BitVec.reduceAppend, assemble, withWord, withEA, withWordEA, withImmEA, withSizeEA, withLongBitEA, shiftReg, countOf, takeWord, List.cons_append, List.nil_append, List.append_assoc, Option.map_some, Option.bind_some, regOf_regBits, Size.ofStd_std, Size.ofMove_moveBits, Size.ofCas_casBits, Cond.ofBits_bits, Word.getLsbD_field, bit_get, byte_get, f, Count.of_fields]

theorem aslMem (ea : EA) : Statement (.aslMem ea) := by
  intro rest hwf
  have hwf : ea.ok .MA .w = true := hwf
  change assemble .aslMem (0xE#4 ++ 0#1 ++ 0#2 ++ 1#1 ++ 3#2 ++ (ea.mode ++ ea.reg)) (ea.words .w ++ rest) = some (.aslMem ea, rest)
  have f := fields_4_1_2_1_2_ea 0xE#4 0#1 0#2 1#1 3#2 ea.mode ea.reg
  simp only [-BitVec.reduceAppend, assemble, withWord, withEA, withWordEA, withImmEA, withSizeEA, withLongBitEA, shiftReg, countOf, takeWord, List.cons_append, List.nil_append, List.append_assoc, Option.map_some, Option.bind_some, regOf_regBits, Size.ofStd_std, Size.ofMove_moveBits, Size.ofCas_casBits, Cond.ofBits_bits, Word.getLsbD_field, bit_get, byte_get, f, takeEA_words hwf]

theorem lsrReg (sz : Size) (cnt : Count) (y : Reg) : Statement (.lsrReg sz cnt y) := by
  intro rest _
  change assemble .lsrReg (0xE#4 ++ cnt.field ++ 0#1 ++ sz.std ++ cnt.byReg ++ 1#2 ++ (regBits y)) ([] ++ rest) = some (.lsrReg sz cnt y, rest)
  have f := fields_4_3_1_2_1_2_3 0xE#4 cnt.field 0#1 sz.std cnt.byReg 1#2 (regBits y)
  simp only [-BitVec.reduceAppend, assemble, withWord, withEA, withWordEA, withImmEA, withSizeEA, withLongBitEA, shiftReg, countOf, takeWord, List.cons_append, List.nil_append, List.append_assoc, Option.map_some, Option.bind_some, regOf_regBits, Size.ofStd_std, Size.ofMove_moveBits, Size.ofCas_casBits, Cond.ofBits_bits, Word.getLsbD_field, bit_get, byte_get, f, Count.of_fields]

theorem lsrMem (ea : EA) : Statement (.lsrMem ea) := by
  intro rest hwf
  have hwf : ea.ok .MA .w = true := hwf
  change assemble .lsrMem (0xE#4 ++ 0#1 ++ 1#2 ++ 0#1 ++ 3#2 ++ (ea.mode ++ ea.reg)) (ea.words .w ++ rest) = some (.lsrMem ea, rest)
  have f := fields_4_1_2_1_2_ea 0xE#4 0#1 1#2 0#1 3#2 ea.mode ea.reg
  simp only [-BitVec.reduceAppend, assemble, withWord, withEA, withWordEA, withImmEA, withSizeEA, withLongBitEA, shiftReg, countOf, takeWord, List.cons_append, List.nil_append, List.append_assoc, Option.map_some, Option.bind_some, regOf_regBits, Size.ofStd_std, Size.ofMove_moveBits, Size.ofCas_casBits, Cond.ofBits_bits, Word.getLsbD_field, bit_get, byte_get, f, takeEA_words hwf]

theorem lslReg (sz : Size) (cnt : Count) (y : Reg) : Statement (.lslReg sz cnt y) := by
  intro rest _
  change assemble .lslReg (0xE#4 ++ cnt.field ++ 1#1 ++ sz.std ++ cnt.byReg ++ 1#2 ++ (regBits y)) ([] ++ rest) = some (.lslReg sz cnt y, rest)
  have f := fields_4_3_1_2_1_2_3 0xE#4 cnt.field 1#1 sz.std cnt.byReg 1#2 (regBits y)
  simp only [-BitVec.reduceAppend, assemble, withWord, withEA, withWordEA, withImmEA, withSizeEA, withLongBitEA, shiftReg, countOf, takeWord, List.cons_append, List.nil_append, List.append_assoc, Option.map_some, Option.bind_some, regOf_regBits, Size.ofStd_std, Size.ofMove_moveBits, Size.ofCas_casBits, Cond.ofBits_bits, Word.getLsbD_field, bit_get, byte_get, f, Count.of_fields]

theorem lslMem (ea : EA) : Statement (.lslMem ea) := by
  intro rest hwf
  have hwf : ea.ok .MA .w = true := hwf
  change assemble .lslMem (0xE#4 ++ 0#1 ++ 1#2 ++ 1#1 ++ 3#2 ++ (ea.mode ++ ea.reg)) (ea.words .w ++ rest) = some (.lslMem ea, rest)
  have f := fields_4_1_2_1_2_ea 0xE#4 0#1 1#2 1#1 3#2 ea.mode ea.reg
  simp only [-BitVec.reduceAppend, assemble, withWord, withEA, withWordEA, withImmEA, withSizeEA, withLongBitEA, shiftReg, countOf, takeWord, List.cons_append, List.nil_append, List.append_assoc, Option.map_some, Option.bind_some, regOf_regBits, Size.ofStd_std, Size.ofMove_moveBits, Size.ofCas_casBits, Cond.ofBits_bits, Word.getLsbD_field, bit_get, byte_get, f, takeEA_words hwf]

theorem roxrReg (sz : Size) (cnt : Count) (y : Reg) : Statement (.roxrReg sz cnt y) := by
  intro rest _
  change assemble .roxrReg (0xE#4 ++ cnt.field ++ 0#1 ++ sz.std ++ cnt.byReg ++ 2#2 ++ (regBits y)) ([] ++ rest) = some (.roxrReg sz cnt y, rest)
  have f := fields_4_3_1_2_1_2_3 0xE#4 cnt.field 0#1 sz.std cnt.byReg 2#2 (regBits y)
  simp only [-BitVec.reduceAppend, assemble, withWord, withEA, withWordEA, withImmEA, withSizeEA, withLongBitEA, shiftReg, countOf, takeWord, List.cons_append, List.nil_append, List.append_assoc, Option.map_some, Option.bind_some, regOf_regBits, Size.ofStd_std, Size.ofMove_moveBits, Size.ofCas_casBits, Cond.ofBits_bits, Word.getLsbD_field, bit_get, byte_get, f, Count.of_fields]

theorem roxrMem (ea : EA) : Statement (.roxrMem ea) := by
  intro rest hwf
  have hwf : ea.ok .MA .w = true := hwf
  change assemble .roxrMem (0xE#4 ++ 0#1 ++ 2#2 ++ 0#1 ++ 3#2 ++ (ea.mode ++ ea.reg)) (ea.words .w ++ rest) = some (.roxrMem ea, rest)
  have f := fields_4_1_2_1_2_ea 0xE#4 0#1 2#2 0#1 3#2 ea.mode ea.reg
  simp only [-BitVec.reduceAppend, assemble, withWord, withEA, withWordEA, withImmEA, withSizeEA, withLongBitEA, shiftReg, countOf, takeWord, List.cons_append, List.nil_append, List.append_assoc, Option.map_some, Option.bind_some, regOf_regBits, Size.ofStd_std, Size.ofMove_moveBits, Size.ofCas_casBits, Cond.ofBits_bits, Word.getLsbD_field, bit_get, byte_get, f, takeEA_words hwf]

theorem roxlReg (sz : Size) (cnt : Count) (y : Reg) : Statement (.roxlReg sz cnt y) := by
  intro rest _
  change assemble .roxlReg (0xE#4 ++ cnt.field ++ 1#1 ++ sz.std ++ cnt.byReg ++ 2#2 ++ (regBits y)) ([] ++ rest) = some (.roxlReg sz cnt y, rest)
  have f := fields_4_3_1_2_1_2_3 0xE#4 cnt.field 1#1 sz.std cnt.byReg 2#2 (regBits y)
  simp only [-BitVec.reduceAppend, assemble, withWord, withEA, withWordEA, withImmEA, withSizeEA, withLongBitEA, shiftReg, countOf, takeWord, List.cons_append, List.nil_append, List.append_assoc, Option.map_some, Option.bind_some, regOf_regBits, Size.ofStd_std, Size.ofMove_moveBits, Size.ofCas_casBits, Cond.ofBits_bits, Word.getLsbD_field, bit_get, byte_get, f, Count.of_fields]

theorem roxlMem (ea : EA) : Statement (.roxlMem ea) := by
  intro rest hwf
  have hwf : ea.ok .MA .w = true := hwf
  change assemble .roxlMem (0xE#4 ++ 0#1 ++ 2#2 ++ 1#1 ++ 3#2 ++ (ea.mode ++ ea.reg)) (ea.words .w ++ rest) = some (.roxlMem ea, rest)
  have f := fields_4_1_2_1_2_ea 0xE#4 0#1 2#2 1#1 3#2 ea.mode ea.reg
  simp only [-BitVec.reduceAppend, assemble, withWord, withEA, withWordEA, withImmEA, withSizeEA, withLongBitEA, shiftReg, countOf, takeWord, List.cons_append, List.nil_append, List.append_assoc, Option.map_some, Option.bind_some, regOf_regBits, Size.ofStd_std, Size.ofMove_moveBits, Size.ofCas_casBits, Cond.ofBits_bits, Word.getLsbD_field, bit_get, byte_get, f, takeEA_words hwf]

theorem rorReg (sz : Size) (cnt : Count) (y : Reg) : Statement (.rorReg sz cnt y) := by
  intro rest _
  change assemble .rorReg (0xE#4 ++ cnt.field ++ 0#1 ++ sz.std ++ cnt.byReg ++ 3#2 ++ (regBits y)) ([] ++ rest) = some (.rorReg sz cnt y, rest)
  have f := fields_4_3_1_2_1_2_3 0xE#4 cnt.field 0#1 sz.std cnt.byReg 3#2 (regBits y)
  simp only [-BitVec.reduceAppend, assemble, withWord, withEA, withWordEA, withImmEA, withSizeEA, withLongBitEA, shiftReg, countOf, takeWord, List.cons_append, List.nil_append, List.append_assoc, Option.map_some, Option.bind_some, regOf_regBits, Size.ofStd_std, Size.ofMove_moveBits, Size.ofCas_casBits, Cond.ofBits_bits, Word.getLsbD_field, bit_get, byte_get, f, Count.of_fields]

theorem rorMem (ea : EA) : Statement (.rorMem ea) := by
  intro rest hwf
  have hwf : ea.ok .MA .w = true := hwf
  change assemble .rorMem (0xE#4 ++ 0#1 ++ 3#2 ++ 0#1 ++ 3#2 ++ (ea.mode ++ ea.reg)) (ea.words .w ++ rest) = some (.rorMem ea, rest)
  have f := fields_4_1_2_1_2_ea 0xE#4 0#1 3#2 0#1 3#2 ea.mode ea.reg
  simp only [-BitVec.reduceAppend, assemble, withWord, withEA, withWordEA, withImmEA, withSizeEA, withLongBitEA, shiftReg, countOf, takeWord, List.cons_append, List.nil_append, List.append_assoc, Option.map_some, Option.bind_some, regOf_regBits, Size.ofStd_std, Size.ofMove_moveBits, Size.ofCas_casBits, Cond.ofBits_bits, Word.getLsbD_field, bit_get, byte_get, f, takeEA_words hwf]

theorem rolReg (sz : Size) (cnt : Count) (y : Reg) : Statement (.rolReg sz cnt y) := by
  intro rest _
  change assemble .rolReg (0xE#4 ++ cnt.field ++ 1#1 ++ sz.std ++ cnt.byReg ++ 3#2 ++ (regBits y)) ([] ++ rest) = some (.rolReg sz cnt y, rest)
  have f := fields_4_3_1_2_1_2_3 0xE#4 cnt.field 1#1 sz.std cnt.byReg 3#2 (regBits y)
  simp only [-BitVec.reduceAppend, assemble, withWord, withEA, withWordEA, withImmEA, withSizeEA, withLongBitEA, shiftReg, countOf, takeWord, List.cons_append, List.nil_append, List.append_assoc, Option.map_some, Option.bind_some, regOf_regBits, Size.ofStd_std, Size.ofMove_moveBits, Size.ofCas_casBits, Cond.ofBits_bits, Word.getLsbD_field, bit_get, byte_get, f, Count.of_fields]

theorem rolMem (ea : EA) : Statement (.rolMem ea) := by
  intro rest hwf
  have hwf : ea.ok .MA .w = true := hwf
  change assemble .rolMem (0xE#4 ++ 0#1 ++ 3#2 ++ 1#1 ++ 3#2 ++ (ea.mode ++ ea.reg)) (ea.words .w ++ rest) = some (.rolMem ea, rest)
  have f := fields_4_1_2_1_2_ea 0xE#4 0#1 3#2 1#1 3#2 ea.mode ea.reg
  simp only [-BitVec.reduceAppend, assemble, withWord, withEA, withWordEA, withImmEA, withSizeEA, withLongBitEA, shiftReg, countOf, takeWord, List.cons_append, List.nil_append, List.append_assoc, Option.map_some, Option.bind_some, regOf_regBits, Size.ofStd_std, Size.ofMove_moveBits, Size.ofCas_casBits, Cond.ofBits_bits, Word.getLsbD_field, bit_get, byte_get, f, takeEA_words hwf]

end Laws.Operands
end Sys2Proof
end

