-- ==== Sys2Proof/Laws/Decode.lean ====
section
/-! SUPPORT. What the decoder reads from a word of the table (30_encoding.md R81, R85): a well-formed instruction
with that opcode word, whatever words follow it; and that four words after it are enough. -/

set_option linter.unusedSimpArgs false
set_option linter.unusedVariables false

namespace Sys2Proof
open Machine

theorem takeWord_some {ws r : List Word} {w : Word} : takeWord ws = some (w, r) ↔ ws = w :: r := by
  cases ws <;> simp [takeWord]
theorem takeLong_some {ws r : List Word} {v : Long} : takeLong ws = some (v, r) ↔ ∃ hi lo, ws = hi :: lo :: r ∧ v = hi ++ lo := by
  rcases ws with _ | ⟨a, _ | ⟨b, ws⟩⟩ <;> simp [takeLong]
  exact ⟨fun ⟨h, h'⟩ => ⟨h', h.symm⟩, fun ⟨h, h'⟩ => ⟨h'.symm, h⟩⟩

theorem takeImm_some {sz : Size} {ws r : List Word} {v : Long} (h : takeImm sz ws = some (v, r)) :
    (∃ l, ws = l ++ r ∧ l.length = (immWords sz v).length) ∧ sz.fits v = true ∧
      ∀ more, takeImm sz (ws ++ more) = some (v, r ++ more) := by
  cases sz
  · rcases ws with _ | ⟨a, ws⟩
    · cases h
    · simp only [takeImm, Option.some.injEq, Prod.mk.injEq] at h
      obtain ⟨rfl, rfl⟩ := h
      refine ⟨⟨[a], rfl, rfl⟩, ?_, fun _ => rfl⟩
      simp [Size.fits]; omega
  · rcases ws with _ | ⟨a, ws⟩
    · cases h
    · simp only [takeImm, Option.some.injEq, Prod.mk.injEq] at h
      obtain ⟨rfl, rfl⟩ := h
      refine ⟨⟨[a], rfl, rfl⟩, ?_, fun _ => rfl⟩
      simp [Size.fits]; omega
  · obtain ⟨hi, lo, rfl, rfl⟩ := takeLong_some.mp h
    exact ⟨⟨[hi, lo], rfl, rfl⟩, rfl, fun _ => rfl⟩

theorem regBits_regOf (f : BitVec 3) : regBits (regOf f) = f := rfl

theorem takeEA_some {m r : BitVec 3} {sz : Size} {ws rest : List Word} {e : EA} (h : takeEA m r sz ws = some (e, rest)) :
    (∃ l, ws = l ++ rest ∧ l.length = (e.words sz).length) ∧ e.mode = m ∧ e.reg = r ∧
      (∀ c : EAClass, c.admits m r = true → e.ok c sz = true) ∧
      ∀ more, takeEA m r sz (ws ++ more) = some (e, rest ++ more) := by
  have core : (∃ l, ws = l ++ rest ∧ l.length = (e.words sz).length) ∧ e.mode = m ∧ e.reg = r ∧ e.ok .all sz = true ∧
      ∀ more, takeEA m r sz (ws ++ more) = some (e, rest ++ more) := by
    have split8 : ∀ x : BitVec 3, x = 0#3 ∨ x = 1#3 ∨ x = 2#3 ∨ x = 3#3 ∨ x = 4#3 ∨ x = 5#3 ∨ x = 6#3 ∨ x = 7#3 := by decide
    rcases split8 m with rfl|rfl|rfl|rfl|rfl|rfl|rfl|rfl
    case inr.inr.inr.inr.inr.inr.inr =>
      rcases split8 r with rfl|rfl|rfl|rfl|rfl|rfl|rfl|rfl
      · have h : (takeWord ws).map (fun (w, ws) => (EA.absW w, ws)) = some (e, rest) := h
        simp only [Option.map_eq_some_iff, Prod.mk.injEq, Prod.exists, takeWord_some, takeLong_some] at h
        obtain ⟨w, _, rfl, rfl, rfl⟩ := h; exact ⟨⟨[w], rfl, rfl⟩, rfl, rfl, rfl, fun _ => rfl⟩
      · have h : (takeLong ws).map (fun (w, ws) => (EA.absL w, ws)) = some (e, rest) := h
        simp only [Option.map_eq_some_iff, Prod.mk.injEq, Prod.exists, takeWord_some, takeLong_some] at h
        obtain ⟨a, _, ⟨hi, lo, rfl, rfl⟩, rfl, rfl⟩ := h; exact ⟨⟨[hi, lo], rfl, rfl⟩, rfl, rfl, rfl, fun _ => rfl⟩
      · have h : (takeWord ws).map (fun (w, ws) => (EA.pcDisp w, ws)) = some (e, rest) := h
        simp only [Option.map_eq_some_iff, Prod.mk.injEq, Prod.exists, takeWord_some, takeLong_some] at h
        obtain ⟨w, _, rfl, rfl, rfl⟩ := h; exact ⟨⟨[w], rfl, rfl⟩, rfl, rfl, rfl, fun _ => rfl⟩
      · have h : (takeWord ws).map (fun (w, ws) => (EA.pcIndex (Index.ofWord w), ws)) = some (e, rest) := h
        simp only [Option.map_eq_some_iff, Prod.mk.injEq, Prod.exists, takeWord_some, takeLong_some] at h
        obtain ⟨w, _, rfl, rfl, rfl⟩ := h; exact ⟨⟨[w], rfl, rfl⟩, rfl, rfl, rfl, fun _ => rfl⟩
      · have h : (takeImm sz ws).map (fun (w, ws) => (EA.imm w, ws)) = some (e, rest) := h
        simp only [Option.map_eq_some_iff, Prod.mk.injEq, Prod.exists, takeWord_some, takeLong_some] at h
        obtain ⟨v, _, hi, rfl, rfl⟩ := h
        obtain ⟨h1, h2, h3⟩ := takeImm_some hi
        refine ⟨h1, rfl, rfl, by simp [EA.ok, EA.inClass, h2], fun more => ?_⟩
        change (takeImm sz (ws ++ more)).map _ = _
        rw [h3]; rfl
      all_goals
        have h : none = some (e, rest) := h
        cases h
    all_goals
      simp only [takeEA, Option.map_eq_some_iff, Prod.mk.injEq, Prod.exists, takeWord_some, Option.some.injEq] at h
    · obtain ⟨rfl, rfl⟩ := h; exact ⟨⟨[], rfl, rfl⟩, rfl, rfl, rfl, fun _ => rfl⟩
    · obtain ⟨rfl, rfl⟩ := h; exact ⟨⟨[], rfl, rfl⟩, rfl, rfl, rfl, fun _ => rfl⟩
    · obtain ⟨rfl, rfl⟩ := h; exact ⟨⟨[], rfl, rfl⟩, rfl, rfl, rfl, fun _ => rfl⟩
    · obtain ⟨rfl, rfl⟩ := h; exact ⟨⟨[], rfl, rfl⟩, rfl, rfl, rfl, fun _ => rfl⟩
    · obtain ⟨rfl, rfl⟩ := h; exact ⟨⟨[], rfl, rfl⟩, rfl, rfl, rfl, fun _ => rfl⟩
    · obtain ⟨w, _, rfl, rfl, rfl⟩ := h; exact ⟨⟨[w], rfl, rfl⟩, rfl, rfl, rfl, fun _ => rfl⟩
    · obtain ⟨w, _, rfl, rfl, rfl⟩ := h; exact ⟨⟨[w], rfl, rfl⟩, rfl, rfl, rfl, fun _ => rfl⟩
  obtain ⟨h1, h2, h3, h4, h5⟩ := core
  refine ⟨h1, h2, h3, fun c hc => ?_, h5⟩
  rw [← h2, ← h3, EAClass.admits, EA.code_eq] at hc
  clear h1 h2 h3 h5 h
  revert hc h4
  cases c <;> cases e <;> first
    | exact fun h _ => h
    | exact fun _ h => Bool.noConfusion h

/-- What reading an instruction from an opcode word and the words after it amounts to. -/
structure ReadFrom (m : Mnemonic) (op : Word) (ws rest : List Word) (i : Instr) : Prop where
  wf : i.wf = true
  opcode : i.opcode = op
  words : ∃ l, ws = l ++ rest ∧ l.length = i.extWords.length
  atMostFour : i.extWords.length ≤ 4
  more : ∀ more, assemble m op (ws ++ more) = some (i, rest ++ more)

theorem Size.std_ofStd {f : BitVec 2} (h : f ≠ 3#2) : (Size.ofStd f).std = f := by
  revert f; decide

theorem Size.moveBits_ofMove {f : BitVec 2} (h : ¬ f = 0#2) : (Size.ofMove f).moveBits = f := by revert f; decide
theorem Size.casBits_ofCas {f : BitVec 2} (h : ¬ f = 0#2) : (Size.ofCas f).casBits = f := by revert f; decide
theorem Size.longBit_ofLongBit (f : BitVec 1) : (Size.ofLongBit f).longBit = f := by revert f; decide
theorem Size.wordOrLong_ofLongBit (f : BitVec 1) : (Size.ofLongBit f).wordOrLong = true := by revert f; decide
theorem Size.wordOrLong_ofMove {op : Word} (h : (op.extractLsb' 13 1 == 1#1) = true) : (Size.ofMove (op.extractLsb' 12 2)).wordOrLong = true := by
  rw [extract_13_1] at h; revert h; generalize op.extractLsb' 12 2 = f; revert f; decide
theorem moveaSize_ne {op : Word} (h : (op.extractLsb' 13 1 == 1#1) = true) : ¬ op.extractLsb' 12 2 = 0#2 := by
  rw [extract_13_1] at h; revert h; generalize op.extractLsb' 12 2 = f; revert f; decide
theorem Cond.bits_ofBits (f : BitVec 4) : (Cond.ofBits f).bits = f := by revert f; decide
theorem Cond.branches_ofBits {f : BitVec 4} (h : 2 ≤ f.toNat) : (Cond.ofBits f).branches = true := by revert f; decide
theorem bit_getLsbD (w : Word) (k : Nat) : bit (w.getLsbD k) = w.extractLsb' k 1 := by
  apply BitVec.eq_of_getLsbD_eq
  intro i hi
  have : i = 0 := by omega
  subst this
  simp [bit]
theorem countOf_field (op : Word) : (countOf op).field = op.extractLsb' 9 3 := by unfold countOf; split <;> rfl
theorem countOf_byReg (op : Word) : (countOf op).byReg = op.extractLsb' 5 1 := by
  rw [← bit_getLsbD]; unfold countOf; split <;> simp_all [Count.byReg, bit]
theorem quick_ok {f : BitVec 2} {m r : BitVec 3} (h : (if f = 0#2 then EAClass.altnoAn else .alt).admits m r = true) :
    (EAClass.quick (Size.ofStd f)).admits m r = true := by
  have : EAClass.quick (Size.ofStd f) = if f = 0#2 then EAClass.altnoAn else .alt := by clear h; revert f; decide
  rwa [this]
theorem source_ok {f : BitVec 2} {m r : BitVec 3} (h : (if f = 0#2 then EAClass.allnoAn else .all).admits m r = true) :
    (EAClass.source (Size.ofStd f)).admits m r = true := by
  have : EAClass.source (Size.ofStd f) = if f = 0#2 then EAClass.allnoAn else .all := by clear h; revert f; decide
  rwa [this]
theorem moveSource_ok {f : BitVec 2} {m r : BitVec 3} (h : (if f = 1#2 then EAClass.allnoAn else .all).admits m r = true) :
    (EAClass.source (Size.ofMove f)).admits m r = true := by
  have : EAClass.source (Size.ofMove f) = if f = 1#2 then EAClass.allnoAn else .all := by clear h; revert f; decide
  rwa [this]
theorem withBranchDisp_some {op : Word} {ws rest : List Word} {k : BranchDisp → Instr} {i : Instr}
    (h : withBranchDisp op ws k = some (i, rest)) :
    ∃ d : BranchDisp, (∃ l, ws = l ++ rest ∧ l.length = d.words.length) ∧ i = k d ∧ d.ok = true ∧
      d.bits = op.extractLsb' 0 8 ∧ d.words.length ≤ 1 ∧
      ∀ more, withBranchDisp op (ws ++ more) k = some (i, rest ++ more) := by
  unfold withBranchDisp at *
  split at h
  · rename_i h0
    simp only [Option.map_eq_some_iff, Prod.mk.injEq, Prod.exists, takeWord_some] at h
    obtain ⟨w, _, rfl, rfl, rfl⟩ := h
    exact ⟨.word w, ⟨[w], rfl, rfl⟩, rfl, rfl, h0.symm, by simp [BranchDisp.words], fun more => by rw [if_pos h0]; rfl⟩
  · rename_i h0
    cases h
    exact ⟨.byte _, ⟨[], rfl, rfl⟩, rfl, by simpa [BranchDisp.ok] using h0, rfl, by simp [BranchDisp.words], fun more => by rw [if_neg h0]⟩

/-! ## One mnemonic after the other -/

theorem read_oriToCcr {b op ws rest i} (hl : lookup b op = some .oriToCcr) (h : assemble .oriToCcr op ws = some (i, rest)) :
    ReadFrom .oriToCcr op ws rest i := by
  have c := row_claims 0 rfl rfl hl
  have e : op = 0x003C#16 := (op.extractLsb'_eq_self).symm.trans (field_of_claims c (0, 16) rfl)
  simp only [assemble, withWord, withEA, withWordEA, withImmEA, withSizeEA, withLongBitEA, shiftReg, Option.bind_eq_some_iff, Option.map_eq_some_iff, Option.some.injEq, Prod.mk.injEq, Prod.exists, takeWord_some] at h
  obtain ⟨w, _, rfl, rfl, rfl⟩ := h
  constructor
  · rfl
  · exact e.symm
  · exact ⟨[w], rfl, rfl⟩
  · simp [Instr.extWords]
  · exact fun _ => rfl

theorem read_oriToSr {b op ws rest i} (hl : lookup b op = some .oriToSr) (h : assemble .oriToSr op ws = some (i, rest)) :
    ReadFrom .oriToSr op ws rest i := by
  have c := row_claims 1 rfl rfl hl
  have e : op = 0x007C#16 := (op.extractLsb'_eq_self).symm.trans (field_of_claims c (0, 16) rfl)
  simp only [assemble, withWord, withEA, withWordEA, withImmEA, withSizeEA, withLongBitEA, shiftReg, Option.bind_eq_some_iff, Option.map_eq_some_iff, Option.some.injEq, Prod.mk.injEq, Prod.exists, takeWord_some] at h
  obtain ⟨w, _, rfl, rfl, rfl⟩ := h
  constructor
  · rfl
  · exact e.symm
  · exact ⟨[w], rfl, rfl⟩
  · simp [Instr.extWords]
  · exact fun _ => rfl

theorem read_ori {b op ws rest i} (hl : lookup b op = some .ori) (h : assemble .ori op ws = some (i, rest)) :
    ReadFrom .ori op ws rest i := by
  have c := row_claims 2 rfl rfl hl
  have e := fields_8_2_ea_eta op
  rw [show op.extractLsb' 8 8 = 0x00#8 from field_of_claims c (8, 8) rfl] at e
  simp only [Row.claims, List.all_cons, List.all_nil, Bool.and_eq_true, Check.holds, bne_iff_ne, ne_eq, decide_eq_true_eq] at c
  obtain ⟨⟨-, k1, k2, -⟩, -⟩ := c
  simp only [assemble, withWord, withEA, withWordEA, withImmEA, withSizeEA, withLongBitEA, shiftReg, Option.bind_eq_some_iff, Option.map_eq_some_iff, Option.some.injEq, Prod.mk.injEq, Prod.exists, takeWord_some] at h
  obtain ⟨imm, _, hi, ea, _, he, rfl, rfl⟩ := h
  obtain ⟨⟨l1, rfl, hl1⟩, hi2, hi3⟩ := takeImm_some hi
  obtain ⟨⟨l2, rfl, hl2⟩, hm, hr, hok, he3⟩ := takeEA_some he
  constructor
  · simp only [Instr.wf, hi2, hok _ k2, Bool.and_self]
  · refine Eq.trans ?_ e
    simp only [Instr.opcode, EA.field, regBits_regOf, bit_getLsbD, Cond.bits_ofBits, Size.longBit_ofLongBit, countOf_field, countOf_byReg, Size.std_ofStd k1, hm, hr]
  · exact ⟨l1 ++ l2, by simp, by simp [Instr.extWords, hl1, hl2]⟩
  · have := immWords_length_le (Size.ofStd (op.extractLsb' 6 2)) imm
    have := ea.words_length_le (Size.ofStd (op.extractLsb' 6 2))
    simp only [Instr.extWords, List.length_append]; omega
  · intro more
    simp only [assemble, withEA, withWordEA, withImmEA, withSizeEA, withLongBitEA, takeWord, List.cons_append, hi3, he3, Option.bind_some, Option.map_some]

theorem read_andiToCcr {b op ws rest i} (hl : lookup b op = some .andiToCcr) (h : assemble .andiToCcr op ws = some (i, rest)) :
    ReadFrom .andiToCcr op ws rest i := by
  have c := row_claims 3 rfl rfl hl
  have e : op = 0x023C#16 := (op.extractLsb'_eq_self).symm.trans (field_of_claims c (0, 16) rfl)
  simp only [assemble, withWord, withEA, withWordEA, withImmEA, withSizeEA, withLongBitEA, shiftReg, Option.bind_eq_some_iff, Option.map_eq_some_iff, Option.some.injEq, Prod.mk.injEq, Prod.exists, takeWord_some] at h
  obtain ⟨w, _, rfl, rfl, rfl⟩ := h
  constructor
  · rfl
  · exact e.symm
  · exact ⟨[w], rfl, rfl⟩
  · simp [Instr.extWords]
  · exact fun _ => rfl

theorem read_andiToSr {b op ws rest i} (hl : lookup b op = some .andiToSr) (h : assemble .andiToSr op ws = some (i, rest)) :
    ReadFrom .andiToSr op ws rest i := by
  have c := row_claims 4 rfl rfl hl
  have e : op = 0x027C#16 := (op.extractLsb'_eq_self).symm.trans (field_of_claims c (0, 16) rfl)
  simp only [assemble, withWord, withEA, withWordEA, withImmEA, withSizeEA, withLongBitEA, shiftReg, Option.bind_eq_some_iff, Option.map_eq_some_iff, Option.some.injEq, Prod.mk.injEq, Prod.exists, takeWord_some] at h
  obtain ⟨w, _, rfl, rfl, rfl⟩ := h
  constructor
  · rfl
  · exact e.symm
  · exact ⟨[w], rfl, rfl⟩
  · simp [Instr.extWords]
  · exact fun _ => rfl

theorem read_andi {b op ws rest i} (hl : lookup b op = some .andi) (h : assemble .andi op ws = some (i, rest)) :
    ReadFrom .andi op ws rest i := by
  have c := row_claims 5 rfl rfl hl
  have e := fields_8_2_ea_eta op
  rw [show op.extractLsb' 8 8 = 0x02#8 from field_of_claims c (8, 8) rfl] at e
  simp only [Row.claims, List.all_cons, List.all_nil, Bool.and_eq_true, Check.holds, bne_iff_ne, ne_eq, decide_eq_true_eq] at c
  obtain ⟨⟨-, k1, k2, -⟩, -⟩ := c
  simp only [assemble, withWord, withEA, withWordEA, withImmEA, withSizeEA, withLongBitEA, shiftReg, Option.bind_eq_some_iff, Option.map_eq_some_iff, Option.some.injEq, Prod.mk.injEq, Prod.exists, takeWord_some] at h
  obtain ⟨imm, _, hi, ea, _, he, rfl, rfl⟩ := h
  obtain ⟨⟨l1, rfl, hl1⟩, hi2, hi3⟩ := takeImm_some hi
  obtain ⟨⟨l2, rfl, hl2⟩, hm, hr, hok, he3⟩ := takeEA_some he
  constructor
  · simp only [Instr.wf, hi2, hok _ k2, Bool.and_self]
  · refine Eq.trans ?_ e
    simp only [Instr.opcode, EA.field, regBits_regOf, bit_getLsbD, Cond.bits_ofBits, Size.longBit_ofLongBit, countOf_field, countOf_byReg, Size.std_ofStd k1, hm, hr]
  · exact ⟨l1 ++ l2, by simp, by simp [Instr.extWords, hl1, hl2]⟩
  · have := immWords_length_le (Size.ofStd (op.extractLsb' 6 2)) imm
    have := ea.words_length_le (Size.ofStd (op.extractLsb' 6 2))
    simp only [Instr.extWords, List.length_append]; omega
  · intro more
    simp only [assemble, withEA, withWordEA, withImmEA, withSizeEA, withLongBitEA, takeWord, List.cons_append, hi3, he3, Option.bind_some, Option.map_some]

theorem read_subi {b op ws rest i} (hl : lookup b op = some .subi) (h : assemble .subi op ws = some (i, rest)) :
    ReadFrom .subi op ws rest i := by
  have c := row_claims 6 rfl rfl hl
  have e := fields_8_2_ea_eta op
  rw [show op.extractLsb' 8 8 = 0x04#8 from field_of_claims c (8, 8) rfl] at e
  simp only [Row.claims, List.all_cons, List.all_nil, Bool.and_eq_true, Check.holds, bne_iff_ne, ne_eq, decide_eq_true_eq] at c
  obtain ⟨⟨-, k1, k2, -⟩, -⟩ := c
  simp only [assemble, withWord, withEA, withWordEA, withImmEA, withSizeEA, withLongBitEA, shiftReg, Option.bind_eq_some_iff, Option.map_eq_some_iff, Option.some.injEq, Prod.mk.injEq, Prod.exists, takeWord_some] at h
  obtain ⟨imm, _, hi, ea, _, he, rfl, rfl⟩ := h
  obtain ⟨⟨l1, rfl, hl1⟩, hi2, hi3⟩ := takeImm_some hi
  obtain ⟨⟨l2, rfl, hl2⟩, hm, hr, hok, he3⟩ := takeEA_some he
  constructor
  · simp only [Instr.wf, hi2, hok _ k2, Bool.and_self]
  · refine Eq.trans ?_ e
    simp only [Instr.opcode, EA.field, regBits_regOf, bit_getLsbD, Cond.bits_ofBits, Size.longBit_ofLongBit, countOf_field, countOf_byReg, Size.std_ofStd k1, hm, hr]
  · exact ⟨l1 ++ l2, by simp, by simp [Instr.extWords, hl1, hl2]⟩
  · have := immWords_length_le (Size.ofStd (op.extractLsb' 6 2)) imm
    have := ea.words_length_le (Size.ofStd (op.extractLsb' 6 2))
    simp only [Instr.extWords, List.length_append]; omega
  · intro more
    simp only [assemble, withEA, withWordEA, withImmEA, withSizeEA, withLongBitEA, takeWord, List.cons_append, hi3, he3, Option.bind_some, Option.map_some]

theorem read_addi {b op ws rest i} (hl : lookup b op = some .addi) (h : assemble .addi op ws = some (i, rest)) :
    ReadFrom .addi op ws rest i := by
  have c := row_claims 7 rfl rfl hl
  have e := fields_8_2_ea_eta op
  rw [show op.extractLsb' 8 8 = 0x06#8 from field_of_claims c (8, 8) rfl] at e
  simp only [Row.claims, List.all_cons, List.all_nil, Bool.and_eq_true, Check.holds, bne_iff_ne, ne_eq, decide_eq_true_eq] at c
  obtain ⟨⟨-, k1, k2, -⟩, -⟩ := c
  simp only [assemble, withWord, withEA, withWordEA, withImmEA, withSizeEA, withLongBitEA, shiftReg, Option.bind_eq_some_iff, Option.map_eq_some_iff, Option.some.injEq, Prod.mk.injEq, Prod.exists, takeWord_some] at h
  obtain ⟨imm, _, hi, ea, _, he, rfl, rfl⟩ := h
  obtain ⟨⟨l1, rfl, hl1⟩, hi2, hi3⟩ := takeImm_some hi
  obtain ⟨⟨l2, rfl, hl2⟩, hm, hr, hok, he3⟩ := takeEA_some he
  constructor
  · simp only [Instr.wf, hi2, hok _ k2, Bool.and_self]
  · refine Eq.trans ?_ e
    simp only [Instr.opcode, EA.field, regBits_regOf, bit_getLsbD, Cond.bits_ofBits, Size.longBit_ofLongBit, countOf_field, countOf_byReg, Size.std_ofStd k1, hm, hr]
  · exact ⟨l1 ++ l2, by simp, by simp [Instr.extWords, hl1, hl2]⟩
  · have := immWords_length_le (Size.ofStd (op.extractLsb' 6 2)) imm
    have := ea.words_length_le (Size.ofStd (op.extractLsb' 6 2))
    simp only [Instr.extWords, List.length_append]; omega
  · intro more
    simp only [assemble, withEA, withWordEA, withImmEA, withSizeEA, withLongBitEA, takeWord, List.cons_append, hi3, he3, Option.bind_some, Option.map_some]

theorem read_eoriToCcr {b op ws rest i} (hl : lookup b op = some .eoriToCcr) (h : assemble .eoriToCcr op ws = some (i, rest)) :
    ReadFrom .eoriToCcr op ws rest i := by
  have c := row_claims 8 rfl rfl hl
  have e : op = 0x0A3C#16 := (op.extractLsb'_eq_self).symm.trans (field_of_claims c (0, 16) rfl)
  simp only [assemble, withWord, withEA, withWordEA, withImmEA, withSizeEA, withLongBitEA, shiftReg, Option.bind_eq_some_iff, Option.map_eq_some_iff, Option.some.injEq, Prod.mk.injEq, Prod.exists, takeWord_some] at h
  obtain ⟨w, _, rfl, rfl, rfl⟩ := h
  constructor
  · rfl
  · exact e.symm
  · exact ⟨[w], rfl, rfl⟩
  · simp [Instr.extWords]
  · exact fun _ => rfl

theorem read_eoriToSr {b op ws rest i} (hl : lookup b op = some .eoriToSr) (h : assemble .eoriToSr op ws = some (i, rest)) :
    ReadFrom .eoriToSr op ws rest i := by
  have c := row_claims 9 rfl rfl hl
  have e : op = 0x0A7C#16 := (op.extractLsb'_eq_self).symm.trans (field_of_claims c (0, 16) rfl)
  simp only [assemble, withWord, withEA, withWordEA, withImmEA, withSizeEA, withLongBitEA, shiftReg, Option.bind_eq_some_iff, Option.map_eq_some_iff, Option.some.injEq, Prod.mk.injEq, Prod.exists, takeWord_some] at h
  obtain ⟨w, _, rfl, rfl, rfl⟩ := h
  constructor
  · rfl
  · exact e.symm
  · exact ⟨[w], rfl, rfl⟩
  · simp [Instr.extWords]
  · exact fun _ => rfl

theorem read_eori {b op ws rest i} (hl : lookup b op = some .eori) (h : assemble .eori op ws = some (i, rest)) :
    ReadFrom .eori op ws rest i := by
  have c := row_claims 10 rfl rfl hl
  have e := fields_8_2_ea_eta op
  rw [show op.extractLsb' 8 8 = 0x0A#8 from field_of_claims c (8, 8) rfl] at e
  simp only [Row.claims, List.all_cons, List.all_nil, Bool.and_eq_true, Check.holds, bne_iff_ne, ne_eq, decide_eq_true_eq] at c
  obtain ⟨⟨-, k1, k2, -⟩, -⟩ := c
  simp only [assemble, withWord, withEA, withWordEA, withImmEA, withSizeEA, withLongBitEA, shiftReg, Option.bind_eq_some_iff, Option.map_eq_some_iff, Option.some.injEq, Prod.mk.injEq, Prod.exists, takeWord_some] at h
  obtain ⟨imm, _, hi, ea, _, he, rfl, rfl⟩ := h
  obtain ⟨⟨l1, rfl, hl1⟩, hi2, hi3⟩ := takeImm_some hi
  obtain ⟨⟨l2, rfl, hl2⟩, hm, hr, hok, he3⟩ := takeEA_some he
  constructor
  · simp only [Instr.wf, hi2, hok _ k2, Bool.and_self]
  · refine Eq.trans ?_ e
    simp only [Instr.opcode, EA.field, regBits_regOf, bit_getLsbD, Cond.bits_ofBits, Size.longBit_ofLongBit, countOf_field, countOf_byReg, Size.std_ofStd k1, hm, hr]
  · exact ⟨l1 ++ l2, by simp, by simp [Instr.extWords, hl1, hl2]⟩
  · have := immWords_length_le (Size.ofStd (op.extractLsb' 6 2)) imm
    have := ea.words_length_le (Size.ofStd (op.extractLsb' 6 2))
    simp only [Instr.extWords, List.length_append]; omega
  · intro more
    simp only [assemble, withEA, withWordEA, withImmEA, withSizeEA, withLongBitEA, takeWord, List.cons_append, hi3, he3, Option.bind_some, Option.map_some]

theorem read_cmpi {b op ws rest i} (hl : lookup b op = some .cmpi) (h : assemble .cmpi op ws = some (i, rest)) :
    ReadFrom .cmpi op ws rest i := by
  have c := row_claims 11 rfl rfl hl
  have e := fields_8_2_ea_eta op
  rw [show op.extractLsb' 8 8 = 0x0C#8 from field_of_claims c (8, 8) rfl] at e
  simp only [Row.claims, List.all_cons, List.all_nil, Bool.and_eq_true, Check.holds, bne_iff_ne, ne_eq, decide_eq_true_eq] at c
  obtain ⟨⟨-, k1, k2, -⟩, -⟩ := c
  simp only [assemble, withWord, withEA, withWordEA, withImmEA, withSizeEA, withLongBitEA, shiftReg, Option.bind_eq_some_iff, Option.map_eq_some_iff, Option.some.injEq, Prod.mk.injEq, Prod.exists, takeWord_some] at h
  obtain ⟨imm, _, hi, ea, _, he, rfl, rfl⟩ := h
  obtain ⟨⟨l1, rfl, hl1⟩, hi2, hi3⟩ := takeImm_some hi
  obtain ⟨⟨l2, rfl, hl2⟩, hm, hr, hok, he3⟩ := takeEA_some he
  constructor
  · simp only [Instr.wf, hi2, hok _ k2, Bool.and_self]
  · refine Eq.trans ?_ e
    simp only [Instr.opcode, EA.field, regBits_regOf, bit_getLsbD, Cond.bits_ofBits, Size.longBit_ofLongBit, countOf_field, countOf_byReg, Size.std_ofStd k1, hm, hr]
  · exact ⟨l1 ++ l2, by simp, by simp [Instr.extWords, hl1, hl2]⟩
  · have := immWords_length_le (Size.ofStd (op.extractLsb' 6 2)) imm
    have := ea.words_length_le (Size.ofStd (op.extractLsb' 6 2))
    simp only [Instr.extWords, List.length_append]; omega
  · intro more
    simp only [assemble, withEA, withWordEA, withImmEA, withSizeEA, withLongBitEA, takeWord, List.cons_append, hi3, he3, Option.bind_some, Option.map_some]

theorem read_btstImm {b op ws rest i} (hl : lookup b op = some .btstImm) (h : assemble .btstImm op ws = some (i, rest)) :
    ReadFrom .btstImm op ws rest i := by
  have c := row_claims 12 rfl rfl hl
  have e := fields_8_2_ea_eta op
  rw [show op.extractLsb' 8 8 = 0x08#8 from field_of_claims c (8, 8) rfl, show op.extractLsb' 6 2 = 0#2 from field_of_claims c (6, 2) rfl] at e
  simp only [Row.claims, List.all_cons, List.all_nil, Bool.and_eq_true, Check.holds, bne_iff_ne, ne_eq, decide_eq_true_eq] at c
  obtain ⟨⟨-, k1, -⟩, -⟩ := c
  simp only [assemble, withWord, withEA, withWordEA, withImmEA, withSizeEA, withLongBitEA, shiftReg, Option.bind_eq_some_iff, Option.map_eq_some_iff, Option.some.injEq, Prod.mk.injEq, Prod.exists, takeWord_some] at h
  obtain ⟨w, _, rfl, ea, _, he, rfl, rfl⟩ := h
  obtain ⟨⟨l, rfl, hl1⟩, hm, hr, hok, he3⟩ := takeEA_some he
  constructor
  · simp only [Instr.wf, hok _ k1, Bool.and_self]
  · refine Eq.trans ?_ e
    simp only [Instr.opcode, EA.field, regBits_regOf, bit_getLsbD, Cond.bits_ofBits, Size.longBit_ofLongBit, countOf_field, countOf_byReg, hm, hr]
  · exact ⟨w :: l, rfl, by simp [Instr.extWords, hl1]⟩
  · have := ea.words_length_le .b
    simp only [Instr.extWords, List.length_cons]; omega
  · intro more
    simp only [assemble, withEA, withWordEA, withImmEA, withSizeEA, withLongBitEA, takeWord, List.cons_append, he3, Option.bind_some, Option.map_some]

theorem read_bchgImm {b op ws rest i} (hl : lookup b op = some .bchgImm) (h : assemble .bchgImm op ws = some (i, rest)) :
    ReadFrom .bchgImm op ws rest i := by
  have c := row_claims 13 rfl rfl hl
  have e := fields_8_2_ea_eta op
  rw [show op.extractLsb' 8 8 = 0x08#8 from field_of_claims c (8, 8) rfl, show op.extractLsb' 6 2 = 1#2 from field_of_claims c (6, 2) rfl] at e
  simp only [Row.claims, List.all_cons, List.all_nil, Bool.and_eq_true, Check.holds, bne_iff_ne, ne_eq, decide_eq_true_eq] at c
  obtain ⟨⟨-, k1, -⟩, -⟩ := c
  simp only [assemble, withWord, withEA, withWordEA, withImmEA, withSizeEA, withLongBitEA, shiftReg, Option.bind_eq_some_iff, Option.map_eq_some_iff, Option.some.injEq, Prod.mk.injEq, Prod.exists, takeWord_some] at h
  obtain ⟨w, _, rfl, ea, _, he, rfl, rfl⟩ := h
  obtain ⟨⟨l, rfl, hl1⟩, hm, hr, hok, he3⟩ := takeEA_some he
  constructor
  · simp only [Instr.wf, hok _ k1, Bool.and_self]
  · refine Eq.trans ?_ e
    simp only [Instr.opcode, EA.field, regBits_regOf, bit_getLsbD, Cond.bits_ofBits, Size.longBit_ofLongBit, countOf_field, countOf_byReg, hm, hr]
  · exact ⟨w :: l, rfl, by simp [Instr.extWords, hl1]⟩
  · have := ea.words_length_le .b
    simp only [Instr.extWords, List.length_cons]; omega
  · intro more
    simp only [assemble, withEA, withWordEA, withImmEA, withSizeEA, withLongBitEA, takeWord, List.cons_append, he3, Option.bind_some, Option.map_some]

theorem read_bclrImm {b op ws rest i} (hl : lookup b op = some .bclrImm) (h : assemble .bclrImm op ws = some (i, rest)) :
    ReadFrom .bclrImm op ws rest i := by
  have c := row_claims 14 rfl rfl hl
  have e := fields_8_2_ea_eta op
  rw [show op.extractLsb' 8 8 = 0x08#8 from field_of_claims c (8, 8) rfl, show op.extractLsb' 6 2 = 2#2 from field_of_claims c (6, 2) rfl] at e
  simp only [Row.claims, List.all_cons, List.all_nil, Bool.and_eq_true, Check.holds, bne_iff_ne, ne_eq, decide_eq_true_eq] at c
  obtain ⟨⟨-, k1, -⟩, -⟩ := c
  simp only [assemble, withWord, withEA, withWordEA, withImmEA, withSizeEA, withLongBitEA, shiftReg, Option.bind_eq_some_iff, Option.map_eq_some_iff, Option.some.injEq, Prod.mk.injEq, Prod.exists, takeWord_some] at h
  obtain ⟨w, _, rfl, ea, _, he, rfl, rfl⟩ := h
  obtain ⟨⟨l, rfl, hl1⟩, hm, hr, hok, he3⟩ := takeEA_some he
  constructor
  · simp only [Instr.wf, hok _ k1, Bool.and_self]
  · refine Eq.trans ?_ e
    simp only [Instr.opcode, EA.field, regBits_regOf, bit_getLsbD, Cond.bits_ofBits, Size.longBit_ofLongBit, countOf_field, countOf_byReg, hm, hr]
  · exact ⟨w :: l, rfl, by simp [Instr.extWords, hl1]⟩
  · have := ea.words_length_le .b
    simp only [Instr.extWords, List.length_cons]; omega
  · intro more
    simp only [assemble, withEA, withWordEA, withImmEA, withSizeEA, withLongBitEA, takeWord, List.cons_append, he3, Option.bind_some, Option.map_some]

theorem read_bsetImm {b op ws rest i} (hl : lookup b op = some .bsetImm) (h : assemble .bsetImm op ws = some (i, rest)) :
    ReadFrom .bsetImm op ws rest i := by
  have c := row_claims 15 rfl rfl hl
  have e := fields_8_2_ea_eta op
  rw [show op.extractLsb' 8 8 = 0x08#8 from field_of_claims c (8, 8) rfl, show op.extractLsb' 6 2 = 3#2 from field_of_claims c (6, 2) rfl] at e
  simp only [Row.claims, List.all_cons, List.all_nil, Bool.and_eq_true, Check.holds, bne_iff_ne, ne_eq, decide_eq_true_eq] at c
  obtain ⟨⟨-, k1, -⟩, -⟩ := c
  simp only [assemble, withWord, withEA, withWordEA, withImmEA, withSizeEA, withLongBitEA, shiftReg, Option.bind_eq_some_iff, Option.map_eq_some_iff, Option.some.injEq, Prod.mk.injEq, Prod.exists, takeWord_some] at h
  obtain ⟨w, _, rfl, ea, _, he, rfl, rfl⟩ := h
  obtain ⟨⟨l, rfl, hl1⟩, hm, hr, hok, he3⟩ := takeEA_some he
  constructor
  · simp only [Instr.wf, hok _ k1, Bool.and_self]
  · refine Eq.trans ?_ e
    simp only [Instr.opcode, EA.field, regBits_regOf, bit_getLsbD, Cond.bits_ofBits, Size.longBit_ofLongBit, countOf_field, countOf_byReg, hm, hr]
  · exact ⟨w :: l, rfl, by simp [Instr.extWords, hl1]⟩
  · have := ea.words_length_le .b
    simp only [Instr.extWords, List.length_cons]; omega
  · intro more
    simp only [assemble, withEA, withWordEA, withImmEA, withSizeEA, withLongBitEA, takeWord, List.cons_append, he3, Option.bind_some, Option.map_some]

theorem read_btstDn {b op ws rest i} (hl : lookup b op = some .btstDn) (h : assemble .btstDn op ws = some (i, rest)) :
    ReadFrom .btstDn op ws rest i := by
  have c := row_claims 16 rfl rfl hl
  have e := fields_4_3_1_2_ea_eta op
  rw [show op.extractLsb' 12 4 = 0#4 from field_of_claims c (12, 4) rfl, show op.extractLsb' 8 1 = 1#1 from field_of_claims c (8, 1) rfl, show op.extractLsb' 6 2 = 0#2 from field_of_claims c (6, 2) rfl] at e
  simp only [Row.claims, List.all_cons, List.all_nil, Bool.and_eq_true, Check.holds, bne_iff_ne, ne_eq, decide_eq_true_eq] at c
  obtain ⟨⟨-, k1, -⟩, -⟩ := c
  simp only [assemble, withWord, withEA, withWordEA, withImmEA, withSizeEA, withLongBitEA, shiftReg, Option.bind_eq_some_iff, Option.map_eq_some_iff, Option.some.injEq, Prod.mk.injEq, Prod.exists, takeWord_some] at h
  obtain ⟨ea, _, he, rfl, rfl⟩ := h
  obtain ⟨⟨l, rfl, hl1⟩, hm, hr, hok, he3⟩ := takeEA_some he
  constructor
  · simp only [Instr.wf, hok _ k1, Bool.and_self]
  · refine Eq.trans ?_ e
    simp only [Instr.opcode, EA.field, regBits_regOf, bit_getLsbD, Cond.bits_ofBits, Size.longBit_ofLongBit, countOf_field, countOf_byReg, hm, hr]
  · exact ⟨l, rfl, hl1⟩
  · have := ea.words_length_le .b
    simp only [Instr.extWords]; omega
  · intro more
    simp only [assemble, withEA, withWordEA, withImmEA, withSizeEA, withLongBitEA, takeWord, List.cons_append, he3, Option.bind_some, Option.map_some]

theorem read_bchgDn {b op ws rest i} (hl : lookup b op = some .bchgDn) (h : assemble .bchgDn op ws = some (i, rest)) :
    ReadFrom .bchgDn op ws rest i := by
  have c := row_claims 17 rfl rfl hl
  have e := fields_4_3_1_2_ea_eta op
  rw [show op.extractLsb' 12 4 = 0#4 from field_of_claims c (12, 4) rfl, show op.extractLsb' 8 1 = 1#1 from field_of_claims c (8, 1) rfl, show op.extractLsb' 6 2 = 1#2 from field_of_claims c (6, 2) rfl] at e
  simp only [Row.claims, List.all_cons, List.all_nil, Bool.and_eq_true, Check.holds, bne_iff_ne, ne_eq, decide_eq_true_eq] at c
  obtain ⟨⟨-, k1, -⟩, -⟩ := c
  simp only [assemble, withWord, withEA, withWordEA, withImmEA, withSizeEA, withLongBitEA, shiftReg, Option.bind_eq_some_iff, Option.map_eq_some_iff, Option.some.injEq, Prod.mk.injEq, Prod.exists, takeWord_some] at h
  obtain ⟨ea, _, he, rfl, rfl⟩ := h
  obtain ⟨⟨l, rfl, hl1⟩, hm, hr, hok, he3⟩ := takeEA_some he
  constructor
  · simp only [Instr.wf, hok _ k1, Bool.and_self]
  · refine Eq.trans ?_ e
    simp only [Instr.opcode, EA.field, regBits_regOf, bit_getLsbD, Cond.bits_ofBits, Size.longBit_ofLongBit, countOf_field, countOf_byReg, hm, hr]
  · exact ⟨l, rfl, hl1⟩
  · have := ea.words_length_le .b
    simp only [Instr.extWords]; omega
  · intro more
    simp only [assemble, withEA, withWordEA, withImmEA, withSizeEA, withLongBitEA, takeWord, List.cons_append, he3, Option.bind_some, Option.map_some]

theorem read_bclrDn {b op ws rest i} (hl : lookup b op = some .bclrDn) (h : assemble .bclrDn op ws = some (i, rest)) :
    ReadFrom .bclrDn op ws rest i := by
  have c := row_claims 18 rfl rfl hl
  have e := fields_4_3_1_2_ea_eta op
  rw [show op.extractLsb' 12 4 = 0#4 from field_of_claims c (12, 4) rfl, show op.extractLsb' 8 1 = 1#1 from field_of_claims c (8, 1) rfl, show op.extractLsb' 6 2 = 2#2 from field_of_claims c (6, 2) rfl] at e
  simp only [Row.claims, List.all_cons, List.all_nil, Bool.and_eq_true, Check.holds, bne_iff_ne, ne_eq, decide_eq_true_eq] at c
  obtain ⟨⟨-, k1, -⟩, -⟩ := c
  simp only [assemble, withWord, withEA, withWordEA, withImmEA, withSizeEA, withLongBitEA, shiftReg, Option.bind_eq_some_iff, Option.map_eq_some_iff, Option.some.injEq, Prod.mk.injEq, Prod.exists, takeWord_some] at h
  obtain ⟨ea, _, he, rfl, rfl⟩ := h
  obtain ⟨⟨l, rfl, hl1⟩, hm, hr, hok, he3⟩ := takeEA_some he
  constructor
  · simp only [Instr.wf, hok _ k1, Bool.and_self]
  · refine Eq.trans ?_ e
    simp only [Instr.opcode, EA.field, regBits_regOf, bit_getLsbD, Cond.bits_ofBits, Size.longBit_ofLongBit, countOf_field, countOf_byReg, hm, hr]
  · exact ⟨l, rfl, hl1⟩
  · have := ea.words_length_le .b
    simp only [Instr.extWords]; omega
  · intro more
    simp only [assemble, withEA, withWordEA, withImmEA, withSizeEA, withLongBitEA, takeWord, List.cons_append, he3, Option.bind_some, Option.map_some]

theorem read_bsetDn {b op ws rest i} (hl : lookup b op = some .bsetDn) (h : assemble .bsetDn op ws = some (i, rest)) :
    ReadFrom .bsetDn op ws rest i := by
  have c := row_claims 19 rfl rfl hl
  have e := fields_4_3_1_2_ea_eta op
  rw [show op.extractLsb' 12 4 = 0#4 from field_of_claims c (12, 4) rfl, show op.extractLsb' 8 1 = 1#1 from field_of_claims c (8, 1) rfl, show op.extractLsb' 6 2 = 3#2 from field_of_claims c (6, 2) rfl] at e
  simp only [Row.claims, List.all_cons, List.all_nil, Bool.and_eq_true, Check.holds, bne_iff_ne, ne_eq, decide_eq_true_eq] at c
  obtain ⟨⟨-, k1, -⟩, -⟩ := c
  simp only [assemble, withWord, withEA, withWordEA, withImmEA, withSizeEA, withLongBitEA, shiftReg, Option.bind_eq_some_iff, Option.map_eq_some_iff, Option.some.injEq, Prod.mk.injEq, Prod.exists, takeWord_some] at h
  obtain ⟨ea, _, he, rfl, rfl⟩ := h
  obtain ⟨⟨l, rfl, hl1⟩, hm, hr, hok, he3⟩ := takeEA_some he
  constructor
  · simp only [Instr.wf, hok _ k1, Bool.and_self]
  · refine Eq.trans ?_ e
    simp only [Instr.opcode, EA.field, regBits_regOf, bit_getLsbD, Cond.bits_ofBits, Size.longBit_ofLongBit, countOf_field, countOf_byReg, hm, hr]
  · exact ⟨l, rfl, hl1⟩
  · have := ea.words_length_le .b
    simp only [Instr.extWords]; omega
  · intro more
    simp only [assemble, withEA, withWordEA, withImmEA, withSizeEA, withLongBitEA, takeWord, List.cons_append, he3, Option.bind_some, Option.map_some]

theorem read_movep {b op ws rest i} (hl : lookup b op = some .movep) (h : assemble .movep op ws = some (i, rest)) :
    ReadFrom .movep op ws rest i := by
  have c := row_claims 20 rfl rfl hl
  have e := fields_4_3_1_1_1_3_3_eta op
  rw [show op.extractLsb' 12 4 = 0#4 from field_of_claims c (12, 4) rfl, show op.extractLsb' 8 1 = 1#1 from field_of_claims c (8, 1) rfl, show op.extractLsb' 3 3 = 1#3 from field_of_claims c (3, 3) rfl] at e
  simp only [assemble, withWord, withEA, withWordEA, withImmEA, withSizeEA, withLongBitEA, shiftReg, Option.bind_eq_some_iff, Option.map_eq_some_iff, Option.some.injEq, Prod.mk.injEq, Prod.exists, takeWord_some] at h
  obtain ⟨w, _, rfl, rfl, rfl⟩ := h
  constructor
  · rfl
  · refine Eq.trans ?_ e
    simp only [Instr.opcode, EA.field, regBits_regOf, bit_getLsbD, Cond.bits_ofBits, Size.longBit_ofLongBit, countOf_field, countOf_byReg]
  · exact ⟨[w], rfl, rfl⟩
  · simp [Instr.extWords]
  · exact fun _ => rfl

theorem read_cas {b op ws rest i} (hl : lookup b op = some .cas) (h : assemble .cas op ws = some (i, rest)) :
    ReadFrom .cas op ws rest i := by
  have c := row_claims 21 rfl rfl hl
  have e := fields_5_2_1_2_ea_eta op
  rw [show op.extractLsb' 11 5 = 1#5 from field_of_claims c (11, 5) rfl, show op.extractLsb' 8 1 = 0#1 from field_of_claims c (8, 1) rfl, show op.extractLsb' 6 2 = 3#2 from field_of_claims c (6, 2) rfl] at e
  simp only [Row.claims, List.all_cons, List.all_nil, Bool.and_eq_true, Check.holds, bne_iff_ne, ne_eq, decide_eq_true_eq] at c
  obtain ⟨⟨-, k1, k2, -⟩, -⟩ := c
  simp only [assemble, withWord, withEA, withWordEA, withImmEA, withSizeEA, withLongBitEA, shiftReg, Option.bind_eq_some_iff, Option.map_eq_some_iff, Option.some.injEq, Prod.mk.injEq, Prod.exists, takeWord_some] at h
  obtain ⟨w, _, rfl, ea, _, he, rfl, rfl⟩ := h
  obtain ⟨⟨l, rfl, hl1⟩, hm, hr, hok, he3⟩ := takeEA_some he
  constructor
  · simp only [Instr.wf, hok _ k2, Bool.and_self]
  · refine Eq.trans ?_ e
    simp only [Instr.opcode, EA.field, regBits_regOf, bit_getLsbD, Cond.bits_ofBits, Size.longBit_ofLongBit, countOf_field, countOf_byReg, Size.casBits_ofCas k1, hm, hr]
  · exact ⟨w :: l, rfl, by simp [Instr.extWords, hl1]⟩
  · have := ea.words_length_le (Size.ofCas (op.extractLsb' 9 2))
    simp only [Instr.extWords, List.length_cons]; omega
  · intro more
    simp only [assemble, withEA, withWordEA, withImmEA, withSizeEA, withLongBitEA, takeWord, List.cons_append, he3, Option.bind_some, Option.map_some]

theorem read_move {b op ws rest i} (hl : lookup b op = some .move) (h : assemble .move op ws = some (i, rest)) :
    ReadFrom .move op ws rest i := by
  have c := row_claims 22 rfl rfl hl
  have e := fields_2_2_3_3_ea_eta op
  rw [show op.extractLsb' 14 2 = 0#2 from field_of_claims c (14, 2) rfl] at e
  simp only [Row.claims, List.all_cons, List.all_nil, Bool.and_eq_true, Check.holds, bne_iff_ne, ne_eq, decide_eq_true_eq] at c
  obtain ⟨⟨-, k1, k2, k3, -⟩, -⟩ := c
  simp only [assemble, withWord, withEA, withWordEA, withImmEA, withSizeEA, withLongBitEA, shiftReg, Option.bind_eq_some_iff, Option.map_eq_some_iff, Option.some.injEq, Prod.mk.injEq, Prod.exists, takeWord_some] at h
  obtain ⟨e1, _, he, e2, _, he2, rfl, rfl⟩ := h
  obtain ⟨⟨l1, rfl, hl1⟩, hm, hr, hok, he3⟩ := takeEA_some he
  obtain ⟨⟨l2, rfl, hl2⟩, hm2, hr2, hok2, he4⟩ := takeEA_some he2
  constructor
  · simp only [Instr.wf, hok _ (moveSource_ok k2), hok2 _ k3, Bool.and_self]
  · refine Eq.trans ?_ e
    simp only [Instr.opcode, EA.field, regBits_regOf, bit_getLsbD, Cond.bits_ofBits, Size.longBit_ofLongBit, countOf_field, countOf_byReg, Size.moveBits_ofMove k1, hm, hr, hm2, hr2]
  · exact ⟨l1 ++ l2, by simp, by simp [Instr.extWords, hl1, hl2]⟩
  · have := e1.words_length_le (Size.ofMove (op.extractLsb' 12 2))
    have := e2.words_length_le (Size.ofMove (op.extractLsb' 12 2))
    simp only [Instr.extWords, List.length_append]; omega
  · intro more
    simp only [assemble, withEA, withWordEA, withImmEA, withSizeEA, withLongBitEA, takeWord, List.cons_append, he3, he4, Option.bind_some, Option.map_some]

theorem read_movea {b op ws rest i} (hl : lookup b op = some .movea) (h : assemble .movea op ws = some (i, rest)) :
    ReadFrom .movea op ws rest i := by
  have c := row_claims 23 rfl rfl hl
  have e := fields_2_2_3_3_ea_eta op
  rw [show op.extractLsb' 14 2 = 0#2 from field_of_claims c (14, 2) rfl, show op.extractLsb' 6 3 = 1#3 from field_of_claims c (6, 3) rfl] at e
  simp only [Row.claims, List.all_cons, List.all_nil, Bool.and_eq_true, Check.holds, bne_iff_ne, ne_eq, decide_eq_true_eq] at c
  obtain ⟨⟨-, k1, k2, -⟩, -⟩ := c
  simp only [assemble, withWord, withEA, withWordEA, withImmEA, withSizeEA, withLongBitEA, shiftReg, Option.bind_eq_some_iff, Option.map_eq_some_iff, Option.some.injEq, Prod.mk.injEq, Prod.exists, takeWord_some] at h
  obtain ⟨ea, _, he, rfl, rfl⟩ := h
  obtain ⟨⟨l, rfl, hl1⟩, hm, hr, hok, he3⟩ := takeEA_some he
  constructor
  · simp only [Instr.wf, hok _ k2, Size.wordOrLong_ofMove k1, Bool.and_self]
  · refine Eq.trans ?_ e
    simp only [Instr.opcode, EA.field, regBits_regOf, bit_getLsbD, Cond.bits_ofBits, Size.longBit_ofLongBit, countOf_field, countOf_byReg, Size.moveBits_ofMove (moveaSize_ne k1), hm, hr]
  · exact ⟨l, rfl, hl1⟩
  · have := ea.words_length_le (Size.ofMove (op.extractLsb' 12 2))
    simp only [Instr.extWords]; omega
  · intro more
    simp only [assemble, withEA, withWordEA, withImmEA, withSizeEA, withLongBitEA, takeWord, List.cons_append, he3, Option.bind_some, Option.map_some]

theorem read_negx {b op ws rest i} (hl : lookup b op = some .negx) (h : assemble .negx op ws = some (i, rest)) :
    ReadFrom .negx op ws rest i := by
  have c := row_claims 24 rfl rfl hl
  have e := fields_8_2_ea_eta op
  rw [show op.extractLsb' 8 8 = 0x40#8 from field_of_claims c (8, 8) rfl] at e
  simp only [Row.claims, List.all_cons, List.all_nil, Bool.and_eq_true, Check.holds, bne_iff_ne, ne_eq, decide_eq_true_eq] at c
  obtain ⟨⟨-, k1, k2, -⟩, -⟩ := c
  simp only [assemble, withWord, withEA, withWordEA, withImmEA, withSizeEA, withLongBitEA, shiftReg, Option.bind_eq_some_iff, Option.map_eq_some_iff, Option.some.injEq, Prod.mk.injEq, Prod.exists, takeWord_some] at h
  obtain ⟨ea, _, he, rfl, rfl⟩ := h
  obtain ⟨⟨l, rfl, hl1⟩, hm, hr, hok, he3⟩ := takeEA_some he
  constructor
  · simp only [Instr.wf, hok _ k2, Bool.and_self]
  · refine Eq.trans ?_ e
    simp only [Instr.opcode, EA.field, regBits_regOf, bit_getLsbD, Cond.bits_ofBits, Size.longBit_ofLongBit, countOf_field, countOf_byReg, Size.std_ofStd k1, hm, hr]
  · exact ⟨l, rfl, hl1⟩
  · have := ea.words_length_le (Size.ofStd (op.extractLsb' 6 2))
    simp only [Instr.extWords]; omega
  · intro more
    simp only [assemble, withEA, withWordEA, withImmEA, withSizeEA, withLongBitEA, takeWord, List.cons_append, he3, Option.bind_some, Option.map_some]

theorem read_moveFromSr {b op ws rest i} (hl : lookup b op = some .moveFromSr) (h : assemble .moveFromSr op ws = some (i, rest)) :
    ReadFrom .moveFromSr op ws rest i := by
  have c := row_claims 25 rfl rfl hl
  have e := fields_8_2_ea_eta op
  rw [show op.extractLsb' 8 8 = 0x40#8 from field_of_claims c (8, 8) rfl, show op.extractLsb' 6 2 = 3#2 from field_of_claims c (6, 2) rfl] at e
  simp only [Row.claims, List.all_cons, List.all_nil, Bool.and_eq_true, Check.holds, bne_iff_ne, ne_eq, decide_eq_true_eq] at c
  obtain ⟨⟨-, k1, -⟩, -⟩ := c
  simp only [assemble, withWord, withEA, withWordEA, withImmEA, withSizeEA, withLongBitEA, shiftReg, Option.bind_eq_some_iff, Option.map_eq_some_iff, Option.some.injEq, Prod.mk.injEq, Prod.exists, takeWord_some] at h
  obtain ⟨ea, _, he, rfl, rfl⟩ := h
  obtain ⟨⟨l, rfl, hl1⟩, hm, hr, hok, he3⟩ := takeEA_some he
  constructor
  · simp only [Instr.wf, hok _ k1, Bool.and_self]
  · refine Eq.trans ?_ e
    simp only [Instr.opcode, EA.field, regBits_regOf, bit_getLsbD, Cond.bits_ofBits, Size.longBit_ofLongBit, countOf_field, countOf_byReg, hm, hr]
  · exact ⟨l, rfl, hl1⟩
  · have := ea.words_length_le .w
    simp only [Instr.extWords]; omega
  · intro more
    simp only [assemble, withEA, withWordEA, withImmEA, withSizeEA, withLongBitEA, takeWord, List.cons_append, he3, Option.bind_some, Option.map_some]

theorem read_chk {b op ws rest i} (hl : lookup b op = some .chk) (h : assemble .chk op ws = some (i, rest)) :
    ReadFrom .chk op ws rest i := by
  have c := row_claims 26 rfl rfl hl
  have e := fields_4_3_1_2_ea_eta op
  rw [show op.extractLsb' 12 4 = 4#4 from field_of_claims c (12, 4) rfl, show op.extractLsb' 8 1 = 1#1 from field_of_claims c (8, 1) rfl, show op.extractLsb' 6 2 = 2#2 from field_of_claims c (6, 2) rfl] at e
  simp only [Row.claims, List.all_cons, List.all_nil, Bool.and_eq_true, Check.holds, bne_iff_ne, ne_eq, decide_eq_true_eq] at c
  obtain ⟨⟨-, k1, -⟩, -⟩ := c
  simp only [assemble, withWord, withEA, withWordEA, withImmEA, withSizeEA, withLongBitEA, shiftReg, Option.bind_eq_some_iff, Option.map_eq_some_iff, Option.some.injEq, Prod.mk.injEq, Prod.exists, takeWord_some] at h
  obtain ⟨ea, _, he, rfl, rfl⟩ := h
  obtain ⟨⟨l, rfl, hl1⟩, hm, hr, hok, he3⟩ := takeEA_some he
  constructor
  · simp only [Instr.wf, hok _ k1, Bool.and_self]
  · refine Eq.trans ?_ e
    simp only [Instr.opcode, EA.field, regBits_regOf, bit_getLsbD, Cond.bits_ofBits, Size.longBit_ofLongBit, countOf_field, countOf_byReg, hm, hr]
  · exact ⟨l, rfl, hl1⟩
  · have := ea.words_length_le .w
    simp only [Instr.extWords]; omega
  · intro more
    simp only [assemble, withEA, withWordEA, withImmEA, withSizeEA, withLongBitEA, takeWord, List.cons_append, he3, Option.bind_some, Option.map_some]

theorem read_lea {b op ws rest i} (hl : lookup b op = some .lea) (h : assemble .lea op ws = some (i, rest)) :
    ReadFrom .lea op ws rest i := by
  have c := row_claims 27 rfl rfl hl
  have e := fields_4_3_1_2_ea_eta op
  rw [show op.extractLsb' 12 4 = 4#4 from field_of_claims c (12, 4) rfl, show op.extractLsb' 8 1 = 1#1 from field_of_claims c (8, 1) rfl, show op.extractLsb' 6 2 = 3#2 from field_of_claims c (6, 2) rfl] at e
  simp only [Row.claims, List.all_cons, List.all_nil, Bool.and_eq_true, Check.holds, bne_iff_ne, ne_eq, decide_eq_true_eq] at c
  obtain ⟨⟨-, k1, -⟩, -⟩ := c
  simp only [assemble, withWord, withEA, withWordEA, withImmEA, withSizeEA, withLongBitEA, shiftReg, Option.bind_eq_some_iff, Option.map_eq_some_iff, Option.some.injEq, Prod.mk.injEq, Prod.exists, takeWord_some] at h
  obtain ⟨ea, _, he, rfl, rfl⟩ := h
  obtain ⟨⟨l, rfl, hl1⟩, hm, hr, hok, he3⟩ := takeEA_some he
  constructor
  · simp only [Instr.wf, hok _ k1, Bool.and_self]
  · refine Eq.trans ?_ e
    simp only [Instr.opcode, EA.field, regBits_regOf, bit_getLsbD, Cond.bits_ofBits, Size.longBit_ofLongBit, countOf_field, countOf_byReg, hm, hr]
  · exact ⟨l, rfl, hl1⟩
  · have := ea.words_length_le .l
    simp only [Instr.extWords]; omega
  · intro more
    simp only [assemble, withEA, withWordEA, withImmEA, withSizeEA, withLongBitEA, takeWord, List.cons_append, he3, Option.bind_some, Option.map_some]

theorem read_clr {b op ws rest i} (hl : lookup b op = some .clr) (h : assemble .clr op ws = some (i, rest)) :
    ReadFrom .clr op ws rest i := by
  have c := row_claims 28 rfl rfl hl
  have e := fields_8_2_ea_eta op
  rw [show op.extractLsb' 8 8 = 0x42#8 from field_of_claims c (8, 8) rfl] at e
  simp only [Row.claims, List.all_cons, List.all_nil, Bool.and_eq_true, Check.holds, bne_iff_ne, ne_eq, decide_eq_true_eq] at c
  obtain ⟨⟨-, k1, k2, -⟩, -⟩ := c
  simp only [assemble, withWord, withEA, withWordEA, withImmEA, withSizeEA, withLongBitEA, shiftReg, Option.bind_eq_some_iff, Option.map_eq_some_iff, Option.some.injEq, Prod.mk.injEq, Prod.exists, takeWord_some] at h
  obtain ⟨ea, _, he, rfl, rfl⟩ := h
  obtain ⟨⟨l, rfl, hl1⟩, hm, hr, hok, he3⟩ := takeEA_some he
  constructor
  · simp only [Instr.wf, hok _ k2, Bool.and_self]
  · refine Eq.trans ?_ e
    simp only [Instr.opcode, EA.field, regBits_regOf, bit_getLsbD, Cond.bits_ofBits, Size.longBit_ofLongBit, countOf_field, countOf_byReg, Size.std_ofStd k1, hm, hr]
  · exact ⟨l, rfl, hl1⟩
  · have := ea.words_length_le (Size.ofStd (op.extractLsb' 6 2))
    simp only [Instr.extWords]; omega
  · intro more
    simp only [assemble, withEA, withWordEA, withImmEA, withSizeEA, withLongBitEA, takeWord, List.cons_append, he3, Option.bind_some, Option.map_some]

theorem read_moveFromCcr {b op ws rest i} (hl : lookup b op = some .moveFromCcr) (h : assemble .moveFromCcr op ws = some (i, rest)) :
    ReadFrom .moveFromCcr op ws rest i := by
  have c := row_claims 29 rfl rfl hl
  have e := fields_8_2_ea_eta op
  rw [show op.extractLsb' 8 8 = 0x42#8 from field_of_claims c (8, 8) rfl, show op.extractLsb' 6 2 = 3#2 from field_of_claims c (6, 2) rfl] at e
  simp only [Row.claims, List.all_cons, List.all_nil, Bool.and_eq_true, Check.holds, bne_iff_ne, ne_eq, decide_eq_true_eq] at c
  obtain ⟨⟨-, k1, -⟩, -⟩ := c
  simp only [assemble, withWord, withEA, withWordEA, withImmEA, withSizeEA, withLongBitEA, shiftReg, Option.bind_eq_some_iff, Option.map_eq_some_iff, Option.some.injEq, Prod.mk.injEq, Prod.exists, takeWord_some] at h
  obtain ⟨ea, _, he, rfl, rfl⟩ := h
  obtain ⟨⟨l, rfl, hl1⟩, hm, hr, hok, he3⟩ := takeEA_some he
  constructor
  · simp only [Instr.wf, hok _ k1, Bool.and_self]
  · refine Eq.trans ?_ e
    simp only [Instr.opcode, EA.field, regBits_regOf, bit_getLsbD, Cond.bits_ofBits, Size.longBit_ofLongBit, countOf_field, countOf_byReg, hm, hr]
  · exact ⟨l, rfl, hl1⟩
  · have := ea.words_length_le .w
    simp only [Instr.extWords]; omega
  · intro more
    simp only [assemble, withEA, withWordEA, withImmEA, withSizeEA, withLongBitEA, takeWord, List.cons_append, he3, Option.bind_some, Option.map_some]

theorem read_neg {b op ws rest i} (hl : lookup b op = some .neg) (h : assemble .neg op ws = some (i, rest)) :
    ReadFrom .neg op ws rest i := by
  have c := row_claims 30 rfl rfl hl
  have e := fields_8_2_ea_eta op
  rw [show op.extractLsb' 8 8 = 0x44#8 from field_of_claims c (8, 8) rfl] at e
  simp only [Row.claims, List.all_cons, List.all_nil, Bool.and_eq_true, Check.holds, bne_iff_ne, ne_eq, decide_eq_true_eq] at c
  obtain ⟨⟨-, k1, k2, -⟩, -⟩ := c
  simp only [assemble, withWord, withEA, withWordEA, withImmEA, withSizeEA, withLongBitEA, shiftReg, Option.bind_eq_some_iff, Option.map_eq_some_iff, Option.some.injEq, Prod.mk.injEq, Prod.exists, takeWord_some] at h
  obtain ⟨ea, _, he, rfl, rfl⟩ := h
  obtain ⟨⟨l, rfl, hl1⟩, hm, hr, hok, he3⟩ := takeEA_some he
  constructor
  · simp only [Instr.wf, hok _ k2, Bool.and_self]
  · refine Eq.trans ?_ e
    simp only [Instr.opcode, EA.field, regBits_regOf, bit_getLsbD, Cond.bits_ofBits, Size.longBit_ofLongBit, countOf_field, countOf_byReg, Size.std_ofStd k1, hm, hr]
  · exact ⟨l, rfl, hl1⟩
  · have := ea.words_length_le (Size.ofStd (op.extractLsb' 6 2))
    simp only [Instr.extWords]; omega
  · intro more
    simp only [assemble, withEA, withWordEA, withImmEA, withSizeEA, withLongBitEA, takeWord, List.cons_append, he3, Option.bind_some, Option.map_some]

theorem read_moveToCcr {b op ws rest i} (hl : lookup b op = some .moveToCcr) (h : assemble .moveToCcr op ws = some (i, rest)) :
    ReadFrom .moveToCcr op ws rest i := by
  have c := row_claims 31 rfl rfl hl
  have e := fields_8_2_ea_eta op
  rw [show op.extractLsb' 8 8 = 0x44#8 from field_of_claims c (8, 8) rfl, show op.extractLsb' 6 2 = 3#2 from field_of_claims c (6, 2) rfl] at e
  simp only [Row.claims, List.all_cons, List.all_nil, Bool.and_eq_true, Check.holds, bne_iff_ne, ne_eq, decide_eq_true_eq] at c
  obtain ⟨⟨-, k1, -⟩, -⟩ := c
  simp only [assemble, withWord, withEA, withWordEA, withImmEA, withSizeEA, withLongBitEA, shiftReg, Option.bind_eq_some_iff, Option.map_eq_some_iff, Option.some.injEq, Prod.mk.injEq, Prod.exists, takeWord_some] at h
  obtain ⟨ea, _, he, rfl, rfl⟩ := h
  obtain ⟨⟨l, rfl, hl1⟩, hm, hr, hok, he3⟩ := takeEA_some he
  constructor
  · simp only [Instr.wf, hok _ k1, Bool.and_self]
  · refine Eq.trans ?_ e
    simp only [Instr.opcode, EA.field, regBits_regOf, bit_getLsbD, Cond.bits_ofBits, Size.longBit_ofLongBit, countOf_field, countOf_byReg, hm, hr]
  · exact ⟨l, rfl, hl1⟩
  · have := ea.words_length_le .w
    simp only [Instr.extWords]; omega
  · intro more
    simp only [assemble, withEA, withWordEA, withImmEA, withSizeEA, withLongBitEA, takeWord, List.cons_append, he3, Option.bind_some, Option.map_some]

theorem read_not {b op ws rest i} (hl : lookup b op = some .not) (h : assemble .not op ws = some (i, rest)) :
    ReadFrom .not op ws rest i := by
  have c := row_claims 32 rfl rfl hl
  have e := fields_8_2_ea_eta op
  rw [show op.extractLsb' 8 8 = 0x46#8 from field_of_claims c (8, 8) rfl] at e
  simp only [Row.claims, List.all_cons, List.all_nil, Bool.and_eq_true, Check.holds, bne_iff_ne, ne_eq, decide_eq_true_eq] at c
  obtain ⟨⟨-, k1, k2, -⟩, -⟩ := c
  simp only [assemble, withWord, withEA, withWordEA, withImmEA, withSizeEA, withLongBitEA, shiftReg, Option.bind_eq_some_iff, Option.map_eq_some_iff, Option.some.injEq, Prod.mk.injEq, Prod.exists, takeWord_some] at h
  obtain ⟨ea, _, he, rfl, rfl⟩ := h
  obtain ⟨⟨l, rfl, hl1⟩, hm, hr, hok, he3⟩ := takeEA_some he
  constructor
  · simp only [Instr.wf, hok _ k2, Bool.and_self]
  · refine Eq.trans ?_ e
    simp only [Instr.opcode, EA.field, regBits_regOf, bit_getLsbD, Cond.bits_ofBits, Size.longBit_ofLongBit, countOf_field, countOf_byReg, Size.std_ofStd k1, hm, hr]
  · exact ⟨l, rfl, hl1⟩
  · have := ea.words_length_le (Size.ofStd (op.extractLsb' 6 2))
    simp only [Instr.extWords]; omega
  · intro more
    simp only [assemble, withEA, withWordEA, withImmEA, withSizeEA, withLongBitEA, takeWord, List.cons_append, he3, Option.bind_some, Option.map_some]

theorem read_moveToSr {b op ws rest i} (hl : lookup b op = some .moveToSr) (h : assemble .moveToSr op ws = some (i, rest)) :
    ReadFrom .moveToSr op ws rest i := by
  have c := row_claims 33 rfl rfl hl
  have e := fields_8_2_ea_eta op
  rw [show op.extractLsb' 8 8 = 0x46#8 from field_of_claims c (8, 8) rfl, show op.extractLsb' 6 2 = 3#2 from field_of_claims c (6, 2) rfl] at e
  simp only [Row.claims, List.all_cons, List.all_nil, Bool.and_eq_true, Check.holds, bne_iff_ne, ne_eq, decide_eq_true_eq] at c
  obtain ⟨⟨-, k1, -⟩, -⟩ := c
  simp only [assemble, withWord, withEA, withWordEA, withImmEA, withSizeEA, withLongBitEA, shiftReg, Option.bind_eq_some_iff, Option.map_eq_some_iff, Option.some.injEq, Prod.mk.injEq, Prod.exists, takeWord_some] at h
  obtain ⟨ea, _, he, rfl, rfl⟩ := h
  obtain ⟨⟨l, rfl, hl1⟩, hm, hr, hok, he3⟩ := takeEA_some he
  constructor
  · simp only [Instr.wf, hok _ k1, Bool.and_self]
  · refine Eq.trans ?_ e
    simp only [Instr.opcode, EA.field, regBits_regOf, bit_getLsbD, Cond.bits_ofBits, Size.longBit_ofLongBit, countOf_field, countOf_byReg, hm, hr]
  · exact ⟨l, rfl, hl1⟩
  · have := ea.words_length_le .w
    simp only [Instr.extWords]; omega
  · intro more
    simp only [assemble, withEA, withWordEA, withImmEA, withSizeEA, withLongBitEA, takeWord, List.cons_append, he3, Option.bind_some, Option.map_some]

theorem read_nbcd {b op ws rest i} (hl : lookup b op = some .nbcd) (h : assemble .nbcd op ws = some (i, rest)) :
    ReadFrom .nbcd op ws rest i := by
  have c := row_claims 34 rfl rfl hl
  have e := fields_8_2_ea_eta op
  rw [show op.extractLsb' 8 8 = 0x48#8 from field_of_claims c (8, 8) rfl, show op.extractLsb' 6 2 = 0#2 from field_of_claims c (6, 2) rfl] at e
  simp only [Row.claims, List.all_cons, List.all_nil, Bool.and_eq_true, Check.holds, bne_iff_ne, ne_eq, decide_eq_true_eq] at c
  obtain ⟨⟨-, k1, -⟩, -⟩ := c
  simp only [assemble, withWord, withEA, withWordEA, withImmEA, withSizeEA, withLongBitEA, shiftReg, Option.bind_eq_some_iff, Option.map_eq_some_iff, Option.some.injEq, Prod.mk.injEq, Prod.exists, takeWord_some] at h
  obtain ⟨ea, _, he, rfl, rfl⟩ := h
  obtain ⟨⟨l, rfl, hl1⟩, hm, hr, hok, he3⟩ := takeEA_some he
  constructor
  · simp only [Instr.wf, hok _ k1, Bool.and_self]
  · refine Eq.trans ?_ e
    simp only [Instr.opcode, EA.field, regBits_regOf, bit_getLsbD, Cond.bits_ofBits, Size.longBit_ofLongBit, countOf_field, countOf_byReg, hm, hr]
  · exact ⟨l, rfl, hl1⟩
  · have := ea.words_length_le .b
    simp only [Instr.extWords]; omega
  · intro more
    simp only [assemble, withEA, withWordEA, withImmEA, withSizeEA, withLongBitEA, takeWord, List.cons_append, he3, Option.bind_some, Option.map_some]

theorem read_swap {b op ws rest i} (hl : lookup b op = some .swap) (h : assemble .swap op ws = some (i, rest)) :
    ReadFrom .swap op ws rest i := by
  have c := row_claims 35 rfl rfl hl
  have e := fields_8_2_3_3_eta op
  rw [show op.extractLsb' 8 8 = 0x48#8 from field_of_claims c (8, 8) rfl, show op.extractLsb' 6 2 = 1#2 from field_of_claims c (6, 2) rfl, show op.extractLsb' 3 3 = 0#3 from field_of_claims c (3, 3) rfl] at e
  simp only [assemble, withWord, withEA, withWordEA, withImmEA, withSizeEA, withLongBitEA, shiftReg, Option.bind_eq_some_iff, Option.map_eq_some_iff, Option.some.injEq, Prod.mk.injEq, Prod.exists, takeWord_some] at h
  obtain ⟨rfl, rfl⟩ := h
  constructor
  · rfl
  · refine Eq.trans ?_ e
    simp only [Instr.opcode, EA.field, regBits_regOf, bit_getLsbD, Cond.bits_ofBits, Size.longBit_ofLongBit, countOf_field, countOf_byReg]
  · exact ⟨[], rfl, rfl⟩
  · simp [Instr.extWords]
  · exact fun _ => rfl

theorem read_pea {b op ws rest i} (hl : lookup b op = some .pea) (h : assemble .pea op ws = some (i, rest)) :
    ReadFrom .pea op ws rest i := by
  have c := row_claims 36 rfl rfl hl
  have e := fields_8_2_ea_eta op
  rw [show op.extractLsb' 8 8 = 0x48#8 from field_of_claims c (8, 8) rfl, show op.extractLsb' 6 2 = 1#2 from field_of_claims c (6, 2) rfl] at e
  simp only [Row.claims, List.all_cons, List.all_nil, Bool.and_eq_true, Check.holds, bne_iff_ne, ne_eq, decide_eq_true_eq] at c
  obtain ⟨⟨-, k1, -⟩, -⟩ := c
  simp only [assemble, withWord, withEA, withWordEA, withImmEA, withSizeEA, withLongBitEA, shiftReg, Option.bind_eq_some_iff, Option.map_eq_some_iff, Option.some.injEq, Prod.mk.injEq, Prod.exists, takeWord_some] at h
  obtain ⟨ea, _, he, rfl, rfl⟩ := h
  obtain ⟨⟨l, rfl, hl1⟩, hm, hr, hok, he3⟩ := takeEA_some he
  constructor
  · simp only [Instr.wf, hok _ k1, Bool.and_self]
  · refine Eq.trans ?_ e
    simp only [Instr.opcode, EA.field, regBits_regOf, bit_getLsbD, Cond.bits_ofBits, Size.longBit_ofLongBit, countOf_field, countOf_byReg, hm, hr]
  · exact ⟨l, rfl, hl1⟩
  · have := ea.words_length_le .l
    simp only [Instr.extWords]; omega
  · intro more
    simp only [assemble, withEA, withWordEA, withImmEA, withSizeEA, withLongBitEA, takeWord, List.cons_append, he3, Option.bind_some, Option.map_some]

theorem read_extW {b op ws rest i} (hl : lookup b op = some .extW) (h : assemble .extW op ws = some (i, rest)) :
    ReadFrom .extW op ws rest i := by
  have c := row_claims 37 rfl rfl hl
  have e := fields_8_2_3_3_eta op
  rw [show op.extractLsb' 8 8 = 0x48#8 from field_of_claims c (8, 8) rfl, show op.extractLsb' 6 2 = 2#2 from field_of_claims c (6, 2) rfl, show op.extractLsb' 3 3 = 0#3 from field_of_claims c (3, 3) rfl] at e
  simp only [assemble, withWord, withEA, withWordEA, withImmEA, withSizeEA, withLongBitEA, shiftReg, Option.bind_eq_some_iff, Option.map_eq_some_iff, Option.some.injEq, Prod.mk.injEq, Prod.exists, takeWord_some] at h
  obtain ⟨rfl, rfl⟩ := h
  constructor
  · rfl
  · refine Eq.trans ?_ e
    simp only [Instr.opcode, EA.field, regBits_regOf, bit_getLsbD, Cond.bits_ofBits, Size.longBit_ofLongBit, countOf_field, countOf_byReg]
  · exact ⟨[], rfl, rfl⟩
  · simp [Instr.extWords]
  · exact fun _ => rfl

theorem read_extL {b op ws rest i} (hl : lookup b op = some .extL) (h : assemble .extL op ws = some (i, rest)) :
    ReadFrom .extL op ws rest i := by
  have c := row_claims 38 rfl rfl hl
  have e := fields_8_2_3_3_eta op
  rw [show op.extractLsb' 8 8 = 0x48#8 from field_of_claims c (8, 8) rfl, show op.extractLsb' 6 2 = 3#2 from field_of_claims c (6, 2) rfl, show op.extractLsb' 3 3 = 0#3 from field_of_claims c (3, 3) rfl] at e
  simp only [assemble, withWord, withEA, withWordEA, withImmEA, withSizeEA, withLongBitEA, shiftReg, Option.bind_eq_some_iff, Option.map_eq_some_iff, Option.some.injEq, Prod.mk.injEq, Prod.exists, takeWord_some] at h
  obtain ⟨rfl, rfl⟩ := h
  constructor
  · rfl
  · refine Eq.trans ?_ e
    simp only [Instr.opcode, EA.field, regBits_regOf, bit_getLsbD, Cond.bits_ofBits, Size.longBit_ofLongBit, countOf_field, countOf_byReg]
  · exact ⟨[], rfl, rfl⟩
  · simp [Instr.extWords]
  · exact fun _ => rfl

theorem read_movemToMem {b op ws rest i} (hl : lookup b op = some .movemToMem) (h : assemble .movemToMem op ws = some (i, rest)) :
    ReadFrom .movemToMem op ws rest i := by
  have c := row_claims 39 rfl rfl hl
  have e := fields_8_1_1_ea_eta op
  rw [show op.extractLsb' 8 8 = 0x48#8 from field_of_claims c (8, 8) rfl, show op.extractLsb' 7 1 = 1#1 from field_of_claims c (7, 1) rfl] at e
  simp only [Row.claims, List.all_cons, List.all_nil, Bool.and_eq_true, Check.holds, bne_iff_ne, ne_eq, decide_eq_true_eq] at c
  obtain ⟨⟨-, k1, -⟩, -⟩ := c
  simp only [assemble, withWord, withEA, withWordEA, withImmEA, withSizeEA, withLongBitEA, shiftReg, Option.bind_eq_some_iff, Option.map_eq_some_iff, Option.some.injEq, Prod.mk.injEq, Prod.exists, takeWord_some] at h
  obtain ⟨w, _, rfl, ea, _, he, rfl, rfl⟩ := h
  obtain ⟨⟨l, rfl, hl1⟩, hm, hr, hok, he3⟩ := takeEA_some he
  constructor
  · simp only [Instr.wf, hok _ k1, Size.wordOrLong_ofLongBit, Bool.and_self]
  · refine Eq.trans ?_ e
    simp only [Instr.opcode, EA.field, regBits_regOf, bit_getLsbD, Cond.bits_ofBits, Size.longBit_ofLongBit, countOf_field, countOf_byReg, hm, hr]
  · exact ⟨w :: l, rfl, by simp [Instr.extWords, hl1]⟩
  · have := ea.words_length_le (Size.ofLongBit (op.extractLsb' 6 1))
    simp only [Instr.extWords, List.length_cons]; omega
  · intro more
    simp only [assemble, withEA, withWordEA, withImmEA, withSizeEA, withLongBitEA, takeWord, List.cons_append, he3, Option.bind_some, Option.map_some]

theorem read_tst {b op ws rest i} (hl : lookup b op = some .tst) (h : assemble .tst op ws = some (i, rest)) :
    ReadFrom .tst op ws rest i := by
  have c := row_claims 40 rfl rfl hl
  have e := fields_8_2_ea_eta op
  rw [show op.extractLsb' 8 8 = 0x4A#8 from field_of_claims c (8, 8) rfl] at e
  simp only [Row.claims, List.all_cons, List.all_nil, Bool.and_eq_true, Check.holds, bne_iff_ne, ne_eq, decide_eq_true_eq] at c
  obtain ⟨⟨-, k1, k2, -⟩, -⟩ := c
  simp only [assemble, withWord, withEA, withWordEA, withImmEA, withSizeEA, withLongBitEA, shiftReg, Option.bind_eq_some_iff, Option.map_eq_some_iff, Option.some.injEq, Prod.mk.injEq, Prod.exists, takeWord_some] at h
  obtain ⟨ea, _, he, rfl, rfl⟩ := h
  obtain ⟨⟨l, rfl, hl1⟩, hm, hr, hok, he3⟩ := takeEA_some he
  constructor
  · simp only [Instr.wf, hok _ k2, Bool.and_self]
  · refine Eq.trans ?_ e
    simp only [Instr.opcode, EA.field, regBits_regOf, bit_getLsbD, Cond.bits_ofBits, Size.longBit_ofLongBit, countOf_field, countOf_byReg, Size.std_ofStd k1, hm, hr]
  · exact ⟨l, rfl, hl1⟩
  · have := ea.words_length_le (Size.ofStd (op.extractLsb' 6 2))
    simp only [Instr.extWords]; omega
  · intro more
    simp only [assemble, withEA, withWordEA, withImmEA, withSizeEA, withLongBitEA, takeWord, List.cons_append, he3, Option.bind_some, Option.map_some]

theorem read_tas {b op ws rest i} (hl : lookup b op = some .tas) (h : assemble .tas op ws = some (i, rest)) :
    ReadFrom .tas op ws rest i := by
  have c := row_claims 41 rfl rfl hl
  have e := fields_8_2_ea_eta op
  rw [show op.extractLsb' 8 8 = 0x4A#8 from field_of_claims c (8, 8) rfl, show op.extractLsb' 6 2 = 3#2 from field_of_claims c (6, 2) rfl] at e
  simp only [Row.claims, List.all_cons, List.all_nil, Bool.and_eq_true, Check.holds, bne_iff_ne, ne_eq, decide_eq_true_eq] at c
  obtain ⟨⟨-, k1, -⟩, -⟩ := c
  simp only [assemble, withWord, withEA, withWordEA, withImmEA, withSizeEA, withLongBitEA, shiftReg, Option.bind_eq_some_iff, Option.map_eq_some_iff, Option.some.injEq, Prod.mk.injEq, Prod.exists, takeWord_some] at h
  obtain ⟨ea, _, he, rfl, rfl⟩ := h
  obtain ⟨⟨l, rfl, hl1⟩, hm, hr, hok, he3⟩ := takeEA_some he
  constructor
  · simp only [Instr.wf, hok _ k1, Bool.and_self]
  · refine Eq.trans ?_ e
    simp only [Instr.opcode, EA.field, regBits_regOf, bit_getLsbD, Cond.bits_ofBits, Size.longBit_ofLongBit, countOf_field, countOf_byReg, hm, hr]
  · exact ⟨l, rfl, hl1⟩
  · have := ea.words_length_le .b
    simp only [Instr.extWords]; omega
  · intro more
    simp only [assemble, withEA, withWordEA, withImmEA, withSizeEA, withLongBitEA, takeWord, List.cons_append, he3, Option.bind_some, Option.map_some]

theorem read_illegal {b op ws rest i} (hl : lookup b op = some .illegal) (h : assemble .illegal op ws = some (i, rest)) :
    ReadFrom .illegal op ws rest i := by
  have c := row_claims 42 rfl rfl hl
  have e : op = 0x4AFC#16 := (op.extractLsb'_eq_self).symm.trans (field_of_claims c (0, 16) rfl)
  simp only [assemble, withWord, withEA, withWordEA, withImmEA, withSizeEA, withLongBitEA, shiftReg, Option.bind_eq_some_iff, Option.map_eq_some_iff, Option.some.injEq, Prod.mk.injEq, Prod.exists, takeWord_some] at h
  obtain ⟨rfl, rfl⟩ := h
  constructor
  · rfl
  · exact e.symm
  · exact ⟨[], rfl, rfl⟩
  · simp [Instr.extWords]
  · exact fun _ => rfl

theorem read_mull {b op ws rest i} (hl : lookup b op = some .mull) (h : assemble .mull op ws = some (i, rest)) :
    ReadFrom .mull op ws rest i := by
  have c := row_claims 43 rfl rfl hl
  have e := fields_8_2_ea_eta op
  rw [show op.extractLsb' 8 8 = 0x4C#8 from field_of_claims c (8, 8) rfl, show op.extractLsb' 6 2 = 0#2 from field_of_claims c (6, 2) rfl] at e
  simp only [Row.claims, List.all_cons, List.all_nil, Bool.and_eq_true, Check.holds, bne_iff_ne, ne_eq, decide_eq_true_eq] at c
  obtain ⟨⟨-, k1, -⟩, -⟩ := c
  simp only [assemble, withWord, withEA, withWordEA, withImmEA, withSizeEA, withLongBitEA, shiftReg, Option.bind_eq_some_iff, Option.map_eq_some_iff, Option.some.injEq, Prod.mk.injEq, Prod.exists, takeWord_some] at h
  obtain ⟨w, _, rfl, ea, _, he, rfl, rfl⟩ := h
  obtain ⟨⟨l, rfl, hl1⟩, hm, hr, hok, he3⟩ := takeEA_some he
  constructor
  · simp only [Instr.wf, hok _ k1, Bool.and_self]
  · refine Eq.trans ?_ e
    simp only [Instr.opcode, EA.field, regBits_regOf, bit_getLsbD, Cond.bits_ofBits, Size.longBit_ofLongBit, countOf_field, countOf_byReg, hm, hr]
  · exact ⟨w :: l, rfl, by simp [Instr.extWords, hl1]⟩
  · have := ea.words_length_le .l
    simp only [Instr.extWords, List.length_cons]; omega
  · intro more
    simp only [assemble, withEA, withWordEA, withImmEA, withSizeEA, withLongBitEA, takeWord, List.cons_append, he3, Option.bind_some, Option.map_some]

theorem read_divl {b op ws rest i} (hl : lookup b op = some .divl) (h : assemble .divl op ws = some (i, rest)) :
    ReadFrom .divl op ws rest i := by
  have c := row_claims 44 rfl rfl hl
  have e := fields_8_2_ea_eta op
  rw [show op.extractLsb' 8 8 = 0x4C#8 from field_of_claims c (8, 8) rfl, show op.extractLsb' 6 2 = 1#2 from field_of_claims c (6, 2) rfl] at e
  simp only [Row.claims, List.all_cons, List.all_nil, Bool.and_eq_true, Check.holds, bne_iff_ne, ne_eq, decide_eq_true_eq] at c
  obtain ⟨⟨-, k1, -⟩, -⟩ := c
  simp only [assemble, withWord, withEA, withWordEA, withImmEA, withSizeEA, withLongBitEA, shiftReg, Option.bind_eq_some_iff, Option.map_eq_some_iff, Option.some.injEq, Prod.mk.injEq, Prod.exists, takeWord_some] at h
  obtain ⟨w, _, rfl, ea, _, he, rfl, rfl⟩ := h
  obtain ⟨⟨l, rfl, hl1⟩, hm, hr, hok, he3⟩ := takeEA_some he
  constructor
  · simp only [Instr.wf, hok _ k1, Bool.and_self]
  · refine Eq.trans ?_ e
    simp only [Instr.opcode, EA.field, regBits_regOf, bit_getLsbD, Cond.bits_ofBits, Size.longBit_ofLongBit, countOf_field, countOf_byReg, hm, hr]
  · exact ⟨w :: l, rfl, by simp [Instr.extWords, hl1]⟩
  · have := ea.words_length_le .l
    simp only [Instr.extWords, List.length_cons]; omega
  · intro more
    simp only [assemble, withEA, withWordEA, withImmEA, withSizeEA, withLongBitEA, takeWord, List.cons_append, he3, Option.bind_some, Option.map_some]

theorem read_movemToReg {b op ws rest i} (hl : lookup b op = some .movemToReg) (h : assemble .movemToReg op ws = some (i, rest)) :
    ReadFrom .movemToReg op ws rest i := by
  have c := row_claims 45 rfl rfl hl
  have e := fields_8_1_1_ea_eta op
  rw [show op.extractLsb' 8 8 = 0x4C#8 from field_of_claims c (8, 8) rfl, show op.extractLsb' 7 1 = 1#1 from field_of_claims c (7, 1) rfl] at e
  simp only [Row.claims, List.all_cons, List.all_nil, Bool.and_eq_true, Check.holds, bne_iff_ne, ne_eq, decide_eq_true_eq] at c
  obtain ⟨⟨-, k1, -⟩, -⟩ := c
  simp only [assemble, withWord, withEA, withWordEA, withImmEA, withSizeEA, withLongBitEA, shiftReg, Option.bind_eq_some_iff, Option.map_eq_some_iff, Option.some.injEq, Prod.mk.injEq, Prod.exists, takeWord_some] at h
  obtain ⟨w, _, rfl, ea, _, he, rfl, rfl⟩ := h
  obtain ⟨⟨l, rfl, hl1⟩, hm, hr, hok, he3⟩ := takeEA_some he
  constructor
  · simp only [Instr.wf, hok _ k1, Size.wordOrLong_ofLongBit, Bool.and_self]
  · refine Eq.trans ?_ e
    simp only [Instr.opcode, EA.field, regBits_regOf, bit_getLsbD, Cond.bits_ofBits, Size.longBit_ofLongBit, countOf_field, countOf_byReg, hm, hr]
  · exact ⟨w :: l, rfl, by simp [Instr.extWords, hl1]⟩
  · have := ea.words_length_le (Size.ofLongBit (op.extractLsb' 6 1))
    simp only [Instr.extWords, List.length_cons]; omega
  · intro more
    simp only [assemble, withEA, withWordEA, withImmEA, withSizeEA, withLongBitEA, takeWord, List.cons_append, he3, Option.bind_some, Option.map_some]

theorem read_trap {b op ws rest i} (hl : lookup b op = some .trap) (h : assemble .trap op ws = some (i, rest)) :
    ReadFrom .trap op ws rest i := by
  have c := row_claims 46 rfl rfl hl
  have e := fields_12_4_eta op
  rw [show op.extractLsb' 4 12 = 0x4E4#12 from field_of_claims c (4, 12) rfl] at e
  simp only [assemble, withWord, withEA, withWordEA, withImmEA, withSizeEA, withLongBitEA, shiftReg, Option.bind_eq_some_iff, Option.map_eq_some_iff, Option.some.injEq, Prod.mk.injEq, Prod.exists, takeWord_some] at h
  obtain ⟨rfl, rfl⟩ := h
  constructor
  · rfl
  · refine Eq.trans ?_ e
    simp only [Instr.opcode, EA.field, regBits_regOf, bit_getLsbD, Cond.bits_ofBits, Size.longBit_ofLongBit, countOf_field, countOf_byReg]
  · exact ⟨[], rfl, rfl⟩
  · simp [Instr.extWords]
  · exact fun _ => rfl

theorem read_link {b op ws rest i} (hl : lookup b op = some .link) (h : assemble .link op ws = some (i, rest)) :
    ReadFrom .link op ws rest i := by
  have c := row_claims 47 rfl rfl hl
  have e := fields_8_5_3_eta op
  rw [show op.extractLsb' 8 8 = 0x4E#8 from field_of_claims c (8, 8) rfl, show op.extractLsb' 3 5 = 0b01010#5 from field_of_claims c (3, 5) rfl] at e
  simp only [assemble, withWord, withEA, withWordEA, withImmEA, withSizeEA, withLongBitEA, shiftReg, Option.bind_eq_some_iff, Option.map_eq_some_iff, Option.some.injEq, Prod.mk.injEq, Prod.exists, takeWord_some] at h
  obtain ⟨w, _, rfl, rfl, rfl⟩ := h
  constructor
  · rfl
  · refine Eq.trans ?_ e
    simp only [Instr.opcode, EA.field, regBits_regOf, bit_getLsbD, Cond.bits_ofBits, Size.longBit_ofLongBit, countOf_field, countOf_byReg]
  · exact ⟨[w], rfl, rfl⟩
  · simp [Instr.extWords]
  · exact fun _ => rfl

theorem read_unlk {b op ws rest i} (hl : lookup b op = some .unlk) (h : assemble .unlk op ws = some (i, rest)) :
    ReadFrom .unlk op ws rest i := by
  have c := row_claims 48 rfl rfl hl
  have e := fields_8_5_3_eta op
  rw [show op.extractLsb' 8 8 = 0x4E#8 from field_of_claims c (8, 8) rfl, show op.extractLsb' 3 5 = 0b01011#5 from field_of_claims c (3, 5) rfl] at e
  simp only [assemble, withWord, withEA, withWordEA, withImmEA, withSizeEA, withLongBitEA, shiftReg, Option.bind_eq_some_iff, Option.map_eq_some_iff, Option.some.injEq, Prod.mk.injEq, Prod.exists, takeWord_some] at h
  obtain ⟨rfl, rfl⟩ := h
  constructor
  · rfl
  · refine Eq.trans ?_ e
    simp only [Instr.opcode, EA.field, regBits_regOf, bit_getLsbD, Cond.bits_ofBits, Size.longBit_ofLongBit, countOf_field, countOf_byReg]
  · exact ⟨[], rfl, rfl⟩
  · simp [Instr.extWords]
  · exact fun _ => rfl

theorem read_moveToUsp {b op ws rest i} (hl : lookup b op = some .moveToUsp) (h : assemble .moveToUsp op ws = some (i, rest)) :
    ReadFrom .moveToUsp op ws rest i := by
  have c := row_claims 49 rfl rfl hl
  have e := fields_8_5_3_eta op
  rw [show op.extractLsb' 8 8 = 0x4E#8 from field_of_claims c (8, 8) rfl, show op.extractLsb' 3 5 = 0b01100#5 from field_of_claims c (3, 5) rfl] at e
  simp only [assemble, withWord, withEA, withWordEA, withImmEA, withSizeEA, withLongBitEA, shiftReg, Option.bind_eq_some_iff, Option.map_eq_some_iff, Option.some.injEq, Prod.mk.injEq, Prod.exists, takeWord_some] at h
  obtain ⟨rfl, rfl⟩ := h
  constructor
  · rfl
  · refine Eq.trans ?_ e
    simp only [Instr.opcode, EA.field, regBits_regOf, bit_getLsbD, Cond.bits_ofBits, Size.longBit_ofLongBit, countOf_field, countOf_byReg]
  · exact ⟨[], rfl, rfl⟩
  · simp [Instr.extWords]
  · exact fun _ => rfl

theorem read_moveFromUsp {b op ws rest i} (hl : lookup b op = some .moveFromUsp) (h : assemble .moveFromUsp op ws = some (i, rest)) :
    ReadFrom .moveFromUsp op ws rest i := by
  have c := row_claims 50 rfl rfl hl
  have e := fields_8_5_3_eta op
  rw [show op.extractLsb' 8 8 = 0x4E#8 from field_of_claims c (8, 8) rfl, show op.extractLsb' 3 5 = 0b01101#5 from field_of_claims c (3, 5) rfl] at e
  simp only [assemble, withWord, withEA, withWordEA, withImmEA, withSizeEA, withLongBitEA, shiftReg, Option.bind_eq_some_iff, Option.map_eq_some_iff, Option.some.injEq, Prod.mk.injEq, Prod.exists, takeWord_some] at h
  obtain ⟨rfl, rfl⟩ := h
  constructor
  · rfl
  · refine Eq.trans ?_ e
    simp only [Instr.opcode, EA.field, regBits_regOf, bit_getLsbD, Cond.bits_ofBits, Size.longBit_ofLongBit, countOf_field, countOf_byReg]
  · exact ⟨[], rfl, rfl⟩
  · simp [Instr.extWords]
  · exact fun _ => rfl

theorem read_reset {b op ws rest i} (hl : lookup b op = some .reset) (h : assemble .reset op ws = some (i, rest)) :
    ReadFrom .reset op ws rest i := by
  have c := row_claims 51 rfl rfl hl
  have e : op = 0x4E70#16 := (op.extractLsb'_eq_self).symm.trans (field_of_claims c (0, 16) rfl)
  simp only [assemble, withWord, withEA, withWordEA, withImmEA, withSizeEA, withLongBitEA, shiftReg, Option.bind_eq_some_iff, Option.map_eq_some_iff, Option.some.injEq, Prod.mk.injEq, Prod.exists, takeWord_some] at h
  obtain ⟨rfl, rfl⟩ := h
  constructor
  · rfl
  · exact e.symm
  · exact ⟨[], rfl, rfl⟩
  · simp [Instr.extWords]
  · exact fun _ => rfl

theorem read_nop {b op ws rest i} (hl : lookup b op = some .nop) (h : assemble .nop op ws = some (i, rest)) :
    ReadFrom .nop op ws rest i := by
  have c := row_claims 52 rfl rfl hl
  have e : op = 0x4E71#16 := (op.extractLsb'_eq_self).symm.trans (field_of_claims c (0, 16) rfl)
  simp only [assemble, withWord, withEA, withWordEA, withImmEA, withSizeEA, withLongBitEA, shiftReg, Option.bind_eq_some_iff, Option.map_eq_some_iff, Option.some.injEq, Prod.mk.injEq, Prod.exists, takeWord_some] at h
  obtain ⟨rfl, rfl⟩ := h
  constructor
  · rfl
  · exact e.symm
  · exact ⟨[], rfl, rfl⟩
  · simp [Instr.extWords]
  · exact fun _ => rfl

theorem read_stop {b op ws rest i} (hl : lookup b op = some .stop) (h : assemble .stop op ws = some (i, rest)) :
    ReadFrom .stop op ws rest i := by
  have c := row_claims 53 rfl rfl hl
  have e : op = 0x4E72#16 := (op.extractLsb'_eq_self).symm.trans (field_of_claims c (0, 16) rfl)
  simp only [assemble, withWord, withEA, withWordEA, withImmEA, withSizeEA, withLongBitEA, shiftReg, Option.bind_eq_some_iff, Option.map_eq_some_iff, Option.some.injEq, Prod.mk.injEq, Prod.exists, takeWord_some] at h
  obtain ⟨w, _, rfl, rfl, rfl⟩ := h
  constructor
  · rfl
  · exact e.symm
  · exact ⟨[w], rfl, rfl⟩
  · simp [Instr.extWords]
  · exact fun _ => rfl

theorem read_rte {b op ws rest i} (hl : lookup b op = some .rte) (h : assemble .rte op ws = some (i, rest)) :
    ReadFrom .rte op ws rest i := by
  have c := row_claims 54 rfl rfl hl
  have e : op = 0x4E73#16 := (op.extractLsb'_eq_self).symm.trans (field_of_claims c (0, 16) rfl)
  simp only [assemble, withWord, withEA, withWordEA, withImmEA, withSizeEA, withLongBitEA, shiftReg, Option.bind_eq_some_iff, Option.map_eq_some_iff, Option.some.injEq, Prod.mk.injEq, Prod.exists, takeWord_some] at h
  obtain ⟨rfl, rfl⟩ := h
  constructor
  · rfl
  · exact e.symm
  · exact ⟨[], rfl, rfl⟩
  · simp [Instr.extWords]
  · exact fun _ => rfl

theorem read_rts {b op ws rest i} (hl : lookup b op = some .rts) (h : assemble .rts op ws = some (i, rest)) :
    ReadFrom .rts op ws rest i := by
  have c := row_claims 55 rfl rfl hl
  have e : op = 0x4E75#16 := (op.extractLsb'_eq_self).symm.trans (field_of_claims c (0, 16) rfl)
  simp only [assemble, withWord, withEA, withWordEA, withImmEA, withSizeEA, withLongBitEA, shiftReg, Option.bind_eq_some_iff, Option.map_eq_some_iff, Option.some.injEq, Prod.mk.injEq, Prod.exists, takeWord_some] at h
  obtain ⟨rfl, rfl⟩ := h
  constructor
  · rfl
  · exact e.symm
  · exact ⟨[], rfl, rfl⟩
  · simp [Instr.extWords]
  · exact fun _ => rfl

theorem read_trapv {b op ws rest i} (hl : lookup b op = some .trapv) (h : assemble .trapv op ws = some (i, rest)) :
    ReadFrom .trapv op ws rest i := by
  have c := row_claims 56 rfl rfl hl
  have e : op = 0x4E76#16 := (op.extractLsb'_eq_self).symm.trans (field_of_claims c (0, 16) rfl)
  simp only [assemble, withWord, withEA, withWordEA, withImmEA, withSizeEA, withLongBitEA, shiftReg, Option.bind_eq_some_iff, Option.map_eq_some_iff, Option.some.injEq, Prod.mk.injEq, Prod.exists, takeWord_some] at h
  obtain ⟨rfl, rfl⟩ := h
  constructor
  · rfl
  · exact e.symm
  · exact ⟨[], rfl, rfl⟩
  · simp [Instr.extWords]
  · exact fun _ => rfl

theorem read_rtr {b op ws rest i} (hl : lookup b op = some .rtr) (h : assemble .rtr op ws = some (i, rest)) :
    ReadFrom .rtr op ws rest i := by
  have c := row_claims 57 rfl rfl hl
  have e : op = 0x4E77#16 := (op.extractLsb'_eq_self).symm.trans (field_of_claims c (0, 16) rfl)
  simp only [assemble, withWord, withEA, withWordEA, withImmEA, withSizeEA, withLongBitEA, shiftReg, Option.bind_eq_some_iff, Option.map_eq_some_iff, Option.some.injEq, Prod.mk.injEq, Prod.exists, takeWord_some] at h
  obtain ⟨rfl, rfl⟩ := h
  constructor
  · rfl
  · exact e.symm
  · exact ⟨[], rfl, rfl⟩
  · simp [Instr.extWords]
  · exact fun _ => rfl

theorem read_jsr {b op ws rest i} (hl : lookup b op = some .jsr) (h : assemble .jsr op ws = some (i, rest)) :
    ReadFrom .jsr op ws rest i := by
  have c := row_claims 58 rfl rfl hl
  have e := fields_8_2_ea_eta op
  rw [show op.extractLsb' 8 8 = 0x4E#8 from field_of_claims c (8, 8) rfl, show op.extractLsb' 6 2 = 2#2 from field_of_claims c (6, 2) rfl] at e
  simp only [Row.claims, List.all_cons, List.all_nil, Bool.and_eq_true, Check.holds, bne_iff_ne, ne_eq, decide_eq_true_eq] at c
  obtain ⟨⟨-, k1, -⟩, -⟩ := c
  simp only [assemble, withWord, withEA, withWordEA, withImmEA, withSizeEA, withLongBitEA, shiftReg, Option.bind_eq_some_iff, Option.map_eq_some_iff, Option.some.injEq, Prod.mk.injEq, Prod.exists, takeWord_some] at h
  obtain ⟨ea, _, he, rfl, rfl⟩ := h
  obtain ⟨⟨l, rfl, hl1⟩, hm, hr, hok, he3⟩ := takeEA_some he
  constructor
  · simp only [Instr.wf, hok _ k1, Bool.and_self]
  · refine Eq.trans ?_ e
    simp only [Instr.opcode, EA.field, regBits_regOf, bit_getLsbD, Cond.bits_ofBits, Size.longBit_ofLongBit, countOf_field, countOf_byReg, hm, hr]
  · exact ⟨l, rfl, hl1⟩
  · have := ea.words_length_le .l
    simp only [Instr.extWords]; omega
  · intro more
    simp only [assemble, withEA, withWordEA, withImmEA, withSizeEA, withLongBitEA, takeWord, List.cons_append, he3, Option.bind_some, Option.map_some]

theorem read_jmp {b op ws rest i} (hl : lookup b op = some .jmp) (h : assemble .jmp op ws = some (i, rest)) :
    ReadFrom .jmp op ws rest i := by
  have c := row_claims 59 rfl rfl hl
  have e := fields_8_2_ea_eta op
  rw [show op.extractLsb' 8 8 = 0x4E#8 from field_of_claims c (8, 8) rfl, show op.extractLsb' 6 2 = 3#2 from field_of_claims c (6, 2) rfl] at e
  simp only [Row.claims, List.all_cons, List.all_nil, Bool.and_eq_true, Check.holds, bne_iff_ne, ne_eq, decide_eq_true_eq] at c
  obtain ⟨⟨-, k1, -⟩, -⟩ := c
  simp only [assemble, withWord, withEA, withWordEA, withImmEA, withSizeEA, withLongBitEA, shiftReg, Option.bind_eq_some_iff, Option.map_eq_some_iff, Option.some.injEq, Prod.mk.injEq, Prod.exists, takeWord_some] at h
  obtain ⟨ea, _, he, rfl, rfl⟩ := h
  obtain ⟨⟨l, rfl, hl1⟩, hm, hr, hok, he3⟩ := takeEA_some he
  constructor
  · simp only [Instr.wf, hok _ k1, Bool.and_self]
  · refine Eq.trans ?_ e
    simp only [Instr.opcode, EA.field, regBits_regOf, bit_getLsbD, Cond.bits_ofBits, Size.longBit_ofLongBit, countOf_field, countOf_byReg, hm, hr]
  · exact ⟨l, rfl, hl1⟩
  · have := ea.words_length_le .l
    simp only [Instr.extWords]; omega
  · intro more
    simp only [assemble, withEA, withWordEA, withImmEA, withSizeEA, withLongBitEA, takeWord, List.cons_append, he3, Option.bind_some, Option.map_some]

theorem read_addq {b op ws rest i} (hl : lookup b op = some .addq) (h : assemble .addq op ws = some (i, rest)) :
    ReadFrom .addq op ws rest i := by
  have c := row_claims 60 rfl rfl hl
  have e := fields_4_3_1_2_ea_eta op
  rw [show op.extractLsb' 12 4 = 5#4 from field_of_claims c (12, 4) rfl, show op.extractLsb' 8 1 = 0#1 from field_of_claims c (8, 1) rfl] at e
  simp only [Row.claims, List.all_cons, List.all_nil, Bool.and_eq_true, Check.holds, bne_iff_ne, ne_eq, decide_eq_true_eq] at c
  obtain ⟨⟨-, k1, k2, -⟩, -⟩ := c
  simp only [assemble, withWord, withEA, withWordEA, withImmEA, withSizeEA, withLongBitEA, shiftReg, Option.bind_eq_some_iff, Option.map_eq_some_iff, Option.some.injEq, Prod.mk.injEq, Prod.exists, takeWord_some] at h
  obtain ⟨ea, _, he, rfl, rfl⟩ := h
  obtain ⟨⟨l, rfl, hl1⟩, hm, hr, hok, he3⟩ := takeEA_some he
  constructor
  · simp only [Instr.wf, hok _ (quick_ok k2), Bool.and_self]
  · refine Eq.trans ?_ e
    simp only [Instr.opcode, EA.field, regBits_regOf, bit_getLsbD, Cond.bits_ofBits, Size.longBit_ofLongBit, countOf_field, countOf_byReg, Size.std_ofStd k1, hm, hr]
  · exact ⟨l, rfl, hl1⟩
  · have := ea.words_length_le (Size.ofStd (op.extractLsb' 6 2))
    simp only [Instr.extWords]; omega
  · intro more
    simp only [assemble, withEA, withWordEA, withImmEA, withSizeEA, withLongBitEA, takeWord, List.cons_append, he3, Option.bind_some, Option.map_some]

theorem read_subq {b op ws rest i} (hl : lookup b op = some .subq) (h : assemble .subq op ws = some (i, rest)) :
    ReadFrom .subq op ws rest i := by
  have c := row_claims 61 rfl rfl hl
  have e := fields_4_3_1_2_ea_eta op
  rw [show op.extractLsb' 12 4 = 5#4 from field_of_claims c (12, 4) rfl, show op.extractLsb' 8 1 = 1#1 from field_of_claims c (8, 1) rfl] at e
  simp only [Row.claims, List.all_cons, List.all_nil, Bool.and_eq_true, Check.holds, bne_iff_ne, ne_eq, decide_eq_true_eq] at c
  obtain ⟨⟨-, k1, k2, -⟩, -⟩ := c
  simp only [assemble, withWord, withEA, withWordEA, withImmEA, withSizeEA, withLongBitEA, shiftReg, Option.bind_eq_some_iff, Option.map_eq_some_iff, Option.some.injEq, Prod.mk.injEq, Prod.exists, takeWord_some] at h
  obtain ⟨ea, _, he, rfl, rfl⟩ := h
  obtain ⟨⟨l, rfl, hl1⟩, hm, hr, hok, he3⟩ := takeEA_some he
  constructor
  · simp only [Instr.wf, hok _ (quick_ok k2), Bool.and_self]
  · refine Eq.trans ?_ e
    simp only [Instr.opcode, EA.field, regBits_regOf, bit_getLsbD, Cond.bits_ofBits, Size.longBit_ofLongBit, countOf_field, countOf_byReg, Size.std_ofStd k1, hm, hr]
  · exact ⟨l, rfl, hl1⟩
  · have := ea.words_length_le (Size.ofStd (op.extractLsb' 6 2))
    simp only [Instr.extWords]; omega
  · intro more
    simp only [assemble, withEA, withWordEA, withImmEA, withSizeEA, withLongBitEA, takeWord, List.cons_append, he3, Option.bind_some, Option.map_some]

theorem read_scc {b op ws rest i} (hl : lookup b op = some .scc) (h : assemble .scc op ws = some (i, rest)) :
    ReadFrom .scc op ws rest i := by
  have c := row_claims 62 rfl rfl hl
  have e := fields_4_4_2_ea_eta op
  rw [show op.extractLsb' 12 4 = 5#4 from field_of_claims c (12, 4) rfl, show op.extractLsb' 6 2 = 3#2 from field_of_claims c (6, 2) rfl] at e
  simp only [Row.claims, List.all_cons, List.all_nil, Bool.and_eq_true, Check.holds, bne_iff_ne, ne_eq, decide_eq_true_eq] at c
  obtain ⟨⟨-, k1, -⟩, -⟩ := c
  simp only [assemble, withWord, withEA, withWordEA, withImmEA, withSizeEA, withLongBitEA, shiftReg, Option.bind_eq_some_iff, Option.map_eq_some_iff, Option.some.injEq, Prod.mk.injEq, Prod.exists, takeWord_some] at h
  obtain ⟨ea, _, he, rfl, rfl⟩ := h
  obtain ⟨⟨l, rfl, hl1⟩, hm, hr, hok, he3⟩ := takeEA_some he
  constructor
  · simp only [Instr.wf, hok _ k1, Bool.and_self]
  · refine Eq.trans ?_ e
    simp only [Instr.opcode, EA.field, regBits_regOf, bit_getLsbD, Cond.bits_ofBits, Size.longBit_ofLongBit, countOf_field, countOf_byReg, hm, hr]
  · exact ⟨l, rfl, hl1⟩
  · have := ea.words_length_le .b
    simp only [Instr.extWords]; omega
  · intro more
    simp only [assemble, withEA, withWordEA, withImmEA, withSizeEA, withLongBitEA, takeWord, List.cons_append, he3, Option.bind_some, Option.map_some]

theorem read_dbcc {b op ws rest i} (hl : lookup b op = some .dbcc) (h : assemble .dbcc op ws = some (i, rest)) :
    ReadFrom .dbcc op ws rest i := by
  have c := row_claims 63 rfl rfl hl
  have e := fields_4_4_2_3_3_eta op
  rw [show op.extractLsb' 12 4 = 5#4 from field_of_claims c (12, 4) rfl, show op.extractLsb' 6 2 = 3#2 from field_of_claims c (6, 2) rfl, show op.extractLsb' 3 3 = 1#3 from field_of_claims c (3, 3) rfl] at e
  simp only [assemble, withWord, withEA, withWordEA, withImmEA, withSizeEA, withLongBitEA, shiftReg, Option.bind_eq_some_iff, Option.map_eq_some_iff, Option.some.injEq, Prod.mk.injEq, Prod.exists, takeWord_some] at h
  obtain ⟨w, _, rfl, rfl, rfl⟩ := h
  constructor
  · rfl
  · refine Eq.trans ?_ e
    simp only [Instr.opcode, EA.field, regBits_regOf, bit_getLsbD, Cond.bits_ofBits, Size.longBit_ofLongBit, countOf_field, countOf_byReg]
  · exact ⟨[w], rfl, rfl⟩
  · simp [Instr.extWords]
  · exact fun _ => rfl

theorem read_trapcc {b op ws rest i} (hl : lookup b op = some .trapcc) (h : assemble .trapcc op ws = some (i, rest)) :
    ReadFrom .trapcc op ws rest i := by
  have c := row_claims 64 rfl rfl hl
  have e := fields_4_4_2_3_3_eta op
  rw [show op.extractLsb' 12 4 = 5#4 from field_of_claims c (12, 4) rfl, show op.extractLsb' 6 2 = 3#2 from field_of_claims c (6, 2) rfl, show op.extractLsb' 3 3 = 7#3 from field_of_claims c (3, 3) rfl] at e
  simp only [Row.claims, List.all_cons, List.all_nil, Bool.and_eq_true, Check.holds] at c
  obtain ⟨⟨-, k1, -⟩, -⟩ := c
  have k : op.extractLsb' 0 3 = 2#3 ∨ op.extractLsb' 0 3 = 3#3 ∨ op.extractLsb' 0 3 = 4#3 := by
    revert k1; generalize op.extractLsb' 0 3 = x; revert x; decide
  have a : ∀ ws, assemble .trapcc op ws = (match op.extractLsb' 0 3 with
      | 2#3 => withWord ws fun w => .trapcc (Cond.ofBits (op.extractLsb' 8 4)) (.word w)
      | 3#3 => (takeLong ws).map fun (v, ws) => (.trapcc (Cond.ofBits (op.extractLsb' 8 4)) (.long v), ws)
      | _ => some (.trapcc (Cond.ofBits (op.extractLsb' 8 4)) .none, ws)) := fun _ => rfl
  rcases k with k | k | k <;> simp only [k] at a e <;> rw [a] at h
  · simp only [withWord, Option.map_eq_some_iff, Prod.mk.injEq, Prod.exists, takeWord_some] at h
    obtain ⟨w, _, rfl, rfl, rfl⟩ := h
    exact ⟨rfl, by refine Eq.trans ?_ e; simp only [Instr.opcode, TrapOperand.bits, Cond.bits_ofBits], ⟨[w], rfl, rfl⟩, by simp [Instr.extWords, TrapOperand.words], fun more => a _⟩
  · simp only [Option.map_eq_some_iff, Prod.mk.injEq, Prod.exists, takeLong_some] at h
    obtain ⟨v, _, ⟨hi, lo, rfl, rfl⟩, rfl, rfl⟩ := h
    exact ⟨rfl, by refine Eq.trans ?_ e; simp only [Instr.opcode, TrapOperand.bits, Cond.bits_ofBits], ⟨[hi, lo], rfl, rfl⟩, by simp [Instr.extWords, TrapOperand.words, longWords], fun more => a _⟩
  · have h : some (Instr.trapcc (Cond.ofBits (op.extractLsb' 8 4)) .none, ws) = some (i, rest) := h
    cases h
    exact ⟨rfl, by refine Eq.trans ?_ e; simp only [Instr.opcode, TrapOperand.bits, Cond.bits_ofBits], ⟨[], rfl, rfl⟩, by simp [Instr.extWords, TrapOperand.words], fun more => a _⟩

theorem read_bra {b op ws rest i} (hl : lookup b op = some .bra) (h : assemble .bra op ws = some (i, rest)) :
    ReadFrom .bra op ws rest i := by
  have c := row_claims 65 rfl rfl hl
  have e := fields_8_8_eta op
  rw [show op.extractLsb' 8 8 = 0x60#8 from field_of_claims c (8, 8) rfl] at e
  simp only [assemble] at h
  obtain ⟨d, ⟨l, rfl, hl1⟩, rfl, hok, hb, h2, hmore⟩ := withBranchDisp_some h
  constructor
  · simp only [Instr.wf, hok, Bool.and_self]
  · refine Eq.trans ?_ e
    simp only [Instr.opcode, hb, Cond.bits_ofBits]
  · exact ⟨l, rfl, hl1⟩
  · simp only [Instr.extWords]; omega
  · exact hmore

theorem read_bsr {b op ws rest i} (hl : lookup b op = some .bsr) (h : assemble .bsr op ws = some (i, rest)) :
    ReadFrom .bsr op ws rest i := by
  have c := row_claims 66 rfl rfl hl
  have e := fields_8_8_eta op
  rw [show op.extractLsb' 8 8 = 0x61#8 from field_of_claims c (8, 8) rfl] at e
  simp only [assemble] at h
  obtain ⟨d, ⟨l, rfl, hl1⟩, rfl, hok, hb, h2, hmore⟩ := withBranchDisp_some h
  constructor
  · simp only [Instr.wf, hok, Bool.and_self]
  · refine Eq.trans ?_ e
    simp only [Instr.opcode, hb, Cond.bits_ofBits]
  · exact ⟨l, rfl, hl1⟩
  · simp only [Instr.extWords]; omega
  · exact hmore

theorem read_bcc {b op ws rest i} (hl : lookup b op = some .bcc) (h : assemble .bcc op ws = some (i, rest)) :
    ReadFrom .bcc op ws rest i := by
  have c := row_claims 67 rfl rfl hl
  have e := fields_4_4_8_eta op
  rw [show op.extractLsb' 12 4 = 6#4 from field_of_claims c (12, 4) rfl] at e
  simp only [Row.claims, List.all_cons, List.all_nil, Bool.and_eq_true, Check.holds, bne_iff_ne, ne_eq, decide_eq_true_eq] at c
  obtain ⟨⟨-, k1, -⟩, -⟩ := c
  simp only [assemble] at h
  obtain ⟨d, ⟨l, rfl, hl1⟩, rfl, hok, hb, h2, hmore⟩ := withBranchDisp_some h
  constructor
  · simp only [Instr.wf, hok, Cond.branches_ofBits k1, Bool.and_self]
  · refine Eq.trans ?_ e
    simp only [Instr.opcode, hb, Cond.bits_ofBits]
  · exact ⟨l, rfl, hl1⟩
  · simp only [Instr.extWords]; omega
  · exact hmore

theorem read_moveq {b op ws rest i} (hl : lookup b op = some .moveq) (h : assemble .moveq op ws = some (i, rest)) :
    ReadFrom .moveq op ws rest i := by
  have c := row_claims 68 rfl rfl hl
  have e := fields_4_3_1_8_eta op
  rw [show op.extractLsb' 12 4 = 7#4 from field_of_claims c (12, 4) rfl, show op.extractLsb' 8 1 = 0#1 from field_of_claims c (8, 1) rfl] at e
  simp only [assemble, withWord, withEA, withWordEA, withImmEA, withSizeEA, withLongBitEA, shiftReg, Option.bind_eq_some_iff, Option.map_eq_some_iff, Option.some.injEq, Prod.mk.injEq, Prod.exists, takeWord_some] at h
  obtain ⟨rfl, rfl⟩ := h
  constructor
  · rfl
  · refine Eq.trans ?_ e
    simp only [Instr.opcode, EA.field, regBits_regOf, bit_getLsbD, Cond.bits_ofBits, Size.longBit_ofLongBit, countOf_field, countOf_byReg]
  · exact ⟨[], rfl, rfl⟩
  · simp [Instr.extWords]
  · exact fun _ => rfl

theorem read_divuW {b op ws rest i} (hl : lookup b op = some .divuW) (h : assemble .divuW op ws = some (i, rest)) :
    ReadFrom .divuW op ws rest i := by
  have c := row_claims 69 rfl rfl hl
  have e := fields_4_3_1_2_ea_eta op
  rw [show op.extractLsb' 12 4 = 0x8#4 from field_of_claims c (12, 4) rfl, show op.extractLsb' 8 1 = 0#1 from field_of_claims c (8, 1) rfl, show op.extractLsb' 6 2 = 3#2 from field_of_claims c (6, 2) rfl] at e
  simp only [Row.claims, List.all_cons, List.all_nil, Bool.and_eq_true, Check.holds, bne_iff_ne, ne_eq, decide_eq_true_eq] at c
  obtain ⟨⟨-, k1, -⟩, -⟩ := c
  simp only [assemble, withWord, withEA, withWordEA, withImmEA, withSizeEA, withLongBitEA, shiftReg, Option.bind_eq_some_iff, Option.map_eq_some_iff, Option.some.injEq, Prod.mk.injEq, Prod.exists, takeWord_some] at h
  obtain ⟨ea, _, he, rfl, rfl⟩ := h
  obtain ⟨⟨l, rfl, hl1⟩, hm, hr, hok, he3⟩ := takeEA_some he
  constructor
  · simp only [Instr.wf, hok _ k1, Bool.and_self]
  · refine Eq.trans ?_ e
    simp only [Instr.opcode, EA.field, regBits_regOf, bit_getLsbD, Cond.bits_ofBits, Size.longBit_ofLongBit, countOf_field, countOf_byReg, hm, hr]
  · exact ⟨l, rfl, hl1⟩
  · have := ea.words_length_le .w
    simp only [Instr.extWords]; omega
  · intro more
    simp only [assemble, withEA, withWordEA, withImmEA, withSizeEA, withLongBitEA, takeWord, List.cons_append, he3, Option.bind_some, Option.map_some]

theorem read_divsW {b op ws rest i} (hl : lookup b op = some .divsW) (h : assemble .divsW op ws = some (i, rest)) :
    ReadFrom .divsW op ws rest i := by
  have c := row_claims 70 rfl rfl hl
  have e := fields_4_3_1_2_ea_eta op
  rw [show op.extractLsb' 12 4 = 0x8#4 from field_of_claims c (12, 4) rfl, show op.extractLsb' 8 1 = 1#1 from field_of_claims c (8, 1) rfl, show op.extractLsb' 6 2 = 3#2 from field_of_claims c (6, 2) rfl] at e
  simp only [Row.claims, List.all_cons, List.all_nil, Bool.and_eq_true, Check.holds, bne_iff_ne, ne_eq, decide_eq_true_eq] at c
  obtain ⟨⟨-, k1, -⟩, -⟩ := c
  simp only [assemble, withWord, withEA, withWordEA, withImmEA, withSizeEA, withLongBitEA, shiftReg, Option.bind_eq_some_iff, Option.map_eq_some_iff, Option.some.injEq, Prod.mk.injEq, Prod.exists, takeWord_some] at h
  obtain ⟨ea, _, he, rfl, rfl⟩ := h
  obtain ⟨⟨l, rfl, hl1⟩, hm, hr, hok, he3⟩ := takeEA_some he
  constructor
  · simp only [Instr.wf, hok _ k1, Bool.and_self]
  · refine Eq.trans ?_ e
    simp only [Instr.opcode, EA.field, regBits_regOf, bit_getLsbD, Cond.bits_ofBits, Size.longBit_ofLongBit, countOf_field, countOf_byReg, hm, hr]
  · exact ⟨l, rfl, hl1⟩
  · have := ea.words_length_le .w
    simp only [Instr.extWords]; omega
  · intro more
    simp only [assemble, withEA, withWordEA, withImmEA, withSizeEA, withLongBitEA, takeWord, List.cons_append, he3, Option.bind_some, Option.map_some]

theorem read_sbcd {b op ws rest i} (hl : lookup b op = some .sbcd) (h : assemble .sbcd op ws = some (i, rest)) :
    ReadFrom .sbcd op ws rest i := by
  have c := row_claims 71 rfl rfl hl
  have e := fields_4_3_1_4_1_3_eta op
  rw [show op.extractLsb' 12 4 = 0x8#4 from field_of_claims c (12, 4) rfl, show op.extractLsb' 8 1 = 1#1 from field_of_claims c (8, 1) rfl, show op.extractLsb' 4 4 = 0#4 from field_of_claims c (4, 4) rfl] at e
  simp only [assemble, withWord, withEA, withWordEA, withImmEA, withSizeEA, withLongBitEA, shiftReg, Option.bind_eq_some_iff, Option.map_eq_some_iff, Option.some.injEq, Prod.mk.injEq, Prod.exists, takeWord_some] at h
  obtain ⟨rfl, rfl⟩ := h
  constructor
  · rfl
  · refine Eq.trans ?_ e
    simp only [Instr.opcode, EA.field, regBits_regOf, bit_getLsbD, Cond.bits_ofBits, Size.longBit_ofLongBit, countOf_field, countOf_byReg]
  · exact ⟨[], rfl, rfl⟩
  · simp [Instr.extWords]
  · exact fun _ => rfl

theorem read_orEaDn {b op ws rest i} (hl : lookup b op = some .orEaDn) (h : assemble .orEaDn op ws = some (i, rest)) :
    ReadFrom .orEaDn op ws rest i := by
  have c := row_claims 72 rfl rfl hl
  have e := fields_4_3_1_2_ea_eta op
  rw [show op.extractLsb' 12 4 = 0x8#4 from field_of_claims c (12, 4) rfl, show op.extractLsb' 8 1 = 0#1 from field_of_claims c (8, 1) rfl] at e
  simp only [Row.claims, List.all_cons, List.all_nil, Bool.and_eq_true, Check.holds, bne_iff_ne, ne_eq, decide_eq_true_eq] at c
  obtain ⟨⟨-, k1, k2, -⟩, -⟩ := c
  simp only [assemble, withWord, withEA, withWordEA, withImmEA, withSizeEA, withLongBitEA, shiftReg, Option.bind_eq_some_iff, Option.map_eq_some_iff, Option.some.injEq, Prod.mk.injEq, Prod.exists, takeWord_some] at h
  obtain ⟨ea, _, he, rfl, rfl⟩ := h
  obtain ⟨⟨l, rfl, hl1⟩, hm, hr, hok, he3⟩ := takeEA_some he
  constructor
  · simp only [Instr.wf, hok _ k2, Bool.and_self]
  · refine Eq.trans ?_ e
    simp only [Instr.opcode, EA.field, regBits_regOf, bit_getLsbD, Cond.bits_ofBits, Size.longBit_ofLongBit, countOf_field, countOf_byReg, Size.std_ofStd k1, hm, hr]
  · exact ⟨l, rfl, hl1⟩
  · have := ea.words_length_le (Size.ofStd (op.extractLsb' 6 2))
    simp only [Instr.extWords]; omega
  · intro more
    simp only [assemble, withEA, withWordEA, withImmEA, withSizeEA, withLongBitEA, takeWord, List.cons_append, he3, Option.bind_some, Option.map_some]

theorem read_orDnEa {b op ws rest i} (hl : lookup b op = some .orDnEa) (h : assemble .orDnEa op ws = some (i, rest)) :
    ReadFrom .orDnEa op ws rest i := by
  have c := row_claims 73 rfl rfl hl
  have e := fields_4_3_1_2_ea_eta op
  rw [show op.extractLsb' 12 4 = 0x8#4 from field_of_claims c (12, 4) rfl, show op.extractLsb' 8 1 = 1#1 from field_of_claims c (8, 1) rfl] at e
  simp only [Row.claims, List.all_cons, List.all_nil, Bool.and_eq_true, Check.holds, bne_iff_ne, ne_eq, decide_eq_true_eq] at c
  obtain ⟨⟨-, k1, k2, -⟩, -⟩ := c
  simp only [assemble, withWord, withEA, withWordEA, withImmEA, withSizeEA, withLongBitEA, shiftReg, Option.bind_eq_some_iff, Option.map_eq_some_iff, Option.some.injEq, Prod.mk.injEq, Prod.exists, takeWord_some] at h
  obtain ⟨ea, _, he, rfl, rfl⟩ := h
  obtain ⟨⟨l, rfl, hl1⟩, hm, hr, hok, he3⟩ := takeEA_some he
  constructor
  · simp only [Instr.wf, hok _ k2, Bool.and_self]
  · refine Eq.trans ?_ e
    simp only [Instr.opcode, EA.field, regBits_regOf, bit_getLsbD, Cond.bits_ofBits, Size.longBit_ofLongBit, countOf_field, countOf_byReg, Size.std_ofStd k1, hm, hr]
  · exact ⟨l, rfl, hl1⟩
  · have := ea.words_length_le (Size.ofStd (op.extractLsb' 6 2))
    simp only [Instr.extWords]; omega
  · intro more
    simp only [assemble, withEA, withWordEA, withImmEA, withSizeEA, withLongBitEA, takeWord, List.cons_append, he3, Option.bind_some, Option.map_some]

theorem read_subEaDn {b op ws rest i} (hl : lookup b op = some .subEaDn) (h : assemble .subEaDn op ws = some (i, rest)) :
    ReadFrom .subEaDn op ws rest i := by
  have c := row_claims 74 rfl rfl hl
  have e := fields_4_3_1_2_ea_eta op
  rw [show op.extractLsb' 12 4 = 0x9#4 from field_of_claims c (12, 4) rfl, show op.extractLsb' 8 1 = 0#1 from field_of_claims c (8, 1) rfl] at e
  simp only [Row.claims, List.all_cons, List.all_nil, Bool.and_eq_true, Check.holds, bne_iff_ne, ne_eq, decide_eq_true_eq] at c
  obtain ⟨⟨-, k1, k2, -⟩, -⟩ := c
  simp only [assemble, withWord, withEA, withWordEA, withImmEA, withSizeEA, withLongBitEA, shiftReg, Option.bind_eq_some_iff, Option.map_eq_some_iff, Option.some.injEq, Prod.mk.injEq, Prod.exists, takeWord_some] at h
  obtain ⟨ea, _, he, rfl, rfl⟩ := h
  obtain ⟨⟨l, rfl, hl1⟩, hm, hr, hok, he3⟩ := takeEA_some he
  constructor
  · simp only [Instr.wf, hok _ (source_ok k2), Bool.and_self]
  · refine Eq.trans ?_ e
    simp only [Instr.opcode, EA.field, regBits_regOf, bit_getLsbD, Cond.bits_ofBits, Size.longBit_ofLongBit, countOf_field, countOf_byReg, Size.std_ofStd k1, hm, hr]
  · exact ⟨l, rfl, hl1⟩
  · have := ea.words_length_le (Size.ofStd (op.extractLsb' 6 2))
    simp only [Instr.extWords]; omega
  · intro more
    simp only [assemble, withEA, withWordEA, withImmEA, withSizeEA, withLongBitEA, takeWord, List.cons_append, he3, Option.bind_some, Option.map_some]

theorem read_subDnEa {b op ws rest i} (hl : lookup b op = some .subDnEa) (h : assemble .subDnEa op ws = some (i, rest)) :
    ReadFrom .subDnEa op ws rest i := by
  have c := row_claims 75 rfl rfl hl
  have e := fields_4_3_1_2_ea_eta op
  rw [show op.extractLsb' 12 4 = 0x9#4 from field_of_claims c (12, 4) rfl, show op.extractLsb' 8 1 = 1#1 from field_of_claims c (8, 1) rfl] at e
  simp only [Row.claims, List.all_cons, List.all_nil, Bool.and_eq_true, Check.holds, bne_iff_ne, ne_eq, decide_eq_true_eq] at c
  obtain ⟨⟨-, k1, k2, -⟩, -⟩ := c
  simp only [assemble, withWord, withEA, withWordEA, withImmEA, withSizeEA, withLongBitEA, shiftReg, Option.bind_eq_some_iff, Option.map_eq_some_iff, Option.some.injEq, Prod.mk.injEq, Prod.exists, takeWord_some] at h
  obtain ⟨ea, _, he, rfl, rfl⟩ := h
  obtain ⟨⟨l, rfl, hl1⟩, hm, hr, hok, he3⟩ := takeEA_some he
  constructor
  · simp only [Instr.wf, hok _ k2, Bool.and_self]
  · refine Eq.trans ?_ e
    simp only [Instr.opcode, EA.field, regBits_regOf, bit_getLsbD, Cond.bits_ofBits, Size.longBit_ofLongBit, countOf_field, countOf_byReg, Size.std_ofStd k1, hm, hr]
  · exact ⟨l, rfl, hl1⟩
  · have := ea.words_length_le (Size.ofStd (op.extractLsb' 6 2))
    simp only [Instr.extWords]; omega
  · intro more
    simp only [assemble, withEA, withWordEA, withImmEA, withSizeEA, withLongBitEA, takeWord, List.cons_append, he3, Option.bind_some, Option.map_some]

theorem read_suba {b op ws rest i} (hl : lookup b op = some .suba) (h : assemble .suba op ws = some (i, rest)) :
    ReadFrom .suba op ws rest i := by
  have c := row_claims 76 rfl rfl hl
  have e := fields_4_3_1_2_ea_eta op
  rw [show op.extractLsb' 12 4 = 0x9#4 from field_of_claims c (12, 4) rfl, show op.extractLsb' 6 2 = 3#2 from field_of_claims c (6, 2) rfl] at e
  simp only [Row.claims, List.all_cons, List.all_nil, Bool.and_eq_true, Check.holds, bne_iff_ne, ne_eq, decide_eq_true_eq] at c
  obtain ⟨⟨-, k1, -⟩, -⟩ := c
  simp only [assemble, withWord, withEA, withWordEA, withImmEA, withSizeEA, withLongBitEA, shiftReg, Option.bind_eq_some_iff, Option.map_eq_some_iff, Option.some.injEq, Prod.mk.injEq, Prod.exists, takeWord_some] at h
  obtain ⟨ea, _, he, rfl, rfl⟩ := h
  obtain ⟨⟨l, rfl, hl1⟩, hm, hr, hok, he3⟩ := takeEA_some he
  constructor
  · simp only [Instr.wf, hok _ k1, Size.wordOrLong_ofLongBit, Bool.and_self]
  · refine Eq.trans ?_ e
    simp only [Instr.opcode, EA.field, regBits_regOf, bit_getLsbD, Cond.bits_ofBits, Size.longBit_ofLongBit, countOf_field, countOf_byReg, hm, hr]
  · exact ⟨l, rfl, hl1⟩
  · have := ea.words_length_le (Size.ofLongBit (op.extractLsb' 8 1))
    simp only [Instr.extWords]; omega
  · intro more
    simp only [assemble, withEA, withWordEA, withImmEA, withSizeEA, withLongBitEA, takeWord, List.cons_append, he3, Option.bind_some, Option.map_some]

theorem read_subx {b op ws rest i} (hl : lookup b op = some .subx) (h : assemble .subx op ws = some (i, rest)) :
    ReadFrom .subx op ws rest i := by
  have c := row_claims 77 rfl rfl hl
  have e := fields_4_3_1_2_2_1_3_eta op
  rw [show op.extractLsb' 12 4 = 0x9#4 from field_of_claims c (12, 4) rfl, show op.extractLsb' 8 1 = 1#1 from field_of_claims c (8, 1) rfl, show op.extractLsb' 4 2 = 0#2 from field_of_claims c (4, 2) rfl] at e
  simp only [Row.claims, List.all_cons, List.all_nil, Bool.and_eq_true, Check.holds, bne_iff_ne, ne_eq, decide_eq_true_eq] at c
  obtain ⟨⟨-, k1, -⟩, -⟩ := c
  simp only [assemble, withWord, withEA, withWordEA, withImmEA, withSizeEA, withLongBitEA, shiftReg, Option.bind_eq_some_iff, Option.map_eq_some_iff, Option.some.injEq, Prod.mk.injEq, Prod.exists, takeWord_some] at h
  obtain ⟨rfl, rfl⟩ := h
  constructor
  · rfl
  · refine Eq.trans ?_ e
    simp only [Instr.opcode, EA.field, regBits_regOf, bit_getLsbD, Cond.bits_ofBits, Size.longBit_ofLongBit, countOf_field, countOf_byReg, Size.std_ofStd k1]
  · exact ⟨[], rfl, rfl⟩
  · simp [Instr.extWords]
  · exact fun _ => rfl

theorem read_cmp {b op ws rest i} (hl : lookup b op = some .cmp) (h : assemble .cmp op ws = some (i, rest)) :
    ReadFrom .cmp op ws rest i := by
  have c := row_claims 78 rfl rfl hl
  have e := fields_4_3_1_2_ea_eta op
  rw [show op.extractLsb' 12 4 = 0xB#4 from field_of_claims c (12, 4) rfl, show op.extractLsb' 8 1 = 0#1 from field_of_claims c (8, 1) rfl] at e
  simp only [Row.claims, List.all_cons, List.all_nil, Bool.and_eq_true, Check.holds, bne_iff_ne, ne_eq, decide_eq_true_eq] at c
  obtain ⟨⟨-, k1, k2, -⟩, -⟩ := c
  simp only [assemble, withWord, withEA, withWordEA, withImmEA, withSizeEA, withLongBitEA, shiftReg, Option.bind_eq_some_iff, Option.map_eq_some_iff, Option.some.injEq, Prod.mk.injEq, Prod.exists, takeWord_some] at h
  obtain ⟨ea, _, he, rfl, rfl⟩ := h
  obtain ⟨⟨l, rfl, hl1⟩, hm, hr, hok, he3⟩ := takeEA_some he
  constructor
  · simp only [Instr.wf, hok _ (source_ok k2), Bool.and_self]
  · refine Eq.trans ?_ e
    simp only [Instr.opcode, EA.field, regBits_regOf, bit_getLsbD, Cond.bits_ofBits, Size.longBit_ofLongBit, countOf_field, countOf_byReg, Size.std_ofStd k1, hm, hr]
  · exact ⟨l, rfl, hl1⟩
  · have := ea.words_length_le (Size.ofStd (op.extractLsb' 6 2))
    simp only [Instr.extWords]; omega
  · intro more
    simp only [assemble, withEA, withWordEA, withImmEA, withSizeEA, withLongBitEA, takeWord, List.cons_append, he3, Option.bind_some, Option.map_some]

theorem read_cmpa {b op ws rest i} (hl : lookup b op = some .cmpa) (h : assemble .cmpa op ws = some (i, rest)) :
    ReadFrom .cmpa op ws rest i := by
  have c := row_claims 79 rfl rfl hl
  have e := fields_4_3_1_2_ea_eta op
  rw [show op.extractLsb' 12 4 = 0xB#4 from field_of_claims c (12, 4) rfl, show op.extractLsb' 6 2 = 3#2 from field_of_claims c (6, 2) rfl] at e
  simp only [Row.claims, List.all_cons, List.all_nil, Bool.and_eq_true, Check.holds, bne_iff_ne, ne_eq, decide_eq_true_eq] at c
  obtain ⟨⟨-, k1, -⟩, -⟩ := c
  simp only [assemble, withWord, withEA, withWordEA, withImmEA, withSizeEA, withLongBitEA, shiftReg, Option.bind_eq_some_iff, Option.map_eq_some_iff, Option.some.injEq, Prod.mk.injEq, Prod.exists, takeWord_some] at h
  obtain ⟨ea, _, he, rfl, rfl⟩ := h
  obtain ⟨⟨l, rfl, hl1⟩, hm, hr, hok, he3⟩ := takeEA_some he
  constructor
  · simp only [Instr.wf, hok _ k1, Size.wordOrLong_ofLongBit, Bool.and_self]
  · refine Eq.trans ?_ e
    simp only [Instr.opcode, EA.field, regBits_regOf, bit_getLsbD, Cond.bits_ofBits, Size.longBit_ofLongBit, countOf_field, countOf_byReg, hm, hr]
  · exact ⟨l, rfl, hl1⟩
  · have := ea.words_length_le (Size.ofLongBit (op.extractLsb' 8 1))
    simp only [Instr.extWords]; omega
  · intro more
    simp only [assemble, withEA, withWordEA, withImmEA, withSizeEA, withLongBitEA, takeWord, List.cons_append, he3, Option.bind_some, Option.map_some]

theorem read_eor {b op ws rest i} (hl : lookup b op = some .eor) (h : assemble .eor op ws = some (i, rest)) :
    ReadFrom .eor op ws rest i := by
  have c := row_claims 80 rfl rfl hl
  have e := fields_4_3_1_2_ea_eta op
  rw [show op.extractLsb' 12 4 = 0xB#4 from field_of_claims c (12, 4) rfl, show op.extractLsb' 8 1 = 1#1 from field_of_claims c (8, 1) rfl] at e
  simp only [Row.claims, List.all_cons, List.all_nil, Bool.and_eq_true, Check.holds, bne_iff_ne, ne_eq, decide_eq_true_eq] at c
  obtain ⟨⟨-, k1, k2, -⟩, -⟩ := c
  simp only [assemble, withWord, withEA, withWordEA, withImmEA, withSizeEA, withLongBitEA, shiftReg, Option.bind_eq_some_iff, Option.map_eq_some_iff, Option.some.injEq, Prod.mk.injEq, Prod.exists, takeWord_some] at h
  obtain ⟨ea, _, he, rfl, rfl⟩ := h
  obtain ⟨⟨l, rfl, hl1⟩, hm, hr, hok, he3⟩ := takeEA_some he
  constructor
  · simp only [Instr.wf, hok _ k2, Bool.and_self]
  · refine Eq.trans ?_ e
    simp only [Instr.opcode, EA.field, regBits_regOf, bit_getLsbD, Cond.bits_ofBits, Size.longBit_ofLongBit, countOf_field, countOf_byReg, Size.std_ofStd k1, hm, hr]
  · exact ⟨l, rfl, hl1⟩
  · have := ea.words_length_le (Size.ofStd (op.extractLsb' 6 2))
    simp only [Instr.extWords]; omega
  · intro more
    simp only [assemble, withEA, withWordEA, withImmEA, withSizeEA, withLongBitEA, takeWord, List.cons_append, he3, Option.bind_some, Option.map_some]

theorem read_cmpm {b op ws rest i} (hl : lookup b op = some .cmpm) (h : assemble .cmpm op ws = some (i, rest)) :
    ReadFrom .cmpm op ws rest i := by
  have c := row_claims 81 rfl rfl hl
  have e := fields_4_3_1_2_2_1_3_eta op
  rw [show op.extractLsb' 12 4 = 0xB#4 from field_of_claims c (12, 4) rfl, show op.extractLsb' 8 1 = 1#1 from field_of_claims c (8, 1) rfl, show op.extractLsb' 4 2 = 0#2 from field_of_claims c (4, 2) rfl, show op.extractLsb' 3 1 = 1#1 from field_of_claims c (3, 1) rfl] at e
  simp only [Row.claims, List.all_cons, List.all_nil, Bool.and_eq_true, Check.holds, bne_iff_ne, ne_eq, decide_eq_true_eq] at c
  obtain ⟨⟨-, k1, -⟩, -⟩ := c
  simp only [assemble, withWord, withEA, withWordEA, withImmEA, withSizeEA, withLongBitEA, shiftReg, Option.bind_eq_some_iff, Option.map_eq_some_iff, Option.some.injEq, Prod.mk.injEq, Prod.exists, takeWord_some] at h
  obtain ⟨rfl, rfl⟩ := h
  constructor
  · rfl
  · refine Eq.trans ?_ e
    simp only [Instr.opcode, EA.field, regBits_regOf, bit_getLsbD, Cond.bits_ofBits, Size.longBit_ofLongBit, countOf_field, countOf_byReg, Size.std_ofStd k1]
  · exact ⟨[], rfl, rfl⟩
  · simp [Instr.extWords]
  · exact fun _ => rfl

theorem read_muluW {b op ws rest i} (hl : lookup b op = some .muluW) (h : assemble .muluW op ws = some (i, rest)) :
    ReadFrom .muluW op ws rest i := by
  have c := row_claims 82 rfl rfl hl
  have e := fields_4_3_1_2_ea_eta op
  rw [show op.extractLsb' 12 4 = 0xC#4 from field_of_claims c (12, 4) rfl, show op.extractLsb' 8 1 = 0#1 from field_of_claims c (8, 1) rfl, show op.extractLsb' 6 2 = 3#2 from field_of_claims c (6, 2) rfl] at e
  simp only [Row.claims, List.all_cons, List.all_nil, Bool.and_eq_true, Check.holds, bne_iff_ne, ne_eq, decide_eq_true_eq] at c
  obtain ⟨⟨-, k1, -⟩, -⟩ := c
  simp only [assemble, withWord, withEA, withWordEA, withImmEA, withSizeEA, withLongBitEA, shiftReg, Option.bind_eq_some_iff, Option.map_eq_some_iff, Option.some.injEq, Prod.mk.injEq, Prod.exists, takeWord_some] at h
  obtain ⟨ea, _, he, rfl, rfl⟩ := h
  obtain ⟨⟨l, rfl, hl1⟩, hm, hr, hok, he3⟩ := takeEA_some he
  constructor
  · simp only [Instr.wf, hok _ k1, Bool.and_self]
  · refine Eq.trans ?_ e
    simp only [Instr.opcode, EA.field, regBits_regOf, bit_getLsbD, Cond.bits_ofBits, Size.longBit_ofLongBit, countOf_field, countOf_byReg, hm, hr]
  · exact ⟨l, rfl, hl1⟩
  · have := ea.words_length_le .w
    simp only [Instr.extWords]; omega
  · intro more
    simp only [assemble, withEA, withWordEA, withImmEA, withSizeEA, withLongBitEA, takeWord, List.cons_append, he3, Option.bind_some, Option.map_some]

theorem read_mulsW {b op ws rest i} (hl : lookup b op = some .mulsW) (h : assemble .mulsW op ws = some (i, rest)) :
    ReadFrom .mulsW op ws rest i := by
  have c := row_claims 83 rfl rfl hl
  have e := fields_4_3_1_2_ea_eta op
  rw [show op.extractLsb' 12 4 = 0xC#4 from field_of_claims c (12, 4) rfl, show op.extractLsb' 8 1 = 1#1 from field_of_claims c (8, 1) rfl, show op.extractLsb' 6 2 = 3#2 from field_of_claims c (6, 2) rfl] at e
  simp only [Row.claims, List.all_cons, List.all_nil, Bool.and_eq_true, Check.holds, bne_iff_ne, ne_eq, decide_eq_true_eq] at c
  obtain ⟨⟨-, k1, -⟩, -⟩ := c
  simp only [assemble, withWord, withEA, withWordEA, withImmEA, withSizeEA, withLongBitEA, shiftReg, Option.bind_eq_some_iff, Option.map_eq_some_iff, Option.some.injEq, Prod.mk.injEq, Prod.exists, takeWord_some] at h
  obtain ⟨ea, _, he, rfl, rfl⟩ := h
  obtain ⟨⟨l, rfl, hl1⟩, hm, hr, hok, he3⟩ := takeEA_some he
  constructor
  · simp only [Instr.wf, hok _ k1, Bool.and_self]
  · refine Eq.trans ?_ e
    simp only [Instr.opcode, EA.field, regBits_regOf, bit_getLsbD, Cond.bits_ofBits, Size.longBit_ofLongBit, countOf_field, countOf_byReg, hm, hr]
  · exact ⟨l, rfl, hl1⟩
  · have := ea.words_length_le .w
    simp only [Instr.extWords]; omega
  · intro more
    simp only [assemble, withEA, withWordEA, withImmEA, withSizeEA, withLongBitEA, takeWord, List.cons_append, he3, Option.bind_some, Option.map_some]

theorem read_abcd {b op ws rest i} (hl : lookup b op = some .abcd) (h : assemble .abcd op ws = some (i, rest)) :
    ReadFrom .abcd op ws rest i := by
  have c := row_claims 84 rfl rfl hl
  have e := fields_4_3_1_4_1_3_eta op
  rw [show op.extractLsb' 12 4 = 0xC#4 from field_of_claims c (12, 4) rfl, show op.extractLsb' 8 1 = 1#1 from field_of_claims c (8, 1) rfl, show op.extractLsb' 4 4 = 0#4 from field_of_claims c (4, 4) rfl] at e
  simp only [assemble, withWord, withEA, withWordEA, withImmEA, withSizeEA, withLongBitEA, shiftReg, Option.bind_eq_some_iff, Option.map_eq_some_iff, Option.some.injEq, Prod.mk.injEq, Prod.exists, takeWord_some] at h
  obtain ⟨rfl, rfl⟩ := h
  constructor
  · rfl
  · refine Eq.trans ?_ e
    simp only [Instr.opcode, EA.field, regBits_regOf, bit_getLsbD, Cond.bits_ofBits, Size.longBit_ofLongBit, countOf_field, countOf_byReg]
  · exact ⟨[], rfl, rfl⟩
  · simp [Instr.extWords]
  · exact fun _ => rfl

theorem read_exgDD {b op ws rest i} (hl : lookup b op = some .exgDD) (h : assemble .exgDD op ws = some (i, rest)) :
    ReadFrom .exgDD op ws rest i := by
  have c := row_claims 85 rfl rfl hl
  have e := fields_4_3_1_5_3_eta op
  rw [show op.extractLsb' 12 4 = 0xC#4 from field_of_claims c (12, 4) rfl, show op.extractLsb' 8 1 = 1#1 from field_of_claims c (8, 1) rfl, show op.extractLsb' 3 5 = 0b01000#5 from field_of_claims c (3, 5) rfl] at e
  simp only [assemble, withWord, withEA, withWordEA, withImmEA, withSizeEA, withLongBitEA, shiftReg, Option.bind_eq_some_iff, Option.map_eq_some_iff, Option.some.injEq, Prod.mk.injEq, Prod.exists, takeWord_some] at h
  obtain ⟨rfl, rfl⟩ := h
  constructor
  · rfl
  · refine Eq.trans ?_ e
    simp only [Instr.opcode, EA.field, regBits_regOf, bit_getLsbD, Cond.bits_ofBits, Size.longBit_ofLongBit, countOf_field, countOf_byReg]
  · exact ⟨[], rfl, rfl⟩
  · simp [Instr.extWords]
  · exact fun _ => rfl

theorem read_exgAA {b op ws rest i} (hl : lookup b op = some .exgAA) (h : assemble .exgAA op ws = some (i, rest)) :
    ReadFrom .exgAA op ws rest i := by
  have c := row_claims 86 rfl rfl hl
  have e := fields_4_3_1_5_3_eta op
  rw [show op.extractLsb' 12 4 = 0xC#4 from field_of_claims c (12, 4) rfl, show op.extractLsb' 8 1 = 1#1 from field_of_claims c (8, 1) rfl, show op.extractLsb' 3 5 = 0b01001#5 from field_of_claims c (3, 5) rfl] at e
  simp only [assemble, withWord, withEA, withWordEA, withImmEA, withSizeEA, withLongBitEA, shiftReg, Option.bind_eq_some_iff, Option.map_eq_some_iff, Option.some.injEq, Prod.mk.injEq, Prod.exists, takeWord_some] at h
  obtain ⟨rfl, rfl⟩ := h
  constructor
  · rfl
  · refine Eq.trans ?_ e
    simp only [Instr.opcode, EA.field, regBits_regOf, bit_getLsbD, Cond.bits_ofBits, Size.longBit_ofLongBit, countOf_field, countOf_byReg]
  · exact ⟨[], rfl, rfl⟩
  · simp [Instr.extWords]
  · exact fun _ => rfl

theorem read_exgDA {b op ws rest i} (hl : lookup b op = some .exgDA) (h : assemble .exgDA op ws = some (i, rest)) :
    ReadFrom .exgDA op ws rest i := by
  have c := row_claims 87 rfl rfl hl
  have e := fields_4_3_1_5_3_eta op
  rw [show op.extractLsb' 12 4 = 0xC#4 from field_of_claims c (12, 4) rfl, show op.extractLsb' 8 1 = 1#1 from field_of_claims c (8, 1) rfl, show op.extractLsb' 3 5 = 0b10001#5 from field_of_claims c (3, 5) rfl] at e
  simp only [assemble, withWord, withEA, withWordEA, withImmEA, withSizeEA, withLongBitEA, shiftReg, Option.bind_eq_some_iff, Option.map_eq_some_iff, Option.some.injEq, Prod.mk.injEq, Prod.exists, takeWord_some] at h
  obtain ⟨rfl, rfl⟩ := h
  constructor
  · rfl
  · refine Eq.trans ?_ e
    simp only [Instr.opcode, EA.field, regBits_regOf, bit_getLsbD, Cond.bits_ofBits, Size.longBit_ofLongBit, countOf_field, countOf_byReg]
  · exact ⟨[], rfl, rfl⟩
  · simp [Instr.extWords]
  · exact fun _ => rfl

theorem read_andEaDn {b op ws rest i} (hl : lookup b op = some .andEaDn) (h : assemble .andEaDn op ws = some (i, rest)) :
    ReadFrom .andEaDn op ws rest i := by
  have c := row_claims 88 rfl rfl hl
  have e := fields_4_3_1_2_ea_eta op
  rw [show op.extractLsb' 12 4 = 0xC#4 from field_of_claims c (12, 4) rfl, show op.extractLsb' 8 1 = 0#1 from field_of_claims c (8, 1) rfl] at e
  simp only [Row.claims, List.all_cons, List.all_nil, Bool.and_eq_true, Check.holds, bne_iff_ne, ne_eq, decide_eq_true_eq] at c
  obtain ⟨⟨-, k1, k2, -⟩, -⟩ := c
  simp only [assemble, withWord, withEA, withWordEA, withImmEA, withSizeEA, withLongBitEA, shiftReg, Option.bind_eq_some_iff, Option.map_eq_some_iff, Option.some.injEq, Prod.mk.injEq, Prod.exists, takeWord_some] at h
  obtain ⟨ea, _, he, rfl, rfl⟩ := h
  obtain ⟨⟨l, rfl, hl1⟩, hm, hr, hok, he3⟩ := takeEA_some he
  constructor
  · simp only [Instr.wf, hok _ k2, Bool.and_self]
  · refine Eq.trans ?_ e
    simp only [Instr.opcode, EA.field, regBits_regOf, bit_getLsbD, Cond.bits_ofBits, Size.longBit_ofLongBit, countOf_field, countOf_byReg, Size.std_ofStd k1, hm, hr]
  · exact ⟨l, rfl, hl1⟩
  · have := ea.words_length_le (Size.ofStd (op.extractLsb' 6 2))
    simp only [Instr.extWords]; omega
  · intro more
    simp only [assemble, withEA, withWordEA, withImmEA, withSizeEA, withLongBitEA, takeWord, List.cons_append, he3, Option.bind_some, Option.map_some]

theorem read_andDnEa {b op ws rest i} (hl : lookup b op = some .andDnEa) (h : assemble .andDnEa op ws = some (i, rest)) :
    ReadFrom .andDnEa op ws rest i := by
  have c := row_claims 89 rfl rfl hl
  have e := fields_4_3_1_2_ea_eta op
  rw [show op.extractLsb' 12 4 = 0xC#4 from field_of_claims c (12, 4) rfl, show op.extractLsb' 8 1 = 1#1 from field_of_claims c (8, 1) rfl] at e
  simp only [Row.claims, List.all_cons, List.all_nil, Bool.and_eq_true, Check.holds, bne_iff_ne, ne_eq, decide_eq_true_eq] at c
  obtain ⟨⟨-, k1, k2, -⟩, -⟩ := c
  simp only [assemble, withWord, withEA, withWordEA, withImmEA, withSizeEA, withLongBitEA, shiftReg, Option.bind_eq_some_iff, Option.map_eq_some_iff, Option.some.injEq, Prod.mk.injEq, Prod.exists, takeWord_some] at h
  obtain ⟨ea, _, he, rfl, rfl⟩ := h
  obtain ⟨⟨l, rfl, hl1⟩, hm, hr, hok, he3⟩ := takeEA_some he
  constructor
  · simp only [Instr.wf, hok _ k2, Bool.and_self]
  · refine Eq.trans ?_ e
    simp only [Instr.opcode, EA.field, regBits_regOf, bit_getLsbD, Cond.bits_ofBits, Size.longBit_ofLongBit, countOf_field, countOf_byReg, Size.std_ofStd k1, hm, hr]
  · exact ⟨l, rfl, hl1⟩
  · have := ea.words_length_le (Size.ofStd (op.extractLsb' 6 2))
    simp only [Instr.extWords]; omega
  · intro more
    simp only [assemble, withEA, withWordEA, withImmEA, withSizeEA, withLongBitEA, takeWord, List.cons_append, he3, Option.bind_some, Option.map_some]

theorem read_addEaDn {b op ws rest i} (hl : lookup b op = some .addEaDn) (h : assemble .addEaDn op ws = some (i, rest)) :
    ReadFrom .addEaDn op ws rest i := by
  have c := row_claims 90 rfl rfl hl
  have e := fields_4_3_1_2_ea_eta op
  rw [show op.extractLsb' 12 4 = 0xD#4 from field_of_claims c (12, 4) rfl, show op.extractLsb' 8 1 = 0#1 from field_of_claims c (8, 1) rfl] at e
  simp only [Row.claims, List.all_cons, List.all_nil, Bool.and_eq_true, Check.holds, bne_iff_ne, ne_eq, decide_eq_true_eq] at c
  obtain ⟨⟨-, k1, k2, -⟩, -⟩ := c
  simp only [assemble, withWord, withEA, withWordEA, withImmEA, withSizeEA, withLongBitEA, shiftReg, Option.bind_eq_some_iff, Option.map_eq_some_iff, Option.some.injEq, Prod.mk.injEq, Prod.exists, takeWord_some] at h
  obtain ⟨ea, _, he, rfl, rfl⟩ := h
  obtain ⟨⟨l, rfl, hl1⟩, hm, hr, hok, he3⟩ := takeEA_some he
  constructor
  · simp only [Instr.wf, hok _ (source_ok k2), Bool.and_self]
  · refine Eq.trans ?_ e
    simp only [Instr.opcode, EA.field, regBits_regOf, bit_getLsbD, Cond.bits_ofBits, Size.longBit_ofLongBit, countOf_field, countOf_byReg, Size.std_ofStd k1, hm, hr]
  · exact ⟨l, rfl, hl1⟩
  · have := ea.words_length_le (Size.ofStd (op.extractLsb' 6 2))
    simp only [Instr.extWords]; omega
  · intro more
    simp only [assemble, withEA, withWordEA, withImmEA, withSizeEA, withLongBitEA, takeWord, List.cons_append, he3, Option.bind_some, Option.map_some]

theorem read_addDnEa {b op ws rest i} (hl : lookup b op = some .addDnEa) (h : assemble .addDnEa op ws = some (i, rest)) :
    ReadFrom .addDnEa op ws rest i := by
  have c := row_claims 91 rfl rfl hl
  have e := fields_4_3_1_2_ea_eta op
  rw [show op.extractLsb' 12 4 = 0xD#4 from field_of_claims c (12, 4) rfl, show op.extractLsb' 8 1 = 1#1 from field_of_claims c (8, 1) rfl] at e
  simp only [Row.claims, List.all_cons, List.all_nil, Bool.and_eq_true, Check.holds, bne_iff_ne, ne_eq, decide_eq_true_eq] at c
  obtain ⟨⟨-, k1, k2, -⟩, -⟩ := c
  simp only [assemble, withWord, withEA, withWordEA, withImmEA, withSizeEA, withLongBitEA, shiftReg, Option.bind_eq_some_iff, Option.map_eq_some_iff, Option.some.injEq, Prod.mk.injEq, Prod.exists, takeWord_some] at h
  obtain ⟨ea, _, he, rfl, rfl⟩ := h
  obtain ⟨⟨l, rfl, hl1⟩, hm, hr, hok, he3⟩ := takeEA_some he
  constructor
  · simp only [Instr.wf, hok _ k2, Bool.and_self]
  · refine Eq.trans ?_ e
    simp only [Instr.opcode, EA.field, regBits_regOf, bit_getLsbD, Cond.bits_ofBits, Size.longBit_ofLongBit, countOf_field, countOf_byReg, Size.std_ofStd k1, hm, hr]
  · exact ⟨l, rfl, hl1⟩
  · have := ea.words_length_le (Size.ofStd (op.extractLsb' 6 2))
    simp only [Instr.extWords]; omega
  · intro more
    simp only [assemble, withEA, withWordEA, withImmEA, withSizeEA, withLongBitEA, takeWord, List.cons_append, he3, Option.bind_some, Option.map_some]

theorem read_adda {b op ws rest i} (hl : lookup b op = some .adda) (h : assemble .adda op ws = some (i, rest)) :
    ReadFrom .adda op ws rest i := by
  have c := row_claims 92 rfl rfl hl
  have e := fields_4_3_1_2_ea_eta op
  rw [show op.extractLsb' 12 4 = 0xD#4 from field_of_claims c (12, 4) rfl, show op.extractLsb' 6 2 = 3#2 from field_of_claims c (6, 2) rfl] at e
  simp only [Row.claims, List.all_cons, List.all_nil, Bool.and_eq_true, Check.holds, bne_iff_ne, ne_eq, decide_eq_true_eq] at c
  obtain ⟨⟨-, k1, -⟩, -⟩ := c
  simp only [assemble, withWord, withEA, withWordEA, withImmEA, withSizeEA, withLongBitEA, shiftReg, Option.bind_eq_some_iff, Option.map_eq_some_iff, Option.some.injEq, Prod.mk.injEq, Prod.exists, takeWord_some] at h
  obtain ⟨ea, _, he, rfl, rfl⟩ := h
  obtain ⟨⟨l, rfl, hl1⟩, hm, hr, hok, he3⟩ := takeEA_some he
  constructor
  · simp only [Instr.wf, hok _ k1, Size.wordOrLong_ofLongBit, Bool.and_self]
  · refine Eq.trans ?_ e
    simp only [Instr.opcode, EA.field, regBits_regOf, bit_getLsbD, Cond.bits_ofBits, Size.longBit_ofLongBit, countOf_field, countOf_byReg, hm, hr]
  · exact ⟨l, rfl, hl1⟩
  · have := ea.words_length_le (Size.ofLongBit (op.extractLsb' 8 1))
    simp only [Instr.extWords]; omega
  · intro more
    simp only [assemble, withEA, withWordEA, withImmEA, withSizeEA, withLongBitEA, takeWord, List.cons_append, he3, Option.bind_some, Option.map_some]

theorem read_addx {b op ws rest i} (hl : lookup b op = some .addx) (h : assemble .addx op ws = some (i, rest)) :
    ReadFrom .addx op ws rest i := by
  have c := row_claims 93 rfl rfl hl
  have e := fields_4_3_1_2_2_1_3_eta op
  rw [show op.extractLsb' 12 4 = 0xD#4 from field_of_claims c (12, 4) rfl, show op.extractLsb' 8 1 = 1#1 from field_of_claims c (8, 1) rfl, show op.extractLsb' 4 2 = 0#2 from field_of_claims c (4, 2) rfl] at e
  simp only [Row.claims, List.all_cons, List.all_nil, Bool.and_eq_true, Check.holds, bne_iff_ne, ne_eq, decide_eq_true_eq] at c
  obtain ⟨⟨-, k1, -⟩, -⟩ := c
  simp only [assemble, withWord, withEA, withWordEA, withImmEA, withSizeEA, withLongBitEA, shiftReg, Option.bind_eq_some_iff, Option.map_eq_some_iff, Option.some.injEq, Prod.mk.injEq, Prod.exists, takeWord_some] at h
  obtain ⟨rfl, rfl⟩ := h
  constructor
  · rfl
  · refine Eq.trans ?_ e
    simp only [Instr.opcode, EA.field, regBits_regOf, bit_getLsbD, Cond.bits_ofBits, Size.longBit_ofLongBit, countOf_field, countOf_byReg, Size.std_ofStd k1]
  · exact ⟨[], rfl, rfl⟩
  · simp [Instr.extWords]
  · exact fun _ => rfl

theorem read_asrReg {b op ws rest i} (hl : lookup b op = some .asrReg) (h : assemble .asrReg op ws = some (i, rest)) :
    ReadFrom .asrReg op ws rest i := by
  have c := row_claims 94 rfl rfl hl
  have e := fields_4_3_1_2_1_2_3_eta op
  rw [show op.extractLsb' 12 4 = 0xE#4 from field_of_claims c (12, 4) rfl, show op.extractLsb' 8 1 = 0#1 from field_of_claims c (8, 1) rfl, show op.extractLsb' 3 2 = 0#2 from field_of_claims c (3, 2) rfl] at e
  simp only [Row.claims, List.all_cons, List.all_nil, Bool.and_eq_true, Check.holds, bne_iff_ne, ne_eq, decide_eq_true_eq] at c
  obtain ⟨⟨-, k1, -⟩, -⟩ := c
  simp only [assemble, withWord, withEA, withWordEA, withImmEA, withSizeEA, withLongBitEA, shiftReg, Option.bind_eq_some_iff, Option.map_eq_some_iff, Option.some.injEq, Prod.mk.injEq, Prod.exists, takeWord_some] at h
  obtain ⟨rfl, rfl⟩ := h
  constructor
  · rfl
  · refine Eq.trans ?_ e
    simp only [Instr.opcode, EA.field, regBits_regOf, bit_getLsbD, Cond.bits_ofBits, Size.longBit_ofLongBit, countOf_field, countOf_byReg, Size.std_ofStd k1]
  · exact ⟨[], rfl, rfl⟩
  · simp [Instr.extWords]
  · exact fun _ => rfl

theorem read_asrMem {b op ws rest i} (hl : lookup b op = some .asrMem) (h : assemble .asrMem op ws = some (i, rest)) :
    ReadFrom .asrMem op ws rest i := by
  have c := row_claims 95 rfl rfl hl
  have e := fields_4_1_2_1_2_ea_eta op
  rw [show op.extractLsb' 12 4 = 0xE#4 from field_of_claims c (12, 4) rfl, show op.extractLsb' 11 1 = 0#1 from field_of_claims c (11, 1) rfl, show op.extractLsb' 9 2 = 0#2 from field_of_claims c (9, 2) rfl, show op.extractLsb' 8 1 = 0#1 from field_of_claims c (8, 1) rfl, show op.extractLsb' 6 2 = 3#2 from field_of_claims c (6, 2) rfl] at e
  simp only [Row.claims, List.all_cons, List.all_nil, Bool.and_eq_true, Check.holds, bne_iff_ne, ne_eq, decide_eq_true_eq] at c
  obtain ⟨⟨-, k1, -⟩, -⟩ := c
  simp only [assemble, withWord, withEA, withWordEA, withImmEA, withSizeEA, withLongBitEA, shiftReg, Option.bind_eq_some_iff, Option.map_eq_some_iff, Option.some.injEq, Prod.mk.injEq, Prod.exists, takeWord_some] at h
  obtain ⟨ea, _, he, rfl, rfl⟩ := h
  obtain ⟨⟨l, rfl, hl1⟩, hm, hr, hok, he3⟩ := takeEA_some he
  constructor
  · simp only [Instr.wf, hok _ k1, Bool.and_self]
  · refine Eq.trans ?_ e
    simp only [Instr.opcode, EA.field, regBits_regOf, bit_getLsbD, Cond.bits_ofBits, Size.longBit_ofLongBit, countOf_field, countOf_byReg, hm, hr]
  · exact ⟨l, rfl, hl1⟩
  · have := ea.words_length_le .w
    simp only [Instr.extWords]; omega
  · intro more
    simp only [assemble, withEA, withWordEA, withImmEA, withSizeEA, withLongBitEA, takeWord, List.cons_append, he3, Option.bind_some, Option.map_some]

theorem read_aslReg {b op ws rest i} (hl : lookup b op = some .aslReg) (h : assemble .aslReg op ws = some (i, rest)) :
    ReadFrom .aslReg op ws rest i := by
  have c := row_claims 96 rfl rfl hl
  have e := fields_4_3_1_2_1_2_3_eta op
  rw [show op.extractLsb' 12 4 = 0xE#4 from field_of_claims c (12, 4) rfl, show op.extractLsb' 8 1 = 1#1 from field_of_claims c (8, 1) rfl, show op.extractLsb' 3 2 = 0#2 from field_of_claims c (3, 2) rfl] at e
  simp only [Row.claims, List.all_cons, List.all_nil, Bool.and_eq_true, Check.holds, bne_iff_ne, ne_eq, decide_eq_true_eq] at c
  obtain ⟨⟨-, k1, -⟩, -⟩ := c
  simp only [assemble, withWord, withEA, withWordEA, withImmEA, withSizeEA, withLongBitEA, shiftReg, Option.bind_eq_some_iff, Option.map_eq_some_iff, Option.some.injEq, Prod.mk.injEq, Prod.exists, takeWord_some] at h
  obtain ⟨rfl, rfl⟩ := h
  constructor
  · rfl
  · refine Eq.trans ?_ e
    simp only [Instr.opcode, EA.field, regBits_regOf, bit_getLsbD, Cond.bits_ofBits, Size.longBit_ofLongBit, countOf_field, countOf_byReg, Size.std_ofStd k1]
  · exact ⟨[], rfl, rfl⟩
  · simp [Instr.extWords]
  · exact fun _ => rfl

theorem read_aslMem {b op ws rest i} (hl : lookup b op = some .aslMem) (h : assemble .aslMem op ws = some (i, rest)) :
    ReadFrom .aslMem op ws rest i := by
  have c := row_claims 97 rfl rfl hl
  have e := fields_4_1_2_1_2_ea_eta op
  rw [show op.extractLsb' 12 4 = 0xE#4 from field_of_claims c (12, 4) rfl, show op.extractLsb' 11 1 = 0#1 from field_of_claims c (11, 1) rfl, show op.extractLsb' 9 2 = 0#2 from field_of_claims c (9, 2) rfl, show op.extractLsb' 8 1 = 1#1 from field_of_claims c (8, 1) rfl, show op.extractLsb' 6 2 = 3#2 from field_of_claims c (6, 2) rfl] at e
  simp only [Row.claims, List.all_cons, List.all_nil, Bool.and_eq_true, Check.holds, bne_iff_ne, ne_eq, decide_eq_true_eq] at c
  obtain ⟨⟨-, k1, -⟩, -⟩ := c
  simp only [assemble, withWord, withEA, withWordEA, withImmEA, withSizeEA, withLongBitEA, shiftReg, Option.bind_eq_some_iff, Option.map_eq_some_iff, Option.some.injEq, Prod.mk.injEq, Prod.exists, takeWord_some] at h
  obtain ⟨ea, _, he, rfl, rfl⟩ := h
  obtain ⟨⟨l, rfl, hl1⟩, hm, hr, hok, he3⟩ := takeEA_some he
  constructor
  · simp only [Instr.wf, hok _ k1, Bool.and_self]
  · refine Eq.trans ?_ e
    simp only [Instr.opcode, EA.field, regBits_regOf, bit_getLsbD, Cond.bits_ofBits, Size.longBit_ofLongBit, countOf_field, countOf_byReg, hm, hr]
  · exact ⟨l, rfl, hl1⟩
  · have := ea.words_length_le .w
    simp only [Instr.extWords]; omega
  · intro more
    simp only [assemble, withEA, withWordEA, withImmEA, withSizeEA, withLongBitEA, takeWord, List.cons_append, he3, Option.bind_some, Option.map_some]

theorem read_lsrReg {b op ws rest i} (hl : lookup b op = some .lsrReg) (h : assemble .lsrReg op ws = some (i, rest)) :
    ReadFrom .lsrReg op ws rest i := by
  have c := row_claims 98 rfl rfl hl
  have e := fields_4_3_1_2_1_2_3_eta op
  rw [show op.extractLsb' 12 4 = 0xE#4 from field_of_claims c (12, 4) rfl, show op.extractLsb' 8 1 = 0#1 from field_of_claims c (8, 1) rfl, show op.extractLsb' 3 2 = 1#2 from field_of_claims c (3, 2) rfl] at e
  simp only [Row.claims, List.all_cons, List.all_nil, Bool.and_eq_true, Check.holds, bne_iff_ne, ne_eq, decide_eq_true_eq] at c
  obtain ⟨⟨-, k1, -⟩, -⟩ := c
  simp only [assemble, withWord, withEA, withWordEA, withImmEA, withSizeEA, withLongBitEA, shiftReg, Option.bind_eq_some_iff, Option.map_eq_some_iff, Option.some.injEq, Prod.mk.injEq, Prod.exists, takeWord_some] at h
  obtain ⟨rfl, rfl⟩ := h
  constructor
  · rfl
  · refine Eq.trans ?_ e
    simp only [Instr.opcode, EA.field, regBits_regOf, bit_getLsbD, Cond.bits_ofBits, Size.longBit_ofLongBit, countOf_field, countOf_byReg, Size.std_ofStd k1]
  · exact ⟨[], rfl, rfl⟩
  · simp [Instr.extWords]
  · exact fun _ => rfl

theorem read_lsrMem {b op ws rest i} (hl : lookup b op = some .lsrMem) (h : assemble .lsrMem op ws = some (i, rest)) :
    ReadFrom .lsrMem op ws rest i := by
  have c := row_claims 99 rfl rfl hl
  have e := fields_4_1_2_1_2_ea_eta op
  rw [show op.extractLsb' 12 4 = 0xE#4 from field_of_claims c (12, 4) rfl, show op.extractLsb' 11 1 = 0#1 from field_of_claims c (11, 1) rfl, show op.extractLsb' 9 2 = 1#2 from field_of_claims c (9, 2) rfl, show op.extractLsb' 8 1 = 0#1 from field_of_claims c (8, 1) rfl, show op.extractLsb' 6 2 = 3#2 from field_of_claims c (6, 2) rfl] at e
  simp only [Row.claims, List.all_cons, List.all_nil, Bool.and_eq_true, Check.holds, bne_iff_ne, ne_eq, decide_eq_true_eq] at c
  obtain ⟨⟨-, k1, -⟩, -⟩ := c
  simp only [assemble, withWord, withEA, withWordEA, withImmEA, withSizeEA, withLongBitEA, shiftReg, Option.bind_eq_some_iff, Option.map_eq_some_iff, Option.some.injEq, Prod.mk.injEq, Prod.exists, takeWord_some] at h
  obtain ⟨ea, _, he, rfl, rfl⟩ := h
  obtain ⟨⟨l, rfl, hl1⟩, hm, hr, hok, he3⟩ := takeEA_some he
  constructor
  · simp only [Instr.wf, hok _ k1, Bool.and_self]
  · refine Eq.trans ?_ e
    simp only [Instr.opcode, EA.field, regBits_regOf, bit_getLsbD, Cond.bits_ofBits, Size.longBit_ofLongBit, countOf_field, countOf_byReg, hm, hr]
  · exact ⟨l, rfl, hl1⟩
  · have := ea.words_length_le .w
    simp only [Instr.extWords]; omega
  · intro more
    simp only [assemble, withEA, withWordEA, withImmEA, withSizeEA, withLongBitEA, takeWord, List.cons_append, he3, Option.bind_some, Option.map_some]

theorem read_lslReg {b op ws rest i} (hl : lookup b op = some .lslReg) (h : assemble .lslReg op ws = some (i, rest)) :
    ReadFrom .lslReg op ws rest i := by
  have c := row_claims 100 rfl rfl hl
  have e := fields_4_3_1_2_1_2_3_eta op
  rw [show op.extractLsb' 12 4 = 0xE#4 from field_of_claims c (12, 4) rfl, show op.extractLsb' 8 1 = 1#1 from field_of_claims c (8, 1) rfl, show op.extractLsb' 3 2 = 1#2 from field_of_claims c (3, 2) rfl] at e
  simp only [Row.claims, List.all_cons, List.all_nil, Bool.and_eq_true, Check.holds, bne_iff_ne, ne_eq, decide_eq_true_eq] at c
  obtain ⟨⟨-, k1, -⟩, -⟩ := c
  simp only [assemble, withWord, withEA, withWordEA, withImmEA, withSizeEA, withLongBitEA, shiftReg, Option.bind_eq_some_iff, Option.map_eq_some_iff, Option.some.injEq, Prod.mk.injEq, Prod.exists, takeWord_some] at h
  obtain ⟨rfl, rfl⟩ := h
  constructor
  · rfl
  · refine Eq.trans ?_ e
    simp only [Instr.opcode, EA.field, regBits_regOf, bit_getLsbD, Cond.bits_ofBits, Size.longBit_ofLongBit, countOf_field, countOf_byReg, Size.std_ofStd k1]
  · exact ⟨[], rfl, rfl⟩
  · simp [Instr.extWords]
  · exact fun _ => rfl

theorem read_lslMem {b op ws rest i} (hl : lookup b op = some .lslMem) (h : assemble .lslMem op ws = some (i, rest)) :
    ReadFrom .lslMem op ws rest i := by
  have c := row_claims 101 rfl rfl hl
  have e := fields_4_1_2_1_2_ea_eta op
  rw [show op.extractLsb' 12 4 = 0xE#4 from field_of_claims c (12, 4) rfl, show op.extractLsb' 11 1 = 0#1 from field_of_claims c (11, 1) rfl, show op.extractLsb' 9 2 = 1#2 from field_of_claims c (9, 2) rfl, show op.extractLsb' 8 1 = 1#1 from field_of_claims c (8, 1) rfl, show op.extractLsb' 6 2 = 3#2 from field_of_claims c (6, 2) rfl] at e
  simp only [Row.claims, List.all_cons, List.all_nil, Bool.and_eq_true, Check.holds, bne_iff_ne, ne_eq, decide_eq_true_eq] at c
  obtain ⟨⟨-, k1, -⟩, -⟩ := c
  simp only [assemble, withWord, withEA, withWordEA, withImmEA, withSizeEA, withLongBitEA, shiftReg, Option.bind_eq_some_iff, Option.map_eq_some_iff, Option.some.injEq, Prod.mk.injEq, Prod.exists, takeWord_some] at h
  obtain ⟨ea, _, he, rfl, rfl⟩ := h
  obtain ⟨⟨l, rfl, hl1⟩, hm, hr, hok, he3⟩ := takeEA_some he
  constructor
  · simp only [Instr.wf, hok _ k1, Bool.and_self]
  · refine Eq.trans ?_ e
    simp only [Instr.opcode, EA.field, regBits_regOf, bit_getLsbD, Cond.bits_ofBits, Size.longBit_ofLongBit, countOf_field, countOf_byReg, hm, hr]
  · exact ⟨l, rfl, hl1⟩
  · have := ea.words_length_le .w
    simp only [Instr.extWords]; omega
  · intro more
    simp only [assemble, withEA, withWordEA, withImmEA, withSizeEA, withLongBitEA, takeWord, List.cons_append, he3, Option.bind_some, Option.map_some]

theorem read_roxrReg {b op ws rest i} (hl : lookup b op = some .roxrReg) (h : assemble .roxrReg op ws = some (i, rest)) :
    ReadFrom .roxrReg op ws rest i := by
  have c := row_claims 102 rfl rfl hl
  have e := fields_4_3_1_2_1_2_3_eta op
  rw [show op.extractLsb' 12 4 = 0xE#4 from field_of_claims c (12, 4) rfl, show op.extractLsb' 8 1 = 0#1 from field_of_claims c (8, 1) rfl, show op.extractLsb' 3 2 = 2#2 from field_of_claims c (3, 2) rfl] at e
  simp only [Row.claims, List.all_cons, List.all_nil, Bool.and_eq_true, Check.holds, bne_iff_ne, ne_eq, decide_eq_true_eq] at c
  obtain ⟨⟨-, k1, -⟩, -⟩ := c
  simp only [assemble, withWord, withEA, withWordEA, withImmEA, withSizeEA, withLongBitEA, shiftReg, Option.bind_eq_some_iff, Option.map_eq_some_iff, Option.some.injEq, Prod.mk.injEq, Prod.exists, takeWord_some] at h
  obtain ⟨rfl, rfl⟩ := h
  constructor
  · rfl
  · refine Eq.trans ?_ e
    simp only [Instr.opcode, EA.field, regBits_regOf, bit_getLsbD, Cond.bits_ofBits, Size.longBit_ofLongBit, countOf_field, countOf_byReg, Size.std_ofStd k1]
  · exact ⟨[], rfl, rfl⟩
  · simp [Instr.extWords]
  · exact fun _ => rfl

theorem read_roxrMem {b op ws rest i} (hl : lookup b op = some .roxrMem) (h : assemble .roxrMem op ws = some (i, rest)) :
    ReadFrom .roxrMem op ws rest i := by
  have c := row_claims 103 rfl rfl hl
  have e := fields_4_1_2_1_2_ea_eta op
  rw [show op.extractLsb' 12 4 = 0xE#4 from field_of_claims c (12, 4) rfl, show op.extractLsb' 11 1 = 0#1 from field_of_claims c (11, 1) rfl, show op.extractLsb' 9 2 = 2#2 from field_of_claims c (9, 2) rfl, show op.extractLsb' 8 1 = 0#1 from field_of_claims c (8, 1) rfl, show op.extractLsb' 6 2 = 3#2 from field_of_claims c (6, 2) rfl] at e
  simp only [Row.claims, List.all_cons, List.all_nil, Bool.and_eq_true, Check.holds, bne_iff_ne, ne_eq, decide_eq_true_eq] at c
  obtain ⟨⟨-, k1, -⟩, -⟩ := c
  simp only [assemble, withWord, withEA, withWordEA, withImmEA, withSizeEA, withLongBitEA, shiftReg, Option.bind_eq_some_iff, Option.map_eq_some_iff, Option.some.injEq, Prod.mk.injEq, Prod.exists, takeWord_some] at h
  obtain ⟨ea, _, he, rfl, rfl⟩ := h
  obtain ⟨⟨l, rfl, hl1⟩, hm, hr, hok, he3⟩ := takeEA_some he
  constructor
  · simp only [Instr.wf, hok _ k1, Bool.and_self]
  · refine Eq.trans ?_ e
    simp only [Instr.opcode, EA.field, regBits_regOf, bit_getLsbD, Cond.bits_ofBits, Size.longBit_ofLongBit, countOf_field, countOf_byReg, hm, hr]
  · exact ⟨l, rfl, hl1⟩
  · have := ea.words_length_le .w
    simp only [Instr.extWords]; omega
  · intro more
    simp only [assemble, withEA, withWordEA, withImmEA, withSizeEA, withLongBitEA, takeWord, List.cons_append, he3, Option.bind_some, Option.map_some]

theorem read_roxlReg {b op ws rest i} (hl : lookup b op = some .roxlReg) (h : assemble .roxlReg op ws = some (i, rest)) :
    ReadFrom .roxlReg op ws rest i := by
  have c := row_claims 104 rfl rfl hl
  have e := fields_4_3_1_2_1_2_3_eta op
  rw [show op.extractLsb' 12 4 = 0xE#4 from field_of_claims c (12, 4) rfl, show op.extractLsb' 8 1 = 1#1 from field_of_claims c (8, 1) rfl, show op.extractLsb' 3 2 = 2#2 from field_of_claims c (3, 2) rfl] at e
  simp only [Row.claims, List.all_cons, List.all_nil, Bool.and_eq_true, Check.holds, bne_iff_ne, ne_eq, decide_eq_true_eq] at c
  obtain ⟨⟨-, k1, -⟩, -⟩ := c
  simp only [assemble, withWord, withEA, withWordEA, withImmEA, withSizeEA, withLongBitEA, shiftReg, Option.bind_eq_some_iff, Option.map_eq_some_iff, Option.some.injEq, Prod.mk.injEq, Prod.exists, takeWord_some] at h
  obtain ⟨rfl, rfl⟩ := h
  constructor
  · rfl
  · refine Eq.trans ?_ e
    simp only [Instr.opcode, EA.field, regBits_regOf, bit_getLsbD, Cond.bits_ofBits, Size.longBit_ofLongBit, countOf_field, countOf_byReg, Size.std_ofStd k1]
  · exact ⟨[], rfl, rfl⟩
  · simp [Instr.extWords]
  · exact fun _ => rfl

theorem read_roxlMem {b op ws rest i} (hl : lookup b op = some .roxlMem) (h : assemble .roxlMem op ws = some (i, rest)) :
    ReadFrom .roxlMem op ws rest i := by
  have c := row_claims 105 rfl rfl hl
  have e := fields_4_1_2_1_2_ea_eta op
  rw [show op.extractLsb' 12 4 = 0xE#4 from field_of_claims c (12, 4) rfl, show op.extractLsb' 11 1 = 0#1 from field_of_claims c (11, 1) rfl, show op.extractLsb' 9 2 = 2#2 from field_of_claims c (9, 2) rfl, show op.extractLsb' 8 1 = 1#1 from field_of_claims c (8, 1) rfl, show op.extractLsb' 6 2 = 3#2 from field_of_claims c (6, 2) rfl] at e
  simp only [Row.claims, List.all_cons, List.all_nil, Bool.and_eq_true, Check.holds, bne_iff_ne, ne_eq, decide_eq_true_eq] at c
  obtain ⟨⟨-, k1, -⟩, -⟩ := c
  simp only [assemble, withWord, withEA, withWordEA, withImmEA, withSizeEA, withLongBitEA, shiftReg, Option.bind_eq_some_iff, Option.map_eq_some_iff, Option.some.injEq, Prod.mk.injEq, Prod.exists, takeWord_some] at h
  obtain ⟨ea, _, he, rfl, rfl⟩ := h
  obtain ⟨⟨l, rfl, hl1⟩, hm, hr, hok, he3⟩ := takeEA_some he
  constructor
  · simp only [Instr.wf, hok _ k1, Bool.and_self]
  · refine Eq.trans ?_ e
    simp only [Instr.opcode, EA.field, regBits_regOf, bit_getLsbD, Cond.bits_ofBits, Size.longBit_ofLongBit, countOf_field, countOf_byReg, hm, hr]
  · exact ⟨l, rfl, hl1⟩
  · have := ea.words_length_le .w
    simp only [Instr.extWords]; omega
  · intro more
    simp only [assemble, withEA, withWordEA, withImmEA, withSizeEA, withLongBitEA, takeWord, List.cons_append, he3, Option.bind_some, Option.map_some]

theorem read_rorReg {b op ws rest i} (hl : lookup b op = some .rorReg) (h : assemble .rorReg op ws = some (i, rest)) :
    ReadFrom .rorReg op ws rest i := by
  have c := row_claims 106 rfl rfl hl
  have e := fields_4_3_1_2_1_2_3_eta op
  rw [show op.extractLsb' 12 4 = 0xE#4 from field_of_claims c (12, 4) rfl, show op.extractLsb' 8 1 = 0#1 from field_of_claims c (8, 1) rfl, show op.extractLsb' 3 2 = 3#2 from field_of_claims c (3, 2) rfl] at e
  simp only [Row.claims, List.all_cons, List.all_nil, Bool.and_eq_true, Check.holds, bne_iff_ne, ne_eq, decide_eq_true_eq] at c
  obtain ⟨⟨-, k1, -⟩, -⟩ := c
  simp only [assemble, withWord, withEA, withWordEA, withImmEA, withSizeEA, withLongBitEA, shiftReg, Option.bind_eq_some_iff, Option.map_eq_some_iff, Option.some.injEq, Prod.mk.injEq, Prod.exists, takeWord_some] at h
  obtain ⟨rfl, rfl⟩ := h
  constructor
  · rfl
  · refine Eq.trans ?_ e
    simp only [Instr.opcode, EA.field, regBits_regOf, bit_getLsbD, Cond.bits_ofBits, Size.longBit_ofLongBit, countOf_field, countOf_byReg, Size.std_ofStd k1]
  · exact ⟨[], rfl, rfl⟩
  · simp [Instr.extWords]
  · exact fun _ => rfl

theorem read_rorMem {b op ws rest i} (hl : lookup b op = some .rorMem) (h : assemble .rorMem op ws = some (i, rest)) :
    ReadFrom .rorMem op ws rest i := by
  have c := row_claims 107 rfl rfl hl
  have e := fields_4_1_2_1_2_ea_eta op
  rw [show op.extractLsb' 12 4 = 0xE#4 from field_of_claims c (12, 4) rfl, show op.extractLsb' 11 1 = 0#1 from field_of_claims c (11, 1) rfl, show op.extractLsb' 9 2 = 3#2 from field_of_claims c (9, 2) rfl, show op.extractLsb' 8 1 = 0#1 from field_of_claims c (8, 1) rfl, show op.extractLsb' 6 2 = 3#2 from field_of_claims c (6, 2) rfl] at e
  simp only [Row.claims, List.all_cons, List.all_nil, Bool.and_eq_true, Check.holds, bne_iff_ne, ne_eq, decide_eq_true_eq] at c
  obtain ⟨⟨-, k1, -⟩, -⟩ := c
  simp only [assemble, withWord, withEA, withWordEA, withImmEA, withSizeEA, withLongBitEA, shiftReg, Option.bind_eq_some_iff, Option.map_eq_some_iff, Option.some.injEq, Prod.mk.injEq, Prod.exists, takeWord_some] at h
  obtain ⟨ea, _, he, rfl, rfl⟩ := h
  obtain ⟨⟨l, rfl, hl1⟩, hm, hr, hok, he3⟩ := takeEA_some he
  constructor
  · simp only [Instr.wf, hok _ k1, Bool.and_self]
  · refine Eq.trans ?_ e
    simp only [Instr.opcode, EA.field, regBits_regOf, bit_getLsbD, Cond.bits_ofBits, Size.longBit_ofLongBit, countOf_field, countOf_byReg, hm, hr]
  · exact ⟨l, rfl, hl1⟩
  · have := ea.words_length_le .w
    simp only [Instr.extWords]; omega
  · intro more
    simp only [assemble, withEA, withWordEA, withImmEA, withSizeEA, withLongBitEA, takeWord, List.cons_append, he3, Option.bind_some, Option.map_some]

theorem read_rolReg {b op ws rest i} (hl : lookup b op = some .rolReg) (h : assemble .rolReg op ws = some (i, rest)) :
    ReadFrom .rolReg op ws rest i := by
  have c := row_claims 108 rfl rfl hl
  have e := fields_4_3_1_2_1_2_3_eta op
  rw [show op.extractLsb' 12 4 = 0xE#4 from field_of_claims c (12, 4) rfl, show op.extractLsb' 8 1 = 1#1 from field_of_claims c (8, 1) rfl, show op.extractLsb' 3 2 = 3#2 from field_of_claims c (3, 2) rfl] at e
  simp only [Row.claims, List.all_cons, List.all_nil, Bool.and_eq_true, Check.holds, bne_iff_ne, ne_eq, decide_eq_true_eq] at c
  obtain ⟨⟨-, k1, -⟩, -⟩ := c
  simp only [assemble, withWord, withEA, withWordEA, withImmEA, withSizeEA, withLongBitEA, shiftReg, Option.bind_eq_some_iff, Option.map_eq_some_iff, Option.some.injEq, Prod.mk.injEq, Prod.exists, takeWord_some] at h
  obtain ⟨rfl, rfl⟩ := h
  constructor
  · rfl
  · refine Eq.trans ?_ e
    simp only [Instr.opcode, EA.field, regBits_regOf, bit_getLsbD, Cond.bits_ofBits, Size.longBit_ofLongBit, countOf_field, countOf_byReg, Size.std_ofStd k1]
  · exact ⟨[], rfl, rfl⟩
  · simp [Instr.extWords]
  · exact fun _ => rfl

theorem read_rolMem {b op ws rest i} (hl : lookup b op = some .rolMem) (h : assemble .rolMem op ws = some (i, rest)) :
    ReadFrom .rolMem op ws rest i := by
  have c := row_claims 109 rfl rfl hl
  have e := fields_4_1_2_1_2_ea_eta op
  rw [show op.extractLsb' 12 4 = 0xE#4 from field_of_claims c (12, 4) rfl, show op.extractLsb' 11 1 = 0#1 from field_of_claims c (11, 1) rfl, show op.extractLsb' 9 2 = 3#2 from field_of_claims c (9, 2) rfl, show op.extractLsb' 8 1 = 1#1 from field_of_claims c (8, 1) rfl, show op.extractLsb' 6 2 = 3#2 from field_of_claims c (6, 2) rfl] at e
  simp only [Row.claims, List.all_cons, List.all_nil, Bool.and_eq_true, Check.holds, bne_iff_ne, ne_eq, decide_eq_true_eq] at c
  obtain ⟨⟨-, k1, -⟩, -⟩ := c
  simp only [assemble, withWord, withEA, withWordEA, withImmEA, withSizeEA, withLongBitEA, shiftReg, Option.bind_eq_some_iff, Option.map_eq_some_iff, Option.some.injEq, Prod.mk.injEq, Prod.exists, takeWord_some] at h
  obtain ⟨ea, _, he, rfl, rfl⟩ := h
  obtain ⟨⟨l, rfl, hl1⟩, hm, hr, hok, he3⟩ := takeEA_some he
  constructor
  · simp only [Instr.wf, hok _ k1, Bool.and_self]
  · refine Eq.trans ?_ e
    simp only [Instr.opcode, EA.field, regBits_regOf, bit_getLsbD, Cond.bits_ofBits, Size.longBit_ofLongBit, countOf_field, countOf_byReg, hm, hr]
  · exact ⟨l, rfl, hl1⟩
  · have := ea.words_length_le .w
    simp only [Instr.extWords]; omega
  · intro more
    simp only [assemble, withEA, withWordEA, withImmEA, withSizeEA, withLongBitEA, takeWord, List.cons_append, he3, Option.bind_some, Option.map_some]

/-- What the decoder reads is an instruction of the word it was read from. -/
theorem readFrom {m b op ws rest i} (hl : lookup b op = some m) (h : assemble m op ws = some (i, rest)) :
    ReadFrom m op ws rest i :=
  match m, hl, h with
  | .oriToCcr, hl, h => read_oriToCcr hl h
  | .oriToSr, hl, h => read_oriToSr hl h
  | .ori, hl, h => read_ori hl h
  | .andiToCcr, hl, h => read_andiToCcr hl h
  | .andiToSr, hl, h => read_andiToSr hl h
  | .andi, hl, h => read_andi hl h
  | .subi, hl, h => read_subi hl h
  | .addi, hl, h => read_addi hl h
  | .eoriToCcr, hl, h => read_eoriToCcr hl h
  | .eoriToSr, hl, h => read_eoriToSr hl h
  | .eori, hl, h => read_eori hl h
  | .cmpi, hl, h => read_cmpi hl h
  | .btstImm, hl, h => read_btstImm hl h
  | .bchgImm, hl, h => read_bchgImm hl h
  | .bclrImm, hl, h => read_bclrImm hl h
  | .bsetImm, hl, h => read_bsetImm hl h
  | .btstDn, hl, h => read_btstDn hl h
  | .bchgDn, hl, h => read_bchgDn hl h
  | .bclrDn, hl, h => read_bclrDn hl h
  | .bsetDn, hl, h => read_bsetDn hl h
  | .movep, hl, h => read_movep hl h
  | .cas, hl, h => read_cas hl h
  | .move, hl, h => read_move hl h
  | .movea, hl, h => read_movea hl h
  | .negx, hl, h => read_negx hl h
  | .moveFromSr, hl, h => read_moveFromSr hl h
  | .chk, hl, h => read_chk hl h
  | .lea, hl, h => read_lea hl h
  | .clr, hl, h => read_clr hl h
  | .moveFromCcr, hl, h => read_moveFromCcr hl h
  | .neg, hl, h => read_neg hl h
  | .moveToCcr, hl, h => read_moveToCcr hl h
  | .not, hl, h => read_not hl h
  | .moveToSr, hl, h => read_moveToSr hl h
  | .nbcd, hl, h => read_nbcd hl h
  | .swap, hl, h => read_swap hl h
  | .pea, hl, h => read_pea hl h
  | .extW, hl, h => read_extW hl h
  | .extL, hl, h => read_extL hl h
  | .movemToMem, hl, h => read_movemToMem hl h
  | .tst, hl, h => read_tst hl h
  | .tas, hl, h => read_tas hl h
  | .illegal, hl, h => read_illegal hl h
  | .mull, hl, h => read_mull hl h
  | .divl, hl, h => read_divl hl h
  | .movemToReg, hl, h => read_movemToReg hl h
  | .trap, hl, h => read_trap hl h
  | .link, hl, h => read_link hl h
  | .unlk, hl, h => read_unlk hl h
  | .moveToUsp, hl, h => read_moveToUsp hl h
  | .moveFromUsp, hl, h => read_moveFromUsp hl h
  | .reset, hl, h => read_reset hl h
  | .nop, hl, h => read_nop hl h
  | .stop, hl, h => read_stop hl h
  | .rte, hl, h => read_rte hl h
  | .rts, hl, h => read_rts hl h
  | .trapv, hl, h => read_trapv hl h
  | .rtr, hl, h => read_rtr hl h
  | .jsr, hl, h => read_jsr hl h
  | .jmp, hl, h => read_jmp hl h
  | .addq, hl, h => read_addq hl h
  | .subq, hl, h => read_subq hl h
  | .scc, hl, h => read_scc hl h
  | .dbcc, hl, h => read_dbcc hl h
  | .trapcc, hl, h => read_trapcc hl h
  | .bra, hl, h => read_bra hl h
  | .bsr, hl, h => read_bsr hl h
  | .bcc, hl, h => read_bcc hl h
  | .moveq, hl, h => read_moveq hl h
  | .divuW, hl, h => read_divuW hl h
  | .divsW, hl, h => read_divsW hl h
  | .sbcd, hl, h => read_sbcd hl h
  | .orEaDn, hl, h => read_orEaDn hl h
  | .orDnEa, hl, h => read_orDnEa hl h
  | .subEaDn, hl, h => read_subEaDn hl h
  | .subDnEa, hl, h => read_subDnEa hl h
  | .suba, hl, h => read_suba hl h
  | .subx, hl, h => read_subx hl h
  | .cmp, hl, h => read_cmp hl h
  | .cmpa, hl, h => read_cmpa hl h
  | .eor, hl, h => read_eor hl h
  | .cmpm, hl, h => read_cmpm hl h
  | .muluW, hl, h => read_muluW hl h
  | .mulsW, hl, h => read_mulsW hl h
  | .abcd, hl, h => read_abcd hl h
  | .exgDD, hl, h => read_exgDD hl h
  | .exgAA, hl, h => read_exgAA hl h
  | .exgDA, hl, h => read_exgDA hl h
  | .andEaDn, hl, h => read_andEaDn hl h
  | .andDnEa, hl, h => read_andDnEa hl h
  | .addEaDn, hl, h => read_addEaDn hl h
  | .addDnEa, hl, h => read_addDnEa hl h
  | .adda, hl, h => read_adda hl h
  | .addx, hl, h => read_addx hl h
  | .asrReg, hl, h => read_asrReg hl h
  | .asrMem, hl, h => read_asrMem hl h
  | .aslReg, hl, h => read_aslReg hl h
  | .aslMem, hl, h => read_aslMem hl h
  | .lsrReg, hl, h => read_lsrReg hl h
  | .lsrMem, hl, h => read_lsrMem hl h
  | .lslReg, hl, h => read_lslReg hl h
  | .lslMem, hl, h => read_lslMem hl h
  | .roxrReg, hl, h => read_roxrReg hl h
  | .roxrMem, hl, h => read_roxrMem hl h
  | .roxlReg, hl, h => read_roxlReg hl h
  | .roxlMem, hl, h => read_roxlMem hl h
  | .rorReg, hl, h => read_rorReg hl h
  | .rorMem, hl, h => read_rorMem hl h
  | .rolReg, hl, h => read_rolReg hl h
  | .rolMem, hl, h => read_rolMem hl h

/-! ## Enough words -/

theorem takeEA_avail {c : EAClass} {m r : BitVec 3} (hc : c.admits m r = true) {sz : Size} {ws : List Word} (h : 2 ≤ ws.length) :
    ∃ e r', takeEA m r sz ws = some (e, r') ∧ ws.length ≤ r'.length + 2 := by
  have some' : ∃ x, takeEA m r sz ws = some x := by
    rcases ws with _ | ⟨a, _ | ⟨b, ws⟩⟩
    · simp at h
    · simp at h
    have imm : ∃ x, takeImm sz (a :: b :: ws) = some x := by cases sz <;> exact ⟨_, rfl⟩
    obtain ⟨x, hx⟩ := imm
    have all : ∀ m r : BitVec 3, (∃ x, takeEA m r sz (a :: b :: ws) = some x) ∨ (m = 7#3 ∧ 5 ≤ r.toNat) := by
      intro m r
      have split8 : ∀ x : BitVec 3, x = 0#3 ∨ x = 1#3 ∨ x = 2#3 ∨ x = 3#3 ∨ x = 4#3 ∨ x = 5#3 ∨ x = 6#3 ∨ x = 7#3 := by decide
      rcases split8 m with rfl|rfl|rfl|rfl|rfl|rfl|rfl|rfl
      case inr.inr.inr.inr.inr.inr.inr =>
        rcases split8 r with rfl|rfl|rfl|rfl|rfl|rfl|rfl|rfl <;> first
          | exact .inr ⟨rfl, by decide⟩
          | exact .inl ⟨_, rfl⟩
          | exact .inl ⟨_, congrArg (Option.map _) hx⟩
      all_goals exact .inl ⟨_, rfl⟩
    rcases all m r with h | ⟨rfl, hr⟩
    · exact h
    · exfalso
      revert hc hr
      clear hx
      cases c <;> revert r <;> decide
  obtain ⟨⟨e, r'⟩, hx⟩ := some'
  obtain ⟨⟨l, rfl, hl⟩, -⟩ := takeEA_some hx
  have := e.words_length_le sz
  exact ⟨e, r', hx, by simp; omega⟩
theorem withEA_avail {c : EAClass} {op : Word} (hc : c.admits (op.extractLsb' 3 3) (op.extractLsb' 0 3) = true) {sz : Size}
    {ws : List Word} (h : 4 ≤ ws.length) (k : EA → Instr) : ∃ x, withEA op sz ws k = some x := by
  obtain ⟨e, r, h1, -⟩ := takeEA_avail hc (sz := sz) (Nat.le_trans (by decide) h)
  simp only [withEA, h1, Option.map_some]
  exact ⟨_, rfl⟩
theorem withWordEA_avail {c : EAClass} {op : Word} (hc : c.admits (op.extractLsb' 3 3) (op.extractLsb' 0 3) = true) {sz : Size}
    {ws : List Word} (h : 4 ≤ ws.length) (k : Word → EA → Instr) : ∃ x, withWordEA op sz ws k = some x := by
  rcases ws with _ | ⟨a, ws⟩
  · simp at h
  · obtain ⟨e, r, h1, -⟩ := takeEA_avail hc (sz := sz) (ws := ws) (by simp at h; omega)
    simp only [withWordEA, withEA, takeWord, h1, Option.bind_some, Option.map_some]
    exact ⟨_, rfl⟩
theorem withImmEA_avail {c : EAClass} {op : Word} (hc : c.admits (op.extractLsb' 3 3) (op.extractLsb' 0 3) = true)
    {ws : List Word} (h : 4 ≤ ws.length) (k : Size → Long → EA → Instr) : ∃ x, withImmEA op ws k = some x := by
  rcases ws with _ | ⟨a, _ | ⟨b, ws⟩⟩
  · simp at h
  · simp at h
  have imm : ∃ v r, takeImm (Size.ofStd (op.extractLsb' 6 2)) (a :: b :: ws) = some (v, r) := by
    cases Size.ofStd (op.extractLsb' 6 2) <;> exact ⟨_, _, rfl⟩
  obtain ⟨v, r, hi⟩ := imm
  obtain ⟨⟨l, hl, hn⟩, -⟩ := takeImm_some hi
  have := immWords_length_le (Size.ofStd (op.extractLsb' 6 2)) v
  have hlen := congrArg List.length hl
  simp at hlen h
  obtain ⟨e, r', h1, -⟩ := takeEA_avail hc (sz := Size.ofStd (op.extractLsb' 6 2)) (ws := r) (by omega)
  simp only [withImmEA, withEA, hi, h1, Option.bind_some, Option.map_some]
  exact ⟨_, rfl⟩
theorem withWord_avail {ws : List Word} (h : 4 ≤ ws.length) (k : Word → Instr) : ∃ x, withWord ws k = some x := by
  rcases ws with _ | ⟨a, ws⟩
  · simp at h
  · exact ⟨_, rfl⟩
theorem withBranchDisp_avail {op : Word} {ws : List Word} (h : 4 ≤ ws.length) (k : BranchDisp → Instr) : ∃ x, withBranchDisp op ws k = some x := by
  unfold withBranchDisp
  split
  · exact withWord_avail h fun w => k (.word w)
  · exact ⟨_, rfl⟩

theorem avail_oriToCcr {b op ws} (hl : lookup b op = some .oriToCcr) (h : 4 ≤ ws.length) : ∃ x, assemble .oriToCcr op ws = some x := by
  simp only [assemble]
  exact withWord_avail h _

theorem avail_oriToSr {b op ws} (hl : lookup b op = some .oriToSr) (h : 4 ≤ ws.length) : ∃ x, assemble .oriToSr op ws = some x := by
  simp only [assemble]
  exact withWord_avail h _

theorem avail_ori {b op ws} (hl : lookup b op = some .ori) (h : 4 ≤ ws.length) : ∃ x, assemble .ori op ws = some x := by
  have c := row_claims 2 rfl rfl hl
  simp only [Row.claims, List.all_cons, List.all_nil, Bool.and_eq_true, Check.holds] at c
  obtain ⟨⟨-, k1, k2, -⟩, -⟩ := c
  exact withImmEA_avail k2 h _

theorem avail_andiToCcr {b op ws} (hl : lookup b op = some .andiToCcr) (h : 4 ≤ ws.length) : ∃ x, assemble .andiToCcr op ws = some x := by
  simp only [assemble]
  exact withWord_avail h _

theorem avail_andiToSr {b op ws} (hl : lookup b op = some .andiToSr) (h : 4 ≤ ws.length) : ∃ x, assemble .andiToSr op ws = some x := by
  simp only [assemble]
  exact withWord_avail h _

theorem avail_andi {b op ws} (hl : lookup b op = some .andi) (h : 4 ≤ ws.length) : ∃ x, assemble .andi op ws = some x := by
  have c := row_claims 5 rfl rfl hl
  simp only [Row.claims, List.all_cons, List.all_nil, Bool.and_eq_true, Check.holds] at c
  obtain ⟨⟨-, k1, k2, -⟩, -⟩ := c
  exact withImmEA_avail k2 h _

theorem avail_subi {b op ws} (hl : lookup b op = some .subi) (h : 4 ≤ ws.length) : ∃ x, assemble .subi op ws = some x := by
  have c := row_claims 6 rfl rfl hl
  simp only [Row.claims, List.all_cons, List.all_nil, Bool.and_eq_true, Check.holds] at c
  obtain ⟨⟨-, k1, k2, -⟩, -⟩ := c
  exact withImmEA_avail k2 h _

theorem avail_addi {b op ws} (hl : lookup b op = some .addi) (h : 4 ≤ ws.length) : ∃ x, assemble .addi op ws = some x := by
  have c := row_claims 7 rfl rfl hl
  simp only [Row.claims, List.all_cons, List.all_nil, Bool.and_eq_true, Check.holds] at c
  obtain ⟨⟨-, k1, k2, -⟩, -⟩ := c
  exact withImmEA_avail k2 h _

theorem avail_eoriToCcr {b op ws} (hl : lookup b op = some .eoriToCcr) (h : 4 ≤ ws.length) : ∃ x, assemble .eoriToCcr op ws = some x := by
  simp only [assemble]
  exact withWord_avail h _

theorem avail_eoriToSr {b op ws} (hl : lookup b op = some .eoriToSr) (h : 4 ≤ ws.length) : ∃ x, assemble .eoriToSr op ws = some x := by
  simp only [assemble]
  exact withWord_avail h _

theorem avail_eori {b op ws} (hl : lookup b op = some .eori) (h : 4 ≤ ws.length) : ∃ x, assemble .eori op ws = some x := by
  have c := row_claims 10 rfl rfl hl
  simp only [Row.claims, List.all_cons, List.all_nil, Bool.and_eq_true, Check.holds] at c
  obtain ⟨⟨-, k1, k2, -⟩, -⟩ := c
  exact withImmEA_avail k2 h _

theorem avail_cmpi {b op ws} (hl : lookup b op = some .cmpi) (h : 4 ≤ ws.length) : ∃ x, assemble .cmpi op ws = some x := by
  have c := row_claims 11 rfl rfl hl
  simp only [Row.claims, List.all_cons, List.all_nil, Bool.and_eq_true, Check.holds] at c
  obtain ⟨⟨-, k1, k2, -⟩, -⟩ := c
  exact withImmEA_avail k2 h _

theorem avail_btstImm {b op ws} (hl : lookup b op = some .btstImm) (h : 4 ≤ ws.length) : ∃ x, assemble .btstImm op ws = some x := by
  have c := row_claims 12 rfl rfl hl
  simp only [Row.claims, List.all_cons, List.all_nil, Bool.and_eq_true, Check.holds] at c
  obtain ⟨⟨-, k1, -⟩, -⟩ := c
  simp only [assemble]
  exact withWordEA_avail k1 h _

theorem avail_bchgImm {b op ws} (hl : lookup b op = some .bchgImm) (h : 4 ≤ ws.length) : ∃ x, assemble .bchgImm op ws = some x := by
  have c := row_claims 13 rfl rfl hl
  simp only [Row.claims, List.all_cons, List.all_nil, Bool.and_eq_true, Check.holds] at c
  obtain ⟨⟨-, k1, -⟩, -⟩ := c
  simp only [assemble]
  exact withWordEA_avail k1 h _

theorem avail_bclrImm {b op ws} (hl : lookup b op = some .bclrImm) (h : 4 ≤ ws.length) : ∃ x, assemble .bclrImm op ws = some x := by
  have c := row_claims 14 rfl rfl hl
  simp only [Row.claims, List.all_cons, List.all_nil, Bool.and_eq_true, Check.holds] at c
  obtain ⟨⟨-, k1, -⟩, -⟩ := c
  simp only [assemble]
  exact withWordEA_avail k1 h _

theorem avail_bsetImm {b op ws} (hl : lookup b op = some .bsetImm) (h : 4 ≤ ws.length) : ∃ x, assemble .bsetImm op ws = some x := by
  have c := row_claims 15 rfl rfl hl
  simp only [Row.claims, List.all_cons, List.all_nil, Bool.and_eq_true, Check.holds] at c
  obtain ⟨⟨-, k1, -⟩, -⟩ := c
  simp only [assemble]
  exact withWordEA_avail k1 h _

theorem avail_btstDn {b op ws} (hl : lookup b op = some .btstDn) (h : 4 ≤ ws.length) : ∃ x, assemble .btstDn op ws = some x := by
  have c := row_claims 16 rfl rfl hl
  simp only [Row.claims, List.all_cons, List.all_nil, Bool.and_eq_true, Check.holds] at c
  obtain ⟨⟨-, k1, -⟩, -⟩ := c
  simp only [assemble, withSizeEA, withLongBitEA]
  exact withEA_avail k1 h _

theorem avail_bchgDn {b op ws} (hl : lookup b op = some .bchgDn) (h : 4 ≤ ws.length) : ∃ x, assemble .bchgDn op ws = some x := by
  have c := row_claims 17 rfl rfl hl
  simp only [Row.claims, List.all_cons, List.all_nil, Bool.and_eq_true, Check.holds] at c
  obtain ⟨⟨-, k1, -⟩, -⟩ := c
  simp only [assemble, withSizeEA, withLongBitEA]
  exact withEA_avail k1 h _

theorem avail_bclrDn {b op ws} (hl : lookup b op = some .bclrDn) (h : 4 ≤ ws.length) : ∃ x, assemble .bclrDn op ws = some x := by
  have c := row_claims 18 rfl rfl hl
  simp only [Row.claims, List.all_cons, List.all_nil, Bool.and_eq_true, Check.holds] at c
  obtain ⟨⟨-, k1, -⟩, -⟩ := c
  simp only [assemble, withSizeEA, withLongBitEA]
  exact withEA_avail k1 h _

theorem avail_bsetDn {b op ws} (hl : lookup b op = some .bsetDn) (h : 4 ≤ ws.length) : ∃ x, assemble .bsetDn op ws = some x := by
  have c := row_claims 19 rfl rfl hl
  simp only [Row.claims, List.all_cons, List.all_nil, Bool.and_eq_true, Check.holds] at c
  obtain ⟨⟨-, k1, -⟩, -⟩ := c
  simp only [assemble, withSizeEA, withLongBitEA]
  exact withEA_avail k1 h _

theorem avail_movep {b op ws} (hl : lookup b op = some .movep) (h : 4 ≤ ws.length) : ∃ x, assemble .movep op ws = some x := by
  simp only [assemble]
  exact withWord_avail h _

theorem avail_cas {b op ws} (hl : lookup b op = some .cas) (h : 4 ≤ ws.length) : ∃ x, assemble .cas op ws = some x := by
  have c := row_claims 21 rfl rfl hl
  simp only [Row.claims, List.all_cons, List.all_nil, Bool.and_eq_true, Check.holds] at c
  obtain ⟨⟨-, k1, k2, -⟩, -⟩ := c
  simp only [assemble]
  exact withWordEA_avail k2 h _

theorem avail_move {b op ws} (hl : lookup b op = some .move) (h : 4 ≤ ws.length) : ∃ x, assemble .move op ws = some x := by
  have c := row_claims 22 rfl rfl hl
  simp only [Row.claims, List.all_cons, List.all_nil, Bool.and_eq_true, Check.holds] at c
  obtain ⟨⟨-, k1, k2, k3, -⟩, -⟩ := c
  obtain ⟨e, r, h1, h2⟩ := takeEA_avail k2 (sz := Size.ofMove (op.extractLsb' 12 2)) (Nat.le_trans (by decide) h)
  obtain ⟨e', r', h3, -⟩ := takeEA_avail k3 (sz := Size.ofMove (op.extractLsb' 12 2)) (ws := r) (by omega)
  simp only [assemble, h1, h3, Option.bind_some, Option.map_some]
  exact ⟨_, rfl⟩

theorem avail_movea {b op ws} (hl : lookup b op = some .movea) (h : 4 ≤ ws.length) : ∃ x, assemble .movea op ws = some x := by
  have c := row_claims 23 rfl rfl hl
  simp only [Row.claims, List.all_cons, List.all_nil, Bool.and_eq_true, Check.holds] at c
  obtain ⟨⟨-, k1, k2, -⟩, -⟩ := c
  simp only [assemble, withSizeEA, withLongBitEA]
  exact withEA_avail k2 h _

theorem avail_negx {b op ws} (hl : lookup b op = some .negx) (h : 4 ≤ ws.length) : ∃ x, assemble .negx op ws = some x := by
  have c := row_claims 24 rfl rfl hl
  simp only [Row.claims, List.all_cons, List.all_nil, Bool.and_eq_true, Check.holds] at c
  obtain ⟨⟨-, k1, k2, -⟩, -⟩ := c
  simp only [assemble, withSizeEA, withLongBitEA]
  exact withEA_avail k2 h _

theorem avail_moveFromSr {b op ws} (hl : lookup b op = some .moveFromSr) (h : 4 ≤ ws.length) : ∃ x, assemble .moveFromSr op ws = some x := by
  have c := row_claims 25 rfl rfl hl
  simp only [Row.claims, List.all_cons, List.all_nil, Bool.and_eq_true, Check.holds] at c
  obtain ⟨⟨-, k1, -⟩, -⟩ := c
  simp only [assemble, withSizeEA, withLongBitEA]
  exact withEA_avail k1 h _

theorem avail_chk {b op ws} (hl : lookup b op = some .chk) (h : 4 ≤ ws.length) : ∃ x, assemble .chk op ws = some x := by
  have c := row_claims 26 rfl rfl hl
  simp only [Row.claims, List.all_cons, List.all_nil, Bool.and_eq_true, Check.holds] at c
  obtain ⟨⟨-, k1, -⟩, -⟩ := c
  simp only [assemble, withSizeEA, withLongBitEA]
  exact withEA_avail k1 h _

theorem avail_lea {b op ws} (hl : lookup b op = some .lea) (h : 4 ≤ ws.length) : ∃ x, assemble .lea op ws = some x := by
  have c := row_claims 27 rfl rfl hl
  simp only [Row.claims, List.all_cons, List.all_nil, Bool.and_eq_true, Check.holds] at c
  obtain ⟨⟨-, k1, -⟩, -⟩ := c
  simp only [assemble, withSizeEA, withLongBitEA]
  exact withEA_avail k1 h _

theorem avail_clr {b op ws} (hl : lookup b op = some .clr) (h : 4 ≤ ws.length) : ∃ x, assemble .clr op ws = some x := by
  have c := row_claims 28 rfl rfl hl
  simp only [Row.claims, List.all_cons, List.all_nil, Bool.and_eq_true, Check.holds] at c
  obtain ⟨⟨-, k1, k2, -⟩, -⟩ := c
  simp only [assemble, withSizeEA, withLongBitEA]
  exact withEA_avail k2 h _

theorem avail_moveFromCcr {b op ws} (hl : lookup b op = some .moveFromCcr) (h : 4 ≤ ws.length) : ∃ x, assemble .moveFromCcr op ws = some x := by
  have c := row_claims 29 rfl rfl hl
  simp only [Row.claims, List.all_cons, List.all_nil, Bool.and_eq_true, Check.holds] at c
  obtain ⟨⟨-, k1, -⟩, -⟩ := c
  simp only [assemble, withSizeEA, withLongBitEA]
  exact withEA_avail k1 h _

theorem avail_neg {b op ws} (hl : lookup b op = some .neg) (h : 4 ≤ ws.length) : ∃ x, assemble .neg op ws = some x := by
  have c := row_claims 30 rfl rfl hl
  simp only [Row.claims, List.all_cons, List.all_nil, Bool.and_eq_true, Check.holds] at c
  obtain ⟨⟨-, k1, k2, -⟩, -⟩ := c
  simp only [assemble, withSizeEA, withLongBitEA]
  exact withEA_avail k2 h _

theorem avail_moveToCcr {b op ws} (hl : lookup b op = some .moveToCcr) (h : 4 ≤ ws.length) : ∃ x, assemble .moveToCcr op ws = some x := by
  have c := row_claims 31 rfl rfl hl
  simp only [Row.claims, List.all_cons, List.all_nil, Bool.and_eq_true, Check.holds] at c
  obtain ⟨⟨-, k1, -⟩, -⟩ := c
  simp only [assemble, withSizeEA, withLongBitEA]
  exact withEA_avail k1 h _

theorem avail_not {b op ws} (hl : lookup b op = some .not) (h : 4 ≤ ws.length) : ∃ x, assemble .not op ws = some x := by
  have c := row_claims 32 rfl rfl hl
  simp only [Row.claims, List.all_cons, List.all_nil, Bool.and_eq_true, Check.holds] at c
  obtain ⟨⟨-, k1, k2, -⟩, -⟩ := c
  simp only [assemble, withSizeEA, withLongBitEA]
  exact withEA_avail k2 h _

theorem avail_moveToSr {b op ws} (hl : lookup b op = some .moveToSr) (h : 4 ≤ ws.length) : ∃ x, assemble .moveToSr op ws = some x := by
  have c := row_claims 33 rfl rfl hl
  simp only [Row.claims, List.all_cons, List.all_nil, Bool.and_eq_true, Check.holds] at c
  obtain ⟨⟨-, k1, -⟩, -⟩ := c
  simp only [assemble, withSizeEA, withLongBitEA]
  exact withEA_avail k1 h _

theorem avail_nbcd {b op ws} (hl : lookup b op = some .nbcd) (h : 4 ≤ ws.length) : ∃ x, assemble .nbcd op ws = some x := by
  have c := row_claims 34 rfl rfl hl
  simp only [Row.claims, List.all_cons, List.all_nil, Bool.and_eq_true, Check.holds] at c
  obtain ⟨⟨-, k1, -⟩, -⟩ := c
  simp only [assemble, withSizeEA, withLongBitEA]
  exact withEA_avail k1 h _

theorem avail_swap {b op ws} (hl : lookup b op = some .swap) (h : 4 ≤ ws.length) : ∃ x, assemble .swap op ws = some x := by
  exact ⟨_, rfl⟩

theorem avail_pea {b op ws} (hl : lookup b op = some .pea) (h : 4 ≤ ws.length) : ∃ x, assemble .pea op ws = some x := by
  have c := row_claims 36 rfl rfl hl
  simp only [Row.claims, List.all_cons, List.all_nil, Bool.and_eq_true, Check.holds] at c
  obtain ⟨⟨-, k1, -⟩, -⟩ := c
  simp only [assemble, withSizeEA, withLongBitEA]
  exact withEA_avail k1 h _

theorem avail_extW {b op ws} (hl : lookup b op = some .extW) (h : 4 ≤ ws.length) : ∃ x, assemble .extW op ws = some x := by
  exact ⟨_, rfl⟩

theorem avail_extL {b op ws} (hl : lookup b op = some .extL) (h : 4 ≤ ws.length) : ∃ x, assemble .extL op ws = some x := by
  exact ⟨_, rfl⟩

theorem avail_movemToMem {b op ws} (hl : lookup b op = some .movemToMem) (h : 4 ≤ ws.length) : ∃ x, assemble .movemToMem op ws = some x := by
  have c := row_claims 39 rfl rfl hl
  simp only [Row.claims, List.all_cons, List.all_nil, Bool.and_eq_true, Check.holds] at c
  obtain ⟨⟨-, k1, -⟩, -⟩ := c
  simp only [assemble]
  exact withWordEA_avail k1 h _

theorem avail_tst {b op ws} (hl : lookup b op = some .tst) (h : 4 ≤ ws.length) : ∃ x, assemble .tst op ws = some x := by
  have c := row_claims 40 rfl rfl hl
  simp only [Row.claims, List.all_cons, List.all_nil, Bool.and_eq_true, Check.holds] at c
  obtain ⟨⟨-, k1, k2, -⟩, -⟩ := c
  simp only [assemble, withSizeEA, withLongBitEA]
  exact withEA_avail k2 h _

theorem avail_tas {b op ws} (hl : lookup b op = some .tas) (h : 4 ≤ ws.length) : ∃ x, assemble .tas op ws = some x := by
  have c := row_claims 41 rfl rfl hl
  simp only [Row.claims, List.all_cons, List.all_nil, Bool.and_eq_true, Check.holds] at c
  obtain ⟨⟨-, k1, -⟩, -⟩ := c
  simp only [assemble, withSizeEA, withLongBitEA]
  exact withEA_avail k1 h _

theorem avail_illegal {b op ws} (hl : lookup b op = some .illegal) (h : 4 ≤ ws.length) : ∃ x, assemble .illegal op ws = some x := by
  exact ⟨_, rfl⟩

theorem avail_mull {b op ws} (hl : lookup b op = some .mull) (h : 4 ≤ ws.length) : ∃ x, assemble .mull op ws = some x := by
  have c := row_claims 43 rfl rfl hl
  simp only [Row.claims, List.all_cons, List.all_nil, Bool.and_eq_true, Check.holds] at c
  obtain ⟨⟨-, k1, -⟩, -⟩ := c
  simp only [assemble]
  exact withWordEA_avail k1 h _

theorem avail_divl {b op ws} (hl : lookup b op = some .divl) (h : 4 ≤ ws.length) : ∃ x, assemble .divl op ws = some x := by
  have c := row_claims 44 rfl rfl hl
  simp only [Row.claims, List.all_cons, List.all_nil, Bool.and_eq_true, Check.holds] at c
  obtain ⟨⟨-, k1, -⟩, -⟩ := c
  simp only [assemble]
  exact withWordEA_avail k1 h _

theorem avail_movemToReg {b op ws} (hl : lookup b op = some .movemToReg) (h : 4 ≤ ws.length) : ∃ x, assemble .movemToReg op ws = some x := by
  have c := row_claims 45 rfl rfl hl
  simp only [Row.claims, List.all_cons, List.all_nil, Bool.and_eq_true, Check.holds] at c
  obtain ⟨⟨-, k1, -⟩, -⟩ := c
  simp only [assemble]
  exact withWordEA_avail k1 h _

theorem avail_trap {b op ws} (hl : lookup b op = some .trap) (h : 4 ≤ ws.length) : ∃ x, assemble .trap op ws = some x := by
  exact ⟨_, rfl⟩

theorem avail_link {b op ws} (hl : lookup b op = some .link) (h : 4 ≤ ws.length) : ∃ x, assemble .link op ws = some x := by
  simp only [assemble]
  exact withWord_avail h _

theorem avail_unlk {b op ws} (hl : lookup b op = some .unlk) (h : 4 ≤ ws.length) : ∃ x, assemble .unlk op ws = some x := by
  exact ⟨_, rfl⟩

theorem avail_moveToUsp {b op ws} (hl : lookup b op = some .moveToUsp) (h : 4 ≤ ws.length) : ∃ x, assemble .moveToUsp op ws = some x := by
  exact ⟨_, rfl⟩

theorem avail_moveFromUsp {b op ws} (hl : lookup b op = some .moveFromUsp) (h : 4 ≤ ws.length) : ∃ x, assemble .moveFromUsp op ws = some x := by
  exact ⟨_, rfl⟩

theorem avail_reset {b op ws} (hl : lookup b op = some .reset) (h : 4 ≤ ws.length) : ∃ x, assemble .reset op ws = some x := by
  exact ⟨_, rfl⟩

theorem avail_nop {b op ws} (hl : lookup b op = some .nop) (h : 4 ≤ ws.length) : ∃ x, assemble .nop op ws = some x := by
  exact ⟨_, rfl⟩

theorem avail_stop {b op ws} (hl : lookup b op = some .stop) (h : 4 ≤ ws.length) : ∃ x, assemble .stop op ws = some x := by
  simp only [assemble]
  exact withWord_avail h _

theorem avail_rte {b op ws} (hl : lookup b op = some .rte) (h : 4 ≤ ws.length) : ∃ x, assemble .rte op ws = some x := by
  exact ⟨_, rfl⟩

theorem avail_rts {b op ws} (hl : lookup b op = some .rts) (h : 4 ≤ ws.length) : ∃ x, assemble .rts op ws = some x := by
  exact ⟨_, rfl⟩

theorem avail_trapv {b op ws} (hl : lookup b op = some .trapv) (h : 4 ≤ ws.length) : ∃ x, assemble .trapv op ws = some x := by
  exact ⟨_, rfl⟩

theorem avail_rtr {b op ws} (hl : lookup b op = some .rtr) (h : 4 ≤ ws.length) : ∃ x, assemble .rtr op ws = some x := by
  exact ⟨_, rfl⟩

theorem avail_jsr {b op ws} (hl : lookup b op = some .jsr) (h : 4 ≤ ws.length) : ∃ x, assemble .jsr op ws = some x := by
  have c := row_claims 58 rfl rfl hl
  simp only [Row.claims, List.all_cons, List.all_nil, Bool.and_eq_true, Check.holds] at c
  obtain ⟨⟨-, k1, -⟩, -⟩ := c
  simp only [assemble, withSizeEA, withLongBitEA]
  exact withEA_avail k1 h _

theorem avail_jmp {b op ws} (hl : lookup b op = some .jmp) (h : 4 ≤ ws.length) : ∃ x, assemble .jmp op ws = some x := by
  have c := row_claims 59 rfl rfl hl
  simp only [Row.claims, List.all_cons, List.all_nil, Bool.and_eq_true, Check.holds] at c
  obtain ⟨⟨-, k1, -⟩, -⟩ := c
  simp only [assemble, withSizeEA, withLongBitEA]
  exact withEA_avail k1 h _

theorem avail_addq {b op ws} (hl : lookup b op = some .addq) (h : 4 ≤ ws.length) : ∃ x, assemble .addq op ws = some x := by
  have c := row_claims 60 rfl rfl hl
  simp only [Row.claims, List.all_cons, List.all_nil, Bool.and_eq_true, Check.holds] at c
  obtain ⟨⟨-, k1, k2, -⟩, -⟩ := c
  simp only [assemble, withSizeEA, withLongBitEA]
  exact withEA_avail k2 h _

theorem avail_subq {b op ws} (hl : lookup b op = some .subq) (h : 4 ≤ ws.length) : ∃ x, assemble .subq op ws = some x := by
  have c := row_claims 61 rfl rfl hl
  simp only [Row.claims, List.all_cons, List.all_nil, Bool.and_eq_true, Check.holds] at c
  obtain ⟨⟨-, k1, k2, -⟩, -⟩ := c
  simp only [assemble, withSizeEA, withLongBitEA]
  exact withEA_avail k2 h _

theorem avail_scc {b op ws} (hl : lookup b op = some .scc) (h : 4 ≤ ws.length) : ∃ x, assemble .scc op ws = some x := by
  have c := row_claims 62 rfl rfl hl
  simp only [Row.claims, List.all_cons, List.all_nil, Bool.and_eq_true, Check.holds] at c
  obtain ⟨⟨-, k1, -⟩, -⟩ := c
  simp only [assemble, withSizeEA, withLongBitEA]
  exact withEA_avail k1 h _

theorem avail_dbcc {b op ws} (hl : lookup b op = some .dbcc) (h : 4 ≤ ws.length) : ∃ x, assemble .dbcc op ws = some x := by
  simp only [assemble]
  exact withWord_avail h _

theorem avail_trapcc {b op ws} (hl : lookup b op = some .trapcc) (h : 4 ≤ ws.length) : ∃ x, assemble .trapcc op ws = some x := by
  simp only [assemble]
  split
  · exact withWord_avail h _
  · rcases ws with _ | ⟨a, _ | ⟨b, ws⟩⟩ <;> first | (simp at h; done) | exact ⟨_, rfl⟩
  · exact ⟨_, rfl⟩

theorem avail_bra {b op ws} (hl : lookup b op = some .bra) (h : 4 ≤ ws.length) : ∃ x, assemble .bra op ws = some x := by
  exact withBranchDisp_avail h _

theorem avail_bsr {b op ws} (hl : lookup b op = some .bsr) (h : 4 ≤ ws.length) : ∃ x, assemble .bsr op ws = some x := by
  exact withBranchDisp_avail h _

theorem avail_bcc {b op ws} (hl : lookup b op = some .bcc) (h : 4 ≤ ws.length) : ∃ x, assemble .bcc op ws = some x := by
  exact withBranchDisp_avail h _

theorem avail_moveq {b op ws} (hl : lookup b op = some .moveq) (h : 4 ≤ ws.length) : ∃ x, assemble .moveq op ws = some x := by
  exact ⟨_, rfl⟩

theorem avail_divuW {b op ws} (hl : lookup b op = some .divuW) (h : 4 ≤ ws.length) : ∃ x, assemble .divuW op ws = some x := by
  have c := row_claims 69 rfl rfl hl
  simp only [Row.claims, List.all_cons, List.all_nil, Bool.and_eq_true, Check.holds] at c
  obtain ⟨⟨-, k1, -⟩, -⟩ := c
  simp only [assemble, withSizeEA, withLongBitEA]
  exact withEA_avail k1 h _

theorem avail_divsW {b op ws} (hl : lookup b op = some .divsW) (h : 4 ≤ ws.length) : ∃ x, assemble .divsW op ws = some x := by
  have c := row_claims 70 rfl rfl hl
  simp only [Row.claims, List.all_cons, List.all_nil, Bool.and_eq_true, Check.holds] at c
  obtain ⟨⟨-, k1, -⟩, -⟩ := c
  simp only [assemble, withSizeEA, withLongBitEA]
  exact withEA_avail k1 h _

theorem avail_sbcd {b op ws} (hl : lookup b op = some .sbcd) (h : 4 ≤ ws.length) : ∃ x, assemble .sbcd op ws = some x := by
  exact ⟨_, rfl⟩

theorem avail_orEaDn {b op ws} (hl : lookup b op = some .orEaDn) (h : 4 ≤ ws.length) : ∃ x, assemble .orEaDn op ws = some x := by
  have c := row_claims 72 rfl rfl hl
  simp only [Row.claims, List.all_cons, List.all_nil, Bool.and_eq_true, Check.holds] at c
  obtain ⟨⟨-, k1, k2, -⟩, -⟩ := c
  simp only [assemble, withSizeEA, withLongBitEA]
  exact withEA_avail k2 h _

theorem avail_orDnEa {b op ws} (hl : lookup b op = some .orDnEa) (h : 4 ≤ ws.length) : ∃ x, assemble .orDnEa op ws = some x := by
  have c := row_claims 73 rfl rfl hl
  simp only [Row.claims, List.all_cons, List.all_nil, Bool.and_eq_true, Check.holds] at c
  obtain ⟨⟨-, k1, k2, -⟩, -⟩ := c
  simp only [assemble, withSizeEA, withLongBitEA]
  exact withEA_avail k2 h _

theorem avail_subEaDn {b op ws} (hl : lookup b op = some .subEaDn) (h : 4 ≤ ws.length) : ∃ x, assemble .subEaDn op ws = some x := by
  have c := row_claims 74 rfl rfl hl
  simp only [Row.claims, List.all_cons, List.all_nil, Bool.and_eq_true, Check.holds] at c
  obtain ⟨⟨-, k1, k2, -⟩, -⟩ := c
  simp only [assemble, withSizeEA, withLongBitEA]
  exact withEA_avail k2 h _

theorem avail_subDnEa {b op ws} (hl : lookup b op = some .subDnEa) (h : 4 ≤ ws.length) : ∃ x, assemble .subDnEa op ws = some x := by
  have c := row_claims 75 rfl rfl hl
  simp only [Row.claims, List.all_cons, List.all_nil, Bool.and_eq_true, Check.holds] at c
  obtain ⟨⟨-, k1, k2, -⟩, -⟩ := c
  simp only [assemble, withSizeEA, withLongBitEA]
  exact withEA_avail k2 h _

theorem avail_suba {b op ws} (hl : lookup b op = some .suba) (h : 4 ≤ ws.length) : ∃ x, assemble .suba op ws = some x := by
  have c := row_claims 76 rfl rfl hl
  simp only [Row.claims, List.all_cons, List.all_nil, Bool.and_eq_true, Check.holds] at c
  obtain ⟨⟨-, k1, -⟩, -⟩ := c
  simp only [assemble, withSizeEA, withLongBitEA]
  exact withEA_avail k1 h _

theorem avail_subx {b op ws} (hl : lookup b op = some .subx) (h : 4 ≤ ws.length) : ∃ x, assemble .subx op ws = some x := by
  exact ⟨_, rfl⟩

theorem avail_cmp {b op ws} (hl : lookup b op = some .cmp) (h : 4 ≤ ws.length) : ∃ x, assemble .cmp op ws = some x := by
  have c := row_claims 78 rfl rfl hl
  simp only [Row.claims, List.all_cons, List.all_nil, Bool.and_eq_true, Check.holds] at c
  obtain ⟨⟨-, k1, k2, -⟩, -⟩ := c
  simp only [assemble, withSizeEA, withLongBitEA]
  exact withEA_avail k2 h _

theorem avail_cmpa {b op ws} (hl : lookup b op = some .cmpa) (h : 4 ≤ ws.length) : ∃ x, assemble .cmpa op ws = some x := by
  have c := row_claims 79 rfl rfl hl
  simp only [Row.claims, List.all_cons, List.all_nil, Bool.and_eq_true, Check.holds] at c
  obtain ⟨⟨-, k1, -⟩, -⟩ := c
  simp only [assemble, withSizeEA, withLongBitEA]
  exact withEA_avail k1 h _

theorem avail_eor {b op ws} (hl : lookup b op = some .eor) (h : 4 ≤ ws.length) : ∃ x, assemble .eor op ws = some x := by
  have c := row_claims 80 rfl rfl hl
  simp only [Row.claims, List.all_cons, List.all_nil, Bool.and_eq_true, Check.holds] at c
  obtain ⟨⟨-, k1, k2, -⟩, -⟩ := c
  simp only [assemble, withSizeEA, withLongBitEA]
  exact withEA_avail k2 h _

theorem avail_cmpm {b op ws} (hl : lookup b op = some .cmpm) (h : 4 ≤ ws.length) : ∃ x, assemble .cmpm op ws = some x := by
  exact ⟨_, rfl⟩

theorem avail_muluW {b op ws} (hl : lookup b op = some .muluW) (h : 4 ≤ ws.length) : ∃ x, assemble .muluW op ws = some x := by
  have c := row_claims 82 rfl rfl hl
  simp only [Row.claims, List.all_cons, List.all_nil, Bool.and_eq_true, Check.holds] at c
  obtain ⟨⟨-, k1, -⟩, -⟩ := c
  simp only [assemble, withSizeEA, withLongBitEA]
  exact withEA_avail k1 h _

theorem avail_mulsW {b op ws} (hl : lookup b op = some .mulsW) (h : 4 ≤ ws.length) : ∃ x, assemble .mulsW op ws = some x := by
  have c := row_claims 83 rfl rfl hl
  simp only [Row.claims, List.all_cons, List.all_nil, Bool.and_eq_true, Check.holds] at c
  obtain ⟨⟨-, k1, -⟩, -⟩ := c
  simp only [assemble, withSizeEA, withLongBitEA]
  exact withEA_avail k1 h _

theorem avail_abcd {b op ws} (hl : lookup b op = some .abcd) (h : 4 ≤ ws.length) : ∃ x, assemble .abcd op ws = some x := by
  exact ⟨_, rfl⟩

theorem avail_exgDD {b op ws} (hl : lookup b op = some .exgDD) (h : 4 ≤ ws.length) : ∃ x, assemble .exgDD op ws = some x := by
  exact ⟨_, rfl⟩

theorem avail_exgAA {b op ws} (hl : lookup b op = some .exgAA) (h : 4 ≤ ws.length) : ∃ x, assemble .exgAA op ws = some x := by
  exact ⟨_, rfl⟩

theorem avail_exgDA {b op ws} (hl : lookup b op = some .exgDA) (h : 4 ≤ ws.length) : ∃ x, assemble .exgDA op ws = some x := by
  exact ⟨_, rfl⟩

theorem avail_andEaDn {b op ws} (hl : lookup b op = some .andEaDn) (h : 4 ≤ ws.length) : ∃ x, assemble .andEaDn op ws = some x := by
  have c := row_claims 88 rfl rfl hl
  simp only [Row.claims, List.all_cons, List.all_nil, Bool.and_eq_true, Check.holds] at c
  obtain ⟨⟨-, k1, k2, -⟩, -⟩ := c
  simp only [assemble, withSizeEA, withLongBitEA]
  exact withEA_avail k2 h _

theorem avail_andDnEa {b op ws} (hl : lookup b op = some .andDnEa) (h : 4 ≤ ws.length) : ∃ x, assemble .andDnEa op ws = some x := by
  have c := row_claims 89 rfl rfl hl
  simp only [Row.claims, List.all_cons, List.all_nil, Bool.and_eq_true, Check.holds] at c
  obtain ⟨⟨-, k1, k2, -⟩, -⟩ := c
  simp only [assemble, withSizeEA, withLongBitEA]
  exact withEA_avail k2 h _

theorem avail_addEaDn {b op ws} (hl : lookup b op = some .addEaDn) (h : 4 ≤ ws.length) : ∃ x, assemble .addEaDn op ws = some x := by
  have c := row_claims 90 rfl rfl hl
  simp only [Row.claims, List.all_cons, List.all_nil, Bool.and_eq_true, Check.holds] at c
  obtain ⟨⟨-, k1, k2, -⟩, -⟩ := c
  simp only [assemble, withSizeEA, withLongBitEA]
  exact withEA_avail k2 h _

theorem avail_addDnEa {b op ws} (hl : lookup b op = some .addDnEa) (h : 4 ≤ ws.length) : ∃ x, assemble .addDnEa op ws = some x := by
  have c := row_claims 91 rfl rfl hl
  simp only [Row.claims, List.all_cons, List.all_nil, Bool.and_eq_true, Check.holds] at c
  obtain ⟨⟨-, k1, k2, -⟩, -⟩ := c
  simp only [assemble, withSizeEA, withLongBitEA]
  exact withEA_avail k2 h _

theorem avail_adda {b op ws} (hl : lookup b op = some .adda) (h : 4 ≤ ws.length) : ∃ x, assemble .adda op ws = some x := by
  have c := row_claims 92 rfl rfl hl
  simp only [Row.claims, List.all_cons, List.all_nil, Bool.and_eq_true, Check.holds] at c
  obtain ⟨⟨-, k1, -⟩, -⟩ := c
  simp only [assemble, withSizeEA, withLongBitEA]
  exact withEA_avail k1 h _

theorem avail_addx {b op ws} (hl : lookup b op = some .addx) (h : 4 ≤ ws.length) : ∃ x, assemble .addx op ws = some x := by
  exact ⟨_, rfl⟩

theorem avail_asrReg {b op ws} (hl : lookup b op = some .asrReg) (h : 4 ≤ ws.length) : ∃ x, assemble .asrReg op ws = some x := by
  exact ⟨_, rfl⟩

theorem avail_asrMem {b op ws} (hl : lookup b op = some .asrMem) (h : 4 ≤ ws.length) : ∃ x, assemble .asrMem op ws = some x := by
  have c := row_claims 95 rfl rfl hl
  simp only [Row.claims, List.all_cons, List.all_nil, Bool.and_eq_true, Check.holds] at c
  obtain ⟨⟨-, k1, -⟩, -⟩ := c
  simp only [assemble, withSizeEA, withLongBitEA]
  exact withEA_avail k1 h _

theorem avail_aslReg {b op ws} (hl : lookup b op = some .aslReg) (h : 4 ≤ ws.length) : ∃ x, assemble .aslReg op ws = some x := by
  exact ⟨_, rfl⟩

theorem avail_aslMem {b op ws} (hl : lookup b op = some .aslMem) (h : 4 ≤ ws.length) : ∃ x, assemble .aslMem op ws = some x := by
  have c := row_claims 97 rfl rfl hl
  simp only [Row.claims, List.all_cons, List.all_nil, Bool.and_eq_true, Check.holds] at c
  obtain ⟨⟨-, k1, -⟩, -⟩ := c
  simp only [assemble, withSizeEA, withLongBitEA]
  exact withEA_avail k1 h _

theorem avail_lsrReg {b op ws} (hl : lookup b op = some .lsrReg) (h : 4 ≤ ws.length) : ∃ x, assemble .lsrReg op ws = some x := by
  exact ⟨_, rfl⟩

theorem avail_lsrMem {b op ws} (hl : lookup b op = some .lsrMem) (h : 4 ≤ ws.length) : ∃ x, assemble .lsrMem op ws = some x := by
  have c := row_claims 99 rfl rfl hl
  simp only [Row.claims, List.all_cons, List.all_nil, Bool.and_eq_true, Check.holds] at c
  obtain ⟨⟨-, k1, -⟩, -⟩ := c
  simp only [assemble, withSizeEA, withLongBitEA]
  exact withEA_avail k1 h _

theorem avail_lslReg {b op ws} (hl : lookup b op = some .lslReg) (h : 4 ≤ ws.length) : ∃ x, assemble .lslReg op ws = some x := by
  exact ⟨_, rfl⟩

theorem avail_lslMem {b op ws} (hl : lookup b op = some .lslMem) (h : 4 ≤ ws.length) : ∃ x, assemble .lslMem op ws = some x := by
  have c := row_claims 101 rfl rfl hl
  simp only [Row.claims, List.all_cons, List.all_nil, Bool.and_eq_true, Check.holds] at c
  obtain ⟨⟨-, k1, -⟩, -⟩ := c
  simp only [assemble, withSizeEA, withLongBitEA]
  exact withEA_avail k1 h _

theorem avail_roxrReg {b op ws} (hl : lookup b op = some .roxrReg) (h : 4 ≤ ws.length) : ∃ x, assemble .roxrReg op ws = some x := by
  exact ⟨_, rfl⟩

theorem avail_roxrMem {b op ws} (hl : lookup b op = some .roxrMem) (h : 4 ≤ ws.length) : ∃ x, assemble .roxrMem op ws = some x := by
  have c := row_claims 103 rfl rfl hl
  simp only [Row.claims, List.all_cons, List.all_nil, Bool.and_eq_true, Check.holds] at c
  obtain ⟨⟨-, k1, -⟩, -⟩ := c
  simp only [assemble, withSizeEA, withLongBitEA]
  exact withEA_avail k1 h _

theorem avail_roxlReg {b op ws} (hl : lookup b op = some .roxlReg) (h : 4 ≤ ws.length) : ∃ x, assemble .roxlReg op ws = some x := by
  exact ⟨_, rfl⟩

theorem avail_roxlMem {b op ws} (hl : lookup b op = some .roxlMem) (h : 4 ≤ ws.length) : ∃ x, assemble .roxlMem op ws = some x := by
  have c := row_claims 105 rfl rfl hl
  simp only [Row.claims, List.all_cons, List.all_nil, Bool.and_eq_true, Check.holds] at c
  obtain ⟨⟨-, k1, -⟩, -⟩ := c
  simp only [assemble, withSizeEA, withLongBitEA]
  exact withEA_avail k1 h _

theorem avail_rorReg {b op ws} (hl : lookup b op = some .rorReg) (h : 4 ≤ ws.length) : ∃ x, assemble .rorReg op ws = some x := by
  exact ⟨_, rfl⟩

theorem avail_rorMem {b op ws} (hl : lookup b op = some .rorMem) (h : 4 ≤ ws.length) : ∃ x, assemble .rorMem op ws = some x := by
  have c := row_claims 107 rfl rfl hl
  simp only [Row.claims, List.all_cons, List.all_nil, Bool.and_eq_true, Check.holds] at c
  obtain ⟨⟨-, k1, -⟩, -⟩ := c
  simp only [assemble, withSizeEA, withLongBitEA]
  exact withEA_avail k1 h _

theorem avail_rolReg {b op ws} (hl : lookup b op = some .rolReg) (h : 4 ≤ ws.length) : ∃ x, assemble .rolReg op ws = some x := by
  exact ⟨_, rfl⟩

theorem avail_rolMem {b op ws} (hl : lookup b op = some .rolMem) (h : 4 ≤ ws.length) : ∃ x, assemble .rolMem op ws = some x := by
  have c := row_claims 109 rfl rfl hl
  simp only [Row.claims, List.all_cons, List.all_nil, Bool.and_eq_true, Check.holds] at c
  obtain ⟨⟨-, k1, -⟩, -⟩ := c
  simp only [assemble, withSizeEA, withLongBitEA]
  exact withEA_avail k1 h _

/-- An opcode word of the table and four words after it are enough for its instruction (R61). -/
theorem assemble_avail {m b op ws} (hl : lookup b op = some m) (h : 4 ≤ ws.length) : ∃ x, assemble m op ws = some x :=
  match m, hl with
  | .oriToCcr, hl => avail_oriToCcr hl h
  | .oriToSr, hl => avail_oriToSr hl h
  | .ori, hl => avail_ori hl h
  | .andiToCcr, hl => avail_andiToCcr hl h
  | .andiToSr, hl => avail_andiToSr hl h
  | .andi, hl => avail_andi hl h
  | .subi, hl => avail_subi hl h
  | .addi, hl => avail_addi hl h
  | .eoriToCcr, hl => avail_eoriToCcr hl h
  | .eoriToSr, hl => avail_eoriToSr hl h
  | .eori, hl => avail_eori hl h
  | .cmpi, hl => avail_cmpi hl h
  | .btstImm, hl => avail_btstImm hl h
  | .bchgImm, hl => avail_bchgImm hl h
  | .bclrImm, hl => avail_bclrImm hl h
  | .bsetImm, hl => avail_bsetImm hl h
  | .btstDn, hl => avail_btstDn hl h
  | .bchgDn, hl => avail_bchgDn hl h
  | .bclrDn, hl => avail_bclrDn hl h
  | .bsetDn, hl => avail_bsetDn hl h
  | .movep, hl => avail_movep hl h
  | .cas, hl => avail_cas hl h
  | .move, hl => avail_move hl h
  | .movea, hl => avail_movea hl h
  | .negx, hl => avail_negx hl h
  | .moveFromSr, hl => avail_moveFromSr hl h
  | .chk, hl => avail_chk hl h
  | .lea, hl => avail_lea hl h
  | .clr, hl => avail_clr hl h
  | .moveFromCcr, hl => avail_moveFromCcr hl h
  | .neg, hl => avail_neg hl h
  | .moveToCcr, hl => avail_moveToCcr hl h
  | .not, hl => avail_not hl h
  | .moveToSr, hl => avail_moveToSr hl h
  | .nbcd, hl => avail_nbcd hl h
  | .swap, hl => avail_swap hl h
  | .pea, hl => avail_pea hl h
  | .extW, hl => avail_extW hl h
  | .extL, hl => avail_extL hl h
  | .movemToMem, hl => avail_movemToMem hl h
  | .tst, hl => avail_tst hl h
  | .tas, hl => avail_tas hl h
  | .illegal, hl => avail_illegal hl h
  | .mull, hl => avail_mull hl h
  | .divl, hl => avail_divl hl h
  | .movemToReg, hl => avail_movemToReg hl h
  | .trap, hl => avail_trap hl h
  | .link, hl => avail_link hl h
  | .unlk, hl => avail_unlk hl h
  | .moveToUsp, hl => avail_moveToUsp hl h
  | .moveFromUsp, hl => avail_moveFromUsp hl h
  | .reset, hl => avail_reset hl h
  | .nop, hl => avail_nop hl h
  | .stop, hl => avail_stop hl h
  | .rte, hl => avail_rte hl h
  | .rts, hl => avail_rts hl h
  | .trapv, hl => avail_trapv hl h
  | .rtr, hl => avail_rtr hl h
  | .jsr, hl => avail_jsr hl h
  | .jmp, hl => avail_jmp hl h
  | .addq, hl => avail_addq hl h
  | .subq, hl => avail_subq hl h
  | .scc, hl => avail_scc hl h
  | .dbcc, hl => avail_dbcc hl h
  | .trapcc, hl => avail_trapcc hl h
  | .bra, hl => avail_bra hl h
  | .bsr, hl => avail_bsr hl h
  | .bcc, hl => avail_bcc hl h
  | .moveq, hl => avail_moveq hl h
  | .divuW, hl => avail_divuW hl h
  | .divsW, hl => avail_divsW hl h
  | .sbcd, hl => avail_sbcd hl h
  | .orEaDn, hl => avail_orEaDn hl h
  | .orDnEa, hl => avail_orDnEa hl h
  | .subEaDn, hl => avail_subEaDn hl h
  | .subDnEa, hl => avail_subDnEa hl h
  | .suba, hl => avail_suba hl h
  | .subx, hl => avail_subx hl h
  | .cmp, hl => avail_cmp hl h
  | .cmpa, hl => avail_cmpa hl h
  | .eor, hl => avail_eor hl h
  | .cmpm, hl => avail_cmpm hl h
  | .muluW, hl => avail_muluW hl h
  | .mulsW, hl => avail_mulsW hl h
  | .abcd, hl => avail_abcd hl h
  | .exgDD, hl => avail_exgDD hl h
  | .exgAA, hl => avail_exgAA hl h
  | .exgDA, hl => avail_exgDA hl h
  | .andEaDn, hl => avail_andEaDn hl h
  | .andDnEa, hl => avail_andDnEa hl h
  | .addEaDn, hl => avail_addEaDn hl h
  | .addDnEa, hl => avail_addDnEa hl h
  | .adda, hl => avail_adda hl h
  | .addx, hl => avail_addx hl h
  | .asrReg, hl => avail_asrReg hl h
  | .asrMem, hl => avail_asrMem hl h
  | .aslReg, hl => avail_aslReg hl h
  | .aslMem, hl => avail_aslMem hl h
  | .lsrReg, hl => avail_lsrReg hl h
  | .lsrMem, hl => avail_lsrMem hl h
  | .lslReg, hl => avail_lslReg hl h
  | .lslMem, hl => avail_lslMem hl h
  | .roxrReg, hl => avail_roxrReg hl h
  | .roxrMem, hl => avail_roxrMem hl h
  | .roxlReg, hl => avail_roxlReg hl h
  | .roxlMem, hl => avail_roxlMem hl h
  | .rorReg, hl => avail_rorReg hl h
  | .rorMem, hl => avail_rorMem hl h
  | .rolReg, hl => avail_rolReg hl h
  | .rolMem, hl => avail_rolMem hl h

/-! ## The number of words an instruction takes (30_encoding.md R61) -/

/-- A reader takes the same number of words whatever they are. -/
def TakesFixed {α : Type} (f : List Word → Option (α × List Word)) : Prop :=
  ∃ n, ∀ ws x rest, f ws = some (x, rest) → ws.length = n + rest.length

theorem TakesFixed.pure {α : Type} (x : α) : TakesFixed fun ws => some (x, ws) :=
  ⟨0, fun ws y rest h => by cases h; simp⟩

theorem TakesFixed.map {α β : Type} {f : List Word → Option (α × List Word)} (hf : TakesFixed f) (k : α → β) :
    TakesFixed fun ws => (f ws).map fun (x, ws) => (k x, ws) := by
  obtain ⟨n, hn⟩ := hf
  refine ⟨n, fun ws y rest h => ?_⟩
  simp only [Option.map_eq_some_iff, Prod.exists, Prod.mk.injEq] at h
  obtain ⟨x, _, h, -, rfl⟩ := h
  exact hn _ _ _ h

theorem TakesFixed.bind {α β : Type} {f : List Word → Option (α × List Word)} {g : α → List Word → Option (β × List Word)}
    (hf : TakesFixed f) (hg : ∃ n, ∀ x ws y rest, g x ws = some (y, rest) → ws.length = n + rest.length) :
    TakesFixed fun ws => (f ws).bind fun (x, ws) => g x ws := by
  obtain ⟨n, hn⟩ := hf
  obtain ⟨m, hm⟩ := hg
  refine ⟨n + m, fun ws y rest h => ?_⟩
  simp only [Option.bind_eq_some_iff, Prod.exists] at h
  obtain ⟨x, ws', h, h'⟩ := h
  have := hn _ _ _ h
  have := hm _ _ _ _ h'
  omega

theorem takesFixed_takeWord : TakesFixed takeWord :=
  ⟨1, fun ws x rest h => by cases ws <;> cases h; simp [Nat.add_comm]⟩
theorem takesFixed_takeLong : TakesFixed takeLong :=
  ⟨2, fun ws x rest h => by rcases ws with _ | ⟨a, _ | ⟨b, ws⟩⟩ <;> cases h; simp; omega⟩
theorem takesFixed_takeImm (sz : Size) : TakesFixed (takeImm sz) := by
  cases sz
  · exact ⟨1, fun ws x rest h => by cases ws <;> cases h; simp [Nat.add_comm]⟩
  · exact ⟨1, fun ws x rest h => by cases ws <;> cases h; simp [Nat.add_comm]⟩
  · obtain ⟨n, hn⟩ := takesFixed_takeLong
    exact ⟨n, fun ws x rest h => hn ws x rest (by cases ws <;> exact h)⟩
theorem takesFixed_takeEA (m r : BitVec 3) (sz : Size) : TakesFixed (takeEA m r sz) := by
  unfold takeEA
  split
  · exact .pure _
  · exact .pure _
  · exact .pure _
  · exact .pure _
  · exact .pure _
  · exact takesFixed_takeWord.map _
  · exact takesFixed_takeWord.map fun w => EA.index (regOf r) (Index.ofWord w)
  · split
    · exact takesFixed_takeWord.map _
    · exact takesFixed_takeLong.map _
    · exact takesFixed_takeWord.map _
    · exact takesFixed_takeWord.map fun w => EA.pcIndex (Index.ofWord w)
    · exact (takesFixed_takeImm sz).map _
    · exact ⟨0, fun ws x rest h => by cases h⟩
theorem takesFixed_withEA (op : Word) (sz : Size) (k : EA → Instr) : TakesFixed fun ws => withEA op sz ws k :=
  (takesFixed_takeEA ..).map k
/-- A word or an immediate, then an EA. -/
theorem TakesFixed.thenEA {α : Type} {f : List Word → Option (α × List Word)} (hf : TakesFixed f) (op : Word) (sz : Size)
    (k : α → EA → Instr) : TakesFixed fun ws => (f ws).bind fun (x, ws) => withEA op sz ws (k x) := by
  obtain ⟨n, hn⟩ := takesFixed_takeEA (op.extractLsb' 3 3) (op.extractLsb' 0 3) sz
  refine hf.bind (g := fun x ws => withEA op sz ws (k x)) ⟨n, fun x ws y rest h => ?_⟩
  simp only [withEA, Option.map_eq_some_iff, Prod.exists, Prod.mk.injEq] at h
  obtain ⟨e, _, h, -, rfl⟩ := h
  exact hn _ _ _ h
theorem takesFixed_withWordEA (op : Word) (sz : Size) (k : Word → EA → Instr) :
    TakesFixed fun ws => withWordEA op sz ws k := takesFixed_takeWord.thenEA ..
theorem takesFixed_withImmEA (op : Word) (k : Size → Long → EA → Instr) : TakesFixed fun ws => withImmEA op ws k :=
  (takesFixed_takeImm _).thenEA op _ (k _)
theorem takesFixed_withWord (k : Word → Instr) : TakesFixed fun ws => withWord ws k := takesFixed_takeWord.map k
theorem takesFixed_withBranchDisp (op : Word) (k : BranchDisp → Instr) : TakesFixed fun ws => withBranchDisp op ws k := by
  unfold withBranchDisp
  split
  · exact takesFixed_takeWord.map fun w => k (.word w)
  · exact .pure _

theorem takesFixed_withSizeEA (op : Word) (k : Size → EA → Instr) : TakesFixed fun ws => withSizeEA op ws k :=
  takesFixed_withEA ..
theorem takesFixed_withLongBitEA (op : Word) (k : Size → EA → Instr) : TakesFixed fun ws => withLongBitEA op ws k :=
  takesFixed_withEA ..

/-- The operands of a row take as many words as the opcode word says. -/
theorem takesFixed_assemble (m : Mnemonic) (op : Word) : TakesFixed (assemble m op) := by
  cases m
  case move =>
    obtain ⟨n, hn⟩ := takesFixed_takeEA (op.extractLsb' 6 3) (op.extractLsb' 9 3) (Size.ofMove (op.extractLsb' 12 2))
    unfold assemble
    dsimp only
    refine (takesFixed_takeEA ..).bind (g := fun src ws => (takeEA (op.extractLsb' 6 3) (op.extractLsb' 9 3)
      (Size.ofMove (op.extractLsb' 12 2)) ws).map fun p => (Instr.move _ src p.1, p.2)) ⟨n, fun x ws y rest h => ?_⟩
    simp only [Option.map_eq_some_iff, Prod.exists, Prod.mk.injEq] at h
    obtain ⟨e, _, h, -, rfl⟩ := h
    exact hn _ _ _ h
  case trapcc =>
    unfold assemble
    dsimp only
    split
    · exact takesFixed_withWord _
    · exact takesFixed_takeLong.map fun v => Instr.trapcc _ (.long v)
    · exact .pure _
  all_goals unfold assemble; dsimp only
  all_goals first
    | exact takesFixed_withEA ..
    | exact TakesFixed.pure _
    | exact takesFixed_withWord _
    | exact takesFixed_withImmEA ..
    | exact takesFixed_withWordEA ..
    | exact takesFixed_withBranchDisp ..
    | exact takesFixed_withSizeEA ..
    | exact takesFixed_withLongBitEA ..

end Sys2Proof
end

