-- ==== Sys2Proof/Laws/Movem.lean ====
section
/-! SUPPORT. The register lists of MOVEM (43_move.md R143, R144): what each loop over the mask does. -/

namespace Sys2Proof.Machine

theorem maskBits_take_succ : ∀ m : Fin 16, maskBits.take (m.val + 1) = maskBits.take m.val ++ [m] := by decide
theorem maskRank_succ (mask : Word) (m : Nat) : maskRank mask (m + 1) = maskRank mask m + if mask.getLsbD m then 1 else 0 := by
  simp only [maskRank, List.range_succ, List.filter_append, List.length_append]
  cases h : mask.getLsbD m <;> simp [h]
theorem maskRank_le (mask : Word) (m : Nat) : maskRank mask m ≤ m := by
  have := List.length_filter_le (mask.getLsbD ·) (List.range m)
  simpa [maskRank] using this
theorem maskRank_mono (mask : Word) {i m : Nat} (h : i ≤ m) : maskRank mask i ≤ maskRank mask m := by
  induction m, h using Nat.le_induction with
  | base => exact le_refl _
  | succ n _ ih => rw [maskRank_succ]; omega
theorem not_within_add {base : Long} {x y n : Nat} (hx : x < 2^31) (hy : y + n < 2^31) (h : x < y ∨ y + n ≤ x) : ¬ within (base + BitVec.ofNat 32 y) n (base + BitVec.ofNat 32 x) := by
  rw [within_iff _ _ (by omega)]
  rintro ⟨i, hi, e⟩
  rw [add_ofNat_ofNat] at e
  exact add_ofNat_ne base (by omega) (by omega) (by omega) e
theorem within_mono {base : Long} {y n N : Nat} (hN : N < 2^31) (h : y + n ≤ N) {a : Long} (ha : within (base + BitVec.ofNat 32 y) n a) : within base N a := by
  rw [within_iff _ _ (by omega)] at ha ⊢
  obtain ⟨i, hi, rfl⟩ := ha
  exact ⟨y + i, by omega, by rw [add_ofNat_ofNat]⟩
theorem Size.bytes_bounds (sz : Size) : 1 ≤ sz.bytes ∧ sz.bytes ≤ 4 := by cases sz <;> simp [Size.bytes]

/-- A read clear of a write. -/
theorem State.memRead_memWrite_apart {s : State} (hr : s.cfg.mem = .ram) (base : Long) (sz : Size) (x y : Nat) (v : Long) (hx : x < 2^30) (hy : y < 2^30) (h : x + sz.bytes ≤ y ∨ y + sz.bytes ≤ x) :
   (s.memWrite (base + BitVec.ofNat 32 y) sz v).memRead (base + BitVec.ofNat 32 x) sz = s.memRead (base + BitVec.ofNat 32 x) sz := by
  have := Size.bytes_bounds sz
  apply State.memRead_congr hr (by simpa using hr)
  intro i hi
  rw [State.memWrite_other hr]
  rw [add_ofNat_ofNat]
  exact not_within_add (by omega) (by omega) (by omega)

/-- MOVEM's stores at rising addresses (R143, R144), the first `m` bits of the mask done. -/
theorem storeUp_spec (sz : Size) (mask : Word) (base : Long) (u : State) (m : Nat) (hm : m ≤ 16) :
    let r := (maskBits.take m).foldl (storeUp sz mask) (base, u)
    r.1 = base + BitVec.ofNat 32 (sz.bytes * maskRank mask m) ∧ r.2 = { u with mem := r.2.mem, bus := r.2.bus } ∧
    (u.cfg.mem = .ram → ∀ i : Fin 16, i.val < m → mask.getLsbD i = true → r.2.memRead (base + BitVec.ofNat 32 (sz.bytes * maskRank mask i)) sz = trunc sz (u.getListed i)) ∧
    u.Stored ((maskBits.take m).flatMap fun i : Fin 16 => if mask.getLsbD i then
        storeAccesses (base + BitVec.ofNat 32 (sz.bytes * maskRank mask i)) sz (u.getListed i) else [])
      (within base (sz.bytes * maskRank mask m)) r.2 := by
  induction m with
  | zero => exact ⟨by simp [maskRank], rfl, fun _ i h => by omega, State.Stored.refl u⟩
  | succ m ih =>
    obtain ⟨h1, h2, h3, h4⟩ := ih (by omega)
    have hb := Size.bytes_bounds sz
    intro r
    have hr : r = storeUp sz mask ((maskBits.take m).foldl (storeUp sz mask) (base, u)) ⟨m, by omega⟩ := by
      simp only [r]
      rw [maskBits_take_succ ⟨m, by omega⟩, List.foldl_append]; rfl
    generalize (maskBits.take m).foldl (storeUp sz mask) (base, u) = q at *
    have hrk := maskRank_le mask m
    have hmul : sz.bytes * maskRank mask m ≤ 64 := by
      calc _ ≤ 4 * 16 := Nat.mul_le_mul hb.2 (by omega)
        _ = 64 := rfl
    rw [hr, maskRank_succ]
    by_cases hset : mask.getLsbD m = true
    · simp only [storeUp, hset, if_true]
      have hqc : q.2.cfg = u.cfg := by rw [h2]
      have hql : q.2.getListed ⟨m, by omega⟩ = u.getListed ⟨m, by omega⟩ := by rw [h2]; rfl
      refine ⟨by rw [h1, add_ofNat_ofNat, Nat.mul_add, Nat.mul_one], ?_, ?_, ?_⟩
      · obtain ⟨mm, bb, h2'⟩ : ∃ mm bb, q.2 = { u with mem := mm, bus := bb } := ⟨_, _, h2⟩
        rw [h2']; exact State.memWrite_eq ..
      · intro hr i hi hs
        have hqr : q.2.cfg.mem = .ram := hqc ▸ hr
        by_cases hi' : i.val = m
        · obtain ⟨i, hi0⟩ := i
          dsimp only at hi'
          subst hi'
          dsimp only
          rw [← h1, State.memRead_memWrite hqr, trunc_trunc, hql]
        · have hlt : maskRank mask i + 1 ≤ maskRank mask m := by
            have := maskRank_mono mask (show i.val + 1 ≤ m by omega)
            rw [maskRank_succ, hs] at this; simpa using this
          have hle : sz.bytes * maskRank mask i + sz.bytes ≤ sz.bytes * maskRank mask m := by
            calc _ = sz.bytes * (maskRank mask i + 1) := by ring
              _ ≤ _ := Nat.mul_le_mul_left _ hlt
          rw [h1, State.memRead_memWrite_apart hqr _ _ _ _ _ (by omega) (by omega) (.inl hle)]
          exact h3 hr i (by omega) hs
      · rw [maskBits_take_succ ⟨m, by omega⟩, List.flatMap_append]
        refine State.Stored.trans (h4.mono fun a ha => ?_) ?_ hqc
        · have := within_mono (base := base) (y := 0) (n := sz.bytes * maskRank mask m)
            (N := sz.bytes * (maskRank mask m + 1)) (by rw [Nat.mul_add]; omega) (by rw [Nat.mul_add]; omega) (a := a)
          simp at this; exact this ha
        · have := (State.stored_memWrite q.1 sz (trunc sz (q.2.getListed ⟨m, by omega⟩)) q.2).mono
            (d := within base (sz.bytes * (maskRank mask m + 1))) fun a ha => by
              rw [h1] at ha
              exact within_mono (by rw [Nat.mul_add]; omega) (by rw [Nat.mul_add]; omega) ha
          rw [storeAccesses_congr _ (trunc_trunc ..), hql, h1] at this
          simpa [hset, h1, hql] using this
    · have hset' : mask.getLsbD m = false := by simpa using hset
      simp only [storeUp, hset', Bool.false_eq_true, if_false, Nat.add_zero]
      refine ⟨h1, h2, ?_, ?_⟩
      swap
      · rw [maskBits_take_succ ⟨m, by omega⟩, List.flatMap_append]
        simp only [List.flatMap_cons, List.flatMap_nil, hset', Bool.false_eq_true, if_false, List.append_nil]
        exact h4
      intro hr i hi hs
      have : i.val ≠ m := by intro e; rw [e, hset'] at hs; cases hs
      exact h3 hr i (by omega) hs

/-- MOVEM's stores at falling addresses, the first `m` bits of the mask done. -/
theorem storeDown_spec (sz : Size) (mask : Word) (low : Long) (u : State) (m : Nat) (hm : m ≤ 16) :
    let R := maskRank mask 16
    let r := (maskBits.take m).foldl (storeDown sz mask) (low + BitVec.ofNat 32 (sz.bytes * R), u)
    r.1 = low + BitVec.ofNat 32 (sz.bytes * (R - maskRank mask m)) ∧ r.2 = { u with mem := r.2.mem, bus := r.2.bus } ∧
    (u.cfg.mem = .ram → ∀ i : Fin 16, i.val < m → mask.getLsbD i = true → r.2.memRead (low + BitVec.ofNat 32 (sz.bytes * (R - maskRank mask (i + 1)))) sz = trunc sz (u.getListed i.rev)) ∧
    u.Stored ((maskBits.take m).flatMap fun i : Fin 16 => if mask.getLsbD i then
        storeAccesses (low + BitVec.ofNat 32 (sz.bytes * (R - maskRank mask (i + 1)))) sz (u.getListed i.rev) else [])
      (within low (sz.bytes * R)) r.2 := by
  intro R
  induction m with
  | zero => exact ⟨by simp [maskRank], rfl, fun _ i h => by omega, State.Stored.refl u⟩
  | succ m ih =>
    obtain ⟨h1, h2, h3, h4⟩ := ih (by omega)
    have hb := Size.bytes_bounds sz
    intro r
    have hr : r = storeDown sz mask ((maskBits.take m).foldl (storeDown sz mask) (low + BitVec.ofNat 32 (sz.bytes * R), u)) ⟨m, by omega⟩ := by
      simp only [r]
      rw [maskBits_take_succ ⟨m, by omega⟩, List.foldl_append]; rfl
    generalize (maskBits.take m).foldl (storeDown sz mask) (low + BitVec.ofNat 32 (sz.bytes * R), u) = q at *
    have hR : R ≤ 16 := maskRank_le mask 16
    have hmul : ∀ k, k ≤ R → sz.bytes * k ≤ sz.bytes * R := fun k hk => Nat.mul_le_mul_left _ hk
    have hRR : sz.bytes * R ≤ 64 := by
      calc _ ≤ 4 * 16 := Nat.mul_le_mul hb.2 hR
        _ = 64 := rfl
    have hmono := maskRank_mono mask hm
    rw [maskRank_succ] at hmono
    rw [hr]
    by_cases hset : mask.getLsbD m = true
    · rw [hset, if_pos rfl] at hmono
      have hk : sz.bytes * (R - maskRank mask m) = sz.bytes * (R - maskRank mask (m+1)) + sz.bytes := by
        rw [maskRank_succ, hset, if_pos rfl]
        have : R - maskRank mask m = (R - (maskRank mask m + 1)) + 1 := by omega
        rw [this]; ring
      have haddr : q.1 - BitVec.ofNat 32 sz.bytes = low + BitVec.ofNat 32 (sz.bytes * (R - maskRank mask (m+1))) := by
        rw [h1, hk, BitVec.ofNat_add, ← BitVec.add_assoc, BitVec.add_sub_cancel]
      simp only [storeDown, hset, if_true]
      rw [haddr]
      have hle := hmul (R - maskRank mask (m+1)) (by omega)
      have hle2 := hmul (R - maskRank mask m) (by omega)
      have hqc : q.2.cfg = u.cfg := by rw [h2]
      have hql : q.2.getListed (Fin.rev ⟨m, by omega⟩) = u.getListed (Fin.rev ⟨m, by omega⟩) := by rw [h2]; rfl
      refine ⟨rfl, ?_, ?_, ?_⟩
      · obtain ⟨mm, bb, h2'⟩ : ∃ mm bb, q.2 = { u with mem := mm, bus := bb } := ⟨_, _, h2⟩
        rw [h2']; exact State.memWrite_eq ..
      · intro hr i hi hs
        have hqr : q.2.cfg.mem = .ram := hqc ▸ hr
        by_cases hi' : i.val = m
        · obtain ⟨i, hi0⟩ := i
          dsimp only at hi'
          subst hi'
          dsimp only
          rw [State.memRead_memWrite hqr, trunc_trunc, hql]
        · have hlt : maskRank mask (i + 1) ≤ maskRank mask m := maskRank_mono mask (by omega)
          have hle3 : sz.bytes * (R - maskRank mask m) ≤ sz.bytes * (R - maskRank mask (i+1)) := Nat.mul_le_mul_left _ (by omega)
          have hle4 := hmul (R - maskRank mask (i.val+1)) (by omega)
          rw [State.memRead_memWrite_apart hqr _ _ _ _ _ (by omega) (by omega) (.inr (by omega))]
          exact h3 hr i (by omega) hs
      · rw [maskBits_take_succ ⟨m, by omega⟩, List.flatMap_append]
        refine State.Stored.trans h4 ?_ hqc
        have := (State.stored_memWrite (low + BitVec.ofNat 32 (sz.bytes * (R - maskRank mask (m + 1)))) sz
          (trunc sz (q.2.getListed (Fin.rev ⟨m, by omega⟩))) q.2).mono
          (d := within low (sz.bytes * R)) fun a ha => within_mono (by omega) (by omega) ha
        rw [storeAccesses_congr _ (trunc_trunc ..), hql] at this
        simpa [hset, hql] using this
    · have hset' : mask.getLsbD m = false := by simpa using hset
      have hrk : maskRank mask (m+1) = maskRank mask m := by rw [maskRank_succ, hset']; rfl
      rw [hrk]
      simp only [storeDown, hset', Bool.false_eq_true, if_false]
      refine ⟨h1, h2, ?_, ?_⟩
      swap
      · rw [maskBits_take_succ ⟨m, by omega⟩, List.flatMap_append]
        simp only [List.flatMap_cons, List.flatMap_nil, hset', Bool.false_eq_true, if_false, List.append_nil]
        exact h4
      intro hr i hi hs
      have : i.val ≠ m := by intro e; rw [e, hset'] at hs; cases hs
      exact h3 hr i (by omega) hs

theorem EA.ctrl_of_CA {ea : EA} {sz} (h : ea.ok .CA sz = true) : ea.ok .ctrl sz = true ∧ ea.ok .CAorPre sz = true ∧ ∀ n, ea ≠ .preDec n := by
  cases ea <;> simp [EA.ok, EA.inClass] at h ⊢

theorem maskBits_take : maskBits = maskBits.take 16 := by decide

theorem State.getListed_setListed (i j : Fin 16) (v : Long) (s : State) : (s.setListed j v).getListed i = if i = j then v else s.getListed i := by
  unfold State.getListed State.setListed
  by_cases hi : i.val < 8
  · by_cases hj : j.val < 8
    · simp only [hi, hj, dif_pos, State.getD_setD, Fin.ext_iff]
    · simp only [hi, hj, dif_pos, dif_neg, not_false_eq_true]
      rw [if_neg (by intro e; subst e; exact hj hi)]; simp
  · by_cases hj : j.val < 8
    · simp only [hi, hj, dif_pos, dif_neg, not_false_eq_true]
      rw [if_neg (by intro e; subst e; exact hi hj)]; simp
    · simp only [hi, hj, dif_neg, not_false_eq_true, State.getA_setA, Fin.ext_iff]
      congr 1
      apply propext
      constructor <;> intro e <;> omega

theorem State.setListed_eq (j : Fin 16) (v : Long) (s : State) : s.setListed j v = { s with d := (s.setListed j v).d, a := (s.setListed j v).a, usp := (s.setListed j v).usp, ssp := (s.setListed j v).ssp } := by
  unfold State.setListed
  split
  · rfl
  · rw [State.setA_eq]

theorem State.setListed_inactiveSP (j : Fin 16) (v : Long) (s : State) : (s.setListed j v).inactiveSP = s.inactiveSP := by
  unfold State.setListed
  split
  · rfl
  · simp

/-- MOVEM's loads, the first `m` bits of the mask done: each selected register's bytes are read after those of
the registers before it. -/
theorem loadUp_spec (sz : Size) (mask : Word) (base : Long) (u : State) (m : Nat) (hm : m ≤ 16) :
    let r := (maskBits.take m).foldl (loadUp sz mask) (base, u)
    let seen := fun k => u.noteReads (span base (sz.bytes * maskRank mask k))
    r.1 = base + BitVec.ofNat 32 (sz.bytes * maskRank mask m) ∧ r.2 = { seen m with d := r.2.d, a := r.2.a, usp := r.2.usp, ssp := r.2.ssp } ∧
    r.2.inactiveSP = u.inactiveSP ∧
    (∀ i : Fin 16, r.2.getListed i = if i.val < m ∧ mask.getLsbD i = true then sext sz ((seen i).memRead (base + BitVec.ofNat 32 (sz.bytes * maskRank mask i)) sz) else u.getListed i) := by
  intro r seen
  induction m with
  | zero =>
    have h0 : seen 0 = u := by simp [seen, maskRank, span]
    refine ⟨by simp [r, maskRank], by rw [h0]; rfl, rfl, fun i => by simp [r]⟩
  | succ m ih =>
    obtain ⟨h1, h2, h3, h4⟩ := ih (by omega)
    have hr : r = loadUp sz mask ((maskBits.take m).foldl (loadUp sz mask) (base, u)) ⟨m, by omega⟩ := by
      simp only [r]
      rw [maskBits_take_succ ⟨m, by omega⟩, List.foldl_append]; rfl
    clear_value r
    generalize (maskBits.take m).foldl (loadUp sz mask) (base, u) = q at *
    rw [hr]
    by_cases hset : mask.getLsbD m = true
    · simp only [loadUp, hset, if_true]
      have hs : seen (m + 1) = (seen m).afterRead (base + BitVec.ofNat 32 (sz.bytes * maskRank mask m)) sz := by
        simp only [seen, State.afterRead, State.noteReads_noteReads, maskRank_succ, hset, if_true, Nat.mul_add, Nat.mul_one, span_add]
      have hmem : ∀ a, q.2.memRead a sz = (seen m).memRead a sz := fun a =>
        State.memRead_congr' (by rw [h2]) (by rw [h2]) (by rw [h2]) a sz
      refine ⟨by rw [h1, add_ofNat_ofNat, maskRank_succ, hset, if_pos rfl, Nat.mul_add, Nat.mul_one], ?_, ?_, ?_⟩
      · rw [hs, h1]
        obtain ⟨dd, aa, uu, ss, h2'⟩ : ∃ dd aa uu ss, q.2 = { seen m with d := dd, a := aa, usp := uu, ssp := ss } := ⟨_, _, _, _, h2⟩
        rw [h2']
        exact State.setListed_eq ..
      · rw [State.setListed_inactiveSP]; exact h3
      · intro i
        rw [State.getListed_setListed, hmem, h1]
        have : ((q.2.afterRead (base + BitVec.ofNat 32 (sz.bytes * maskRank mask m)) sz).getListed i) = q.2.getListed i := rfl
        rw [this, h4 i]
        by_cases hi : i = ⟨m, by omega⟩
        · subst hi; simp [hset]
        · have hv : i.val ≠ m := fun e => hi (Fin.ext e)
          rw [if_neg hi]
          congr 1
          apply propext; constructor <;> rintro ⟨a, b⟩ <;> exact ⟨by omega, b⟩
    · have hset' : mask.getLsbD m = false := by simpa using hset
      have hrk : maskRank mask (m + 1) = maskRank mask m := by rw [maskRank_succ, hset']; rfl
      have hs : seen (m + 1) = seen m := by simp only [seen, hrk]
      simp only [loadUp, hset', Bool.false_eq_true, if_false]
      rw [hs, hrk]
      refine ⟨h1, h2, h3, ?_⟩
      intro i
      rw [h4 i]
      congr 1
      apply propext; constructor
      · rintro ⟨a, b⟩; exact ⟨by omega, b⟩
      · rintro ⟨a, b⟩
        have : i.val ≠ m := by intro e; rw [e, hset'] at b; cases b
        exact ⟨by omega, b⟩

theorem EA.CorPost_of_ctrl {ea : EA} {sz} (h : ea.ok .ctrl sz = true) : ea.ok .CorPost sz = true ∧ ∀ n, ea ≠ .postInc n := by
  cases ea <;> simp [EA.ok, EA.inClass] at h ⊢

end Sys2Proof.Machine
end

