-- ==== Sys2Proof/Laws/Run.lean ====
section
/-! SUPPORT. All that a step can do, said once (40_driver.md R89, R228). -/

namespace Sys2Proof.Machine

/-- No instruction touches the counters or the parameters. -/
theorem Did.counters {i s t} (d : Did i s t) : t.cycles = s.cycles ∧ t.instrCount = s.instrCount ∧ t.freq = s.freq ∧ t.cfg = s.cfg := by
  obtain ⟨u, c, g⟩ | ⟨-, -, u, w, c, g⟩ | ⟨a, -, -, g⟩ := d
  · obtain rfl | ⟨k, info, rfl, -⟩ := g
    · exact ⟨c.cycles, c.instrCount, c.freq, c.cfg⟩
    · exact ⟨c.cycles, c.instrCount, c.freq, c.cfg⟩
  · obtain rfl | ⟨k, info, rfl, -⟩ := g
    · exact ⟨c.cycles, c.instrCount, c.freq, c.cfg⟩
    · exact ⟨c.cycles, c.instrCount, c.freq, c.cfg⟩
  · subst g; exact ⟨rfl, rfl, rfl, rfl⟩

/-- What an instruction does to the two fields that hold `MEM`. -/
theorem Did.memKind {i s t} (d : Did i s t) : (s.cfg.mem = .ram → t.bus = s.bus) ∧
    (s.cfg.mem = .platform → t.mem = s.mem ∧ s.bus <+: t.bus) := by
  obtain ⟨u, c, g⟩ | ⟨-, -, u, w, c, g⟩ | ⟨a, -, -, g⟩ := d
  · obtain rfl | ⟨k, info, rfl, -⟩ := g <;> exact ⟨c.ramBus, fun hp => ⟨c.platformMem hp, c.busGrows⟩⟩
  · obtain rfl | ⟨k, info, rfl, -⟩ := g <;> exact ⟨c.ramBus, fun hp => ⟨c.platformMem hp, c.busGrows⟩⟩
  · subst g; exact ⟨fun _ => rfl, fun _ => ⟨rfl, List.prefix_rfl⟩⟩

/-- An instruction keeps the execution state, or stops the engine with a record of its own. -/
theorem Did.runState {i s t} (d : Did i s t) : (t.running = s.running ∧ t.stopRecord = s.stopRecord) ∨ 
   ∃ k info, t.running = false ∧ t.stopRecord = some { kind := k, opcode := i.opcode, faultPC := s.pc - 2, info := info } ∧ CanStop i s k info := by
  obtain ⟨u, c, g⟩ | ⟨-, -, u, w, c, g⟩ | ⟨a, -, -, g⟩ := d
  · obtain rfl | ⟨k, info, rfl, h⟩ := g
    · exact .inl ⟨c.running, c.stopRecord⟩
    · exact .inr ⟨k, info, rfl, rfl, h⟩
  · obtain rfl | ⟨k, info, rfl, h⟩ := g
    · exact .inl ⟨c.running, c.stopRecord⟩
    · exact .inr ⟨k, info, rfl, rfl, h⟩
  · subst g; exact .inl ⟨rfl, rfl⟩

theorem CanStop.legal {i s k info op f} (h : CanStop i s k info) : StopRecord.legal { kind := k, opcode := op, faultPC := f, info := info } := by
  cases k <;> simp_all [CanStop, StopRecord.legal]

/-- An instruction keeps the invariant. -/
theorem Did.inv {i s t} (d : Did i s t) (hr : s.running = true) (h : s.Inv) : t.Inv := by
  have hw : Memory.wf t.mem = true := by
    obtain ⟨u, c, g⟩ | ⟨-, hs, u, w, c, g⟩ | ⟨a, hi, hs, g⟩ := d
    · obtain rfl | ⟨k, info, rfl, h'⟩ := g <;> exact c.wf h.memory
    · obtain rfl | ⟨k, info, rfl, h'⟩ := g <;> exact c.wf h.memory
    · subst g; exact h.memory
  have hsr : t.sr &&& 0xA71F#16 = t.sr := by
    obtain ⟨u, c, g⟩ | ⟨-, hs, u, w, c, g⟩ | ⟨a, hi, hs, g⟩ := d
    · obtain rfl | ⟨k, info, rfl, h'⟩ := g <;> exact c.srBits h.srBits
    · obtain rfl | ⟨k, info, rfl, h'⟩ := g <;> exact sr_mask_mask w
    · subst g; exact h.srBits
  obtain ⟨hb, hp⟩ := d.memKind
  have hc : t.cfg = s.cfg := d.counters.2.2.2
  have hram : t.cfg.mem = .ram → t.bus = [] := fun e => (hb (hc ▸ e)).trans (h.ramBus (hc ▸ e))
  have hplat : t.cfg.mem = .platform → t.mem = [] := fun e => (hp (hc ▸ e)).1.trans (h.platformMem (hc ▸ e))
  obtain ⟨h1, h2⟩ | ⟨k, info, h1, h2, h3⟩ := Did.runState d
  · exact ⟨hw, hsr, by rw [h1, h2]; exact h.runState, by rw [h2]; exact h.record, hram, hplat⟩
  · refine ⟨hw, hsr, by rw [h1, h2]; simp, ?_, hram, hplat⟩
    intro r e; rw [h2] at e; injection e with e; subst e; exact CanStop.legal h3

/-! ## The words at `PC` -/

theorem State.wordsAhead_length (n : Nat) (s : State) : (s.wordsAhead n).length = n := by
  induction n generalizing s with
  | zero => rfl
  | succ n ih => simp [State.wordsAhead, ih]

theorem State.readWord_congr {s t : State} (hm : t.mem = s.mem) (hb : t.bus = s.bus) (hc : t.cfg = s.cfg) (a : Long) :
    t.readWord a = s.readWord a := by
  simp [State.readWord, State.readByte, State.noteReads, hm, hb, hc]

/-- What stands ahead depends on `PC` and on what holds memory only. -/
theorem State.wordsAhead_congr {s t : State} (hp : t.pc = s.pc) (hm : t.mem = s.mem) (hb : t.bus = s.bus)
    (hc : t.cfg = s.cfg) (n : Nat) : t.wordsAhead n = s.wordsAhead n := by
  induction n generalizing s t with
  | zero => rfl
  | succ n ih =>
    simp only [State.wordsAhead]
    rw [State.readWord_congr hm hb hc, hp]
    congr 1
    exact ih (by simp [hp]) (by simp [hm]) (by simp [State.skip, State.noteReads, hc, hb, hp]) (by simp [hc])

/-- In plain RAM the words ahead are those stored there. -/
theorem State.wordsAhead_ram {s : State} (hr : s.cfg.mem = .ram) (n : Nat) :
    s.wordsAhead n = (List.range n).map fun k => s.readWord (s.pc + BitVec.ofNat 32 (2 * k)) := by
  induction n generalizing s with
  | zero => rfl
  | succ n ih =>
    rw [State.wordsAhead, List.range_succ_eq_map, List.map_cons, List.map_map, ih (by simpa using hr), State.skip_ram hr]
    refine congrArg₂ _ (by simp) (List.map_congr_left fun k _ => ?_)
    dsimp only [Function.comp_apply]
    rw [BitVec.add_assoc, ← BitVec.ofNat_add, show 2 * 1 + 2 * k = 2 * (k + 1) by omega]
    rfl

theorem EA.words_pc (e : EA) (sz : Size) (s : State) :
    (s.resolve e sz).2.pc = s.pc + BitVec.ofNat 32 (2 * (e.words sz).length) := by
  cases e <;> cases sz <;> simp [State.resolve, EA.words, longWords, immLen, immWords]

/-! ## The next instruction -/

/-- A word of the table and four words after it decode. -/
theorem decode_avail {named op m ws} (h : lookup named op = some m) (hl : 4 ≤ ws.length) :
    ∃ i rest, decode named (op :: ws) = .ok (i, rest) := by
  obtain ⟨⟨i, rest⟩, hx⟩ := assemble_avail h hl
  exact ⟨i, rest, by simp only [decode, h, hx]⟩

/-- What decodes is read from its words. -/
theorem decode_readFrom {named op ws i rest} (h : decode named (op :: ws) = .ok (i, rest)) :
    ∃ m, lookup named op = some m ∧ ReadFrom m op ws rest i := by
  simp only [decode] at h
  split at h
  · cases h
  · rename_i m hm
    split at h
    · cases h
    · rename_i x hx
      cases h
      exact ⟨m, hm, readFrom hm hx⟩

/-- More words after an instruction's own do not change it. -/
theorem decode_more {named op ws i rest} (h : decode named (op :: ws) = .ok (i, rest)) (more : List Word) :
    decode named (op :: (ws ++ more)) = .ok (i, rest ++ more) := by
  obtain ⟨m, hm, r⟩ := decode_readFrom h
  simp only [decode, hm, r.more]

theorem State.nextInstr_unknown {s : State} (h : lookup s.cfg.admitUnnamed (s.readWord s.pc) = none) :
    s.nextInstr = .error (.unknownOpcode (s.readWord s.pc)) := by
  simp only [State.nextInstr, decode, h]

/-- Any instruction but MOVE is read from the words ahead. -/
theorem State.nextInstr_of_decode {s : State} {i : Instr} {rest : List Word}
    (h : decode s.cfg.admitUnnamed (s.readWord s.pc :: (s.skip 1).wordsAhead 4) = .ok (i, rest))
    (hm : ∀ sz src dst, i ≠ .move sz src dst) : s.nextInstr = .ok i := by
  simp only [State.nextInstr, h]

/-- MOVE's destination is read from the words that stand there after its source is. -/
theorem State.nextInstr_of_move {s : State} {sz : Size} {src dst : EA} {rest : List Word}
    (h : decode s.cfg.admitUnnamed (s.readWord s.pc :: (s.skip 1).wordsAhead 4) = .ok (.move sz src dst, rest)) :
    ∃ i rest', decode s.cfg.admitUnnamed (s.readWord s.pc :: (((s.skip 1).wordsAhead 4).take (src.words sz).length ++
      ((s.skip 1).fetchEA src sz).2.wordsAhead 4)) = .ok (i, rest') ∧ s.nextInstr = .ok i := by
  obtain ⟨m, hm, -⟩ := decode_readFrom h
  obtain ⟨i, rest', h'⟩ := decode_avail (ws := ((s.skip 1).wordsAhead 4).take (src.words sz).length ++
      ((s.skip 1).fetchEA src sz).2.wordsAhead 4) hm (by simp [State.wordsAhead_length])
  exact ⟨i, rest', h', by simp only [State.nextInstr, h, h']⟩

/-- In plain RAM every instruction is read from the words stored at `PC`. -/
theorem State.nextInstr_ram {s : State} (hr : s.cfg.mem = .ram) {i : Instr} {rest : List Word}
    (h : decode s.cfg.admitUnnamed (s.readWord s.pc :: (s.skip 1).wordsAhead 4) = .ok (i, rest)) :
    s.nextInstr = .ok i := by
  by_cases hm : ∃ sz src dst, i = .move sz src dst
  · obtain ⟨sz, src, dst, rfl⟩ := hm
    obtain ⟨i', rest', h', e⟩ := State.nextInstr_of_move h
    rw [e]
    have hr1 : (s.skip 1).cfg.mem = .ram := by simpa using hr
    have hp : ((s.skip 1).fetchEA src sz).2.wordsAhead 4 =
        ((s.skip 1).wordsAhead ((src.words sz).length + 4)).drop (src.words sz).length := by
      rw [State.fetchEA_snd, State.afterReadEA_ram (by simpa using hr1), State.wordsAhead_ram (by simpa using hr1),
        State.wordsAhead_ram hr1, ← List.map_drop, List.range_add, List.drop_left' (by simp), List.map_map]
      refine List.map_congr_left fun k _ => ?_
      dsimp only [Function.comp_apply]
      rw [EA.words_pc, BitVec.add_assoc, ← BitVec.ofNat_add, ← Nat.mul_add]
      refine State.readWord_congr (by simp) ?_ (by simp) _
      exact State.resolve_bus_ram hr1 ..
    have hall : ((s.skip 1).wordsAhead 4).take (src.words sz).length ++ ((s.skip 1).fetchEA src sz).2.wordsAhead 4 =
        (s.skip 1).wordsAhead 4 ++ ((s.skip 1).wordsAhead ((src.words sz).length + 4)).drop 4 := by
      have hl : (src.words sz).length ≤ 4 := (src.words_length_le sz).trans (by omega)
      have h4 : (s.skip 1).wordsAhead 4 = ((s.skip 1).wordsAhead ((src.words sz).length + 4)).take 4 := by
        rw [State.wordsAhead_ram hr1, State.wordsAhead_ram hr1, ← List.map_take, List.take_range]
        simp
      rw [hp, h4, List.take_take, Nat.min_eq_left hl, List.take_append_drop, List.take_append_drop]
    rw [hall, decode_more h] at h'
    cases h'; rfl
  · exact State.nextInstr_of_decode h fun sz src dst e => hm ⟨sz, src, dst, e⟩

/-- The next instruction is unknown, or well formed and of the word at `PC`. -/
theorem State.nextInstr_cases (s : State) :
    (lookup s.cfg.admitUnnamed (s.readWord s.pc) = none ∧ s.nextInstr = .error (.unknownOpcode (s.readWord s.pc))) ∨
    ∃ i, s.nextInstr = .ok i ∧ i.wf = true ∧ i.opcode = s.readWord s.pc := by
  cases hl : lookup s.cfg.admitUnnamed (s.readWord s.pc) with
  | none => exact .inl ⟨rfl, State.nextInstr_unknown hl⟩
  | some m =>
    obtain ⟨i, rest, h⟩ := decode_avail (ws := (s.skip 1).wordsAhead 4) hl (by simp [State.wordsAhead_length])
    by_cases hm : ∃ sz src dst, i = .move sz src dst
    · obtain ⟨sz, src, dst, rfl⟩ := hm
      obtain ⟨j, rest', h', e⟩ := State.nextInstr_of_move h
      obtain ⟨_, -, r⟩ := decode_readFrom h'
      exact .inr ⟨j, e, r.wf, r.opcode⟩
    · obtain ⟨_, -, r⟩ := decode_readFrom h
      exact .inr ⟨i, State.nextInstr_of_decode h fun sz src dst e => hm ⟨sz, src, dst, e⟩, r.wf, r.opcode⟩

/-! ## A step -/

theorem step_unknown (s : State) (hr : s.running = true) (hl : lookup s.cfg.admitUnnamed (s.readWord s.pc) = none) : step s = .next (s.haltBeforeHandler .unknownOpcode) := by
  simp only [step, hr, if_true, State.nextInstr_unknown hl]

theorem step_next {s : State} {i : Instr} (hr : s.running = true) (h : s.nextInstr = .ok i) :
    step s = exec i (s.beginInstr i.mnemonic) := by
  simp only [step, hr, if_true, h]

/-- All that a step of the running engine can be: the stop on an unknown opcode, or a well-formed instruction. -/
theorem step_cases (s : State) (hr : s.running = true) :
    step s = .next (s.haltBeforeHandler .unknownOpcode) ∨ ∃ i, i.wf = true ∧ step s = exec i (s.beginInstr i.mnemonic) := by
  obtain ⟨hl, -⟩ | ⟨i, h, hw, -⟩ := s.nextInstr_cases
  · exact .inl (step_unknown s hr hl)
  · exact .inr ⟨i, hw, step_next hr h⟩

theorem State.Inv.noteReads {s : State} (h : s.Inv) (l : List Long) : (s.noteReads l).Inv where
  memory := h.memory
  srBits := h.srBits
  runState := h.runState
  record := h.record
  ramBus hr := by
    have hr : s.cfg.mem = .ram := by simpa using hr
    rw [State.noteReads_ram hr]; exact h.ramBus hr
  platformMem := h.platformMem

theorem State.Inv.beginInstr {s : State} {m} (h : s.Inv) : (s.beginInstr m).Inv :=
  have g := h.noteReads (span s.pc (2 * 1))
  ⟨g.memory, g.srBits, g.runState, g.record, g.ramBus, g.platformMem⟩

/-- Every well-formed instruction has a next state. -/
theorem exec_total (i : Instr) (s : State) (h : i.wf = true) : ∃ t, exec i s = .next t := by
  cases i with
  | nop => exact ⟨_, rfl⟩
  | _ => unfold exec; exact ⟨_, handle_next h⟩

end Sys2Proof.Machine
end

