-- ==== Sys2Proof/Laws/Shift.lean ====
section
/-! SUPPORT. The loop of a shift or rotate (46_shift.md R189), any number of turns: bits, values and flags. -/

namespace Sys2Proof.Machine

/-- A shift by one more position is one more turn of the loop (R189). -/
theorem shiftTimes_succ (kind left sz n p) : shiftTimes kind left sz (n+1) p = shiftOnce kind left sz (shiftTimes kind left sz n p) := by
  induction n generalizing p with
  | zero => rfl
  | succ n ih => rw [shiftTimes, ih, ← shiftTimes]

theorem toNat_lt_of_trunc {sz v} (h : trunc sz v = v) : v.toNat < 2 ^ sz.bits := by
  have := v.isLt
  rw [← h]
  cases sz <;> simp [trunc, Size.bits, Size.bytes] <;> omega
theorem trunc_of_lt {sz v} (h : v.toNat < 2 ^ sz.bits) : trunc sz v = v := by
  apply BitVec.eq_of_toNat_eq
  cases sz <;> simp [trunc, Size.bits, Size.bytes] at * <;> omega
theorem getLsbD_of_trunc {sz v} (h : trunc sz v = v) {k} (hk : sz.bits ≤ k) : v.getLsbD k = false := by
  rw [← h, trunc_getLsbD]; simp; omega
theorem Size.bits_bounds (sz : Size) : 8 ≤ sz.bits ∧ sz.bits ≤ 32 := by cases sz <;> simp [Size.bits, Size.bytes]
theorem bitAt_getLsbD (sz top b k) (hk : k < 32) : (bitAt sz top b).getLsbD k = (b && decide (k = if top then sz.bits - 1 else 0)) := by
  have := Size.bits_bounds sz
  unfold bitAt
  cases b
  · simp
  · cases top
    · simp only [if_true, Bool.false_eq_true, if_false, Bool.true_and, BitVec.getLsbD_one]; grind
    · simp only [if_true, Bool.true_and, BitVec.getLsbD_shiftLeft, BitVec.getLsbD_one, hk, decide_true, Bool.true_and]; grind

/-- The bits of one turn of the loop. -/
theorem shiftOnce_getLsbD (kind left sz p) (h : trunc sz p.v = p.v) (k) (hk : k < sz.bits) : (shiftOnce kind left sz p).v.getLsbD k =
   (if left then (if k = 0 then (match kind with | .as => false | .ls => false | .ro => p.v.getLsbD (sz.bits - 1) | .rox => p.x) else p.v.getLsbD (k - 1))
    else (if k = sz.bits - 1 then (match kind with | .as => p.v.getLsbD (sz.bits - 1) | .ls => false | .ro => p.v.getLsbD 0 | .rox => p.x) else p.v.getLsbD (k + 1))) := by
  have hb := Size.bits_bounds sz
  have hz : p.v.getLsbD sz.bits = false := getLsbD_of_trunc h (le_refl _)
  have hk32 : k < 32 := by omega
  cases left
  · cases kind <;> simp only [shiftOnce, Bool.false_eq_true, if_false, BitVec.getLsbD_or, bitAt_getLsbD _ _ _ _ hk32, BitVec.getLsbD_ushiftRight, msb, if_true]
    all_goals
      by_cases hk1 : k = sz.bits - 1
      · subst hk1
        rw [show 1 + (sz.bits - 1) = sz.bits by omega, hz]; simp
      · rw [show 1 + k = k + 1 by omega]; simp [hk1]
  · cases kind <;> simp only [shiftOnce, if_true, BitVec.getLsbD_or, bitAt_getLsbD _ _ _ _ hk32, trunc_getLsbD, BitVec.getLsbD_shiftLeft, msb, Bool.false_eq_true, if_false]
    all_goals
      by_cases hk1 : k = 0
      · subst hk1; simp
      · simp [hk1, hk, hk32]

theorem shiftOnce_trunc (kind left sz p) (h : trunc sz p.v = p.v) : trunc sz (shiftOnce kind left sz p).v = (shiftOnce kind left sz p).v := by
  have hb := Size.bits_bounds sz
  apply BitVec.eq_of_getLsbD_eq; intro k hk
  rw [trunc_getLsbD]
  by_cases hw : k < sz.bits
  · simp [hw]
  · have h0 : decide (k < sz.bits) = false := by simp [hw]
    rw [h0, Bool.false_and]
    cases left
    · cases kind <;> simp only [shiftOnce, Bool.false_eq_true, if_false, BitVec.getLsbD_or, bitAt_getLsbD _ _ _ _ hk, BitVec.getLsbD_ushiftRight, if_true]
      all_goals rw [getLsbD_of_trunc h (by omega)]
      all_goals first | rfl | (simp; done) | (simp; omega)
    · cases kind <;> simp only [shiftOnce, if_true, BitVec.getLsbD_or, bitAt_getLsbD _ _ _ _ hk, trunc_getLsbD, h0, Bool.false_eq_true, if_false]
      all_goals first | rfl | (simp; done) | (simp; omega)

theorem shiftTimes_trunc (kind left sz n p) (h : trunc sz p.v = p.v) : trunc sz (shiftTimes kind left sz n p).v = (shiftTimes kind left sz n p).v := by
  induction n with
  | zero => exact h
  | succ n ih => rw [shiftTimes_succ]; exact shiftOnce_trunc _ _ _ _ ih

/-- RO moves a bit round the ring of the operand's bits. -/
theorem shiftTimes_ro_left (sz n p) (h : trunc sz p.v = p.v) (j) (hj : j < sz.bits) : (shiftTimes .ro true sz n p).v.getLsbD ((j + n) % sz.bits) = p.v.getLsbD j := by
  have hb := Size.bits_bounds sz
  induction n with
  | zero => rw [Nat.add_zero, Nat.mod_eq_of_lt hj]; rfl
  | succ n ih =>
    have hlt : (j + (n+1)) % sz.bits < sz.bits := Nat.mod_lt _ (by omega)
    have hlt' : (j + n) % sz.bits < sz.bits := Nat.mod_lt _ (by omega)
    rw [shiftTimes_succ, shiftOnce_getLsbD _ _ _ _ (shiftTimes_trunc _ _ _ _ _ h) _ hlt, ← ih]
    have : (j + (n+1)) % sz.bits = if (j + n) % sz.bits = sz.bits - 1 then 0 else (j + n) % sz.bits + 1 := by
      rw [← Nat.add_assoc, Nat.add_mod, Nat.mod_eq_of_lt (show 1 < sz.bits by omega)]
      split
      · rw [show (j + n) % sz.bits + 1 = sz.bits by omega, Nat.mod_self]
      · exact Nat.mod_eq_of_lt (by omega)
    simp only [if_true, this]
    split
    · rw [‹(j + n) % sz.bits = sz.bits - 1›]; simp
    · rw [if_neg (by omega)]; simp

theorem shiftTimes_ro_right (sz n p) (h : trunc sz p.v = p.v) (j) (hj : j < sz.bits) : (shiftTimes .ro false sz n p).v.getLsbD j = p.v.getLsbD ((j + n) % sz.bits) := by
  have hb := Size.bits_bounds sz
  induction n generalizing j with
  | zero => rw [Nat.add_zero, Nat.mod_eq_of_lt hj]; rfl
  | succ n ih =>
    rw [shiftTimes_succ, shiftOnce_getLsbD _ _ _ _ (shiftTimes_trunc _ _ _ _ _ h) _ hj]
    simp only [Bool.false_eq_true, if_false]
    split
    · rw [ih 0 (by omega)]; subst_vars
      congr 1
      rw [show sz.bits - 1 + (n + 1) = (0 + n) + sz.bits by omega, Nat.add_mod_right]
    · rw [ih (j+1) (by omega)]; congr 1; congr 1; omega

/-- The ring ROX turns: the bits of the operand and X above them (R189). -/
def ring (sz : Size) (w : Long) (x : Bool) (j : Nat) : Bool := if j = sz.bits then x else w.getLsbD j

theorem ring_left_once (sz p) (h : trunc sz p.v = p.v) (j) (hj : j ≤ sz.bits) : ring sz (shiftOnce .rox true sz p).v (shiftOnce .rox true sz p).x (if j = sz.bits then 0 else j + 1) = ring sz p.v p.x j := by
  have hb := Size.bits_bounds sz
  unfold ring
  by_cases h1 : j = sz.bits
  · rw [if_pos h1, if_neg (by omega), if_pos h1, shiftOnce_getLsbD _ _ _ _ h _ (by omega)]; simp
  · rw [if_neg h1, if_neg h1]
    by_cases h2 : j + 1 = sz.bits
    · rw [if_pos h2]; have : j = sz.bits - 1 := by omega
      rw [this]; rfl
    · rw [if_neg h2, shiftOnce_getLsbD _ _ _ _ h _ (by omega)]; simp
theorem ring_right_once (sz p) (h : trunc sz p.v = p.v) (j) (hj : j ≤ sz.bits) : ring sz (shiftOnce .rox false sz p).v (shiftOnce .rox false sz p).x j = ring sz p.v p.x (if j = sz.bits then 0 else j + 1) := by
  have hb := Size.bits_bounds sz
  unfold ring
  by_cases h1 : j = sz.bits
  · rw [if_pos h1, if_pos h1, if_neg (by omega)]; rfl
  · rw [if_neg h1, if_neg h1, shiftOnce_getLsbD _ _ _ _ h _ (by omega)]
    by_cases h2 : j + 1 = sz.bits
    · rw [if_pos h2]; simp; omega
    · rw [if_neg h2]; simp; omega

theorem shiftTimes_rox_left (sz n p) (h : trunc sz p.v = p.v) (j) (hj : j ≤ sz.bits) : ring sz (shiftTimes .rox true sz n p).v (shiftTimes .rox true sz n p).x ((j + n) % (sz.bits + 1)) = ring sz p.v p.x j := by
  induction n with
  | zero => rw [Nat.add_zero, Nat.mod_eq_of_lt (by omega)]; rfl
  | succ n ih =>
    rw [← ih, shiftTimes_succ]
    have hm : (j + n) % (sz.bits + 1) < sz.bits + 1 := Nat.mod_lt _ (by omega)
    rw [← ring_left_once _ _ (shiftTimes_trunc _ _ _ _ _ h) ((j + n) % (sz.bits + 1)) (by omega)]
    congr 1
    rw [← Nat.add_assoc, Nat.add_mod]
    have hb := Size.bits_bounds sz
    rw [Nat.mod_eq_of_lt (show 1 < sz.bits + 1 by omega)]
    split
    · rw [‹(j + n) % (sz.bits + 1) = sz.bits›, Nat.mod_self]
    · exact Nat.mod_eq_of_lt (by omega)
theorem shiftTimes_rox_right (sz n p) (h : trunc sz p.v = p.v) (j) (hj : j ≤ sz.bits) : ring sz (shiftTimes .rox false sz n p).v (shiftTimes .rox false sz n p).x j = ring sz p.v p.x ((j + n) % (sz.bits + 1)) := by
  have hb := Size.bits_bounds sz
  induction n generalizing j with
  | zero => rw [Nat.add_zero, Nat.mod_eq_of_lt (by omega)]; rfl
  | succ n ih =>
    rw [shiftTimes_succ, ring_right_once _ _ (shiftTimes_trunc _ _ _ _ _ h) _ hj]
    split
    · rw [ih 0 (by omega)]; subst_vars; congr 1
      rw [show sz.bits + (n + 1) = (0 + n) + (sz.bits + 1) by omega, Nat.add_mod_right]
    · rw [ih (j+1) (by omega)]; congr 2; omega

theorem shiftTimes_left_toNat (kind) (hk : kind = .as ∨ kind = .ls) (sz n p) (h : trunc sz p.v = p.v) : (shiftTimes kind true sz n p).v.toNat = p.v.toNat * 2 ^ n % 2 ^ sz.bits := by
  induction n with
  | zero => rw [Nat.pow_zero, Nat.mul_one, Nat.mod_eq_of_lt (toNat_lt_of_trunc h)]; rfl
  | succ n ih =>
    rw [shiftTimes_succ]
    have : ∀ q, (shiftOnce kind true sz q).v.toNat = q.v.toNat * 2 % 2 ^ sz.bits := by
      intro q
      have : (shiftOnce kind true sz q).v = trunc sz (q.v <<< 1) := by obtain rfl | rfl := hk <;> rfl
      rw [this]
      have := q.v.isLt
      cases sz <;> simp [trunc, Size.bits, Size.bytes, Nat.shiftLeft_eq] <;> omega
    rw [this, ih, Nat.mod_mul_mod, Nat.pow_succ, Nat.mul_assoc]

theorem shiftTimes_right_toNat (sz n p) : (shiftTimes .ls false sz n p).v.toNat = p.v.toNat / 2 ^ n := by
  induction n with
  | zero => simp [shiftTimes]
  | succ n ih =>
    rw [shiftTimes_succ]
    show ((shiftTimes .ls false sz n p).v >>> 1).toNat = _
    rw [BitVec.toNat_ushiftRight, ih, Nat.shiftRight_eq_div_pow, Nat.div_div_eq_div_mul, ← Nat.pow_succ]

theorem signed_of_trunc (sz : Size) (v : Long) (h : trunc sz v = v) : signed sz v = if v.toNat < 2 ^ (sz.bits - 1) then (v.toNat : Int) else (v.toNat : Int) - 2 ^ sz.bits := by
  have hb := toNat_lt_of_trunc h
  cases sz
  · simp only [signed, sext, Size.bits, Size.bytes] at *
    rw [BitVec.toInt_signExtend_of_le (by omega), BitVec.toInt_eq_toNat_cond]
    simp at *
    rw [Nat.mod_eq_of_lt hb]
    grind
  · simp only [signed, sext, Size.bits, Size.bytes] at *
    rw [BitVec.toInt_signExtend_of_le (by omega), BitVec.toInt_eq_toNat_cond]
    simp at *
    grind
  · simp only [signed, sext, Size.bits, Size.bytes] at *
    rw [BitVec.toInt_eq_toNat_cond]
    simp at *
    grind

theorem msb_of_trunc (sz : Size) (v : Long) (h : trunc sz v = v) : msb sz v = decide (2 ^ (sz.bits - 1) ≤ v.toNat) := by
  have hb := toNat_lt_of_trunc h
  unfold msb
  rw [BitVec.getLsbD, Nat.testBit_eq_decide_div_mod_eq]
  cases sz <;> simp only [Size.bits, Size.bytes, decide_eq_decide] at * <;> norm_num at * <;> omega

theorem msb_and (sz) (a b : Long) : msb sz (a &&& b) = (msb sz a && msb sz b) := by simp [msb]
theorem msb_xor (sz) (a b : Long) : msb sz (a ^^^ b) = (msb sz a ^^ msb sz b) := by simp [msb]

theorem shiftOnce_asr (sz p) (h : trunc sz p.v = p.v) : signed sz (shiftOnce .as false sz p).v = signed sz p.v / 2 := by
  rw [signed_of_trunc _ _ (shiftOnce_trunc _ _ _ _ h), signed_of_trunc _ _ h]
  have hb := toNat_lt_of_trunc h
  have : (shiftOnce .as false sz p).v.toNat = p.v.toNat / 2 + if 2 ^ (sz.bits - 1) ≤ p.v.toNat then 2 ^ (sz.bits - 1) else 0 := by
    have hm := msb_of_trunc sz p.v h
    show (p.v >>> 1 ||| bitAt sz true (msb sz p.v)).toNat = _
    rw [hm]
    by_cases hc : 2 ^ (sz.bits - 1) ≤ p.v.toNat
    · have hbt : bitAt sz true (decide (2 ^ (sz.bits - 1) ≤ p.v.toNat)) = 1#32 <<< (sz.bits - 1) := by simp [bitAt, hc]
      rw [hbt, if_pos hc]
      have hd : (p.v >>> 1) &&& (1#32 <<< (sz.bits - 1)) = 0 := by
        apply BitVec.eq_of_getLsbD_eq; intro k hk
        have hb := Size.bits_bounds sz
        by_cases hkk : k = sz.bits - 1
        · subst hkk
          simp only [BitVec.getLsbD_and, BitVec.getLsbD_ushiftRight]
          rw [show 1 + (sz.bits - 1) = sz.bits by omega, getLsbD_of_trunc h (le_refl _)]; simp
        · simp [BitVec.getLsbD_shiftLeft]
          grind
      rw [← BitVec.add_eq_or_of_and_eq_zero _ _ hd, BitVec.toNat_add]
      cases sz <;> simp only [Size.bits, Size.bytes] at * <;> norm_num at * <;> omega
    · have hbt : bitAt sz true (decide (2 ^ (sz.bits - 1) ≤ p.v.toNat)) = 0 := by simp [bitAt, hc]
      rw [hbt, if_neg hc]; simp [Nat.shiftRight_eq_div_pow]
  rw [this]
  cases sz <;> simp only [Size.bits, Size.bytes] at * <;> norm_num at * <;> grind

theorem shiftTimes_asr (sz n p) (h : trunc sz p.v = p.v) : signed sz (shiftTimes .as false sz n p).v = signed sz p.v / 2 ^ n := by
  induction n with
  | zero => simp [shiftTimes]
  | succ n ih =>
    rw [shiftTimes_succ, shiftOnce_asr _ _ (shiftTimes_trunc _ _ _ _ _ h), ih, pow_succ, Int.ediv_ediv_of_nonneg (by positivity)]

theorem shiftTimes_vf_other (kind left) (hk : ¬ (kind = .as ∧ left = true)) (sz n p) : (shiftTimes kind left sz n p).vf = p.vf := by
  induction n generalizing p with
  | zero => rfl
  | succ n ih =>
    rw [shiftTimes, ih]
    cases kind <;> cases left <;> first | rfl | (exact absurd ⟨rfl, rfl⟩ hk)

theorem msb_testBit (sz) (v : Long) : msb sz v = v.toNat.testBit (sz.bits - 1) := rfl

theorem testBit_mod_bits (sz : Size) (x : Nat) : (x % 2 ^ sz.bits).testBit (sz.bits - 1) = x.testBit (sz.bits - 1) := by
  have := Size.bits_bounds sz
  rw [Nat.testBit_mod_two_pow]; simp; omega

/-- V of ASL: the sign bit changed at some turn. -/
theorem shiftTimes_vf_asl (sz n p) (h : trunc sz p.v = p.v) : (shiftTimes .as true sz n p).vf = true ↔ (p.vf = true ∨ ∃ k, k < n ∧ (p.v.toNat * 2 ^ k).testBit (sz.bits - 1) ≠ (p.v.toNat * 2 ^ (k + 1)).testBit (sz.bits - 1)) := by
  induction n with
  | zero => simp [shiftTimes]
  | succ n ih =>
    rw [shiftTimes_succ]
    have h1 : (shiftOnce .as true sz (shiftTimes .as true sz n p)).vf = ((shiftTimes .as true sz n p).vf || (msb sz (shiftTimes .as true sz (n+1) p).v != msb sz (shiftTimes .as true sz n p).v)) := by
      rw [shiftTimes_succ]; rfl
    rw [h1, Bool.or_eq_true, ih, msb_testBit, msb_testBit, shiftTimes_left_toNat .as (.inl rfl) _ _ _ h, shiftTimes_left_toNat .as (.inl rfl) _ _ _ h, testBit_mod_bits, testBit_mod_bits, bne_iff_ne]
    constructor
    · rintro ((h | ⟨k, hk, e⟩) | e)
      · exact .inl h
      · exact .inr ⟨k, by omega, e⟩
      · exact .inr ⟨n, by omega, e.symm⟩
    · rintro (h | ⟨k, hk, e⟩)
      · exact .inl (.inl h)
      · by_cases hkn : k = n
        · subst hkn; exact .inr e.symm
        · exact .inl (.inr ⟨k, by omega, e⟩)

theorem shiftTimes_x (kind left) (hk : kind ≠ .rox) (sz n p) : (shiftTimes kind left sz n p).x = p.x := by
  induction n generalizing p with
  | zero => rfl
  | succ n ih =>
    rw [shiftTimes, ih]
    cases kind <;> cases left <;> first | rfl | (exact absurd rfl hk)

end Sys2Proof.Machine
end

