-- ==== Sys2Proof/Tests/Slice0.lean ====
section
/-! SUPPORT. Tests: ill-formed terms the checks refuse, words written out from the encodings of 30_encoding.md,
single steps with the results of 95_test_vectors.md (its row is in the name), and a witness for the hypotheses
of each statement. -/

namespace Sys2Proof.Tests
open Machine

set_option Elab.async false

/-! ## Ill-formed terms: one for each check of WellFormed.lean -/

theorem test_wf_class_DA : (Instr.addi .b 1 (.an 0)).wf = false := by decide
theorem test_wf_class_data : (Instr.andEaDn .w (.an 0) 1).wf = false := by decide
theorem test_wf_class_dataNoImm : (Instr.btstImm 3 (.imm 1)).wf = false := by decide
theorem test_wf_class_MA : (Instr.addDnEa .l 1 (.dn 2)).wf = false := by decide
theorem test_wf_class_ctrl : (Instr.lea (.postInc 1) 2).wf = false := by decide
theorem test_wf_class_CAorPre : (Instr.movemToMem .w 1 (.postInc 3)).wf = false := by decide
theorem test_wf_class_CorPost : (Instr.movemToReg .w 1 (.preDec 3)).wf = false := by decide
theorem test_wf_class_source_byte : (Instr.cmp .b (.an 1) 0).wf = false ∧ (Instr.cmp .w (.an 1) 0).wf = true := by decide
theorem test_wf_class_quick_byte : (Instr.addq 1 .b (.an 1)).wf = false ∧ (Instr.addq 1 .w (.an 1)).wf = true := by decide
theorem test_wf_immediate_fits : (Instr.ori .b 0x100 (.dn 0)).wf = false ∧ (Instr.ori .w 0x10000 (.dn 0)).wf = false := by decide
theorem test_wf_operand_immediate_fits : (Instr.muluW (.imm 0x10000) 0).wf = false := by decide
theorem test_wf_no_byte_form : (Instr.movea .b (.dn 0) 1).wf = false ∧ (Instr.adda .b (.dn 0) 1).wf = false ∧
    (Instr.movemToMem .b 1 (.ind 0)).wf = false := by decide
theorem test_wf_branch_disp : (Instr.bra (.byte 0)).wf = false ∧ (Instr.bra (.word 0)).wf = true := by decide
theorem test_wf_branch_cond : (Instr.bcc .t (.byte 2)).wf = false ∧ (Instr.bcc .f (.byte 2)).wf = false := by decide

/-! ## Decoding: a word for every constructor, its bits the encoding's with the fields filled in -/

/-- Whether words decode to an instruction, all of them read. -/
def reads (ws : List Word) (i : Instr) : Bool :=
  match decode true ws with
  | .ok (j, []) => decide (j = i)
  | _ => false

theorem test_decode_line0_1 : [
    reads [0b0000000000111100, 0xFF1F] (.oriToCcr 0x1F),
    reads [0b0000000001111100, 0x8700] (.oriToSr 0x8700),
    reads [0b0000000000010011, 0xAB12] (.ori .b 0x12 (.ind 3)),
    reads [0b0000001000111100, 0x00EF] (.andiToCcr 0xEF),
    reads [0b0000001001111100, 0xF8FF] (.andiToSr 0xF8FF),
    reads [0b0000001001111000, 0x1234, 0x9000] (.andi .w 0x1234 (.absW 0x9000)),
    reads [0b0000010010111001, 0x1234, 0x5678, 0x0001, 0x0002] (.subi .l 0x12345678 (.absL 0x10002)),
    reads [0b0000011010000101, 0x8000, 0x0001] (.addi .l 0x80000001 (.dn 5)),
    reads [0b0000101000111100, 0x0001] (.eoriToCcr 1),
    reads [0b0000101001111100, 0x2000] (.eoriToSr 0x2000),
    reads [0b0000101001011110, 0xFFFF] (.eori .w 0xFFFF (.postInc 6)),
    reads [0b0000110000100111, 0x007F] (.cmpi .b 0x7F (.preDec 7))].all id = true := by
  decide +kernel
theorem test_decode_line0_2 : [
    reads [0b0000100000111010, 0x0007, 0xFFFE] (.btstImm 7 (.pcDisp 0xFFFE)),
    reads [0b0000100001000001, 0x001F] (.bchgImm 31 (.dn 1)),
    reads [0b0000100010101010, 0x0003, 0x0010] (.bclrImm 3 (.disp 2 0x10)),
    reads [0b0000100011110100, 0x0000, 0x9A80] (.bsetImm 0 (.index 4 ⟨true, 1, true, 0x80⟩)),
    reads [0b0000011100111100, 0x00A5] (.btstDn 3 (.imm 0xA5)),
    reads [0b0000001101010000] (.bchgDn 1 (.ind 0)),
    reads [0b0000111110000000] (.bclrDn 7 (.dn 0)),
    reads [0b0000010111011101] (.bsetDn 2 (.postInc 5)),
    reads [0b0000011110001101, 0xFFFE] (.movep 3 true false 5 0xFFFE),
    reads [0b0000111011010100, 0x0182] (.cas .l 2 6 (.ind 4))].all id = true := by
  decide +kernel
theorem test_decode_lines1to3 : [
    reads [0b0011110101111001, 0x0001, 0x2000, 0x0008] (.move .w (.absL 0x12000) (.disp 6 8)),
    reads [0b0010010001001111] (.movea .l (.an 7) 2)].all id = true := by
  decide +kernel
theorem test_decode_line4_1 : [
    reads [0b0100000000000100] (.negx .b (.dn 4)),
    reads [0b0100000011010001] (.moveFromSr (.ind 1)),
    reads [0b0100110110111100, 0x0064] (.chk (.imm 100) 6),
    reads [0b0100011111111011, 0x10FE] (.lea (.pcIndex ⟨false, 1, false, 0xFE⟩) 3),
    reads [0b0100001010100010] (.clr .l (.preDec 2)),
    reads [0b0100001011000111] (.moveFromCcr (.dn 7)),
    reads [0b0100010001011001] (.neg .w (.postInc 1)),
    reads [0b0100010011111100, 0x001F] (.moveToCcr (.imm 0x1F)),
    reads [0b0100011010000011] (.not .l (.dn 3)),
    reads [0b0100011011000010] (.moveToSr (.dn 2)),
    reads [0b0100100000010110] (.nbcd (.ind 6)),
    reads [0b0100100001000101] (.swap 5)].all id = true := by
  decide +kernel
theorem test_decode_line4_2 : [
    reads [0b0100100001101011, 0x8000] (.pea (.disp 3 0x8000)),
    reads [0b0100100010000001] (.extW 1),
    reads [0b0100100011000110] (.extL 6),
    reads [0b0100100011100111, 0xFFFE] (.movemToMem .l 0xFFFE (.preDec 7)),
    reads [0b0100101001010010] (.tst .w (.ind 2)),
    reads [0b0100101011011011] (.tas (.postInc 3)),
    reads [0b0100101011111100] (.illegal),
    reads [0b0100110000000001, 0x4C03] (.mull true true 4 3 (.dn 1)),
    reads [0b0100110001111000, 0x2001, 0x4000] (.divl false false 2 1 (.absW 0x4000)),
    reads [0b0100110010011111, 0x7FFF] (.movemToReg .w 0x7FFF (.postInc 7)),
    reads [0b0100111001001111] (.trap 15),
    reads [0b0100111001010110, 0xFFF8] (.link 6 0xFFF8)].all id = true := by
  decide +kernel
theorem test_decode_line4_3 : [
    reads [0b0100111001011110] (.unlk 6),
    reads [0b0100111001100001] (.moveToUsp 1),
    reads [0b0100111001101100] (.moveFromUsp 4),
    reads [0b0100111001110000] (.reset),
    reads [0b0100111001110001] (.nop),
    reads [0b0100111001110010, 0x2000] (.stop 0x2000),
    reads [0b0100111001110011] (.rte),
    reads [0b0100111001110101] (.rts),
    reads [0b0100111001110110] (.trapv),
    reads [0b0100111001110111] (.rtr),
    reads [0b0100111010111001, 0x0000, 0x2000] (.jsr (.absL 0x2000)),
    reads [0b0100111011010101] (.jmp (.ind 5))].all id = true := by
  decide +kernel
theorem test_decode_lines5to7 : [
    reads [0b0101000001001011] (.addq 0 .w (.an 3)),
    reads [0b0101111100000110] (.subq 7 .b (.dn 6)),
    reads [0b0101011011000001] (.scc .ne (.dn 1)),
    reads [0b0101000111001010, 0xFFFC] (.dbcc .f 2 0xFFFC),
    reads [0b0101110111111011, 0x1234, 0x5678] (.trapcc .lt (.long 0x12345678)),
    reads [0b0110000000010000] (.bra (.byte 0x10)),
    reads [0b0110000100000000, 0x0100] (.bsr (.word 0x100)),
    reads [0b0110011111111110] (.bcc .eq (.byte 0xFE)),
    reads [0b0111100010000000] (.moveq 0x80 4)].all id = true := by
  decide +kernel
theorem test_decode_lines8and9 : [
    reads [0b1000001011000010] (.divuW (.dn 2) 1),
    reads [0b1000101111111100, 0x0007] (.divsW (.imm 7) 5),
    reads [0b1000010100000011] (.sbcd false 3 2),
    reads [0b1000001010101000, 0x0004] (.orEaDn .l (.disp 0 4) 1),
    reads [0b1000001101010000] (.orDnEa .w 1 (.ind 0)),
    reads [0b1001000001001001] (.subEaDn .w (.an 1) 0),
    reads [0b1001010110010000] (.subDnEa .l 2 (.ind 0)),
    reads [0b1001111111000100] (.suba .l (.dn 4) 7),
    reads [0b1001001100001010] (.subx .b true 2 1)].all id = true := by
  decide +kernel
theorem test_decode_lineB : [
    reads [0b1011011000111100, 0x0080] (.cmp .b (.imm 0x80) 3),
    reads [0b1011001011000000] (.cmpa .w (.dn 0) 1),
    reads [0b1011110110000111] (.eor .l 6 (.dn 7)),
    reads [0b1011100101001101] (.cmpm .w 5 4)].all id = true := by
  decide +kernel
theorem test_decode_linesCandD : [
    reads [0b1100010011000011] (.muluW (.dn 3) 2),
    reads [0b1100100111010001] (.mulsW (.ind 1) 4),
    reads [0b1100011100001001] (.abcd true 1 3),
    reads [0b1100001101000110] (.exgDD 1 6),
    reads [0b1100010101001111] (.exgAA 2 7),
    reads [0b1100011110001100] (.exgDA 3 4),
    reads [0b1100101000100001] (.andEaDn .b (.preDec 1) 5),
    reads [0b1100110110011010] (.andDnEa .l 6 (.postInc 2)),
    reads [0b1101000010000001] (.addEaDn .l (.dn 1) 0),
    reads [0b1101111100010110] (.addDnEa .b 7 (.ind 6)),
    reads [0b1101101011111100, 0xFFFF] (.adda .w (.imm 0xFFFF) 5),
    reads [0b1101100110000101] (.addx .l false 5 4)].all id = true := by
  decide +kernel
theorem test_decode_lineE_1 : [
    reads [0b1110000000000001] (.asrReg .b (.imm 0) 1),
    reads [0b1110000011010000] (.asrMem (.ind 0)),
    reads [0b1110011101100010] (.aslReg .w (.reg 3) 2),
    reads [0b1110000111011001] (.aslMem (.postInc 1)),
    reads [0b1110111010001000] (.lsrReg .l (.imm 7) 0),
    reads [0b1110001011100010] (.lsrMem (.preDec 2)),
    reads [0b1110001100101111] (.lslReg .b (.reg 1) 7),
    reads [0b1110001111101011, 0x0002] (.lslMem (.disp 3 2)),
    reads [0b1110010001010011] (.roxrReg .w (.imm 2) 3),
    reads [0b1110010011111000, 0x1000] (.roxrMem (.absW 0x1000)),
    reads [0b1110101110110100] (.roxlReg .l (.reg 5) 4),
    reads [0b1110010111010111] (.roxlMem (.ind 7))].all id = true := by
  decide +kernel
theorem test_decode_lineE_2 : [
    reads [0b1110100000011101] (.rorReg .b (.imm 4) 5),
    reads [0b1110011011010101] (.rorMem (.ind 5)),
    reads [0b1110110101111110] (.rolReg .w (.reg 6) 6),
    reads [0b1110011111010100] (.rolMem (.ind 4))].all id = true := by
  decide +kernel
theorem test_decode_unknown : [0x4AFD, 0x4AFF, 0x003D, 0x4E74, 0x50FD, 0xA000, 0xF200, 0x00C0, 0x4848].all
    (fun op => (lookup true op).isNone) = true := by decide +kernel
theorem test_decode_unnamed : lookup false 0x4840 = none ∧ lookup false 0xE020 = none ∧ lookup false 0xE000 = some .asrReg := by
  decide +kernel
theorem test_decode_truncated : decode true [0x0680, 0x0000] = .error .truncated := by decide +kernel
theorem test_decodeTableWord : decodeTableWord 16 0xD081 = some (.addEaDn .l (.dn 1) 0) ∧
    decodeTableWord 32 0x00054ED0 = some (.jmp (.ind 0)) ∧ decodeTableWord 16 0xA000 = none := by decide +kernel

/-! ## Single steps (95_test_vectors.md, in its conventions) -/

/-- What a vector lists before or after its step. -/
inductive Item where
  | d (n : Reg) (v : Long)
  | a (n : Reg) (v : Long)
  | usp (v : Long)
  | ssp (v : Long)
  | pc (v : Long)
  | sr (v : Word)
  | ccr (v : Word)
  | m (a : Long) (v : Byte)
  | stop (kind : HaltKind) (info : Option Int)

def put (s : State) : Item → State
  | .d n v => s.setD n v
  | .a n v => s.setA n v
  | .usp v => { s with usp := v }
  | .ssp v => { s with ssp := v }
  | .pc v => { s with pc := v }
  | .sr v => { s with sr := v }
  | .ccr v => { s with sr := (s.sr &&& 0xFF00) ||| v }
  | .m a v => s.writeByte a v
  | .stop .. => s

def shows (t : State) : Item → Bool
  | .d n v => t.getD n == v
  | .a n v => t.getA n == v
  | .usp v => t.usp == v
  | .ssp v => t.ssp == v
  | .pc v => t.pc == v
  | .sr v => t.sr &&& 0xFF00 == v &&& 0xFF00
  | .ccr v => t.sr &&& 0x1F == v
  | .m a v => t.readByte a == v
  | .stop kind info => !t.running && (match t.stopRecord with
    | some r => decide (r.kind = kind ∧ r.info = info ∧ r.faultPC = 0x1000)
    | none => false)

/-- The start state of the vectors: PC 0x1000, SSP 0x10000, the words at 0x1000, then what the row lists. -/
def start (ws : List Word) (before : List Item) : State :=
  before.foldl put (State.storeWords 0x1000 ws { State.reset with pc := 0x1000, ssp := 0x10000 })

/-- Whether one step from there shows what the row lists after it. -/
def steps (ws : List Word) (before after : List Item) : Bool :=
  match step (start ws before) with
  | .next t => after.all (shows t)
  | _ => false

theorem test_oriToCcr_ctrl_21 : steps [0x003C, 0x0011] [.sr 0x2704]
    [.pc 0x1004, .ccr 0x15] = true := by decide +kernel
theorem test_oriToSr_ctrl_24 : steps [0x007C, 0x0700] [.sr 0x2000]
    [.sr 0x2700, .pc 0x1004, .ccr 0] = true := by decide +kernel
theorem test_ori_logic_5 : steps [0x0000, 0x000F] [.sr 0x2703, .d 0 0xf0]
    [.d 0 0xff, .pc 0x1004, .ccr 8] = true := by decide +kernel
theorem test_andiToCcr_ctrl_22 : steps [0x023C, 0x0004] [.sr 0x271f]
    [.pc 0x1004, .ccr 4] = true := by decide +kernel
theorem test_andiToSr_ctrl_25 : steps [0x027C, 0xDFFF] [.sr 0x2701, .usp 0x8000]
    [.sr 0x701, .pc 0x1004, .ccr 1] = true := by decide +kernel
theorem test_andi_logic_3 : steps [0x0280, 0x0000, 0xFFFF] [.d 0 0xffff0000]
    [.d 0 0, .pc 0x1006, .ccr 4] = true := by decide +kernel
theorem test_subi_arith_18 : steps [0x0440, 0x0001] [.d 0 0]
    [.d 0 0xffff, .pc 0x1004, .ccr 0x19] = true := by decide +kernel
theorem test_addi_arith_8 : steps [0x0640, 0x1000] [.d 0 0xf000]
    [.d 0 0, .pc 0x1004, .ccr 0x15] = true := by decide +kernel
theorem test_eoriToCcr_ctrl_23 : steps [0x0A3C, 0x001F] [.sr 0x2705]
    [.pc 0x1004, .ccr 0x1a] = true := by decide +kernel
theorem test_eoriToSr_ctrl_26 : steps [0x0A7C, 0x8000] [.sr 0x2700]
    [.sr 0xa700, .pc 0x1004, .ccr 0] = true := by decide +kernel
theorem test_eori_logic_7 : steps [0x0A40, 0xFFFF] [.d 0 0x12340f0f]
    [.d 0 0x1234f0f0, .pc 0x1004, .ccr 8] = true := by decide +kernel
theorem test_cmpi_arith_30 : steps [0x0C00, 0x0005] [.d 0 5]
    [.pc 0x1004, .ccr 4] = true := by decide +kernel
theorem test_btstImm_bit_1 : steps [0x0800, 0x001F] [.sr 0x271f, .d 0 0x80000000]
    [.pc 0x1004, .ccr 0x1b] = true := by decide +kernel
theorem test_btstImm_bit_2 : steps [0x0810, 0x0003] [.a 0 0x2000, .m 0x2000 8]
    [.pc 0x1004, .ccr 0] = true := by decide +kernel
theorem test_bchgImm_bit_8 : steps [0x0840, 0x0000] [.d 0 1]
    [.d 0 0, .pc 0x1004, .ccr 0] = true := by decide +kernel
theorem test_bclrImm_bit_10 : steps [0x0880, 0x001F] [.d 0 0xffffffff]
    [.d 0 0x7fffffff, .pc 0x1004, .ccr 0] = true := by decide +kernel
theorem test_bsetImm_bit_12 : steps [0x08D8, 0x0004] [.a 0 0x2000, .m 0x2000 1]
    [.a 0 0x2001, .m 0x2000 0x11, .pc 0x1004, .ccr 4] = true := by decide +kernel
theorem test_btstDn_bit_6 : steps [0x0300] [.d 0 2, .d 1 0x21]
    [.pc 0x1002, .ccr 0] = true := by decide +kernel
theorem test_bchgDn_bit_9 : steps [0x0350] [.d 1 7, .a 0 0x2000, .m 0x2000 0]
    [.m 0x2000 0x80, .pc 0x1002, .ccr 4] = true := by decide +kernel
theorem test_bclrDn_bit_11 : steps [0x0380] [.d 0 0xffff, .d 1 0x14]
    [.pc 0x1002, .ccr 4] = true := by decide +kernel
theorem test_bsetDn_bit_13 : steps [0x03D0] [.d 1 0, .a 0 0x2000, .m 0x2000 1]
    [.m 0x2000 1, .pc 0x1002, .ccr 0] = true := by decide +kernel
theorem test_movep_move_16 : steps [0x0188, 0x0002] [.d 0 0x1234abcd, .a 0 0x3000]
    [.m 0x3002 0xab, .m 0x3004 0xcd, .pc 0x1004, .ccr 0] = true := by decide +kernel
theorem test_cas_ctrl_37 : steps [0x0CD0, 0x0081] [.d 1 0x1234, .d 2 0xabcd, .a 0 0x3000, .m 0x3000 0x12, .m 0x3001 0x34]
    [.m 0x3000 0xab, .m 0x3001 0xcd, .pc 0x1004, .ccr 4] = true := by decide +kernel
theorem test_cas_ctrl_39 : steps [0x0ED0, 0x0040] [.d 0 5, .d 1 9, .a 0 0x3000, .m 0x3000 0, .m 0x3001 0, .m 0x3002 0, .m 0x3003 5]
    [.m 0x3000 0, .m 0x3001 0, .m 0x3002 0, .m 0x3003 9, .pc 0x1004, .ccr 4] = true := by decide +kernel
theorem test_move_addr_1 : steps [0x3210] [.d 1 0x12345678, .a 0 0x2000, .m 0x2000 0x80, .m 0x2001 1]
    [.d 1 0x12348001, .pc 0x1002, .ccr 8] = true := by decide +kernel
theorem test_move_addr_18 : steps [0x30D8] [.a 0 0x2000, .m 0x2000 0xbe, .m 0x2001 0xef]
    [.a 0 0x2004, .m 0x2002 0xbe, .m 0x2003 0xef, .pc 0x1002, .ccr 8] = true := by decide +kernel
theorem test_movea_move_8 : steps [0x3041] [.sr 0x2704, .d 1 0x8000]
    [.a 0 0xffff8000, .pc 0x1002, .ccr 4] = true := by decide +kernel
theorem test_negx_arith_25 : steps [0x4000] [.sr 0x2714, .d 0 0]
    [.d 0 0xff, .pc 0x1002, .ccr 0x19] = true := by decide +kernel
theorem test_moveFromSr_ctrl_15 : steps [0x40C0] [.sr 0x15, .d 0 0xffffffff]
    [.d 0 0xffff0015, .pc 0x1002, .ccr 0x15] = true := by decide +kernel
theorem test_chk_ctrl_32 : steps [0x4181] [.d 0 5, .d 1 0xa]
    [.pc 0x1002] = true := by decide +kernel
theorem test_chk_ctrl_34 : steps [0x4181] [.d 0 0xb, .d 1 0xa]
    [.pc 0x1002, .stop .chkBound (some (11))] = true := by decide +kernel
theorem test_lea_addr_7 : steps [0x43E8, 0x0010] [.a 0 0x1000]
    [.a 1 0x1010, .pc 0x1004, .ccr 0] = true := by decide +kernel
theorem test_lea_addr_8 : steps [0x43E8, 0xFFF0] [.a 0 0x1000]
    [.a 1 0xff0, .pc 0x1004, .ccr 0] = true := by decide +kernel
theorem test_clr_logic_9 : steps [0x4240] [.sr 0x271b, .d 0 0x12345678]
    [.d 0 0x12340000, .pc 0x1002, .ccr 0x14] = true := by decide +kernel
theorem test_moveFromCcr_ctrl_17 : steps [0x42C0] [.sr 0x2715, .d 0 0xffffffff]
    [.d 0 0xffff0015, .pc 0x1002, .ccr 0x15] = true := by decide +kernel
theorem test_neg_arith_22 : steps [0x4400] [.d 0 0x80]
    [.pc 0x1002, .ccr 0x1b] = true := by decide +kernel
theorem test_neg_arith_24 : steps [0x4440] [.d 0 0x12340001]
    [.d 0 0x1234ffff, .pc 0x1002, .ccr 0x19] = true := by decide +kernel
theorem test_moveToCcr_ctrl_16 : steps [0x44FC, 0x00FF] [.sr 0]
    [.sr 0x1f, .pc 0x1004, .ccr 0x1f] = true := by decide +kernel
theorem test_not_logic_8 : steps [0x4600] [.sr 0x2708, .d 0 0x123456ff]
    [.d 0 0x12345600, .pc 0x1002, .ccr 4] = true := by decide +kernel
theorem test_moveToSr_ctrl_12 : steps [0x46C0] [.d 0 0xffff]
    [.sr 0xa71f, .pc 0x1002, .ccr 0x1f] = true := by decide +kernel
theorem test_moveToSr_ctrl_14 : steps [0x46FC, 0x2700] [.sr 0]
    [.pc 0x1002, .ccr 0, .stop .privilegeViolation none] = true := by decide +kernel
theorem test_nbcd_bcd_8 : steps [0x4800] [.sr 0x2704, .d 0 1]
    [.d 0 0x99, .pc 0x1002] = true := by decide +kernel
theorem test_nbcd_bcd_9 : steps [0x4800] [.sr 0x2704, .d 0 0]
    [.pc 0x1002] = true := by decide +kernel
theorem test_swap_move_21 : steps [0x4840] [.sr 0x2713, .d 0 0x12348765]
    [.d 0 0x87651234, .pc 0x1002, .ccr 0x18] = true := by decide +kernel
theorem test_pea_br_28 : steps [0x4868, 0x0008] [.a 0 0x2000]
    [.ssp 0xfffc, .m 0xfffc 0, .m 0xfffd 0, .m 0xfffe 0x20, .m 0xffff 8, .pc 0x1004, .ccr 0] = true := by decide +kernel
theorem test_extW_move_22 : steps [0x4880] [.d 0 0x12345680]
    [.d 0 0x1234ff80, .pc 0x1002, .ccr 8] = true := by decide +kernel
theorem test_extL_move_23 : steps [0x48C0] [.d 0 0x12347fff]
    [.d 0 0x7fff, .pc 0x1002, .ccr 0] = true := by decide +kernel
theorem test_movemToMem_move_10 : steps [0x48E7, 0xC000] [.d 0 0x11111111, .d 1 0x22222222]
    [.ssp 0xfff8, .m 0xfff8 0x11, .m 0xfff9 0x11, .m 0xfffa 0x11, .m 0xfffb 0x11, .m 0xfffc 0x22, .m 0xfffd 0x22, .m 0xfffe 0x22, .m 0xffff 0x22, .pc 0x1004, .ccr 0] = true := by decide +kernel
theorem test_movemToMem_move_13 : steps [0x48D1, 0x0101] [.d 0 0xaaaa5555, .a 0 0x12345678, .a 1 0x3000]
    [.m 0x3000 0xaa, .m 0x3001 0xaa, .m 0x3002 0x55, .m 0x3003 0x55, .m 0x3004 0x12, .m 0x3005 0x34, .m 0x3006 0x56, .m 0x3007 0x78, .pc 0x1004, .ccr 0] = true := by decide +kernel
theorem test_tst_logic_11 : steps [0x4A00] [.sr 0x2713, .d 0 0x80]
    [.pc 0x1002, .ccr 0x18] = true := by decide +kernel
theorem test_tas_logic_13 : steps [0x4AD0] [.a 0 0x2000, .m 0x2000 0]
    [.m 0x2000 0x80, .pc 0x1002, .ccr 4] = true := by decide +kernel
theorem test_tas_logic_14 : steps [0x4AD0] [.a 0 0x2000, .m 0x2000 0x81]
    [.m 0x2000 0x81, .pc 0x1002, .ccr 8] = true := by decide +kernel
theorem test_illegal_ctrl_31 : steps [0x4AFC] []
    [.pc 0x1002, .ccr 0, .stop .illegalInstruction none] = true := by decide +kernel
theorem test_mull_arith_35 : steps [0x4C02, 0x0401] [.d 0 0xffffffff, .d 2 2]
    [.d 0 0xfffffffe, .d 1 1, .pc 0x1004, .ccr 0] = true := by decide +kernel
theorem test_mull_arith_37 : steps [0x4C02, 0x0C01] [.d 0 0xffffffff, .d 2 3]
    [.d 0 0xfffffffd, .d 1 0xffffffff, .pc 0x1004, .ccr 8] = true := by decide +kernel
theorem test_divl_arith_45 : steps [0x4C41, 0x0002] [.d 0 0x64, .d 1 7]
    [.d 0 0xe, .d 2 2, .pc 0x1004, .ccr 0] = true := by decide +kernel
theorem test_divl_arith_47 : steps [0x4C41, 0x0000] [.d 0 0x64, .d 1 0]
    [.pc 0x1004, .stop .divideByZero none] = true := by decide +kernel
theorem test_movemToReg_move_11 : steps [0x4CDF, 0x0003] [.a 7 0xfff8, .m 0xfff8 0x11, .m 0xfff9 0x11, .m 0xfffa 0x11, .m 0xfffb 0x11, .m 0xfffc 0x22, .m 0xfffd 0x22, .m 0xfffe 0x22, .m 0xffff 0x22]
    [.d 0 0x11111111, .d 1 0x22222222, .ssp 0x10000, .pc 0x1004, .ccr 0] = true := by decide +kernel
theorem test_trap_ctrl_28 : steps [0x4E45] []
    [.pc 0x1002, .ccr 0, .stop .trap (some (5))] = true := by decide +kernel
theorem test_link_br_29 : steps [0x4E56, 0xFFF8] [.a 6 0x1234, .a 7 0x8000]
    [.a 6 0x7ffc, .ssp 0x7ff4, .m 0x7ffc 0, .m 0x7ffd 0, .m 0x7ffe 0x12, .m 0x7fff 0x34, .pc 0x1004, .ccr 0] = true := by decide +kernel
theorem test_unlk_br_31 : steps [0x4E5E] [.a 6 0x7ffc, .a 7 0x7ff4, .m 0x7ffc 0, .m 0x7ffd 0, .m 0x7ffe 0x12, .m 0x7fff 0x34]
    [.a 6 0x1234, .ssp 0x8000, .pc 0x1002, .ccr 0] = true := by decide +kernel
theorem test_moveToUsp_ctrl_18 : steps [0x4E61] [.a 1 0x7000]
    [.usp 0x7000, .pc 0x1002, .ccr 0] = true := by decide +kernel
theorem test_moveToUsp_ctrl_20 : steps [0x4E61] [.sr 0, .a 1 0x7000]
    [.pc 0x1002, .ccr 0, .stop .privilegeViolation none] = true := by decide +kernel
theorem test_moveFromUsp_ctrl_19 : steps [0x4E6A] [.usp 0x6000]
    [.a 2 0x6000, .pc 0x1002, .ccr 0] = true := by decide +kernel
theorem test_reset_ctrl_8 : steps [0x4E70] [.d 0 0x1234]
    [.pc 0x1002, .ccr 0] = true := by decide +kernel
theorem test_nop_ctrl_1 : steps [0x4E71] [.sr 0x271f]
    [.pc 0x1002, .ccr 0x1f] = true := by decide +kernel
theorem test_stop_ctrl_9 : steps [0x4E72, 0x2000] [.sr 0x271f]
    [.sr 0x2000, .pc 0x1004, .ccr 0, .stop .stop (some (8192))] = true := by decide +kernel
theorem test_stop_ctrl_10 : steps [0x4E72, 0x2000] [.sr 0]
    [.pc 0x1002, .ccr 0, .stop .privilegeViolation none] = true := by decide +kernel
theorem test_rte_ctrl_6 : steps [0x4E73] [.usp 0x8000, .m 0x10000 0, .m 0x10001 0x11, .m 0x10002 0, .m 0x10003 0, .m 0x10004 0x20, .m 0x10005 0]
    [.sr 0x11, .ssp 0x10006, .pc 0x2000, .ccr 0x11] = true := by decide +kernel
theorem test_rte_ctrl_7 : steps [0x4E73] [.sr 0, .usp 0x8000]
    [.pc 0x1002, .ccr 0, .stop .privilegeViolation none] = true := by decide +kernel
theorem test_rts_ctrl_2 : steps [0x4E75] [.m 0x10000 0, .m 0x10001 0, .m 0x10002 0x20, .m 0x10003 0]
    [.ssp 0x10004, .pc 0x2000, .ccr 0] = true := by decide +kernel
theorem test_rts_ctrl_3 : steps [0x4E75] [.m 0x10000 0, .m 0x10001 0, .m 0x10002 0, .m 0x10003 0]
    [.ssp 0x10004, .pc 0, .ccr 0, .stop .programExit (some (0))] = true := by decide +kernel
theorem test_trapv_ctrl_29 : steps [0x4E76] [.sr 0x2700]
    [.pc 0x1002, .ccr 0] = true := by decide +kernel
theorem test_trapv_ctrl_30 : steps [0x4E76] [.sr 0x2702]
    [.pc 0x1002, .ccr 2, .stop .trapOverflow none] = true := by decide +kernel
theorem test_rtr_ctrl_11 : steps [0x4E77] [.m 0x10000 0xff, .m 0x10001 0x15, .m 0x10002 0, .m 0x10003 0, .m 0x10004 0x30, .m 0x10005 0]
    [.sr 0x2715, .ssp 0x10006, .pc 0x3000, .ccr 0x15] = true := by decide +kernel
theorem test_jsr_br_26 : steps [0x4E90] [.a 0 0x3000]
    [.ssp 0xfffc, .m 0xfffc 0, .m 0xfffd 0, .m 0xfffe 0x10, .m 0xffff 2, .pc 0x3000, .ccr 0] = true := by decide +kernel
theorem test_jmp_br_23 : steps [0x4ED0] [.a 0 0x3000]
    [.pc 0x3000, .ccr 0] = true := by decide +kernel
theorem test_jmp_br_24 : steps [0x4EF9, 0x0000, 0x4000] []
    [.pc 0x4000, .ccr 0] = true := by decide +kernel
theorem test_addq_arith_9 : steps [0x5000] [.d 0 0xf8]
    [.d 0 0, .pc 0x1002, .ccr 0x15] = true := by decide +kernel
theorem test_subq_arith_19 : steps [0x5380] [.d 0 1]
    [.d 0 0, .pc 0x1002, .ccr 4] = true := by decide +kernel
theorem test_scc_br_17 : steps [0x57C0] [.sr 0x2704, .d 0 0x12345600]
    [.d 0 0x123456ff, .pc 0x1002, .ccr 4] = true := by decide +kernel
theorem test_scc_br_18 : steps [0x56C0] [.sr 0x2704, .d 0 0x123456ff]
    [.d 0 0x12345600, .pc 0x1002, .ccr 4] = true := by decide +kernel
theorem test_dbcc_br_13 : steps [0x51C8, 0xFFFE] [.d 0 2]
    [.d 0 1, .pc 0x1000, .ccr 0] = true := by decide +kernel
theorem test_dbcc_br_14 : steps [0x51C8, 0xFFFE] [.d 0 0x12340000]
    [.d 0 0x1234ffff, .pc 0x1004, .ccr 0] = true := by decide +kernel
theorem test_trapcc_br_20 : steps [0x50FC] []
    [.pc 0x1002, .ccr 0, .stop .trapCC none] = true := by decide +kernel
theorem test_trapcc_br_22 : steps [0x57FB, 0x0001, 0x0002] [.sr 0x2704]
    [.pc 0x1006, .ccr 4, .stop .trapCC none] = true := by decide +kernel
theorem test_bra_br_1 : steps [0x6004] []
    [.pc 0x1006, .ccr 0] = true := by decide +kernel
theorem test_bra_br_2 : steps [0x60FE] []
    [.pc 0x1000, .ccr 0] = true := by decide +kernel
theorem test_bsr_br_11 : steps [0x6110] []
    [.ssp 0xfffc, .m 0xfffc 0, .m 0xfffd 0, .m 0xfffe 0x10, .m 0xffff 2, .pc 0x1012, .ccr 0] = true := by decide +kernel
theorem test_bcc_br_5 : steps [0x6710] [.sr 0x2704]
    [.pc 0x1012, .ccr 4] = true := by decide +kernel
theorem test_bcc_br_6 : steps [0x6710] [.sr 0x2700]
    [.pc 0x1002, .ccr 0] = true := by decide +kernel
theorem test_moveq_move_1 : steps [0x70FF] [.d 0 0x12345678]
    [.d 0 0xffffffff, .pc 0x1002, .ccr 8] = true := by decide +kernel
theorem test_moveq_move_2 : steps [0x767F] [.sr 0x2719]
    [.d 3 0x7f, .pc 0x1002, .ccr 0x10] = true := by decide +kernel
theorem test_divuW_arith_38 : steps [0x80C1] [.d 0 0x64, .d 1 7]
    [.d 0 0x2000e, .pc 0x1002, .ccr 0] = true := by decide +kernel
theorem test_divuW_arith_39 : steps [0x80C1] [.d 0 0x10000, .d 1 1]
    [.pc 0x1002, .stop .divideOverflow none] = true := by decide +kernel
theorem test_divsW_arith_41 : steps [0x81C1] [.d 0 0xfffffff9, .d 1 2]
    [.d 0 0xfffffffd, .pc 0x1002, .ccr 8] = true := by decide +kernel
theorem test_divsW_arith_43 : steps [0x81C1] [.d 0 0x80000000, .d 1 0xffff]
    [.pc 0x1002, .stop .divideOverflow none] = true := by decide +kernel
theorem test_sbcd_bcd_5 : steps [0x8101] [.sr 0x2704, .d 0 0x45, .d 1 0x38]
    [.d 0 7, .pc 0x1002] = true := by decide +kernel
theorem test_sbcd_bcd_6 : steps [0x8101] [.sr 0x2704, .d 0 0x10, .d 1 0x20]
    [.d 0 0x90, .pc 0x1002] = true := by decide +kernel
theorem test_orEaDn_logic_4 : steps [0x8041] [.d 0 0xaaaa0f00, .d 1 0x80f0]
    [.d 0 0xaaaa8ff0, .pc 0x1002, .ccr 8] = true := by decide +kernel
theorem test_subEaDn_arith_14 : steps [0x9001] [.d 0 0, .d 1 1]
    [.d 0 0xff, .pc 0x1002, .ccr 0x19] = true := by decide +kernel
theorem test_subEaDn_arith_15 : steps [0x9041] [.d 0 0x8000, .d 1 1]
    [.d 0 0x7fff, .pc 0x1002, .ccr 2] = true := by decide +kernel
theorem test_suba_arith_17 : steps [0x90C1] [.d 1 0xffff, .a 0 0x1000]
    [.a 0 0x1001, .pc 0x1002, .ccr 0] = true := by decide +kernel
theorem test_subx_arith_21 : steps [0x9101] [.sr 0x2714, .d 0 0, .d 1 0]
    [.d 0 0xff, .pc 0x1002, .ccr 0x19] = true := by decide +kernel
theorem test_cmp_arith_27 : steps [0xB041] [.d 0 3, .d 1 5]
    [.pc 0x1002, .ccr 9] = true := by decide +kernel
theorem test_cmpa_arith_29 : steps [0xB0C1] [.d 1 0xffff, .a 0 0xffffffff]
    [.pc 0x1002, .ccr 4] = true := by decide +kernel
theorem test_eor_logic_6 : steps [0xB380] [.d 0 0xffffffff, .d 1 0xffffffff]
    [.d 0 0, .pc 0x1002, .ccr 4] = true := by decide +kernel
theorem test_cmpm_arith_31 : steps [0xB109] [.a 0 0x2000, .a 1 0x3000, .m 0x2000 0x41, .m 0x3000 0x41]
    [.a 0 0x2001, .a 1 0x3001, .pc 0x1002, .ccr 4] = true := by decide +kernel
theorem test_muluW_arith_32 : steps [0xC0C1] [.d 0 0xabcdffff, .d 1 0xffff]
    [.d 0 0xfffe0001, .pc 0x1002, .ccr 8] = true := by decide +kernel
theorem test_mulsW_arith_33 : steps [0xC1C1] [.d 0 0xffff, .d 1 2]
    [.d 0 0xfffffffe, .pc 0x1002, .ccr 8] = true := by decide +kernel
theorem test_abcd_bcd_1 : steps [0xC101] [.sr 0x2704, .d 0 0x45, .d 1 0x38]
    [.d 0 0x83, .pc 0x1002] = true := by decide +kernel
theorem test_abcd_bcd_4 : steps [0xC109] [.sr 0x2704, .a 0 0x2001, .a 1 0x3001, .m 0x2000 0x50, .m 0x3000 0x50]
    [.a 0 0x2000, .a 1 0x3000, .m 0x2000 0, .pc 0x1002] = true := by decide +kernel
theorem test_exgDD_move_18 : steps [0xC141] [.d 0 1, .d 1 2]
    [.d 0 2, .d 1 1, .pc 0x1002, .ccr 0] = true := by decide +kernel
theorem test_exgAA_move_19 : steps [0xC149] [.a 0 0x100, .a 1 0x200]
    [.a 0 0x200, .a 1 0x100, .pc 0x1002, .ccr 0] = true := by decide +kernel
theorem test_exgDA_move_20 : steps [0xC189] [.d 0 0x11, .a 1 0x22]
    [.d 0 0x22, .a 1 0x11, .pc 0x1002, .ccr 0] = true := by decide +kernel
theorem test_andEaDn_logic_1 : steps [0xC001] [.sr 0x2713, .d 0 0x123456f0, .d 1 0x8f]
    [.d 0 0x12345680, .pc 0x1002, .ccr 0x18] = true := by decide +kernel
theorem test_andDnEa_logic_2 : steps [0xC150] [.d 0 0xff, .a 0 0x2000, .m 0x2000 0x12, .m 0x2001 0x34]
    [.m 0x2000 0, .m 0x2001 0x34, .pc 0x1002, .ccr 0] = true := by decide +kernel
theorem test_addEaDn_arith_1 : steps [0xD001] [.d 0 0x1234567f, .d 1 1]
    [.d 0 0x12345680, .pc 0x1002, .ccr 0xa] = true := by decide +kernel
theorem test_addEaDn_arith_2 : steps [0xD001] [.d 0 0xff, .d 1 1]
    [.d 0 0, .pc 0x1002, .ccr 0x15] = true := by decide +kernel
theorem test_addDnEa_arith_5 : steps [0xD150] [.d 0 1, .a 0 0x2000, .m 0x2000 0x7f, .m 0x2001 0xff]
    [.m 0x2000 0x80, .m 0x2001 0, .pc 0x1002, .ccr 0xa] = true := by decide +kernel
theorem test_adda_arith_6 : steps [0xD0C1] [.sr 0x2715, .d 1 0xfffe, .a 0 0x1000]
    [.a 0 0xffe, .pc 0x1002, .ccr 0x15] = true := by decide +kernel
theorem test_addx_arith_11 : steps [0xD101] [.sr 0x2714, .d 0 0xff, .d 1 0]
    [.d 0 0, .pc 0x1002, .ccr 0x15] = true := by decide +kernel
theorem test_addx_arith_13 : steps [0xD149] [.a 0 0x2002, .a 1 0x3002, .m 0x2000 0, .m 0x2001 1, .m 0x3000 0xff, .m 0x3001 0xff]
    [.a 0 0x2000, .a 1 0x3000, .m 0x2000 0, .m 0x2001 0, .pc 0x1002, .ccr 0x11] = true := by decide +kernel
theorem test_asrReg_shift_4 : steps [0xE840] [.d 0 0x800f]
    [.d 0 0xf800, .pc 0x1002, .ccr 0x19] = true := by decide +kernel
theorem test_asrMem_shift_25 : steps [0xE0D0] [.a 0 0x2000, .m 0x2000 0x80, .m 0x2001 1]
    [.m 0x2000 0xc0, .m 0x2001 0, .pc 0x1002, .ccr 0x19] = true := by decide +kernel
theorem test_aslReg_shift_1 : steps [0xE300] [.d 0 0x12345681]
    [.d 0 0x12345602, .pc 0x1002, .ccr 0x13] = true := by decide +kernel
theorem test_aslReg_shift_2 : steps [0xE500] [.d 0 0x40]
    [.d 0 0, .pc 0x1002, .ccr 0x17] = true := by decide +kernel
theorem test_aslMem_shift_21 : steps [0xE1D0] [.a 0 0x2000, .m 0x2000 0xc0, .m 0x2001 1]
    [.m 0x2000 0x80, .m 0x2001 2, .pc 0x1002, .ccr 0x19] = true := by decide +kernel
theorem test_lsrReg_shift_7 : steps [0xE208] [.d 0 0x12345601]
    [.d 0 0x12345600, .pc 0x1002, .ccr 0x15] = true := by decide +kernel
theorem test_lsrReg_shift_8 : steps [0xE268] [.sr 0x2713, .d 0 0x8001, .d 1 0]
    [.pc 0x1002, .ccr 0x18] = true := by decide +kernel
theorem test_lsrMem_shift_22 : steps [0xE2D0] [.a 0 0x2000, .m 0x2000 0x80, .m 0x2001 1]
    [.m 0x2000 0x40, .m 0x2001 0, .pc 0x1002, .ccr 0x11] = true := by decide +kernel
theorem test_lslReg_shift_6 : steps [0xE188] [.d 0 0x1234567]
    [.d 0 0x23456700, .pc 0x1002, .ccr 0x11] = true := by decide +kernel
theorem test_lslReg_shift_9 : steps [0xE3A8] [.d 0 1, .d 1 0x20]
    [.d 0 0, .pc 0x1002, .ccr 0x15] = true := by decide +kernel
theorem test_lslMem_shift_26 : steps [0xE3D0] [.a 0 0x2000, .m 0x2000 0x80, .m 0x2001 1]
    [.m 0x2000 0, .m 0x2001 2, .pc 0x1002, .ccr 0x11] = true := by decide +kernel
theorem test_roxrReg_shift_16 : steps [0xE210] [.sr 0x2710, .d 0 0]
    [.d 0 0x80, .pc 0x1002, .ccr 8] = true := by decide +kernel
theorem test_roxrReg_shift_17 : steps [0xE010] [.d 0 0x81]
    [.d 0 2, .pc 0x1002, .ccr 0x11] = true := by decide +kernel
theorem test_roxrMem_shift_28 : steps [0xE4D0] [.a 0 0x2000, .m 0x2000 0, .m 0x2001 1]
    [.m 0x2000 0, .m 0x2001 0, .pc 0x1002, .ccr 0x15] = true := by decide +kernel
theorem test_roxlReg_shift_15 : steps [0xE310] [.d 0 0x80]
    [.d 0 0, .pc 0x1002, .ccr 0x15] = true := by decide +kernel
theorem test_roxlReg_shift_18 : steps [0xE110] [.d 0 0x81]
    [.d 0 0x40, .pc 0x1002, .ccr 0x11] = true := by decide +kernel
theorem test_roxlMem_shift_24 : steps [0xE5D0] [.sr 0x2710, .a 0 0x2000, .m 0x2000 0x80, .m 0x2001 0]
    [.m 0x2000 0, .m 0x2001 1, .pc 0x1002, .ccr 0x11] = true := by decide +kernel
theorem test_rorReg_shift_13 : steps [0xE858] [.d 0 0x1234]
    [.d 0 0x4123, .pc 0x1002, .ccr 0] = true := by decide +kernel
theorem test_rorMem_shift_23 : steps [0xE6D0] [.a 0 0x2000, .m 0x2000 0, .m 0x2001 1]
    [.m 0x2000 0x80, .m 0x2001 0, .pc 0x1002, .ccr 9] = true := by decide +kernel
theorem test_rolReg_shift_12 : steps [0xE318] [.sr 0x2710, .d 0 0x81]
    [.d 0 3, .pc 0x1002, .ccr 0x11] = true := by decide +kernel
theorem test_rolMem_shift_27 : steps [0xE7D0] [.a 0 0x2000, .m 0x2000 0x80, .m 0x2001 1]
    [.m 0x2000 0, .m 0x2001 3, .pc 0x1002, .ccr 1] = true := by decide +kernel
theorem test_orDnEa_hand : steps [0x8350] [.a 0 0x2000, .d 1 0xffff00f0, .m 0x2000 0x12, .m 0x2001 0x34]
    [.m 0x2000 0x12, .m 0x2001 0xf4, .pc 0x1002, .ccr 0] = true := by decide +kernel
theorem test_subDnEa_hand : steps [0x9590] [.a 0 0x2000, .d 2 2, .m 0x2000 0, .m 0x2001 0, .m 0x2002 0, .m 0x2003 1]
    [.m 0x2000 0xff, .m 0x2003 0xff, .pc 0x1002, .ccr 0x19] = true := by decide +kernel
theorem test_unknown_opcode : steps [0xA000] [] [.pc 0x1002, .stop .unknownOpcode none] = true := by decide +kernel
theorem test_withFetchWord : (match step (State.reset.withFetchWord 16 0x7801) with
    | .next t => t.getD 4 == 1
    | _ => false) = true := by decide +kernel

/-! ## Lookup, and the accesses made to a `MEM` that is not plain RAM -/

theorem test_lookup_fields : State.reset.lookupOpcode 0x1001 = some { row := .move, fields := [
    ⟨⟨.altSize, 13, 12⟩, 1⟩, ⟨⟨.destReg, 11, 9⟩, 0⟩, ⟨⟨.destMode, 8, 6⟩, 0⟩, ⟨⟨.eaMode, 5, 3⟩, 0⟩, ⟨⟨.eaReg, 2, 0⟩, 1⟩] } ∧
    State.reset.lookupOpcode 0x4E71 = some { row := .nop, fields := [] } ∧ State.reset.lookupOpcode 0xA000 = none := by
  decide +kernel

/-- A new engine over a `MEM` that is not plain RAM. -/
def plat : State := { State.reset with cfg := { State.reset.cfg with mem := .platform } }

/-- The accesses an instruction makes, the values written left out: whether each is a write, and where. -/
def accesses (i : Instr) (s : State) : List (Bool × Long) :=
  match exec i s with
  | .next t => t.bus.map fun
    | .read a => (false, a)
    | .write a _ => (true, a)
  | _ => []

theorem test_accesses_clr : accesses (.clr .w (.ind 0)) plat = [(true, 0), (true, 1)] := by decide +kernel
theorem test_accesses_tas : accesses (.tas (.ind 0)) plat = [(false, 0), (true, 0)] := by decide +kernel
theorem test_accesses_privilege : accesses (.stop 0) { plat with sr := 0 } = [] := by decide +kernel
theorem test_accesses_ram : accesses (.tas (.ind 0)) State.reset = [] := by decide +kernel

/-! ## Witnesses: a concrete state and operands that meet the hypotheses of each statement -/

/-- Supervisor mode, and user mode with flags. -/
def sup : State := State.reset
def usr (sr : Word) : State := { State.reset with sr := sr }

/-- The long `v` stored at 0, where A7 points after reset. -/
def stacked (v : Long) : State := State.reset.memWrite 0 .l v

def completes (i : Instr) (s : State) : Bool :=
  match exec i s with
  | .next _ => true
  | _ => false

def steps1 (s : State) : Bool :=
  match step s with
  | .next _ => true
  | _ => false

theorem completes_iff {i : Instr} {s : State} (h : completes i s = true) : ∃ t, exec i s = .next t := by
  unfold completes at h
  split at h
  · exact ⟨_, ‹_›⟩
  · cases h

theorem steps1_iff {s : State} (h : steps1 s = true) : ∃ t, step s = .next t := by
  unfold steps1 at h
  split at h
  · exact ⟨_, ‹_›⟩
  · cases h

theorem witness_DecodeEncodeRoundTrip : (Instr.move .l (.absL 0x12345678) (.absL 0xFFFFFFFF)).wf = true ∧
    (Instr.addi .b 0xFF (.dn 7)).wf = true ∧ (Instr.nop).wf = true := by decide
theorem witness_DecodeIsSound : decode true (0x4E72 :: [0x2700, 0x1234]) = .ok (.stop 0x2700, [0x1234]) ∧
    decode false (0x4E72 :: [0]) = .ok (.stop 0, []) := by decide +kernel
theorem witness_OneRowClaimsAWord : ∃ r ∈ opcodeTable, r.claims true 0xD081 = true :=
  ⟨⟨.addEaDn, 0xF100, 0xD000, [.size, .sizedEA .allnoAn .all], .named⟩, List.mem_of_getElem? (i := 90) rfl, by decide⟩
theorem witness_LinesAAndFAreUnknown : (0xA000#16).extractLsb' 12 4 = 0xA#4 ∧ (0xFFFF#16).extractLsb' 12 4 = 0xF#4 := by
  decide
theorem witness_StatusRegisterWrites : ∃ t, (Instr.nop).writesSr = false ∧ exec .nop sup = .next t := ⟨sup, rfl, rfl⟩
theorem witness_MemoryIsBigEndian : 3 < Size.l.bytes ∧ 0 < Size.b.bytes ∧ ¬ within 0xFFFFFFFE 4 2 ∧ ¬ within 0xFFFFFFFE 4 0xFFFFFFFD ∧
    within 0xFFFFFFFE 4 1 ∧ sup.cfg.mem = .ram ∧ plat.cfg.mem = .platform := by
  unfold within; decide
theorem witness_OperandWrite : ∀ n, Loc.dreg 3 ≠ .areg n ∧ Loc.mem 0 ≠ .areg n := fun _ => ⟨nofun, nofun⟩
theorem witness_AddAndSubLaws : trunc .b 0xFF = 0xFF ∧ trunc .w 0x8000 = 0x8000 ∧ trunc .l 0xFFFFFFFF = 0xFFFFFFFF := by decide
theorem witness_CompareMeetsConditions : trunc .b 0x80 = 0x80 ∧ trunc .b 0x7F = 0x7F := by decide
theorem witness_ShiftResults : trunc .w 0x8001 = 0x8001 ∧ 15 < Size.w.bits ∧ 16 ≤ Size.w.bits := by decide
theorem witness_ShiftFlags : trunc .b 0x81 = 0x81 ∧ ShiftKind.as ≠ .rox ∧ 0 < 63 := by decide
theorem witness_NopAndResetDoNothing : sup.flagS = true := by decide
theorem witness_RtsReturnsOrExits :
    ((stacked 0x11).cfg.exitThreshold.toNat < ((stacked 0x11).memRead ((stacked 0x11).getA 7) .l).toNat) ∧
    (((stacked 0x10).memRead ((stacked 0x10).getA 7) .l).toNat ≤ (stacked 0x10).cfg.exitThreshold.toNat) ∧
    (((stacked 0).memRead ((stacked 0).getA 7) .l).toNat ≤ (stacked 0).cfg.exitThreshold.toNat) := by decide +kernel
theorem witness_RteAndRtrRestore : sup.flagS = true := by decide
theorem witness_StopAndTrapsStopTheEngine : sup.flagS = true ∧ (usr 2).flagV = true ∧ (usr 0x1D).flagV = false ∧
    Cond.t.holds sup.flags = true ∧ Cond.f.holds sup.flags = false := by decide
theorem witness_StatusWriters : sup.flagS = true ∧ (EA.imm 0xFFFF).ok .data .w = true ∧ (EA.dn 0).ok .data .w = true := by decide
theorem witness_StatusAndUspMoves : sup.flagS = true ∧ (EA.preDec 7).ok .DA .w = true ∧ (EA.dn 0).ok .DA .w = true ∧ (0 : Reg) ≠ 7 := by
  decide
theorem witness_PrivilegeViolation : (usr 0x1F).flagS = false ∧ [Instr.rte, .reset, .stop 0, .moveToSr (.dn 0), .moveToUsp 1,
    .moveFromUsp 7, .oriToSr 0, .andiToSr 0, .eoriToSr 0xFFFF].all (fun i => i.privileged && i.wf) = true := by decide
theorem witness_ChkChecksBounds : (EA.imm 5).ok .data .w = true ∧ (((sup.fetchEA (.imm 5) .w).1.extractLsb' 0 16).toInt = 5) ∧
    (((sup.setD 1 0).getD 1).extractLsb' 0 16).toInt = 0 ∧ (((sup.setD 1 5).getD 1).extractLsb' 0 16).toInt = 5 ∧
    (((sup.setD 1 0xFFFF).getD 1).extractLsb' 0 16).toInt = -1 ∧ (((sup.setD 1 6).getD 1).extractLsb' 0 16).toInt = 6 := by
  decide
theorem witness_CasSwapsOrLoads : (EA.ind 0).ok .MA .l = true ∧
    (let p := ((stacked 0).skip 1).resolve (.ind 0) .l
     trunc .l ((stacked 0).getD 2) = p.2.readEA p.1 .l) ∧
    (let p := ((stacked 7).skip 1).resolve (.ind 0) .l
     trunc .l ((stacked 7).getD 2) ≠ p.2.readEA p.1 .l) := by
  decide +kernel
theorem witness_Moves : (EA.dn 1).ok (.source .b) .b = true ∧ (EA.an 1).ok (.source .w) .w = true ∧ (EA.preDec 3).ok .DA .b = true ∧
    (EA.imm 0xFFFF).ok .all .w = true ∧ Size.w ≠ .b ∧ (1 : Reg) ≠ 2 := by decide
theorem witness_MovemStores : Size.w ≠ .b ∧ Size.l ≠ .b ∧ (EA.ind 2).ok .CA .l = true ∧ (0x8001#16).getLsbD 0 = true ∧
    (0x8001#16).getLsbD 15 = true ∧ ¬ within 0 (4 * maskRank 0x8001 16) 8 ∧ within 0 (4 * maskRank 0x8001 16) 7 ∧
    sup.cfg.mem = .ram := by
  unfold within; decide
theorem witness_MovemLoads : Size.w ≠ .b ∧ (EA.pcDisp 4).ok .ctrl .w = true ∧ (15 : Fin 16).val ≠ (6 : Reg).val + 8 := by decide
theorem witness_MovepStrides : sup.cfg.mem = .ram ∧ 3 < 4 ∧ 8 * 2 ≤ 16 ∧ (1 : Reg) ≠ 0 := by
  decide
theorem witness_ExgSwapAndExt : (2 : Reg) ≠ 0 ∧ (2 : Reg) ≠ 1 := by decide
theorem witness_AddAndSubRegisters : (EA.an 1).ok (.source .w) .w = true ∧ (EA.imm 0xFF).ok (.source .b) .b = true ∧
    (EA.postInc 7).ok .MA .b = true ∧ Size.w ≠ .b ∧ (EA.an 7).ok .all .l = true := by decide
theorem witness_AddAndSubImmediate : Size.b.fits 0xFF = true ∧ Size.w.fits 0xFFFF = true ∧ Size.l.fits 0xFFFFFFFF = true ∧
    (EA.dn 0).ok .DA .b = true ∧ (EA.absL 0).ok .DA .l = true ∧ Size.l ≠ .b := by decide
theorem witness_ExtendedArithmetic : (EA.dn 0).ok .DA .b = true ∧ (EA.preDec 7).ok .DA .l = true := by decide
theorem witness_Compares : (EA.an 1).ok (.source .l) .l = true ∧ Size.w ≠ .b ∧ (EA.imm 1).ok .all .w = true ∧
    Size.b.fits 0xFF = true ∧ (EA.postInc 0).ok .DA .b = true := by decide
theorem witness_MultiplyWord : (EA.dn 0).ok .data .w = true ∧ (EA.imm 0xFFFF).ok .data .w = true := by decide
theorem witness_MultiplyLong : (EA.dn 0).ok .data .l = true ∧ (7 : Reg) + 1 ≠ 7 ∧ (3 : Reg) ≠ 7 ∧ (3 : Reg) ≠ 0 := by decide
theorem witness_DivideWord : (EA.imm 1).ok .data .w = true ∧ ((sup.fetchEA (.imm 1) .w).1.extractLsb' 0 16).toNat = 1 ∧
    (((sup.setD 0 65535).getD 0).toNat : Int) = 65535 * 1 + 0 ∧ (0 : Int) < 1 ∧
    ((sup.setD 0 0xFFFF8000).getD 0).toInt = -32768 * 1 + 0 ∧ ((sup.setD 0 32767).getD 0).toInt = 32767 * 1 + 0 ∧
    (0 : Int).natAbs < (1 : Int).natAbs ∧ 0 ≤ (0 : Int) * -32768 := by decide
theorem witness_DivideLong : (EA.imm 1).ok .data .l = true ∧ ((sup.fetchEA (.imm 1) .l).1).toInt = 1 ∧
    ((sup.setD 0 0x80000000).getD 0).toInt = -2147483648 * 1 + 0 ∧ (((sup.setD 0 0xFFFFFFFF).getD 0).toNat : Int) = 4294967295 * 1 + 0 ∧
    ((((sup.setD 0 7).getD 1 ++ (sup.setD 0 7).getD 0 : BitVec 64)).toNat : Int) = 7 * 1 + 0 ∧
    (0 : Int).natAbs < (1 : Int).natAbs ∧ (0 : Int) ≤ 0 * 7 ∧ (1 : Reg) ≠ 0 ∧ (2 : Reg) ≠ 0 ∧ (2 : Reg) ≠ 1 := by decide
theorem witness_DivisionStops : (EA.imm 0).ok .data .w = true ∧ ((sup.fetchEA (.imm 0) .w).1.extractLsb' 0 16) = 0 ∧
    (EA.imm 1).ok .data .w = true ∧ (((sup.setD 0 65536).getD 0).toNat : Int) = 65536 * 1 + 0 ∧
    ((sup.setD 0 32768).getD 0).toInt = 32768 * 1 + 0 ∧ ((sup.setD 0 0xFFFF7FFF).getD 0).toInt = -32769 * 1 + 0 ∧
    (EA.imm 0xFFFFFFFF).ok .data .l = true ∧ (sup.fetchEA (.imm 0xFFFFFFFF) .l).1.toInt = -1 ∧
    ((sup.setD 0 0x80000000).getD 0).toInt = 2147483648 * -1 + 0 ∧
    ¬ ((-2147483648 : Int) ≤ 2147483648 ∧ (2147483648 : Int) < 2147483648) ∧
    ((((sup.setD 1 1).getD 1 ++ (sup.setD 1 1).getD 0 : BitVec 64)).toNat : Int) = 4294967296 * 1 + 0 ∧
    ¬ ((4294967296 : Int) < 4294967296) := by decide
theorem witness_Logical : (EA.imm 0xFF).ok .data .b = true ∧ (EA.preDec 0).ok .MA .w = true ∧ (EA.dn 0).ok .DA .l = true ∧
    Size.w.fits 0xFFFF = true := by decide
theorem witness_ClrTstTas : (EA.dn 0).ok .DA .b = true ∧ (EA.absW 0).ok .DA .l = true := by decide
theorem witness_ShiftsAndRotates : (EA.postInc 0).ok .MA .w = true := by decide
theorem witness_BitInstructions : (Instr.btstImm 7 (.pcDisp 2)).wf = true ∧ (Instr.btstDn 0 (.imm 1)).wf = true ∧
    (EA.dn 0).ok .DA .b = true ∧ (EA.ind 0).ok .DA .b = true ∧ 31 ≠ 0 := by decide
theorem witness_DecimalArithmetic : (0 : Int) ≤ 99 ∧ (99 : Int) ≤ 99 ∧ (EA.dn 0).ok .DA .b = true ∧ (EA.preDec 7).ok .DA .b = true := by
  decide
theorem witness_BranchesAndScc : (BranchDisp.byte 0x80).ok = true ∧ (BranchDisp.word 0).ok = true ∧ Cond.le ≠ .t ∧ Cond.hi ≠ .f ∧
    ¬ within (sup.getA 7 - 4) 4 0 ∧ within (sup.getA 7 - 4) 4 0xFFFFFFFF ∧ Cond.t.holds sup.flags = true ∧
    Cond.f.holds sup.flags = false ∧ (1 : Reg) ≠ 0 ∧ (EA.dn 0).ok .DA .b = true ∧ sup.cfg.mem = .ram := by
  unfold within; decide
theorem witness_JumpsAndAddresses : (EA.ind 7).ok .ctrl .l = true ∧ (EA.pcDisp 0).ok .ctrl .l = true ∧ ¬ within 0xFFFFFFFC 4 0 ∧
    sup.cfg.mem = .ram := by
  unfold within; decide
theorem witness_StackFrames : (6 : Reg) ≠ 7 ∧ (5 : Reg) ≠ 7 ∧ (5 : Reg) ≠ 6 ∧ ¬ within 0xFFFFFFFC 4 0 ∧ sup.cfg.mem = .ram := by
  unfold within; decide
theorem witness_StepRunsTheDecodedInstruction : let s := start [0x4E71, 0, 0, 0, 0] []
    s.running = true ∧ s.cfg.mem = .ram ∧ decode s.cfg.admitUnnamed [s.readWord s.pc, s.readWord (s.pc + 2), s.readWord (s.pc + 4),
      s.readWord (s.pc + 6), s.readWord (s.pc + 8)] = .ok (.nop, [0, 0, 0, 0]) ∧
    decode s.cfg.admitUnnamed (s.readWord s.pc :: (s.skip 1).wordsAhead 4) = .ok (.nop, [0, 0, 0, 0]) := by decide +kernel
theorem witness_StepRunsTheDecodedInstruction_other : ∀ sz src dst, Instr.nop ≠ .move sz src dst := nofun
theorem witness_StepRunsTheDecodedInstruction_move : let s := start [0x21E8, 8, 0x2000, 0, 0, 0, 0] []
    let u := s.skip 1
    let i := Instr.move .l (.disp 0 8) (.absW 0x2000)
    decode s.cfg.admitUnnamed (s.readWord s.pc :: u.wordsAhead 4) = .ok (i, [0, 0]) ∧
    decode s.cfg.admitUnnamed (s.readWord s.pc :: ((u.wordsAhead 4).take ((EA.disp 0 8).words .l).length ++
      (u.fetchEA (.disp 0 8) .l).2.wordsAhead 4)) = .ok (i, [0, 0, 0]) := by decide +kernel
theorem witness_StepRunsTheInstructionInMemory : let s := start [0x4E72, 0x2700] []
    s.cfg.mem = .ram ∧ s.running = true ∧ s.cfg.admitUnnamed = true ∧ (Instr.stop 0x2700).wf = true ∧
    s.readWord s.pc = (encode (.stop 0x2700))[0] ∧ s.readWord (s.pc + 2) = (encode (.stop 0x2700))[1] := by decide +kernel
theorem witness_StoppedStepChangesNothing : ({ sup with running := false } : State).running = false := rfl
theorem witness_UnknownOpcodeStops : let s := start [0xA000] []
    s.running = true ∧ lookup s.cfg.admitUnnamed (s.readWord s.pc) = none := by decide +kernel
theorem witness_StepKeepsInvariant : ∃ t, (start [0x4E71, 0, 0, 0, 0] []).Inv ∧ step (start [0x4E71, 0, 0, 0, 0] []) = .next t := by
  obtain ⟨t, h⟩ := steps1_iff (s := start [0x4E71, 0, 0, 0, 0] []) (by decide +kernel)
  exact ⟨t, ⟨by decide +kernel, by decide +kernel, by decide +kernel, nofun, fun _ => by decide +kernel, nofun⟩, h⟩
theorem witness_StepIsTotal : (start [0x4E40, 0, 0, 0, 0] []).running = true ∧ (match step (start [0x4E40, 0, 0, 0, 0] []) with
    | .next t => t.stopRecord.isSome
    | _ => false) = true := by decide +kernel
theorem witness_InstructionsStopOnlyAsListed : (∃ t, exec .illegal sup = .next t) ∧ (∃ t, exec (.moveq 0 0) sup = .next t) ∧
    sup.cfg.mem = .ram ∧ plat.cfg.mem = .platform ∧ (∃ t, exec (.clr .w (.ind 0)) plat = .next t) :=
  ⟨completes_iff (by decide +kernel), completes_iff (by decide +kernel), rfl, rfl, completes_iff (by decide +kernel)⟩
theorem witness_StackPointerOfTheOtherMode : (∃ t, (start [0x4E71] [.sr 0]).flagS = false ∧ step (start [0x4E71] [.sr 0]) = .next t) ∧
    (∃ t, sup.flagS = true ∧ (∀ a, Instr.rte ≠ .moveToUsp a) ∧ exec .rte sup = .next t) := by
  obtain ⟨t, h⟩ := steps1_iff (s := start [0x4E71] [.sr 0]) (by decide +kernel)
  obtain ⟨u, g⟩ := completes_iff (i := .rte) (s := sup) (by decide +kernel)
  exact ⟨⟨t, by decide +kernel, h⟩, ⟨u, by decide, nofun, g⟩⟩
theorem witness_RunEndsStoppedOrSpent : State.RunsTo 0 sup sup ∧
    State.RunsTo 5 { sup with running := false } { sup with running := false } := ⟨⟨1, rfl⟩, ⟨1, rfl⟩⟩
theorem witness_IllFormedTermsFault : (Instr.lea (.dn 0) 1).wf = false := by decide
theorem witness_LookupGivesRowAndFields : (∃ e, sup.lookupOpcode 0xD081 = some e) ∧ lookup sup.cfg.admitUnnamed 0xA000 = none :=
  ⟨Option.isSome_iff_exists.mp (by decide +kernel), by decide +kernel⟩

end Sys2Proof.Tests
end

section
/-! PROOFS. The family 10_state.md: the banked stack pointer (R24). -/

namespace Sys2Proof.Machine

/-! ## `A[7]` and `A[0]` to `A[6]` apart, and S after a write of SR -/

theorem State.getA_seven (s : State) : s.getA 7 = if s.flagS then s.ssp else s.usp := rfl

theorem State.setA_seven (v : Long) (s : State) :
    s.setA 7 v = if s.flagS then { s with ssp := v } else { s with usp := v } := rfl

theorem State.getA_castSucc (n : Fin 7) (s : State) : s.getA n.castSucc = s.a[n] :=
  dif_pos n.isLt

theorem State.setA_castSucc (n : Fin 7) (v : Long) (s : State) :
    s.setA n.castSucc v = { s with a := s.a.set n v } :=
  dif_pos n.isLt

/-- S is one of the bits R29 keeps. -/
@[simp] theorem State.setSr_flagS (v : Word) (s : State) : (s.setSr v).flagS = v.getLsbD 13 := by
  simp [State.flagS]

theorem State.getA_seven_setSr (v : Word) (s : State) :
    (s.setSr v).getA 7 = if v.getLsbD 13 then s.ssp else s.usp := by
  rw [State.getA_seven, State.setSr_flagS, State.setSr_ssp, State.setSr_usp]

/-- Settles O7: A7 is the register past A0 to A6, so it falls to the bank S selects; a write of SR stores S
and leaves both banks. -/
theorem stackPointerIsBanked : Obligations.StackPointerIsBanked := fun s =>
  ⟨s.getA_seven, s.setA_seven, fun n v => ⟨s.getA_castSucc n, s.setA_castSucc n v⟩,
    fun v => ⟨s.getA_seven_setSr v, s.setSr_usp v, s.setSr_ssp v⟩⟩

end Sys2Proof.Machine
end

section
/-! PROOFS. The family 30_encoding.md: the lines that hold no instruction (R80). -/

namespace Sys2Proof

theorem rowsOfLine_A : rowsOfLine 0xA#4 = [] := rfl

theorem rowsOfLine_F : rowsOfLine 0xF#4 = [] := rfl

/-- The decoder searches the rows of the word's own line only. -/
theorem lookup_eq_none_of_line_empty {named : Bool} {op : Word}
    (h : rowsOfLine (op.extractLsb' 12 4) = []) : lookup named op = none := by
  rw [lookup, h, List.find?_nil, Option.map_none]

/-- Settles O4: no row stands on line A or on line F, so there is none for the decoder to find. -/
theorem linesAAndFAreUnknown : Obligations.LinesAAndFAreUnknown := by
  rintro named op (hA | hF)
  · exact lookup_eq_none_of_line_empty (hA ▸ rowsOfLine_A)
  · exact lookup_eq_none_of_line_empty (hF ▸ rowsOfLine_F)

end Sys2Proof
end

section
/-! PROOFS. The family 40_driver.md: the step of a stopped engine (R91). -/

namespace Sys2Proof.Machine

variable {s : State}

theorem step_of_stopped (h : s.running = false) : step s = .next s :=
  if_neg (Bool.eq_false_iff.mp h)

theorem State.stepResult_of_stopped (h : s.running = false) :
    s.stepResult = { mnemonic := none, cost := 0, signal := .stopped } :=
  if_neg (Bool.eq_false_iff.mp h)

/-- Settles O50: the step and its result both test `running` before they read anything. -/
theorem stoppedStepChangesNothing : Obligations.StoppedStepChangesNothing := fun _ h =>
  ⟨step_of_stopped h, State.stepResult_of_stopped h⟩

end Sys2Proof.Machine
end

section
/-! PROOFS. The family 60_exceptions.md: no step stops with MalformedResult (R229). -/

namespace Sys2Proof.Machine

variable {s t : State} {i : Instr}

/-- An instruction stops only with a kind its own rule raises (R227), and MalformedResult is no such kind. -/
theorem exec_record_kept_or_not_malformed (e : exec i s = .next t) {r : StopRecord}
    (hr : t.stopRecord = some r) : s.stopRecord = some r ∨ r.kind ≠ .malformedResult := by
  obtain ⟨-, kept⟩ | ⟨kind, info, -, stopped, can⟩ := (exec_cases e).runState
  · exact .inl (kept ▸ hr)
  · obtain rfl := Option.some.inj (stopped.symm.trans hr)
    right
    rintro (rfl : kind = .malformedResult)
    exact can

/-- The stop before any handler keeps the kind it is given. -/
theorem State.haltBeforeHandler_record_kind {kind : HaltKind} {r : StopRecord}
    (hr : (s.haltBeforeHandler kind).stopRecord = some r) : r.kind = kind :=
  (congrArg StopRecord.kind (Option.some.inj hr)).symm

/-- Settles O55: a stopped engine stays as it is, and a running one stops on an unknown opcode or runs a
well-formed instruction, which always has a next state. -/
theorem stepIsTotal : Obligations.StepIsTotal := by
  intro s
  cases hrun : s.running with
  | false => exact ⟨s, step_of_stopped hrun, nofun⟩
  | true =>
    obtain unknown | ⟨i, hwf, runs⟩ := step_cases s hrun
    · refine ⟨_, unknown, fun _ r hr => .inr ?_⟩
      rw [State.haltBeforeHandler_record_kind hr]
      decide
    · obtain ⟨t, e⟩ := exec_total i (s.beginInstr i.mnemonic) hwf
      exact ⟨t, runs.trans e, fun _ r hr => exec_record_kept_or_not_malformed e hr⟩

end Sys2Proof.Machine
end

section
/-! PROOFS. The family 30_encoding.md: the encoder and the decoder agree, the rows of the table are apart, and
`lookup` answers the row that claims a word (R61 to R67, R81 to R85, R100). -/

namespace Sys2Proof
open Machine

/-! ## Words to instructions and back -/

/-- For each constructor: its opcode word is in its row of the table, and its operands read back. -/
theorem opcode_and_operands : ∀ i : Instr, Laws.Opcode.Statement i ∧ Laws.Operands.Statement i
  | .oriToCcr imm => ⟨Laws.Opcode.oriToCcr imm, Laws.Operands.oriToCcr imm⟩
  | .oriToSr imm => ⟨Laws.Opcode.oriToSr imm, Laws.Operands.oriToSr imm⟩
  | .ori sz imm ea => ⟨Laws.Opcode.ori sz imm ea, Laws.Operands.ori sz imm ea⟩
  | .andiToCcr imm => ⟨Laws.Opcode.andiToCcr imm, Laws.Operands.andiToCcr imm⟩
  | .andiToSr imm => ⟨Laws.Opcode.andiToSr imm, Laws.Operands.andiToSr imm⟩
  | .andi sz imm ea => ⟨Laws.Opcode.andi sz imm ea, Laws.Operands.andi sz imm ea⟩
  | .subi sz imm ea => ⟨Laws.Opcode.subi sz imm ea, Laws.Operands.subi sz imm ea⟩
  | .addi sz imm ea => ⟨Laws.Opcode.addi sz imm ea, Laws.Operands.addi sz imm ea⟩
  | .eoriToCcr imm => ⟨Laws.Opcode.eoriToCcr imm, Laws.Operands.eoriToCcr imm⟩
  | .eoriToSr imm => ⟨Laws.Opcode.eoriToSr imm, Laws.Operands.eoriToSr imm⟩
  | .eori sz imm ea => ⟨Laws.Opcode.eori sz imm ea, Laws.Operands.eori sz imm ea⟩
  | .cmpi sz imm ea => ⟨Laws.Opcode.cmpi sz imm ea, Laws.Operands.cmpi sz imm ea⟩
  | .btstImm num ea => ⟨Laws.Opcode.btstImm num ea, Laws.Operands.btstImm num ea⟩
  | .bchgImm num ea => ⟨Laws.Opcode.bchgImm num ea, Laws.Operands.bchgImm num ea⟩
  | .bclrImm num ea => ⟨Laws.Opcode.bclrImm num ea, Laws.Operands.bclrImm num ea⟩
  | .bsetImm num ea => ⟨Laws.Opcode.bsetImm num ea, Laws.Operands.bsetImm num ea⟩
  | .btstDn d ea => ⟨Laws.Opcode.btstDn d ea, Laws.Operands.btstDn d ea⟩
  | .bchgDn d ea => ⟨Laws.Opcode.bchgDn d ea, Laws.Operands.bchgDn d ea⟩
  | .bclrDn d ea => ⟨Laws.Opcode.bclrDn d ea, Laws.Operands.bclrDn d ea⟩
  | .bsetDn d ea => ⟨Laws.Opcode.bsetDn d ea, Laws.Operands.bsetDn d ea⟩
  | .movep d toMem long a disp => ⟨Laws.Opcode.movep d toMem long a disp, Laws.Operands.movep d toMem long a disp⟩
  | .cas sz dc du ea => ⟨Laws.Opcode.cas sz dc du ea, Laws.Operands.cas sz dc du ea⟩
  | .move sz src dst => ⟨Laws.Opcode.move sz src dst, Laws.Operands.move sz src dst⟩
  | .movea sz src a => ⟨Laws.Opcode.movea sz src a, Laws.Operands.movea sz src a⟩
  | .negx sz ea => ⟨Laws.Opcode.negx sz ea, Laws.Operands.negx sz ea⟩
  | .moveFromSr ea => ⟨Laws.Opcode.moveFromSr ea, Laws.Operands.moveFromSr ea⟩
  | .chk ea d => ⟨Laws.Opcode.chk ea d, Laws.Operands.chk ea d⟩
  | .lea ea a => ⟨Laws.Opcode.lea ea a, Laws.Operands.lea ea a⟩
  | .clr sz ea => ⟨Laws.Opcode.clr sz ea, Laws.Operands.clr sz ea⟩
  | .moveFromCcr ea => ⟨Laws.Opcode.moveFromCcr ea, Laws.Operands.moveFromCcr ea⟩
  | .neg sz ea => ⟨Laws.Opcode.neg sz ea, Laws.Operands.neg sz ea⟩
  | .moveToCcr ea => ⟨Laws.Opcode.moveToCcr ea, Laws.Operands.moveToCcr ea⟩
  | .not sz ea => ⟨Laws.Opcode.not sz ea, Laws.Operands.not sz ea⟩
  | .moveToSr ea => ⟨Laws.Opcode.moveToSr ea, Laws.Operands.moveToSr ea⟩
  | .nbcd ea => ⟨Laws.Opcode.nbcd ea, Laws.Operands.nbcd ea⟩
  | .swap d => ⟨Laws.Opcode.swap d, Laws.Operands.swap d⟩
  | .pea ea => ⟨Laws.Opcode.pea ea, Laws.Operands.pea ea⟩
  | .extW d => ⟨Laws.Opcode.extW d, Laws.Operands.extW d⟩
  | .extL d => ⟨Laws.Opcode.extL d, Laws.Operands.extL d⟩
  | .movemToMem sz mask ea => ⟨Laws.Opcode.movemToMem sz mask ea, Laws.Operands.movemToMem sz mask ea⟩
  | .tst sz ea => ⟨Laws.Opcode.tst sz ea, Laws.Operands.tst sz ea⟩
  | .tas ea => ⟨Laws.Opcode.tas ea, Laws.Operands.tas ea⟩
  | .illegal => ⟨Laws.Opcode.illegal, Laws.Operands.illegal⟩
  | .mull signed wide l h ea => ⟨Laws.Opcode.mull signed wide l h ea, Laws.Operands.mull signed wide l h ea⟩
  | .divl signed wide q r ea => ⟨Laws.Opcode.divl signed wide q r ea, Laws.Operands.divl signed wide q r ea⟩
  | .movemToReg sz mask ea => ⟨Laws.Opcode.movemToReg sz mask ea, Laws.Operands.movemToReg sz mask ea⟩
  | .trap v => ⟨Laws.Opcode.trap v, Laws.Operands.trap v⟩
  | .link a disp => ⟨Laws.Opcode.link a disp, Laws.Operands.link a disp⟩
  | .unlk a => ⟨Laws.Opcode.unlk a, Laws.Operands.unlk a⟩
  | .moveToUsp a => ⟨Laws.Opcode.moveToUsp a, Laws.Operands.moveToUsp a⟩
  | .moveFromUsp a => ⟨Laws.Opcode.moveFromUsp a, Laws.Operands.moveFromUsp a⟩
  | .reset => ⟨Laws.Opcode.reset, Laws.Operands.reset⟩
  | .nop => ⟨Laws.Opcode.nop, Laws.Operands.nop⟩
  | .stop imm => ⟨Laws.Opcode.stop imm, Laws.Operands.stop imm⟩
  | .rte => ⟨Laws.Opcode.rte, Laws.Operands.rte⟩
  | .rts => ⟨Laws.Opcode.rts, Laws.Operands.rts⟩
  | .trapv => ⟨Laws.Opcode.trapv, Laws.Operands.trapv⟩
  | .rtr => ⟨Laws.Opcode.rtr, Laws.Operands.rtr⟩
  | .jsr ea => ⟨Laws.Opcode.jsr ea, Laws.Operands.jsr ea⟩
  | .jmp ea => ⟨Laws.Opcode.jmp ea, Laws.Operands.jmp ea⟩
  | .addq q sz ea => ⟨Laws.Opcode.addq q sz ea, Laws.Operands.addq q sz ea⟩
  | .subq q sz ea => ⟨Laws.Opcode.subq q sz ea, Laws.Operands.subq q sz ea⟩
  | .scc c ea => ⟨Laws.Opcode.scc c ea, Laws.Operands.scc c ea⟩
  | .dbcc c d disp => ⟨Laws.Opcode.dbcc c d disp, Laws.Operands.dbcc c d disp⟩
  | .trapcc c opnd => ⟨Laws.Opcode.trapcc c opnd, Laws.Operands.trapcc c opnd⟩
  | .bra disp => ⟨Laws.Opcode.bra disp, Laws.Operands.bra disp⟩
  | .bsr disp => ⟨Laws.Opcode.bsr disp, Laws.Operands.bsr disp⟩
  | .bcc c disp => ⟨Laws.Opcode.bcc c disp, Laws.Operands.bcc c disp⟩
  | .moveq k d => ⟨Laws.Opcode.moveq k d, Laws.Operands.moveq k d⟩
  | .divuW ea d => ⟨Laws.Opcode.divuW ea d, Laws.Operands.divuW ea d⟩
  | .divsW ea d => ⟨Laws.Opcode.divsW ea d, Laws.Operands.divsW ea d⟩
  | .sbcd mem y x => ⟨Laws.Opcode.sbcd mem y x, Laws.Operands.sbcd mem y x⟩
  | .orEaDn sz ea d => ⟨Laws.Opcode.orEaDn sz ea d, Laws.Operands.orEaDn sz ea d⟩
  | .orDnEa sz d ea => ⟨Laws.Opcode.orDnEa sz d ea, Laws.Operands.orDnEa sz d ea⟩
  | .subEaDn sz ea d => ⟨Laws.Opcode.subEaDn sz ea d, Laws.Operands.subEaDn sz ea d⟩
  | .subDnEa sz d ea => ⟨Laws.Opcode.subDnEa sz d ea, Laws.Operands.subDnEa sz d ea⟩
  | .suba sz ea a => ⟨Laws.Opcode.suba sz ea a, Laws.Operands.suba sz ea a⟩
  | .subx sz mem y x => ⟨Laws.Opcode.subx sz mem y x, Laws.Operands.subx sz mem y x⟩
  | .cmp sz ea d => ⟨Laws.Opcode.cmp sz ea d, Laws.Operands.cmp sz ea d⟩
  | .cmpa sz ea a => ⟨Laws.Opcode.cmpa sz ea a, Laws.Operands.cmpa sz ea a⟩
  | .eor sz d ea => ⟨Laws.Opcode.eor sz d ea, Laws.Operands.eor sz d ea⟩
  | .cmpm sz y x => ⟨Laws.Opcode.cmpm sz y x, Laws.Operands.cmpm sz y x⟩
  | .muluW ea d => ⟨Laws.Opcode.muluW ea d, Laws.Operands.muluW ea d⟩
  | .mulsW ea d => ⟨Laws.Opcode.mulsW ea d, Laws.Operands.mulsW ea d⟩
  | .abcd mem y x => ⟨Laws.Opcode.abcd mem y x, Laws.Operands.abcd mem y x⟩
  | .exgDD x y => ⟨Laws.Opcode.exgDD x y, Laws.Operands.exgDD x y⟩
  | .exgAA x y => ⟨Laws.Opcode.exgAA x y, Laws.Operands.exgAA x y⟩
  | .exgDA x y => ⟨Laws.Opcode.exgDA x y, Laws.Operands.exgDA x y⟩
  | .andEaDn sz ea d => ⟨Laws.Opcode.andEaDn sz ea d, Laws.Operands.andEaDn sz ea d⟩
  | .andDnEa sz d ea => ⟨Laws.Opcode.andDnEa sz d ea, Laws.Operands.andDnEa sz d ea⟩
  | .addEaDn sz ea d => ⟨Laws.Opcode.addEaDn sz ea d, Laws.Operands.addEaDn sz ea d⟩
  | .addDnEa sz d ea => ⟨Laws.Opcode.addDnEa sz d ea, Laws.Operands.addDnEa sz d ea⟩
  | .adda sz ea a => ⟨Laws.Opcode.adda sz ea a, Laws.Operands.adda sz ea a⟩
  | .addx sz mem y x => ⟨Laws.Opcode.addx sz mem y x, Laws.Operands.addx sz mem y x⟩
  | .asrReg sz cnt y => ⟨Laws.Opcode.asrReg sz cnt y, Laws.Operands.asrReg sz cnt y⟩
  | .asrMem ea => ⟨Laws.Opcode.asrMem ea, Laws.Operands.asrMem ea⟩
  | .aslReg sz cnt y => ⟨Laws.Opcode.aslReg sz cnt y, Laws.Operands.aslReg sz cnt y⟩
  | .aslMem ea => ⟨Laws.Opcode.aslMem ea, Laws.Operands.aslMem ea⟩
  | .lsrReg sz cnt y => ⟨Laws.Opcode.lsrReg sz cnt y, Laws.Operands.lsrReg sz cnt y⟩
  | .lsrMem ea => ⟨Laws.Opcode.lsrMem ea, Laws.Operands.lsrMem ea⟩
  | .lslReg sz cnt y => ⟨Laws.Opcode.lslReg sz cnt y, Laws.Operands.lslReg sz cnt y⟩
  | .lslMem ea => ⟨Laws.Opcode.lslMem ea, Laws.Operands.lslMem ea⟩
  | .roxrReg sz cnt y => ⟨Laws.Opcode.roxrReg sz cnt y, Laws.Operands.roxrReg sz cnt y⟩
  | .roxrMem ea => ⟨Laws.Opcode.roxrMem ea, Laws.Operands.roxrMem ea⟩
  | .roxlReg sz cnt y => ⟨Laws.Opcode.roxlReg sz cnt y, Laws.Operands.roxlReg sz cnt y⟩
  | .roxlMem ea => ⟨Laws.Opcode.roxlMem ea, Laws.Operands.roxlMem ea⟩
  | .rorReg sz cnt y => ⟨Laws.Opcode.rorReg sz cnt y, Laws.Operands.rorReg sz cnt y⟩
  | .rorMem ea => ⟨Laws.Opcode.rorMem ea, Laws.Operands.rorMem ea⟩
  | .rolReg sz cnt y => ⟨Laws.Opcode.rolReg sz cnt y, Laws.Operands.rolReg sz cnt y⟩
  | .rolMem ea => ⟨Laws.Opcode.rolMem ea, Laws.Operands.rolMem ea⟩
theorem lookup_opcode {i : Instr} (h : i.wf = true) : lookup true i.opcode = some i.mnemonic :=
  (opcode_and_operands i).1 h

theorem assemble_extWords {i : Instr} (h : i.wf = true) (rest : List Word) :
    assemble i.mnemonic i.opcode (i.extWords ++ rest) = some (i, rest) :=
  (opcode_and_operands i).2 rest h

/-- Settles O1: the opcode word finds the instruction's row, and the row's reader gives the operands back. -/
theorem decodeEncodeRoundTrip : Obligations.DecodeEncodeRoundTrip := by
  intro i rest h
  show decode true (i.opcode :: (i.extWords ++ rest)) = .ok (i, rest)
  simp only [decode, lookup_opcode h, assemble_extWords h]

theorem ReadFrom.assemble_eq {m : Mnemonic} {op : Word} {ws rest : List Word} {i : Instr}
    (r : ReadFrom m op ws rest i) : assemble m op ws = some (i, rest) := by
  simpa only [List.append_nil] using r.more []

/-- The parameter `ADMIT_UNNAMED` decides whether a word has a row, not which. -/
theorem lookup_unique {named named' : Bool} {op : Word} {m m' : Mnemonic} (h : lookup named op = some m)
    (h' : lookup named' op = some m') : m = m' := by
  obtain ⟨r, hr, hc, rfl⟩ := lookup_some h
  obtain ⟨r', hr', hc', rfl⟩ := lookup_some h'
  rw [claims_unique hr hr' hc hc']

/-- Any two readings of one opcode word take equally many words. -/
theorem decode_length_unique {named named' : Bool} {op : Word} {ws rest ws' rest' : List Word} {i i' : Instr}
    (h : decode named (op :: ws) = .ok (i, rest)) (h' : decode named' (op :: ws') = .ok (i', rest')) :
    ws'.length - rest'.length = ws.length - rest.length := by
  obtain ⟨m, hm, r⟩ := decode_readFrom h
  obtain ⟨m', hm', r'⟩ := decode_readFrom h'
  obtain rfl := lookup_unique hm hm'
  obtain ⟨n, hn⟩ := takesFixed_assemble m op
  have := hn _ _ _ r.assemble_eq
  have := hn _ _ _ r'.assemble_eq
  omega

/-- Settles O2: what the reader of a row takes is the instruction's extension words, as many as the opcode word
says. -/
theorem decodeIsSound : Obligations.DecodeIsSound := by
  intro named op ws rest i h
  obtain ⟨m, hm, r⟩ := decode_readFrom h
  obtain ⟨l, rfl, hl⟩ := r.words
  refine ⟨r.wf, r.opcode, ?_, ?_, r.atMostFour, decode_more h, fun _ _ _ _ h' => decode_length_unique h h'⟩
  · rw [← hl, List.drop_left]
  · rw [List.length_append, hl]

/-! ## The rows of the table -/

theorem lookup_eq_some_iff {named : Bool} {op : Word} {m : Mnemonic} :
    lookup named op = some m ↔ ∃ r ∈ opcodeTable, r.claims named op = true ∧ r.row = m :=
  ⟨lookup_some, fun ⟨_, hr, hc, e⟩ => e ▸ lookup_eq hr hc⟩

/-- Settles O3: any two rows are apart. -/
theorem oneRowClaimsAWord : Obligations.OneRowClaimsAWord := fun _ _ =>
  ⟨fun _ h₁ _ h₂ hc₁ hc₂ => claims_unique h₁ h₂ hc₁ hc₂, fun _ => lookup_eq_some_iff⟩

/-- The register shifts whose register count the source does not name (00_scope.md R3). -/
def immediateCountRows : List Mnemonic := [.asrReg, .aslReg, .lsrReg, .lslReg]

theorem extractLsb'_one_beq_zero (w : Word) (k : Nat) : (w.extractLsb' k 1 == 0#1) = !w.getLsbD k := by
  rw [← bit_getLsbD]
  cases w.getLsbD k <;> rfl

/-- `ADMIT_UNNAMED = false` admits what the source names. -/
theorem admits_false {r : Row} (hr : r ∈ opcodeTable) (op : Word) : r.naming.admits false op =
    (!unnamedRows.contains r.row && !(immediateCountRows.contains r.row && op.getLsbD 5)) := by
  rw [naming_table r hr, ← immediateCountRows]
  by_cases h : unnamedRows.contains r.row = true
  · rw [if_pos h, h]; rfl
  · rw [if_neg h, eq_false_of_ne_true h]
    by_cases h' : immediateCountRows.contains r.row = true
    · rw [if_pos h', h', Bool.true_and]
      exact extractLsb'_one_beq_zero op 5
    · rw [if_neg h', eq_false_of_ne_true h']; rfl

theorem Row.claims_false (r : Row) (op : Word) :
    r.claims false op = (r.claims true op && r.naming.admits false op) := by
  have : r.naming.admits true op = true := by cases r.naming <;> rfl
  rw [Row.claims, Row.claims, this, Bool.and_true]

/-- Settles O5: the row that claims a word is the same, and what the source does not name is not admitted. -/
theorem unnamedRowsRefused : Obligations.UnnamedRowsRefused := by
  intro op
  ext m
  rw [lookup_eq_some_iff, Option.filter_eq_some_iff, lookup_eq_some_iff]
  constructor
  · rintro ⟨r, hr, hc, rfl⟩
    rw [Row.claims_false, Bool.and_eq_true, admits_false hr] at hc
    exact ⟨⟨r, hr, hc.1, rfl⟩, hc.2⟩
  · rintro ⟨⟨r, hr, hc, rfl⟩, admitted⟩
    exact ⟨r, hr, by rw [Row.claims_false, hc, admits_false hr]; exact admitted, rfl⟩

/-- Settles O60: the entry of a word is its row with the values of the row's fields, which together with the row's
fixed bits are all the bits of the word. -/
theorem lookupGivesRowAndFields : Obligations.LookupGivesRowAndFields := by
  intro s op
  refine ⟨fun t h => by rw [State.lookupOpcode, State.lookupOpcode, h], ?_, fun e he => ?_⟩
  · rw [State.lookupOpcode, tableEntry, Option.map_eq_none_iff]
  · rw [State.lookupOpcode, tableEntry, Option.map_eq_some_iff] at he
    obtain ⟨m, hm, rfl⟩ := he
    obtain ⟨r, hr, hc, rfl⟩ := lookup_some hm
    refine ⟨r, hr, hc, rfl, by simp [Function.comp_def], ?_, ?_⟩
    · intro f hf
      obtain ⟨slot, -, rfl⟩ := List.mem_map.mp hf
      rfl
    · rw [List.map_map]
      exact word_sum hr hc

/-- Settles O6: each word is decoded by evaluation. -/
theorem sampleWordsDecode : Obligations.SampleWordsDecode := by
  refine ⟨?_, ?_, ?_, ?_, ?_, ?_, ?_, ?_⟩ <;> decide +kernel

end Sys2Proof
end

section
/-! PROOFS. The whole machine (40_driver.md, 60_exceptions.md, 70_reset_and_hazards.md): the invariant, the step, the
stops, the stack pointer of the other mode, the run loop. -/

namespace Sys2Proof.Machine

variable {s t u : State} {i : Instr}

/-! ## The invariant -/

/-- The stop on an unknown opcode reads one word, which `MEM` may see, and has a legal record (R227, R228). -/
theorem State.Inv.haltBeforeHandler (h : s.Inv) : (s.haltBeforeHandler .unknownOpcode).Inv :=
  have g := h.noteReads (span s.pc (2 * 1))
  ⟨g.memory, g.srBits, ⟨nofun, nofun⟩, fun _ e => Option.some.inj e ▸ rfl, g.ramBus, g.platformMem⟩

/-- Settles O52: a stopped engine stays as it is, the stop on an unknown opcode keeps the invariant, and so does all
that an instruction can do. -/
theorem stepKeepsInvariant : Obligations.StepKeepsInvariant := by
  intro s t inv e
  cases hrun : s.running with
  | false =>
    obtain rfl := Host.Outcome.next.inj ((step_of_stopped hrun).symm.trans e)
    exact inv
  | true =>
    obtain unknown | ⟨i, -, runs⟩ := step_cases s hrun
    · obtain rfl := Host.Outcome.next.inj (unknown.symm.trans e)
      exact inv.haltBeforeHandler
    · exact (exec_cases (runs.symm.trans e)).inv hrun inv.beginInstr

/-- Settles O53: nothing is written, nothing is read, SR_DEFAULT is masked. -/
theorem resetHasInvariant : Obligations.ResetHasInvariant :=
  ⟨rfl, by decide, iff_of_true rfl rfl, nofun, fun _ => rfl, nofun⟩

/-! ## Reset and initialize -/

theorem State.getD_of_zero (h : s.d = Vector.replicate 8 0) (n : Reg) : s.getD n = 0 := by
  simp [State.getD, h]

theorem State.getA_of_zero (ha : s.a = Vector.replicate 7 0) (husp : s.usp = 0) (hssp : s.ssp = 0) (n : Reg) :
    s.getA n = 0 := by
  unfold State.getA
  split
  · simp [ha]
  · rw [husp, hssp, ite_self]

/-- Settles O54: each value is the one the operation writes, or the field is not written. -/
theorem resetAndInitializeValues : Obligations.ResetAndInitializeValues := by
  refine ⟨fun s clear => ?_, ?_, fun _ _ => rfl⟩
  · refine ⟨State.getD_of_zero rfl, State.getA_of_zero rfl rfl rfl, rfl, rfl, rfl, rfl, rfl, rfl, rfl, rfl, ?_, ?_, rfl,
      rfl, rfl⟩
    · rintro rfl i
      exact Vector.getElem_replicate ..
    · rintro rfl
      rfl
  · exact ⟨State.getD_of_zero rfl, State.getA_of_zero rfl rfl rfl, rfl, rfl, rfl, by decide, rfl, rfl, rfl, rfl,
      fun i => Vector.getElem_replicate .., by decide, rfl, rfl⟩

/-! ## The step -/

theorem State.beginInstr_ram (hr : s.cfg.mem = .ram) (m : Mnemonic) : s.beginInstr m =
    { s with pc := s.pc + 2, instrCount := s.instrCount + 1,
             cycles := s.cycles + Config.cycleCost (s.readWord s.pc),
             freq := s.freq.set (mnemonicIndex m) (s.freq[mnemonicIndex m] + 1) } := by
  rw [State.beginInstr, State.skip_ram hr]; rfl

/-- In plain RAM the four words after the opcode word are those stored there. -/
theorem State.wordsAhead_four_ram (hr : s.cfg.mem = .ram) : (s.skip 1).wordsAhead 4 =
    (List.range 4).map fun k => s.readWord (s.pc + BitVec.ofNat 32 (2 * (k + 1))) := by
  rw [State.wordsAhead_ram (by exact hr)]
  refine List.map_congr_left fun k _ => ?_
  rw [State.skip_pc, add_ofNat_ofNat, ← Nat.mul_add, Nat.add_comm 1 k, State.skip_ram hr]
  rfl

/-- Settles O48: the step runs the next instruction, which is the one its words decode to. -/
theorem stepRunsTheDecodedInstruction : Obligations.StepRunsTheDecodedInstruction := by
  intro s i hrun
  refine ⟨fun rest hr h => ?_, fun rest hm h => ?_, fun sz src dst rest rest' h h' => ?_⟩
  · have words : (s.skip 1).wordsAhead 4 =
        [s.readWord (s.pc + 2), s.readWord (s.pc + 4), s.readWord (s.pc + 6), s.readWord (s.pc + 8)] :=
      State.wordsAhead_four_ram hr
    rw [step_next hrun (State.nextInstr_ram hr (words ▸ h)), State.beginInstr_ram hr]
  · exact step_next hrun (State.nextInstr_of_decode h hm)
  · obtain ⟨j, more, hj, e⟩ := State.nextInstr_of_move h
    obtain ⟨rfl, -⟩ := Prod.mk.inj (Except.ok.inj (h'.symm.trans hj))
    exact step_next hrun e

theorem extWords_length_le {i : Instr} (h : i.wf = true) : i.extWords.length ≤ 4 := by
  obtain ⟨_, _, r⟩ := decode_readFrom (decodeEncodeRoundTrip i [] h)
  exact r.atMostFour

/-- Plain RAM that holds an instruction's words at PC holds them before whatever stands after them. -/
theorem State.words_eq_encode (hr : s.cfg.mem = .ram) (hwf : i.wf = true)
    (h : ∀ k (hk : k < (encode i).length), s.readWord (s.pc + BitVec.ofNat 32 (2 * k)) = (encode i)[k]) :
    s.readWord s.pc = i.opcode ∧
      (s.skip 1).wordsAhead 4 = i.extWords ++ ((s.skip 1).wordsAhead 4).drop i.extWords.length := by
  refine ⟨?_, ?_⟩
  · have h0 := h 0 (Nat.succ_pos _)
    rwa [Nat.mul_zero, BitVec.add_zero] at h0
  · conv_lhs => rw [← List.take_append_drop i.extWords.length ((s.skip 1).wordsAhead 4)]
    congr 1
    have hlen := extWords_length_le hwf
    refine List.ext_getElem (by simp [State.wordsAhead_length, hlen]) fun k hk hk' => ?_
    rw [List.getElem_take]
    simp only [State.wordsAhead_four_ram hr, List.getElem_map, List.getElem_range]
    exact h (k + 1) (Nat.succ_lt_succ hk')

/-- Settles O49: the words decode to the instruction, and what follows does not matter. -/
theorem stepRunsTheInstructionInMemory : Obligations.StepRunsTheInstructionInMemory := by
  intro s i hr hrun hadmit hwf h
  obtain ⟨hop, hws⟩ := State.words_eq_encode hr hwf h
  have decodes : decode s.cfg.admitUnnamed (s.readWord s.pc :: (s.skip 1).wordsAhead 4) =
      .ok (i, ((s.skip 1).wordsAhead 4).drop i.extWords.length) := by
    conv_lhs => rw [hadmit, hop, hws]
    exact decodeEncodeRoundTrip i _ hwf
  rw [step_next hrun (State.nextInstr_ram hr decodes), State.beginInstr_ram hr, hop]

/-- Settles O51: the step stops before any handler, and its result looks the word up again. -/
theorem unknownOpcodeStops : Obligations.UnknownOpcodeStops := by
  intro s hrun hl
  have stops := step_unknown s hrun hl
  refine ⟨stops, ?_⟩
  rw [State.stepResult, if_pos hrun, stops, hl]
  rfl

/-- Settles O59: every meaning goes through `handle`. -/
theorem illFormedTermsFault : Obligations.IllFormedTermsFault := by
  intro i s h
  cases i with
  | nop => cases h
  | _ => unfold exec; exact handle_fault h

/-! ## What an instruction can do -/

/-- Settles O56: these are parts of all that an instruction can do. -/
theorem instructionsStopOnlyAsListed : Obligations.InstructionsStopOnlyAsListed := by
  intro i s t e
  have did := exec_cases e
  obtain ⟨cycles, instrCount, freq, cfg⟩ := did.counters
  obtain ⟨ram, platform⟩ := did.memKind
  refine ⟨cycles, instrCount, freq, cfg, ram, platform, ?_⟩
  obtain kept | ⟨kind, info, stopped, record, can⟩ := did.runState
  · exact .inl kept
  · refine .inr ⟨stopped, _, record, can.legal, rfl, rfl, ?_⟩
    cases kind with
    | unknownOpcode => exact can
    | malformedResult => exact can
    | privilegeViolation => exact ⟨can.1, can.2.1⟩
    | trapOverflow => exact ⟨can.1, can.2.1⟩
    | _ => exact can.1

/-- Settles O8: beside the writers of SR, what an instruction can do leaves the upper byte. -/
theorem statusRegisterWrites : Obligations.StatusRegisterWrites := by
  refine ⟨fun _ _ => rfl, fun _ _ => rfl, fun _ => rfl, fun _ _ => rfl, fun i s t hi e => ?_⟩
  have upper : ∀ k, 8 ≤ k → t.sr.getLsbD k = s.sr.getLsbD k := by
    obtain ⟨u, calm, rfl | ⟨kind, info, rfl, -⟩⟩ | ⟨writes, -⟩ | ⟨a, -, -, rfl⟩ := exec_cases e
    · exact calm.srUpper
    · exact calm.srUpper
    · exact absurd (hi.symm.trans writes) Bool.false_ne_true
    · exact fun _ _ => rfl
  apply BitVec.eq_of_getLsbD_eq
  intro k hk
  rw [BitVec.getLsbD_extractLsb', BitVec.getLsbD_extractLsb', upper _ (Nat.le_add_right ..)]

/-- In user mode an instruction stays there and leaves SSP. -/
theorem Did.user (d : Did i s t) (hS : s.flagS = false) : t.flagS = false ∧ t.ssp = s.ssp := by
  obtain ⟨u, calm, rfl | ⟨kind, info, rfl, -⟩⟩ | ⟨-, hS', -⟩ | ⟨a, -, hS', -⟩ := d
  · exact ⟨calm.flagS.trans hS, calm.sspKept hS⟩
  · exact ⟨calm.flagS.trans hS, calm.sspKept hS⟩
  · exact absurd (hS.symm.trans hS') Bool.false_ne_true
  · exact absurd (hS.symm.trans hS') Bool.false_ne_true

/-- In supervisor mode an instruction other than MOVE An,USP leaves USP. -/
theorem Did.supervisor (d : Did i s t) (hS : s.flagS = true) (hi : ∀ a, i ≠ .moveToUsp a) : t.usp = s.usp := by
  obtain ⟨u, calm, rfl | ⟨kind, info, rfl, -⟩⟩ | ⟨-, -, u, w, calm, rfl | ⟨kind, info, rfl, -⟩⟩ | ⟨a, rfl, -⟩ := d
  · exact calm.uspKept hS
  · exact calm.uspKept hS
  · exact calm.uspKept hS
  · exact calm.uspKept hS
  · exact absurd rfl (hi a)

/-- Settles O57: a stopped engine and one that meets an unknown opcode touch neither; an instruction in user mode
cannot write SR's upper byte or SSP, nor USP in supervisor mode. -/
theorem stackPointerOfTheOtherMode : Obligations.StackPointerOfTheOtherMode := by
  refine ⟨fun s t hS e => ?_, fun i s t hS hi e => (exec_cases e).supervisor hS hi⟩
  cases hrun : s.running with
  | false =>
    obtain rfl := Host.Outcome.next.inj ((step_of_stopped hrun).symm.trans e)
    exact ⟨hS, rfl⟩
  | true =>
    obtain unknown | ⟨i, -, runs⟩ := step_cases s hrun
    · obtain rfl := Host.Outcome.next.inj (unknown.symm.trans e)
      exact ⟨hS, rfl⟩
    · exact (exec_cases (runs.symm.trans e)).user hS

/-! ## The run loop -/

/-- A step never takes cycles back. -/
theorem step_cycles_le (e : step s = .next t) : s.cycles ≤ t.cycles := by
  cases hrun : s.running with
  | false => exact (Host.Outcome.next.inj ((step_of_stopped hrun).symm.trans e) ▸ le_refl _)
  | true =>
    obtain unknown | ⟨i, -, runs⟩ := step_cases s hrun
    · exact (Host.Outcome.next.inj (unknown.symm.trans e) ▸ le_refl _)
    · rw [(exec_cases (runs.symm.trans e)).counters.1]
      exact Nat.le_add_right ..

theorem State.runFrom_ends {start budget fuel : Nat} (hs : start ≤ s.cycles)
    (h : State.runFrom start budget fuel s = some t) :
    (t.running = false ∨ budget ≤ t.cycles - start) ∧ start ≤ t.cycles := by
  induction fuel generalizing s with
  | zero => cases h
  | succ fuel ih =>
    rw [State.runFrom] at h
    split at h
    · cases e : step s with
      | next s' =>
        rw [e] at h
        exact ih (hs.trans (step_cycles_le e)) h
      | fault r => rw [e] at h; cases h
      | refused r => rw [e] at h; cases h
    · next done =>
      obtain rfl := Option.some.inj h
      rw [Bool.and_eq_true, decide_eq_true_iff, not_and_or, Bool.not_eq_true, Nat.not_lt] at done
      exact ⟨done, hs⟩

/-- Settles O58, by induction on the turns of the loop. -/
theorem runEndsStoppedOrSpent : Obligations.RunEndsStoppedOrSpent := fun _ _ _ ⟨_, h⟩ =>
  State.runFrom_ends (le_refl _) h

end Sys2Proof.Machine
end

section
/-! PROOFS. Registers, memory, operands and the arithmetic flags (10_state.md, 20_memory.md, 41_addressing.md,
44_arith.md). -/

namespace Sys2Proof.Machine

variable {s : State}

/-! ## Memory -/

theorem trunc_toNat (sz : Size) (v : Long) : (trunc sz v).toNat = v.toNat % 2 ^ sz.bits := by
  have := v.isLt
  cases sz <;> simp [trunc, Size.bits, Size.bytes] <;> omega

theorem State.memRead_toNat_lt (a : Long) (sz : Size) (s : State) : (s.memRead a sz).toNat < 2 ^ (8 * sz.bytes) :=
  toNat_lt_of_trunc (State.trunc_memRead a sz s)

/-- The accesses of reading a span, in order. -/
theorem span_map_read (a : Long) (n : Nat) : (span a n).map Config.Access.read =
    (List.range n).map fun i => Config.Access.read (a + BitVec.ofNat 32 i) := List.map_map ..

theorem State.memWrite_ram (hr : s.cfg.mem = .ram) (a : Long) (sz : Size) (v : Long) :
    s.memWrite a sz v = { s with mem := (s.memWrite a sz v).mem } := by
  conv_lhs => rw [State.memWrite_eq, State.memWrite_bus_ram hr]

theorem State.memWrite_platform (hp : s.cfg.mem = .platform) (a : Long) (sz : Size) (v : Long) :
    s.memWrite a sz v = { s with bus := s.bus ++ storeAccesses a sz v } := by
  rw [State.memWrite_eq, State.memWrite_mem_platform hp, State.memWrite_bus_platform hp]

theorem State.noteReads_platform_eq (hp : s.cfg.mem = .platform) (l : List Long) :
    s.noteReads l = { s with bus := s.bus ++ l.map Config.Access.read } := by
  rw [← State.noteReads_platform hp]; rfl

theorem State.skip_platform (hp : s.cfg.mem = .platform) (n : Nat) : s.skip n =
    { s with pc := s.pc + BitVec.ofNat 32 (2 * n), bus := s.bus ++ (span s.pc (2 * n)).map Config.Access.read } := by
  rw [State.skip, State.noteReads_platform_eq hp]

/-- Settles O9: a write lays its bytes out and a read composes them; under plain RAM a read has no effect, under any
other `MEM` the accesses are noted. -/
theorem memoryIsBigEndian : Obligations.MemoryIsBigEndian := by
  intro s a sz v
  refine ⟨State.memRead_toNat_lt a sz s, fun hr => ?_, fun hp => ?_⟩
  · exact ⟨State.memWrite_byte hr a sz v,
      fun i hi => by rw [State.memRead_byte a sz s i hi, State.noteReads_ram hr], State.memWrite_other hr a sz v,
      State.memWrite_ram hr a sz v, State.afterRead_ram hr a sz, State.noteReads_ram hr, State.skip_ram hr⟩
  · refine ⟨State.readByte_platform hp, fun i hi => ?_, State.memWrite_platform hp a sz v, ?_,
      State.noteReads_platform_eq hp, fun n => ?_⟩
    · rw [State.memRead_byte a sz s i hi, State.readByte_platform (s := s.noteReads _) hp,
        State.noteReads_platform hp, span_map_read]
    · rw [State.afterRead, State.noteReads_platform_eq hp, span_map_read]
    · rw [State.skip_platform hp, span_map_read]

/-! ## Operands -/

/-- Settles O10: the law of each kind of location. -/
theorem operandWrite : Obligations.OperandWrite := fun s sz v =>
  ⟨fun l hl => ⟨State.wrote_writeEA l hl sz v s, State.writeEA_eq l hl sz v s⟩,
    fun n => ⟨State.getA_setA_same n v s, fun _ h => State.getA_setA_other h v s, State.setA_inactiveSP n v s,
      State.setA_eq n v s⟩,
    fun _ => ⟨rfl, State.afterReadEA_dreg ..⟩, fun _ => ⟨rfl, State.afterReadEA_areg ..⟩,
    fun _ => ⟨rfl, State.afterReadEA_imm ..⟩, fun _ => ⟨rfl, rfl⟩, fun _ => rfl⟩

theorem State.indexed_eq (base : Long) (x : Index) (s : State) : s.indexed base x = base + (x.disp.signExtend 32 +
    if x.long then (if x.isAddr then s.getA x.reg else s.getD x.reg)
    else ((if x.isAddr then s.getA x.reg else s.getD x.reg).extractLsb' 0 16).signExtend 32) := by
  rw [State.indexed, sext_w, BitVec.add_assoc]

theorem immLen_eq (sz : Size) : immLen sz = if sz = .l then 2 else 1 := by cases sz <;> rfl

/-- Settles O11: resolving is defined mode by mode. -/
theorem addressingModes : Obligations.AddressingModes := by
  intro s sz
  refine ⟨fun _ => rfl, fun _ => rfl, fun _ => rfl, fun n => ?_, fun n => ?_, fun _ _ => rfl, fun n x => ?_,
    fun _ => rfl, fun _ => rfl, fun _ => rfl, fun x => ?_, fun v => ?_⟩
  · cases sz <;> rfl
  · cases sz <;> rfl
  · rw [State.resolve, State.indexed_eq]
  · rw [State.resolve, State.indexed_eq]
  · rw [State.resolve, immLen_eq]

/-! ## Sums and differences -/

/-- Arithmetic on the values of an operand size: unfolds the size's powers of two for each size. -/
theorem Size.bits_cases (sz : Size) : sz.bits = 8 ∨ sz.bits = 16 ∨ sz.bits = 32 := by
  cases sz <;> decide

theorem add_res_toNat (sz : Size) (d v : Long) (x : Bool) :
    (add sz d v x).res.toNat = (d.toNat + v.toNat + x.toNat) % 2 ^ sz.bits := by
  rw [add, trunc_toNat, BitVec.toNat_ofNat]
  exact Nat.mod_mod_of_dvd _ (Nat.pow_dvd_pow 2 (Size.bits_bounds sz).2)

theorem sub_res_toNat (sz : Size) (d v : Long) (x : Bool) :
    ((sub sz d v x).res.toNat : Int) = ((d.toNat : Int) - v.toNat - x.toNat) % 2 ^ sz.bits := by
  rw [sub, trunc_toNat]
  have := d.isLt
  have := v.isLt
  have hx : (BitVec.ofNat 32 x.toNat).toNat = x.toNat := by cases x <;> rfl
  have : x.toNat ≤ 1 := Bool.toNat_le x
  rw [BitVec.toNat_sub, BitVec.toNat_sub, hx]
  obtain h | h | h := Size.bits_cases sz <;> rw [h] <;> omega

theorem add_c_iff (sz : Size) (d v : Long) (x : Bool) :
    (add sz d v x).c = true ↔ 2 ^ sz.bits ≤ d.toNat + v.toNat + x.toNat := decide_eq_true_iff

theorem sub_c_iff (sz : Size) (d v : Long) (x : Bool) :
    (sub sz d v x).c = true ↔ d.toNat < v.toNat + x.toNat := decide_eq_true_iff

theorem trunc_add_res (sz : Size) (d v : Long) (x : Bool) : trunc sz (add sz d v x).res = (add sz d v x).res :=
  trunc_trunc ..

theorem trunc_sub_res (sz : Size) (d v : Long) (x : Bool) : trunc sz (sub sz d v x).res = (sub sz d v x).res :=
  trunc_trunc ..

section
variable {sz : Size} {d v : Long} (hd : trunc sz d = d) (hv : trunc sz v = v)
include hd hv

/-- The sign bit of the result differs from both operands' exactly when the exact sum is out of range. -/
theorem add_v_iff (x : Bool) : (add sz d v x).v = true ↔
    (signed sz d + signed sz v + x.toNat < -2 ^ (sz.bits - 1) ∨
      2 ^ (sz.bits - 1) ≤ signed sz d + signed sz v + x.toNat) := by
  have hr := add_res_toNat sz d v x
  have hV : (add sz d v x).v =
      ((msb sz v ^^ msb sz (add sz d v x).res) && (msb sz d ^^ msb sz (add sz d v x).res)) := by
    rw [← msb_xor, ← msb_xor, ← msb_and]; rfl
  rw [hV, msb_of_trunc sz v hv, msb_of_trunc sz d hd, msb_of_trunc sz _ (trunc_add_res sz d v x), hr,
    signed_of_trunc sz d hd, signed_of_trunc sz v hv]
  have bd := toNat_lt_of_trunc hd
  have bv := toNat_lt_of_trunc hv
  have bx : x.toNat ≤ 1 := Bool.toNat_le x
  simp only [Bool.and_eq_true, bne_iff_ne, ne_eq, decide_eq_decide]
  obtain h | h | h := Size.bits_cases sz <;> rw [h] at bd bv ⊢ <;> norm_num at bd bv ⊢ <;> split_ifs <;> omega

theorem sub_v_iff (x : Bool) : (sub sz d v x).v = true ↔
    (signed sz d - signed sz v - x.toNat < -2 ^ (sz.bits - 1) ∨
      2 ^ (sz.bits - 1) ≤ signed sz d - signed sz v - x.toNat) := by
  have hr := sub_res_toNat sz d v x
  have hV : (sub sz d v x).v = ((msb sz v ^^ msb sz d) && (msb sz (sub sz d v x).res ^^ msb sz d)) := by
    rw [← msb_xor, ← msb_xor, ← msb_and]; rfl
  rw [hV, msb_of_trunc sz v hv, msb_of_trunc sz d hd, msb_of_trunc sz _ (trunc_sub_res sz d v x),
    signed_of_trunc sz d hd, signed_of_trunc sz v hv]
  have bd := toNat_lt_of_trunc hd
  have bv := toNat_lt_of_trunc hv
  have bx : x.toNat ≤ 1 := Bool.toNat_le x
  simp only [Bool.and_eq_true, bne_iff_ne, ne_eq, decide_eq_decide]
  generalize (sub sz d v x).res.toNat = r at hr ⊢
  obtain h | h | h := Size.bits_cases sz <;> rw [h] at hr bd bv ⊢ <;> norm_num at hr bd bv ⊢ <;> split_ifs <;> omega

/-- N differs from V exactly when the signed difference is negative (R151, R152). -/
theorem sub_sign_ne_v_iff : (msb sz (sub sz d v false).res ≠ (sub sz d v false).v) ↔ signed sz d < signed sz v := by
  have hr := sub_res_toNat sz d v false
  have hV := sub_v_iff hd hv false
  rw [msb_of_trunc sz _ (trunc_sub_res sz d v false), ne_eq, Bool.eq_iff_iff, decide_eq_true_iff, hV,
    signed_of_trunc sz d hd, signed_of_trunc sz v hv]
  have bd := toNat_lt_of_trunc hd
  have bv := toNat_lt_of_trunc hv
  generalize (sub sz d v false).res.toNat = r at hr ⊢
  obtain h | h | h := Size.bits_cases sz <;> rw [h] at hr bd bv ⊢ <;> norm_num at hr bd bv ⊢ <;> split_ifs <;> omega

theorem signed_inj_iff : d = v ↔ signed sz d = signed sz v := by
  rw [← BitVec.toNat_inj, signed_of_trunc sz d hd, signed_of_trunc sz v hv]
  have bd := toNat_lt_of_trunc hd
  have bv := toNat_lt_of_trunc hv
  obtain h | h | h := Size.bits_cases sz <;> rw [h] at bd bv ⊢ <;> norm_num at bd bv ⊢ <;> split_ifs <;> omega

theorem sub_res_eq_zero_iff : (sub sz d v false).res = 0 ↔ d = v := by
  rw [sub_res_eq_zero, hd, hv]

end

/-- Settles O12. -/
theorem addAndSubLaws : Obligations.AddAndSubLaws := fun sz d v x hd hv =>
  ⟨⟨add_res_toNat sz d v x, add_c_iff sz d v x, add_v_iff hd hv x⟩,
    ⟨sub_res_toNat sz d v x, sub_c_iff sz d v x, sub_v_iff hd hv x⟩⟩

/-! ## Conditions -/

/-- Settles O13: the truth functions, for every value of the flags. -/
theorem conditionTable : Obligations.ConditionTable := by
  rintro ⟨x, n, z, v, c⟩
  refine ⟨rfl, rfl, ?_, ?_, ?_, ?_, ?_, ?_, ?_, ?_, ?_, ?_, ?_, ?_, ?_, ?_, fun cond _ => by cases cond <;> rfl⟩ <;>
    simp [Cond.ofBits, Cond.holds]

/-- Settles O14: C says whether the unsigned difference is negative, Z whether it is 0, and N and V together
whether the signed difference is negative. -/
theorem compareMeetsConditions : Obligations.CompareMeetsConditions := by
  intro sz d v f hd hv g
  have c : g.c = true ↔ d.toNat < v.toNat := sub_c_iff sz d v false
  have z : g.z = true ↔ d = v := beq_iff_eq.trans (sub_res_eq_zero_iff hd hv)
  have lt : g.n = g.v ↔ ¬ signed sz d < signed sz v :=
    not_ne_iff.symm.trans (not_congr (sub_sign_ne_v_iff hd hv))
  have unsigned : d = v ↔ d.toNat = v.toNat := BitVec.toNat_inj.symm
  have signed : d = v ↔ signed sz d = signed sz v := signed_inj_iff hd hv
  refine ⟨?hi, ?ls, ?cc, c, ?ne, z, ?ge, ?lt, ?gt, ?le⟩ <;>
    simp only [Cond.holds, Bool.and_eq_true, Bool.or_eq_true, Bool.not_eq_true', ← Bool.not_eq_true, beq_iff_eq,
      bne_iff_ne, ne_eq, c, z, lt]
  case hi | ls => rw [unsigned]; omega
  case gt | le => rw [signed]; omega
  case cc | ge | lt => omega

end Sys2Proof.Machine
end

section
/-! PROOFS. The shifts and rotates (46_shift.md R189): results and flags for every count. -/

namespace Sys2Proof.Machine

/-- What the loop of R189 starts from. -/
def shiftStart (v : Long) (x : Bool) : ShiftState := { v := v, c := false, vf := false, x := x }

section
variable (kind : ShiftKind) (left : Bool) (sz : Size) (v : Long) (n : Nat) (f : Flags)

theorem shift_fst : (shift kind left sz v n f).1 = (shiftTimes kind left sz n (shiftStart v f.x)).v := by
  cases kind <;> rfl

theorem shift_n : (shift kind left sz v n f).2.n = msb sz (shift kind left sz v n f).1 := by
  cases kind <;> rfl

theorem shift_z : (shift kind left sz v n f).2.z = ((shift kind left sz v n f).1 == 0) := by
  cases kind <;> rfl

theorem shift_v : (shift kind left sz v n f).2.v = (shiftTimes kind left sz n (shiftStart v f.x)).vf := by
  cases kind <;> rfl

/-- A count of 0 moves no bit out. -/
theorem shift_zero (hk : kind ≠ .rox) :
    (shift kind left sz v 0 f).2.c = false ∧ (shift kind left sz v 0 f).2.x = f.x := by
  cases kind with
  | rox => exact absurd rfl hk
  | _ => exact ⟨rfl, rfl⟩

theorem shift_c_succ (hk : kind ≠ .rox) :
    (shift kind left sz v (n + 1) f).2.c = (shiftTimes kind left sz (n + 1) (shiftStart v f.x)).c := by
  cases kind with
  | rox => exact absurd rfl hk
  | _ => rfl

end

variable {kind : ShiftKind} {left : Bool} {sz : Size} {v : Long} {n : Nat} {f : Flags} {p : ShiftState}

/-- Settles O15: the loop's results, from its initial values. -/
theorem shiftResults : Obligations.ShiftResults := by
  intro sz v n f h ring
  have hs : trunc sz (shiftStart v f.x).v = (shiftStart v f.x).v := h
  simp only [shift_fst]
  exact ⟨fun kind left => shiftTimes_trunc kind left sz n _ hs, shiftTimes_left_toNat .as (.inl rfl) sz n _ hs,
    shiftTimes_left_toNat .ls (.inr rfl) sz n _ hs, shiftTimes_right_toNat sz n _, shiftTimes_asr sz n _ hs,
    fun j hj => ⟨shiftTimes_ro_left sz n _ hs j hj, shiftTimes_ro_right sz n _ hs j hj⟩,
    fun j hj => ⟨shiftTimes_rox_left sz n _ hs j hj, shiftTimes_rox_right sz n _ hs j hj⟩⟩

/-! ## The last bit out -/

/-- A turn moves out the top bit or the bottom bit. -/
theorem shiftOnce_c : (shiftOnce kind left sz p).c = if left then msb sz p.v else p.v.getLsbD 0 := by
  cases kind <;> cases left <;> rfl

/-- A left shift by `n + 1` moves out what was bit `bits - 1` after `n` turns. -/
theorem shiftTimes_left_c (hk : kind = .as ∨ kind = .ls) (h : trunc sz p.v = p.v) :
    (shiftTimes kind true sz (n + 1) p).c = (p.v.toNat * 2 ^ (n + 1)).testBit sz.bits := by
  have hb := Size.bits_bounds sz
  rw [shiftTimes_succ, shiftOnce_c, if_pos rfl, msb_testBit, shiftTimes_left_toNat kind hk sz n p h, testBit_mod_bits,
    Nat.testBit_mul_two_pow, Nat.testBit_mul_two_pow]
  congr 2
  · exact propext (by omega)
  · omega

theorem shiftTimes_lsr_c : (shiftTimes .ls false sz (n + 1) p).c = p.v.toNat.testBit n := by
  rw [shiftTimes_succ, shiftOnce_c, if_neg Bool.false_ne_true, BitVec.getLsbD, shiftTimes_right_toNat,
    Nat.testBit_div_two_pow, Nat.zero_add]

/-- The lowest bit says whether the signed value is odd: a size's range is even. -/
theorem getLsbD_zero_iff_signed (h : trunc sz v = v) : v.getLsbD 0 = true ↔ signed sz v % 2 = 1 := by
  rw [signed_of_trunc sz v h, BitVec.getLsbD, Nat.testBit_zero, decide_eq_true_iff]
  obtain e | e | e := Size.bits_cases sz <;> rw [e] <;> split_ifs <;> omega

theorem shiftTimes_asr_c (h : trunc sz p.v = p.v) :
    (shiftTimes .as false sz (n + 1) p).c = true ↔ signed sz p.v / 2 ^ n % 2 = 1 := by
  rw [shiftTimes_succ, shiftOnce_c, if_neg Bool.false_ne_true,
    getLsbD_zero_iff_signed (shiftTimes_trunc .as false sz n p h), shiftTimes_asr sz n p h]

/-- A rotate puts the bit it moves out at the other end. -/
theorem shiftTimes_ro_c (h : trunc sz p.v = p.v) : (shiftTimes .ro left sz (n + 1) p).c =
    (shiftTimes .ro left sz (n + 1) p).v.getLsbD (if left then 0 else sz.bits - 1) := by
  have hb := Size.bits_bounds sz
  have ht := shiftTimes_trunc .ro left sz n p h
  rw [shiftTimes_succ, shiftOnce_c]
  cases left with
  | true => rw [if_pos rfl, if_pos rfl, shiftOnce_getLsbD _ _ _ _ ht 0 (by omega), if_pos rfl, if_pos rfl]; rfl
  | false =>
    rw [if_neg Bool.false_ne_true, if_neg Bool.false_ne_true, shiftOnce_getLsbD _ _ _ _ ht _ (by omega),
      if_neg Bool.false_ne_true, if_pos rfl]

/-- V is set by ASL only, where the sign bit changed at some turn. -/
theorem shift_v_iff (h : trunc sz v = v) : (shift kind left sz v n f).2.v = true ↔ (kind = .as ∧ left = true ∧
    ∃ k, k < n ∧ (v.toNat * 2 ^ k).testBit (sz.bits - 1) ≠ (v.toNat * 2 ^ (k + 1)).testBit (sz.bits - 1)) := by
  rw [shift_v]
  by_cases asl : kind = .as ∧ left = true
  · obtain ⟨rfl, rfl⟩ := asl
    rw [shiftTimes_vf_asl sz n _ h]
    simp [shiftStart]
  · rw [shiftTimes_vf_other kind left asl]
    exact iff_of_false Bool.false_ne_true fun ⟨hk, hl, _⟩ => asl ⟨hk, hl⟩

/-- Settles O16: N, Z and V from the result and the turns, C from the last turn. -/
theorem shiftFlags : Obligations.ShiftFlags := by
  intro sz v n f h
  have hs : trunc sz (shiftStart v f.x).v = (shiftStart v f.x).v := h
  refine ⟨fun kind left => ⟨shift_n .., by rw [shift_z, beq_iff_eq], shift_v_iff h⟩, ?_, fun _ => rfl, fun _ => rfl, ?_⟩
  · rintro kind left hk rfl
    exact shift_zero kind left sz v f hk
  · intro hn
    obtain ⟨n, rfl⟩ : ∃ m, n = m + 1 := ⟨n - 1, by omega⟩
    simp only [shift_c_succ _ _ _ _ _ _ (show ShiftKind.as ≠ .rox by decide),
      shift_c_succ _ _ _ _ _ _ (show ShiftKind.ls ≠ .rox by decide),
      shift_c_succ _ _ _ _ _ _ (show ShiftKind.ro ≠ .rox by decide), shift_fst, Nat.add_sub_cancel]
    exact ⟨fun left => ⟨rfl, rfl⟩, shiftTimes_left_c (.inl rfl) hs, shiftTimes_left_c (.inr rfl) hs, shiftTimes_lsr_c,
      shiftTimes_asr_c hs, shiftTimes_ro_c hs, shiftTimes_ro_c hs⟩

end Sys2Proof.Machine
end

section
/-! PROOFS. Control and system instructions (42_control_system.md) and TRAPcc (49_branch.md). -/

namespace Sys2Proof.Machine

variable {s u : State} {i : Instr}

/-! ## Privileged instructions -/

/-- In supervisor mode a privileged handler runs. -/
theorem handle_supervisor {k : Ctx → State → State} (hw : i.wf = true) (hS : s.flagS = true) :
    handle i s (fun c s => s.requireSupervisor c (k c)) = .next (k { op := i.opcode, opAddr := s.pc - 2 } s) :=
  (handle_next hw).trans (congrArg _ (if_pos hS))

/-- In user mode it stops the engine instead (R232). -/
theorem handle_user {k : Ctx → State → State} (hw : i.wf = true) (hS : s.flagS = false) :
    handle i s (fun c s => s.requireSupervisor c (k c)) =
      .next (s.halt { op := i.opcode, opAddr := s.pc - 2 } .privilegeViolation none) :=
  (handle_next hw).trans (congrArg _ (if_neg (Bool.eq_false_iff.mp hS)))

/-- Settles O23: every privileged handler asks for supervisor mode before anything else. -/
theorem privilegeViolation : Obligations.PrivilegeViolation := by
  intro i s hp hw hS
  cases i with
  | rte => exact (exec_rte ..).trans (handle_user hw hS)
  | reset => exact (exec_reset ..).trans (handle_user hw hS)
  | stop imm => exact (exec_stop ..).trans (handle_user hw hS)
  | moveToSr ea => exact (exec_moveToSr ..).trans (handle_user hw hS)
  | moveToUsp a => exact (exec_moveToUsp ..).trans (handle_user hw hS)
  | moveFromUsp a => exact (exec_moveFromUsp ..).trans (handle_user hw hS)
  | oriToSr imm => exact (exec_oriToSr ..).trans (handle_user hw hS)
  | andiToSr imm => exact (exec_andiToSr ..).trans (handle_user hw hS)
  | eoriToSr imm => exact (exec_eoriToSr ..).trans (handle_user hw hS)
  | _ => cases hp

/-! ## Basic control -/

/-- Settles O17: neither handler writes anything. -/
theorem nopAndResetDoNothing : Obligations.NopAndResetDoNothing := fun s =>
  ⟨(exec_nop s).trans (handle_next rfl), fun hS => (exec_reset s).trans (handle_supervisor rfl hS)⟩

/-- RTS: the pop and the jump, and the halt where the address is small (R119). -/
theorem exec_rts_eq (s : State) :
    let v := s.memRead (s.getA 7) .l
    let u := ((s.afterRead (s.getA 7) .l).setA 7 (s.getA 7 + 4)).setPC v
    exec .rts s = .next (if v.toNat ≤ s.cfg.exitThreshold.toNat then
      u.halt { op := 0x4E75#16, opAddr := s.pc - 2 } .programExit (some (v.toNat : Int)) else u) := by
  intro v u
  have hc : u.cfg = s.cfg := by simp [u]
  rw [← hc]
  exact (exec_rts s).trans (handle_next rfl)

/-- Settles O18. -/
theorem rtsReturnsOrExits : Obligations.RtsReturnsOrExits := fun s =>
  ⟨fun h => (exec_rts_eq s).trans (congrArg _ (if_neg (Nat.not_le.mpr h))),
    fun h => (exec_rts_eq s).trans (congrArg _ (if_pos h))⟩

theorem State.returnFromException_eq (s : State) : s.returnFromException =
    ((((s.afterRead (s.getA 7) .w).afterRead (s.getA 7 + 2) .l).setA 7 (s.getA 7 + 6)).setSr
      ((s.memRead (s.getA 7) .w).setWidth 16)).setPC ((s.afterRead (s.getA 7) .w).memRead (s.getA 7 + 2) .l) := by
  change (((s.pop .w).2.pop .l).2.setSr _).setPC ((s.pop .w).2.pop .l).1 = _
  rw [State.pop_pop]; rfl

theorem State.getA_seven_supervisor (hS : s.flagS = true) : s.getA 7 = s.ssp := by
  rw [State.getA_seven, if_pos hS]

theorem State.setA_seven_supervisor (hS : s.flagS = true) (v : Long) : s.setA 7 v = { s with ssp := v } := by
  rw [State.setA_seven, if_pos hS]

/-- CCR as written: bits 7:5 are 0 (R29). -/
theorem State.setCcr_lower (b : Byte) (s : State) : (s.setCcr b).sr.extractLsb' 0 8 = b &&& 0x1F#8 := by
  have mask : ∀ k : Fin 8, (0x1F#8).getLsbD k = decide (k.val < 5) := by decide
  apply BitVec.eq_of_getLsbD_eq
  intro k hk
  rw [BitVec.getLsbD_extractLsb', Nat.zero_add, State.setCcr_getLsbD b s k (by omega), BitVec.getLsbD_and, mask ⟨k, hk⟩]
  by_cases h : k < 5
  · simp [h, hk]
  · simp [h, hk]

theorem State.setCcr_upper (b : Byte) (s : State) : (s.setCcr b).sr.extractLsb' 8 8 = s.sr.extractLsb' 8 8 := by
  apply BitVec.eq_of_getLsbD_eq
  intro k hk
  rw [BitVec.getLsbD_extractLsb', BitVec.getLsbD_extractLsb', State.setCcr_getLsbD b s _ (by omega), if_neg (by omega),
    if_neg (by omega)]

/-- Settles O19: both pop a word and a long; RTE from SSP, and it writes the whole of SR. -/
theorem rteAndRtrRestore : Obligations.RteAndRtrRestore := by
  intro s
  refine ⟨fun hS => ?_, ?_⟩
  · have run : exec .rte s = .next s.returnFromException := (exec_rte s).trans (handle_supervisor rfl hS)
    rw [run, State.returnFromException_eq, State.getA_seven_supervisor hS,
      State.setA_seven_supervisor (by simpa using hS)]
    rfl
  · let popped := ((s.afterRead (s.getA 7) .w).afterRead (s.getA 7 + 2) .l).setA 7 (s.getA 7 + 6)
    have run : exec .rtr s = .next ((popped.setCcr ((s.memRead (s.getA 7) .w).setWidth 8)).setPC
        ((s.afterRead (s.getA 7) .w).memRead (s.getA 7 + 2) .l)) := by
      refine (exec_rtr s).trans ((handle_next rfl).trans (congrArg _ ?_))
      change (((s.pop .w).2.pop .l).2.setCcr _).setPC ((s.pop .w).2.pop .l).1 = _
      rw [State.pop_pop]; rfl
    exact ⟨_, run, (State.setCcr_upper ..).trans (by simp [popped]), State.setCcr_lower ..⟩

theorem State.cond_skip (c : Cond) (n : Nat) (s : State) : (s.skip n).cond c = c.holds s.flags := by
  rw [State.cond, State.skip_flags]

/-- TRAPcc: its operand passed, and the halt where its condition holds (R218). -/
theorem exec_trapcc_eq (c : Cond) (o : TrapOperand) (s : State) : exec (.trapcc c o) s =
    .next (if c.holds s.flags then (s.skip (trapOperandLen o)).halt
        { op := (Instr.trapcc c o).opcode, opAddr := s.pc - 2 } .trapCC none
      else s.skip (trapOperandLen o)) := by
  rw [← State.cond_skip c (trapOperandLen o)]
  exact (exec_trapcc ..).trans (handle_next rfl)

theorem exec_trapv_eq (s : State) : exec .trapv s =
    .next (if s.flagV then s.halt { op := 0x4E76#16, opAddr := s.pc - 2 } .trapOverflow none else s) :=
  (exec_trapv s).trans (handle_next rfl)

/-- The opcode word of TRAP holds its number (R135). -/
theorem opcode_trap (v : BitVec 4) : (Instr.trap v).opcode = 0x4E40#16 ||| v.setWidth 16 := by
  revert v; decide

/-- Settles O20: each of them is its halt, under its condition. -/
theorem stopAndTrapsStopTheEngine : Obligations.StopAndTrapsStopTheEngine := by
  refine ⟨fun imm s hS => (exec_stop imm s).trans (handle_supervisor rfl hS), fun s => ⟨fun v => ?_, ?_, fun hV => ?_,
    fun hV => ?_, fun c o => ⟨fun h => ?_, fun h => ?_⟩⟩⟩
  · rw [← opcode_trap]
    exact (exec_trap v s).trans (handle_next rfl)
  · exact (exec_illegal s).trans (handle_next rfl)
  · exact (exec_trapv_eq s).trans (congrArg _ (if_pos hV))
  · exact (exec_trapv_eq s).trans (congrArg _ (if_neg (Bool.eq_false_iff.mp hV)))
  · rw [exec_trapcc_eq, if_pos h]
    cases o <;> rfl
  · rw [exec_trapcc_eq, if_neg (Bool.eq_false_iff.mp h)]
    cases o <;> rfl

/-! ## Status-register access -/

/-- A write of CCR from a state whose SR is that of `s`. -/
theorem State.wrote_ccr (b : Byte) {s u : State} (h : u.sr = s.sr) {o : Host.Outcome State Fault Refusal}
    (e : o = .next (u.setCcr b)) : ∃ w : Word, o = .next { u with sr := w } ∧
      w.extractLsb' 8 8 = s.sr.extractLsb' 8 8 ∧ w.extractLsb' 0 8 = b &&& 0x1F#8 :=
  ⟨(u.setCcr b).sr, e, (State.setCcr_upper b u).trans (congrArg _ h), State.setCcr_lower b u⟩

/-- Settles O21. -/
theorem statusWriters : Obligations.StatusWriters := by
  refine ⟨fun s => ⟨fun b => ?_, fun b => ?_, fun b => ?_, fun ea h => ?_⟩,
    fun s hS => ⟨fun w => ?_, fun w => ?_, fun w => ?_, fun ea h => ?_⟩⟩
  · exact State.wrote_ccr _ rfl ((exec_oriToCcr b s).trans (handle_next rfl))
  · exact State.wrote_ccr _ rfl ((exec_andiToCcr b s).trans (handle_next rfl))
  · exact State.wrote_ccr _ rfl ((exec_eoriToCcr b s).trans (handle_next rfl))
  · exact State.wrote_ccr _ (by simp) ((exec_moveToCcr ea s).trans (handle_next h))
  · exact (exec_oriToSr w s).trans (handle_supervisor rfl hS)
  · exact (exec_andiToSr w s).trans (handle_supervisor rfl hS)
  · exact (exec_eoriToSr w s).trans (handle_supervisor rfl hS)
  · exact (exec_moveToSr ea s).trans (handle_supervisor h hS)

theorem State.setA_usp_supervisor (hS : s.flagS = true) (n : Reg) (v : Long) : (s.setA n v).usp = s.usp := by
  by_cases h : n.val < 7
  · rw [State.setA, dif_pos h]
  · rw [State.setA, dif_neg h, if_pos hS]

/-- The low byte of SR as a word. -/
theorem State.ccr_setWidth (s : State) : (s.ccr.setWidth 32 : Long) = (s.sr &&& 0xFF#16).setWidth 32 := by
  apply BitVec.eq_of_toNat_eq
  have mask : s.sr.toNat &&& 255 = s.sr.toNat % 2 ^ 8 := Nat.and_two_pow_sub_one_eq_mod _ 8
  rw [State.ccr, BitVec.toNat_setWidth, BitVec.toNat_setWidth, BitVec.extractLsb'_toNat, Nat.shiftRight_zero,
    BitVec.toNat_and, ← mask]
  rfl

/-- Settles O22. -/
theorem statusAndUspMoves : Obligations.StatusAndUspMoves := by
  refine ⟨fun ea s h => ?_, fun a s hS => ⟨(exec_moveToUsp a s).trans (handle_supervisor rfl hS), ?_⟩⟩
  · have hl := State.resolve_ne_areg (sz := .w) h rfl s
    have writes (v : Long) := State.effect_writeEA_only _ hl .w v (s.resolve ea .w).2
    simp only [State.resolve_flags] at writes
    refine ⟨⟨_, (exec_moveFromSr ea s).trans (handle_next h), ?_⟩, _, (exec_moveFromCcr ea s).trans (handle_next h), ?_⟩
    · rw [← State.resolve_sr ea .w s]
      exact writes _
    · rw [← State.resolve_sr ea .w s, ← State.ccr_setWidth]
      exact writes _
  · refine ⟨_, (exec_moveFromUsp a s).trans (handle_supervisor rfl hS), State.getA_setA_same .., fun n hn =>
      State.getA_setA_other hn .., ?_⟩
    conv_lhs => rw [State.setA_eq, State.setA_usp_supervisor hS]

/-! ## Traps and checks -/

/-- CHK: its draws, and the halt outside the bounds (R138). -/
theorem exec_chk_eq (ea : EA) (d : Reg) (s : State) (h : ea.ok .data .w = true) :
    let u := (s.fetchEA ea .w).2
    let ub := ((s.fetchEA ea .w).1.extractLsb' 0 16).toInt
    let x := ((s.getD d).extractLsb' 0 16).toInt
    let c : Ctx := { op := (Instr.chk ea d).opcode, opAddr := s.pc - 2 }
    let v := u.drawZ.drawV.drawC
    exec (.chk ea d) s = .next (
      if x < 0 then (v.setFlags { v.flags with n := true }).halt c .chkBound (some x)
      else if ub < x then (v.setFlags { v.flags with n := false }).halt c .chkBound (some x)
      else v.drawN) := by
  intro u ub x c v
  have hD : u.getD d = s.getD d := by simp [u]
  have hx : x = signed .w (u.getD d) := by rw [signed_w, hD]
  rw [hx, show ub = signed .w (s.fetchEA ea .w).1 from (signed_w _).symm]
  exact (exec_chk ea d s).trans (handle_next h)

theorem State.drew_drawZVC (u : State) : u.Drew u.drawZ.drawV.drawC :=
  (State.drew_drawZ u).trans ((State.drew_drawV _).trans (State.drew_drawC _))

/-- A halt of CHK: the draws, N, and the halt. -/
theorem State.drewAndHalted_chk (u : State) (n : Bool) (c : Ctx) (info : Option Int) :
    let v := u.drawZ.drawV.drawC
    let t := (v.setFlags { v.flags with n := n }).halt c .chkBound info
    u.DrewAndHalted .chkBound c.op c.opAddr info t ∧ t.flagN = n := by
  intro v t
  refine ⟨((State.drew_drawZVC u).trans (State.drew_setFlags' { v.flags with n := n } v rfl)).halt c _ _, ?_⟩
  have flags : t.flags = { v.flags with n := n } := by simp [t]
  exact congrArg Flags.n flags

/-- Settles O24. -/
theorem chkChecksBounds : Obligations.ChkChecksBounds := by
  intro ea d s h u ub x
  have run := exec_chk_eq ea d s h
  refine ⟨fun h0 hub => ?_, fun hout => ?_⟩
  · have drew := (State.drew_drawZVC u).trans (State.drew_drawN _)
    have hsr : u.sr = s.sr := by simp [u]
    refine ⟨_, run.trans (congrArg _ ((if_neg (not_lt.mpr h0)).trans (if_neg (not_lt.mpr hub)))), drew.state,
      fun k hk => ?_⟩
    rw [← hsr]
    exact drew.srRest k hk
  · have halted (n : Bool) :=
      State.drewAndHalted_chk u n { op := (Instr.chk ea d).opcode, opAddr := s.pc - 2 } (some x)
    by_cases hneg : x < 0
    · rw [decide_eq_true hneg]
      exact ⟨_, run.trans (congrArg _ (if_pos hneg)), halted true⟩
    · rw [decide_eq_false hneg]
      exact ⟨_, run.trans (congrArg _ ((if_neg hneg).trans (if_pos (hout.resolve_left hneg)))),
        halted false⟩

/-! ## Compare and swap -/

/-- The difference of equal operands: 0, no borrow, no overflow. -/
theorem sub_self_eq (sz : Size) (d : Long) : sub sz d d false = { res := 0, c := false, v := false } := by
  cases sz <;> simp [sub, trunc, msb]

/-- CAS: the compare's flags, and the write that its result selects (R139). -/
theorem exec_cas_eq (sz : Size) (dc du : Reg) (ea : EA) (s : State) (h : ea.ok .MA sz = true) :
    let u := ((s.skip 1).resolve ea sz).2
    let l := ((s.skip 1).resolve ea sz).1
    let m := u.readEA l sz
    let r := sub sz m (trunc sz (s.getD dc)) false
    let p := (u.afterReadEA l sz).setFlags (cmpFlags sz r s.flags)
    exec (.cas sz dc du ea) s =
      .next (if r.res == 0 then p.writeEA l sz (s.getD du) else p.writeEA (.dreg dc) sz m) := by
  intro u l m r p
  refine ((exec_cas ..).trans (handle_next h)).trans ?_
  simp only [State.setCmp, State.setFlags_getD, State.afterReadEA_getD, State.resolve_getD, State.skip_getD,
    State.afterReadEA_flags, State.resolve_flags, State.skip_flags]
  rfl

/-- Settles O25: the difference is 0 exactly when the operand equals Dc at the size. -/
theorem casSwapsOrLoads : Obligations.CasSwapsOrLoads := by
  intro sz dc du ea s h u l m r
  have run := exec_cas_eq sz dc du ea s h
  have hl : ∀ n, l ≠ .areg n := State.resolve_ne_areg h rfl (s.skip 1)
  have zero : r.res = 0 ↔ trunc sz (s.getD dc) = m := by
    rw [sub_res_eq_zero_iff (State.trunc_readEA ..) (trunc_trunc ..), eq_comm]
  refine ⟨fun e => ?_, fun e => ?_⟩
  · refine ⟨_, run.trans (congrArg _ (if_pos (beq_iff_eq.mpr (zero.mpr e)))), State.effect_congr
      (State.effect_writeEA l hl sz _ _ _) rfl ?_⟩
    rw [show trunc sz (s.getD dc) = m from e, sub_self_eq]
    simp [cmpFlags, State.flags, msb]
  · have nonzero := mt zero.mp e
    refine ⟨_, run.trans (congrArg _ (if_neg (mt beq_iff_eq.mp nonzero))), State.effect_congr
      (State.effect_writeEA (.dreg dc) nofun sz _ _ _) rfl ?_⟩
    change cmpFlags sz r s.flags = _
    rw [cmpFlags, beq_eq_false_iff_ne.mpr nonzero]
    rfl

end Sys2Proof.Machine
end

section
/-! PROOFS. Data movement (43_move.md). -/

namespace Sys2Proof.Machine

variable {s : State}

/-! ## Moves -/

/-- A location written and then the flags of the value: the shape of every move (R141). -/
theorem State.effect_writeEA_setLogic (l : Loc) (hl : ∀ n, l ≠ .areg n) (sz : Size) (v : Long) (s : State) :
    s.Effect l sz v (moveFlags sz v s.flagX) ((s.writeEA l sz v).setLogic sz v) := by
  have hf : (s.writeEA l sz v).flags = s.flags := (State.effect_writeEA_only l hl sz v s).flags
  rw [State.setLogic, moveFlags_eq, hf]
  exact State.effect_writeEA_setFlags l hl sz v _ s

/-- The same for all 32 bits of a data register. -/
theorem State.effect_setD_setLogic (n : Reg) (v : Long) (s : State) :
    s.Effect (.dreg n) .l v (moveFlags .l v s.flagX) ((s.setD n v).setLogic .l v) := by
  rw [← State.setDLow_long]
  exact State.effect_writeEA_setLogic (.dreg n) nofun .l v s

/-- The flags of a sign-extended byte are the byte's. -/
theorem moveFlags_signExtend (k : Byte) (x : Bool) : moveFlags .l (k.signExtend 32) x =
    { x := x, n := k.getLsbD 7, z := decide (k = 0), v := false, c := false } := by
  have facts : ∀ k : Byte, (k.signExtend 32).getLsbD 31 = k.getLsbD 7 ∧
      decide ((k.signExtend 32).toNat % 4294967296 = 0) = decide (k = 0) := by decide +kernel
  rw [moveFlags, show 8 * Size.l.bytes - 1 = 31 from rfl, (facts k).1, ← (facts k).2]
  rfl

theorem sext_of_ne_b {sz : Size} (h : sz ≠ .b) (v : Long) :
    sext sz v = if sz = .w then (v.extractLsb' 0 16).signExtend 32 else v := by
  cases sz with
  | b => exact absurd rfl h
  | w => exact sext_w v
  | l => rfl

theorem Size.wordOrLong_of_ne_b {sz : Size} (h : sz ≠ .b) : sz.wordOrLong = true := by
  cases sz with
  | b => exact absurd rfl h
  | w => rfl
  | l => rfl

/-- Settles O26. -/
theorem moves : Obligations.Moves := by
  refine ⟨fun k d s => ?_, fun sz src s => ⟨fun dst hs hd => ?_, fun a hsz hs => ?_⟩⟩
  · refine ⟨_, (exec_moveq k d s).trans (handle_next rfl), ?_⟩
    rw [← moveFlags_signExtend]
    exact State.effect_setD_setLogic d _ s
  · have hx : ((s.fetchEA src sz).2.resolve dst sz).2.flagX = s.flagX := by simp
    refine ⟨_, (exec_move sz src dst s).trans (handle_next (Bool.and_eq_true_iff.mpr ⟨hs, hd⟩)), ?_⟩
    rw [← hx]
    exact State.effect_writeEA_setLogic _ (State.resolve_ne_areg hd rfl _) sz _ _
  · refine ⟨_, (exec_movea sz src a s).trans
      (handle_next (Bool.and_eq_true_iff.mpr ⟨Size.wordOrLong_of_ne_b hsz, hs⟩)), ?_,
      fun n hn => State.getA_setA_other hn .., State.setA_inactiveSP .., State.setA_eq ..⟩
    rw [State.getA_setA_same, sext_of_ne_b hsz]

/-! ## MOVEM -/

theorem maskBits_eq_finRange : maskBits = List.finRange 16 := by decide

/-- An address register is a listed register (R143). -/
theorem State.setA_eq_setListed (n : Reg) (v : Long) (s : State) : s.setA n v = s.setListed ⟨n + 8, by omega⟩ v := by
  rw [State.setListed, dif_neg (show ¬ n.val + 8 < 8 by omega)]
  rfl

/-- Writing an address register commutes with what holds memory. -/
theorem State.setA_withMem (m : List Host.Cell) (b : List Config.Access) (n : Reg) (v : Long) (s : State) :
    ({ s with mem := m, bus := b } : State).setA n v = { s.setA n v with mem := m, bus := b } := by
  unfold State.setA State.flagS
  split_ifs <;> rfl

theorem exec_movemToMem_control {sz : Size} {mask : Word} {ea : EA} (hsz : sz ≠ .b) (h : ea.ok .CA sz = true)
    (s : State) : exec (.movemToMem sz mask ea) s =
      .next (maskBits.foldl (storeUp sz mask) ((s.skip 1).addressOf ea sz)).2 := by
  obtain ⟨-, hCP, hpre⟩ := EA.ctrl_of_CA h
  refine ((exec_movemToMem ..).trans
    (handle_next (Bool.and_eq_true_iff.mpr ⟨Size.wordOrLong_of_ne_b hsz, hCP⟩))).trans ?_
  cases ea with
  | preDec n => exact absurd rfl (hpre n)
  | _ => rfl

theorem exec_movemToMem_preDec {sz : Size} {mask : Word} (hsz : sz ≠ .b) (n : Reg) (s : State) :
    let r := maskBits.foldl (storeDown sz mask) (s.getA n, s.skip 1)
    exec (.movemToMem sz mask (.preDec n)) s = .next (r.2.setA n r.1) := by
  intro r
  rw [show r = maskBits.foldl (storeDown sz mask) ((s.skip 1).getA n, s.skip 1) by simp [r]]
  exact (exec_movemToMem ..).trans
    (handle_next (Bool.and_eq_true_iff.mpr ⟨Size.wordOrLong_of_ne_b hsz, rfl⟩))

/-- An address counted up from the lowest one is one counted down from the top. -/
theorem sub_ofNat_add (a : Long) (b : Nat) {k r : Nat} (h : k ≤ r) :
    a - BitVec.ofNat 32 (b * r) + BitVec.ofNat 32 (b * (r - k)) = a - BitVec.ofNat 32 (b * k) := by
  conv_lhs => rw [show b * r = b * k + b * (r - k) by rw [← Nat.mul_add, Nat.add_sub_cancel' h]]
  rw [BitVec.ofNat_add, ← sub_sub, BitVec.sub_add_cancel]

/-- Settles O27: the loops' laws, all sixteen bits of the mask done. -/
theorem movemStores : Obligations.MovemStores := by
  intro sz mask s hsz size p
  refine ⟨fun ea h => ?_, fun n => ?_⟩
  · obtain ⟨hctrl, -⟩ := EA.ctrl_of_CA h
    obtain ⟨base, hbase, haddr, hu⟩ := State.addressOf_spec hctrl sz p
    obtain ⟨-, frame, reads, stored⟩ := storeUp_spec sz mask base (p.resolve ea sz).2 16 (le_refl _)
    rw [← maskBits_take] at frame reads stored
    rw [← haddr] at frame reads stored
    have listed (i : Fin 16) : (p.resolve ea sz).2.getListed i = s.getListed i := by rw [hu]; rfl
    simp only [listed] at reads stored
    rw [maskBits_eq_finRange] at stored
    refine ⟨base, hbase, _, exec_movemToMem_control hsz h s, fun hr i hi => ?_, ?_, frame⟩
    · exact reads (by rw [State.resolve_cfg]; exact hr) i i.isLt hi
    · rw [maskBits_eq_finRange]
      exact stored
  · let low := s.getA n - BitVec.ofNat 32 (sz.bytes * maskRank mask 16)
    obtain ⟨last, frame, reads, stored⟩ := storeDown_spec sz mask low p 16 (le_refl _)
    rw [BitVec.sub_add_cancel, ← maskBits_take] at last frame reads stored
    rw [Nat.sub_self, Nat.mul_zero, BitVec.add_zero] at last
    have rank (i : Fin 16) : low + BitVec.ofNat 32 (sz.bytes * (maskRank mask 16 - maskRank mask (i + 1))) =
        s.getA n - size (maskRank mask (i + 1)) := sub_ofNat_add _ _ (maskRank_mono mask (by omega))
    have listed (i : Fin 16) : p.getListed i = s.getListed i := rfl
    simp only [rank, listed] at reads stored
    refine ⟨_, exec_movemToMem_preDec hsz n s, fun hr i hi => ?_, ?_, ?_⟩
    · rw [State.setA_memRead]
      exact reads hr i i.isLt hi
    · rw [← maskBits_eq_finRange]
      exact stored.congr rfl rfl rfl (State.setA_mem ..) (State.setA_bus ..) (State.setA_cfg ..)
    · rw [last]
      conv_lhs => rw [frame, State.setA_withMem]
      simp [p, low, size]

theorem exec_movemToReg_control {sz : Size} {mask : Word} {ea : EA} (hsz : sz ≠ .b) (h : ea.ok .ctrl sz = true)
    (s : State) : exec (.movemToReg sz mask ea) s =
      .next (maskBits.foldl (loadUp sz mask) ((s.skip 1).addressOf ea sz)).2 := by
  obtain ⟨hCP, hpost⟩ := EA.CorPost_of_ctrl h
  refine ((exec_movemToReg ..).trans
    (handle_next (Bool.and_eq_true_iff.mpr ⟨Size.wordOrLong_of_ne_b hsz, hCP⟩))).trans ?_
  cases ea with
  | postInc n => exact absurd rfl (hpost n)
  | _ => rfl

theorem exec_movemToReg_postInc {sz : Size} {mask : Word} (hsz : sz ≠ .b) (n : Reg) (s : State) :
    let r := maskBits.foldl (loadUp sz mask) (s.getA n, s.skip 1)
    exec (.movemToReg sz mask (.postInc n)) s = .next (r.2.setA n r.1) := by
  intro r
  rw [show r = maskBits.foldl (loadUp sz mask) ((s.skip 1).getA n, s.skip 1) by simp [r]]
  exact (exec_movemToReg ..).trans
    (handle_next (Bool.and_eq_true_iff.mpr ⟨Size.wordOrLong_of_ne_b hsz, rfl⟩))

/-- Settles O28: the loop's law, all sixteen bits of the mask done; from (An)+ the register is written after it. -/
theorem movemLoads : Obligations.MovemLoads := by
  intro sz mask s hsz size p seen load
  refine ⟨fun ea h => ?_, fun n => ?_⟩
  · obtain ⟨base, hbase, haddr, hu⟩ := State.addressOf_spec h sz p
    obtain ⟨-, frame, sp, listed⟩ := loadUp_spec sz mask base (p.resolve ea sz).2 16 (le_refl _)
    rw [← maskBits_take, ← haddr] at frame sp listed
    refine ⟨base, hbase, _, exec_movemToReg_control hsz h s, fun i => ?_, ?_, frame⟩
    · rw [listed i]
      simp only [i.isLt, true_and, sext_of_ne_b hsz]
      rw [show (p.resolve ea sz).2.getListed i = s.getListed i by rw [hu]; rfl]
    · rw [sp, State.resolve_inactiveSP]
      rfl
  · obtain ⟨last, frame, sp, listed⟩ := loadUp_spec sz mask (s.getA n) p 16 (le_refl _)
    rw [← maskBits_take] at last frame sp listed
    refine ⟨_, exec_movemToReg_postInc hsz n s, ?_, fun i hi => ?_, ?_, ?_⟩
    · rw [State.getA_setA_same]
      exact last
    · rw [State.setA_eq_setListed, State.getListed_setListed, if_neg fun e => hi (congrArg Fin.val e), listed i]
      simp only [i.isLt, true_and, sext_of_ne_b hsz]
      rfl
    · rw [State.setA_inactiveSP]
      exact sp
    · rw [frame, State.setA_eq]

/-! ## MOVEP -/

/-- Bytes written one after another. -/
def writeBytes (l : List (Long × Byte)) (s : State) : State := l.foldl (fun s p => s.writeByte p.1 p.2) s

theorem writeBytes_cons (p : Long × Byte) (l : List (Long × Byte)) (s : State) :
    writeBytes (p :: l) s = writeBytes l (s.writeByte p.1 p.2) := rfl

theorem writeBytes_eq (l : List (Long × Byte)) (s : State) :
    writeBytes l s = { s with mem := (writeBytes l s).mem, bus := (writeBytes l s).bus } := by
  induction l generalizing s with
  | nil => rfl
  | cons p l ih => rw [writeBytes_cons, ih]; rfl

theorem stored_writeBytes (l : List (Long × Byte)) (s : State) :
    s.Stored (l.map fun p => .write p.1 p.2) (· ∈ l.map Prod.fst) (writeBytes l s) := by
  induction l generalizing s with
  | nil => exact State.Stored.refl s
  | cons p l ih =>
    have first : s.Stored [.write p.1 p.2] (· = p.1) (s.writeByte p.1 p.2) :=
      ⟨fun hr _ ha => State.readByte_writeByte_other hr ha _, fun hr => State.writeByte_bus_ram hr ..,
        fun hp => State.writeByte_bus_platform hp .., fun hp => State.writeByte_mem_platform hp ..⟩
    exact (first.mono fun _ e => List.mem_cons.mpr (.inl e)).trans
      ((ih _).mono fun _ h => List.mem_cons_of_mem _ h) rfl

/-- Of bytes written to different addresses of plain RAM each stays. -/
theorem readByte_writeBytes {l : List (Long × Byte)} (hl : (l.map Prod.fst).Nodup) {s : State}
    (hr : s.cfg.mem = .ram) {p : Long × Byte} (hp : p ∈ l) : (writeBytes l s).readByte p.1 = p.2 := by
  induction l generalizing s with
  | nil => cases hp
  | cons q l ih =>
    obtain ⟨hq, hl⟩ := List.nodup_cons.mp hl
    rw [writeBytes_cons]
    obtain rfl | hp := List.mem_cons.mp hp
    · rw [(stored_writeBytes l (s.writeByte p.1 p.2)).bytes hr _ hq, State.readByte_writeByte_same hr]
    · exact ih hl hr hp

/-- The number of bytes MOVEP moves (R145). -/
def movepBytes (long : Bool) : Nat := if long then 4 else 2

theorem writeStrided_eq (a : Long) (long : Bool) (v : Long) (s : State) : s.writeStrided a long v =
    writeBytes ((List.range (movepBytes long)).map fun i =>
      (a + BitVec.ofNat 32 (2 * i), v.extractLsb' (8 * (movepBytes long - 1 - i)) 8)) s := by
  cases long <;> simp [State.writeStrided, writeBytes, movepBytes, List.range, List.range.loop]

theorem strided_nodup (a : Long) {n : Nat} (hn : n ≤ 4) : (strided a n).Nodup := by
  refine List.Nodup.map_on (fun i hi j hj e => ?_) List.nodup_range
  rw [List.mem_range] at hi hj
  by_contra h
  exact add_ofNat_ne a (by omega) (by omega) (show 2 * i ≠ 2 * j by omega) e

/-- The bytes of the value MOVEP reads, high byte first. -/
theorem readStrided_byte (a : Long) (long : Bool) (s : State) (i : Nat) (hi : i < movepBytes long) :
    (s.readStrided a long).extractLsb' (8 * (movepBytes long - 1 - i)) 8 =
      (s.noteReads (strided a i)).readByte (a + BitVec.ofNat 32 (2 * i)) := by
  apply BitVec.eq_of_getLsbD_eq; intro k hk
  cases long <;> simp only [movepBytes, Bool.false_eq_true, if_false, if_true] at hi ⊢
  · obtain rfl | rfl : i = 0 ∨ i = 1 := by omega
    all_goals
      simp [State.readStrided, strided, List.range, List.range.loop]; grind
  · obtain rfl | rfl | rfl | rfl : i = 0 ∨ i = 1 ∨ i = 2 ∨ i = 3 := by omega
    all_goals
      simp [State.readStrided, strided, List.range, List.range.loop]; grind

/-- A field within the operand size is written. -/
theorem mergeLow_extract {sz : Size} {m n : Nat} (h : m + n ≤ sz.bits) (old v : Long) :
    (mergeLow sz old v).extractLsb' m n = v.extractLsb' m n := by
  have := (Size.bits_bounds sz).2
  apply BitVec.eq_of_getLsbD_eq; intro j hj
  rw [BitVec.getLsbD_extractLsb', BitVec.getLsbD_extractLsb', mergeLow_getLsbD _ _ _ _ (by omega), if_pos (by omega)]

/-- A field above the operand size is kept. -/
theorem mergeLow_extract_high {sz : Size} {m n : Nat} (h : sz.bits ≤ m) (hn : m + n ≤ 32) (old v : Long) :
    (mergeLow sz old v).extractLsb' m n = old.extractLsb' m n := by
  apply BitVec.eq_of_getLsbD_eq; intro j hj
  rw [BitVec.getLsbD_extractLsb', BitVec.getLsbD_extractLsb', mergeLow_getLsbD _ _ _ _ (by omega), if_neg (by omega)]

/-- Settles O29. -/
theorem movepStrides : Obligations.MovepStrides := by
  intro d long a disp s base k byte places
  have hk : k ≤ 4 := by unfold k; split <;> decide
  refine ⟨?store, ?load⟩
  case store =>
    let l := (List.range k).map fun i => (base + BitVec.ofNat 32 (2 * i), byte i)
    have addresses : l.map Prod.fst = strided base k := List.map_map ..
    have accesses : l.map (fun p => Config.Access.write p.1 p.2) =
      (List.range k).map fun i => .write (base + BitVec.ofNat 32 (2 * i)) (byte i) := List.map_map ..
    have stored := stored_writeBytes l (s.skip 1)
    rw [accesses, addresses] at stored
    refine ⟨writeBytes l (s.skip 1), ?_, fun hr i hi => ?_, stored, writeBytes_eq ..⟩
    · exact ((exec_movep ..).trans (handle_next rfl)).trans (congrArg _ (writeStrided_eq ..))
    · have distinct : (l.map Prod.fst).Nodup := addresses ▸ strided_nodup base hk
      exact readByte_writeBytes distinct (s := s.skip 1) hr (List.mem_map.mpr ⟨i, List.mem_range.mpr hi, rfl⟩)
  case load =>
    let sz : Size := if long then .l else .w
    have hsz : sz.bits = 8 * k := by cases long <;> rfl
    let v := (s.skip 1).readStrided base long
    have loaded : (((s.skip 1).noteReads (places k)).setDLow d sz v).getD d = mergeLow sz (s.getD d) v :=
      State.getD_setD_same ..
    refine ⟨_, (exec_movep ..).trans (handle_next rfl), fun i hi => ?_, fun j hj => ?_,
      fun n hn => State.getD_setD_other hn .., rfl⟩
    · refine (congrArg _ loaded).trans ((mergeLow_extract ?_ _ _).trans (readStrided_byte base long _ i hi))
      omega
    · refine (congrArg (·.getLsbD j) loaded).trans ?_
      by_cases h : j < 32
      · exact (mergeLow_getLsbD _ _ _ _ h).trans (if_neg (by omega))
      · rw [BitVec.getLsbD_of_ge _ _ (by omega), BitVec.getLsbD_of_ge _ _ (by omega)]

/-! ## EXG, SWAP, EXT -/

/-- Settles O30. -/
theorem exgSwapAndExt : Obligations.ExgSwapAndExt := by
  refine ⟨fun x y s => ⟨?dd, ?aa, ?da⟩, fun d s => ⟨?swap, ?extW, ?extL⟩⟩
  case dd =>
    refine ⟨_, (exec_exgDD ..).trans (handle_next rfl), ?_, State.getD_setD_same .., fun n hx hy => ?_, rfl⟩
    · rw [State.getD_setD, State.getD_setD_same, ite_eq_right_iff]
      exact fun e => e ▸ rfl
    · rw [State.getD_setD_other hy, State.getD_setD_other hx]
  case aa =>
    refine ⟨_, (exec_exgAA ..).trans (handle_next rfl), ?_, State.getA_setA_same .., fun n hx hy => ?_, ?_, ?_⟩
    · rw [State.getA_setA, State.getA_setA_same, ite_eq_right_iff]
      exact fun e => e ▸ rfl
    · rw [State.getA_setA_other hy, State.getA_setA_other hx]
    · rw [State.setA_inactiveSP, State.setA_inactiveSP]
    · rw [State.setA_eq y, State.setA_eq x]
  case da =>
    refine ⟨_, (exec_exgDA ..).trans (handle_next rfl), ?_, State.getA_setA_same .., fun n hx => ?_, fun n hy => ?_,
      ?_, ?_⟩
    · rw [State.setA_getD, State.getD_setD_same]
    · rw [State.setA_getD, State.getD_setD_other hx]
    · rw [State.getA_setA_other hy, State.setD_getA]
    · rw [State.setA_inactiveSP, State.setD_inactiveSP]
    · conv_lhs => rw [State.setA_eq]
      rw [State.setA_d]
      rfl
  case swap => exact ⟨_, (exec_swap d s).trans (handle_next rfl), State.effect_setD_setLogic d _ s⟩
  case extW =>
    refine ⟨_, (exec_extW d s).trans (handle_next rfl), ?_⟩
    have low : trunc .w (sext .b (s.getD d)) = (((s.getD d).extractLsb' 0 8).signExtend 16).setWidth 32 :=
      (by decide +kernel : ∀ b : Byte, ((b.signExtend 32).setWidth 16).setWidth 32 = (b.signExtend 16).setWidth 32) _
    rw [low]
    exact State.effect_writeEA_setLogic (.dreg d) nofun .w _ s
  case extL =>
    refine ⟨_, (exec_extL d s).trans (handle_next rfl), ?_⟩
    rw [← sext_w]
    exact State.effect_setD_setLogic d _ s

end Sys2Proof.Machine
end

section
/-! PROOFS. Addition, subtraction and compare (44_arith.md). -/

namespace Sys2Proof.Machine

variable {s : State}

/-- The flags of a sum or a difference (R152). -/
def sumFlags (sz : Size) (r : Sum) : Flags :=
  { x := r.c, n := msb sz r.res, z := decide (r.res = 0), v := r.v, c := r.c }

/-- The same where X was taken in: Z is only cleared (R152). -/
def extendedFlags (sz : Size) (r : Sum) (z : Bool) : Flags := { sumFlags sz r with z := z && decide (r.res = 0) }

/-! ## ADD, SUB, ADDA and SUBA -/

theorem State.effect_sumEaDn (op : SumOp) (sz : Size) (ea : EA) (d : Reg) (s : State) :
    let r := op sz (trunc sz (s.getD d)) (s.fetchEA ea sz).1 false
    (s.fetchEA ea sz).2.Effect (.dreg d) sz r.res (sumFlags sz r) (s.sumEaDn op sz ea d) := by
  have h := State.effect_sumInto op sz (.dreg d) nofun (s.fetchEA ea sz).1 (s.fetchEA ea sz).2
  have hd : (s.fetchEA ea sz).2.readEA (.dreg d) sz = trunc sz (s.getD d) := by simp [State.readEA]
  rw [State.afterReadEA_dreg, hd] at h
  exact h

theorem State.effect_sumDnEa (op : SumOp) {sz : Size} {ea : EA} (h : ea.ok .MA sz = true) (d : Reg) (s : State) :
    let l := (s.resolve ea sz).1
    let u := (s.resolve ea sz).2
    let r := op sz (u.readEA l sz) (trunc sz (s.getD d)) false
    (u.afterReadEA l sz).Effect l sz r.res (sumFlags sz r) (s.sumDnEa op sz d ea) := by
  intro l u r
  rw [show r = op sz (u.readEA l sz) (trunc sz (u.getD d)) false by simp [r, u]]
  exact State.effect_sumInto op sz l (State.resolve_ne_areg h rfl s) _ u

/-- Settles O31. -/
theorem addAndSubRegisters : Obligations.AddAndSubRegisters := by
  refine ⟨fun op sz ea d s => ?data, fun sz ea a s hsz h => ?address⟩
  case data =>
    refine ⟨fun h => ⟨?_, ?_⟩, fun h => ⟨?_, ?_⟩⟩
    · rintro rfl
      exact ⟨_, (exec_addEaDn ..).trans (handle_next h), State.effect_sumEaDn add sz ea d s⟩
    · rintro rfl
      exact ⟨_, (exec_subEaDn ..).trans (handle_next h), State.effect_sumEaDn sub sz ea d s⟩
    · rintro rfl
      exact ⟨_, (exec_addDnEa ..).trans (handle_next h), State.effect_sumDnEa add h d s⟩
    · rintro rfl
      exact ⟨_, (exec_subDnEa ..).trans (handle_next h), State.effect_sumDnEa sub h d s⟩
  case address =>
    intro u v
    have hv : sext sz (s.fetchEA ea sz).1 = v := sext_of_ne_b hsz _
    have hw := Bool.and_eq_true_iff.mpr ⟨Size.wordOrLong_of_ne_b hsz, h⟩
    rw [← hv]
    exact ⟨(exec_adda ..).trans (handle_next hw), (exec_suba ..).trans (handle_next hw)⟩

/-! ## ADDI, SUBI, ADDQ and SUBQ -/

theorem State.sumImm_eq (op : SumOp) (sz : Size) (imm : Long) (ea : EA) (s : State) :
    let p := s.skip (if sz = .l then 2 else 1)
    s.sumImm op sz imm ea = (p.resolve ea sz).2.sumInto op sz (p.resolve ea sz).1 imm := by
  rw [← immLen_eq]
  rfl

theorem quickData_eq (q : BitVec 3) : quickData q = if q.toNat = 0 then 8 else BitVec.ofNat 32 q.toNat := by
  revert q
  decide

theorem EA.quick_of_DA {ea : EA} {sz : Size} (h : ea.ok .DA sz = true) : ea.ok (.quick sz) sz = true := by
  cases ea with
  | an | pcDisp | pcIndex | imm => simp [EA.ok, EA.inClass] at h
  | _ => cases sz <;> rfl

theorem exec_addq_DA {ea : EA} {sz : Size} (h : ea.ok .DA sz = true) (q : BitVec 3) (s : State) :
    exec (.addq q sz ea) s = .next ((s.resolve ea sz).2.sumInto add sz (s.resolve ea sz).1 (quickData q)) := by
  refine ((exec_addq ..).trans (handle_next (EA.quick_of_DA h))).trans ?_
  cases ea with
  | an n => simp [EA.ok, EA.inClass] at h
  | _ => rfl

theorem exec_subq_DA {ea : EA} {sz : Size} (h : ea.ok .DA sz = true) (q : BitVec 3) (s : State) :
    exec (.subq q sz ea) s = .next ((s.resolve ea sz).2.sumInto sub sz (s.resolve ea sz).1 (quickData q)) := by
  refine ((exec_subq ..).trans (handle_next (EA.quick_of_DA h))).trans ?_
  cases ea with
  | an n => simp [EA.ok, EA.inClass] at h
  | _ => rfl

/-- Settles O32. -/
theorem addAndSubImmediate : Obligations.AddAndSubImmediate := by
  intro op sz s flags
  refine ⟨?imm, ?quick, ?address⟩
  case imm =>
    intro imm ea hi h p l u r
    have hw := Bool.and_eq_true_iff.mpr ⟨hi, h⟩
    have effect := State.effect_sumInto op sz l (State.resolve_ne_areg h rfl p) imm u
    refine ⟨?_, ?_⟩
    · rintro rfl
      exact ⟨_, ((exec_addi ..).trans (handle_next hw)).trans (congrArg _ (State.sumImm_eq ..)), effect⟩
    · rintro rfl
      exact ⟨_, ((exec_subi ..).trans (handle_next hw)).trans (congrArg _ (State.sumImm_eq ..)), effect⟩
  case quick =>
    intro q ea h k l u r
    have hk : quickData q = k := quickData_eq q
    have effect := State.effect_sumInto op sz l (State.resolve_ne_areg h rfl s) k u
    refine ⟨?_, ?_⟩
    · rintro rfl
      exact ⟨_, hk ▸ exec_addq_DA h q s, effect⟩
    · rintro rfl
      exact ⟨_, hk ▸ exec_subq_DA h q s, effect⟩
  case address =>
    intro q n hsz k
    have hk : quickData q = k := quickData_eq q
    have hw : (EA.an n).ok (.quick sz) sz = true := by
      cases sz with
      | b => exact absurd rfl hsz
      | _ => rfl
    rw [← hk]
    exact ⟨(exec_addq ..).trans (handle_next hw), (exec_subq ..).trans (handle_next hw)⟩

/-! ## ADDX, SUBX, NEGX and NEG -/

/-- A read-modify-write that takes X in, from a state whose flags are those of `s`. -/
theorem State.effect_extended (op : SumOp) (sz : Size) (l : Loc) (hl : ∀ n, l ≠ .areg n) (src : Long) {u s : State}
    (hf : u.flags = s.flags) :
    let r := op sz (u.readEA l sz) src s.flagX
    (u.afterReadEA l sz).Effect l sz r.res (extendedFlags sz r s.flagZ) (u.sumXInto op sz l src) := by
  rw [← show u.flagX = s.flagX from congrArg Flags.x hf, ← show u.flagZ = s.flagZ from congrArg Flags.z hf]
  exact State.effect_sumXInto op sz l hl src u

theorem State.effect_sumPair_register (op : SumOp) (sz : Size) (y x : Reg) (s : State) :
    let r := op sz (trunc sz (s.getD x)) (trunc sz (s.getD y)) s.flagX
    s.Effect (.dreg x) sz r.res (extendedFlags sz r s.flagZ) (s.sumPair op sz false y x) := by
  have h := State.effect_extended op sz (.dreg x) nofun (trunc sz (s.getD y)) (u := s) rfl
  rwa [State.afterReadEA_dreg] at h

theorem State.effect_sumPair_memory (op : SumOp) (sz : Size) (y x : Reg) (s : State) :
    let v := (s.fetchEA (.preDec y) sz).1
    let l := ((s.fetchEA (.preDec y) sz).2.resolve (.preDec x) sz).1
    let u := ((s.fetchEA (.preDec y) sz).2.resolve (.preDec x) sz).2
    let r := op sz (u.readEA l sz) v s.flagX
    (u.afterReadEA l sz).Effect l sz r.res (extendedFlags sz r s.flagZ) (s.sumPair op sz true y x) :=
  State.effect_extended op sz _ (by simp [State.resolve]) _ (by simp)

/-- NEG and NEGX take their operand from the source, 0 (R163, R164). -/
def negOp : SumOp := fun sz d src x => sub sz src d x

/-- Settles O33. -/
theorem extendedArithmetic : Obligations.ExtendedArithmetic := by
  intro sz s flags
  refine ⟨fun y x => ⟨?_, ?_⟩, fun y x => ⟨?_, ?_⟩, fun ea h => ⟨?_, ?_⟩⟩
  · exact ⟨_, (exec_addx ..).trans (handle_next rfl), State.effect_sumPair_register add sz y x s⟩
  · exact ⟨_, (exec_subx ..).trans (handle_next rfl), State.effect_sumPair_register sub sz y x s⟩
  · exact ⟨_, (exec_addx ..).trans (handle_next rfl), State.effect_sumPair_memory add sz y x s⟩
  · exact ⟨_, (exec_subx ..).trans (handle_next rfl), State.effect_sumPair_memory sub sz y x s⟩
  · exact ⟨_, (exec_negx ..).trans (handle_next h),
      State.effect_extended negOp sz _ (State.resolve_ne_areg h rfl s) 0 (State.resolve_flags ..)⟩
  · exact ⟨_, (exec_neg ..).trans (handle_next h),
      State.effect_sumInto negOp sz _ (State.resolve_ne_areg h rfl s) 0 _⟩

/-! ## Compares -/

/-- Settles O34. -/
theorem compares : Obligations.Compares := by
  intro sz s flags
  refine ⟨?cmp, ?cmpa, ?cmpi, ?cmpm⟩
  case cmp =>
    intro ea d h v
    have hd : (s.fetchEA ea sz).2.getD d = s.getD d := by simp
    rw [← hd]
    exact ⟨_, (exec_cmp ..).trans (handle_next h), State.flagEffect_setCmp sz _ _ _ (by simp)⟩
  case cmpa =>
    intro ea a hsz h u v
    have hv : sext sz (s.fetchEA ea sz).1 = v := sext_of_ne_b hsz _
    rw [← hv]
    exact ⟨_, (exec_cmpa ..).trans (handle_next (Bool.and_eq_true_iff.mpr ⟨Size.wordOrLong_of_ne_b hsz, h⟩)),
      State.flagEffect_setCmp .l _ _ _ (by simp [u])⟩
  case cmpi =>
    intro imm ea hi h p
    have hp : s.skip (immLen sz) = p := congrArg s.skip (immLen_eq sz)
    rw [← hp]
    exact ⟨_, (exec_cmpi ..).trans (handle_next (Bool.and_eq_true_iff.mpr ⟨hi, h⟩)),
      State.flagEffect_setCmp sz _ _ _ (by simp)⟩
  case cmpm =>
    intro y x v u
    exact ⟨_, (exec_cmpm ..).trans (handle_next rfl), State.flagEffect_setCmp sz _ _ _ (by simp [u])⟩

end Sys2Proof.Machine
end

section
/-! PROOFS. Multiplication and division (44_arith.md). -/

namespace Sys2Proof.Machine

variable {s : State}

/-! ## Values and sign bits -/

/-- The product of two signed words or longs is bounded by the product of their bounds. -/
theorem toInt_mul_toInt_bounds {w : Nat} (a b : BitVec w) :
    |a.toInt * b.toInt| ≤ 2 ^ (w - 1) * 2 ^ (w - 1) := by
  have bound (c : BitVec w) : |c.toInt| ≤ 2 ^ (w - 1) := abs_le.mpr ⟨BitVec.le_toInt c, (BitVec.toInt_lt).le⟩
  rw [abs_mul]
  exact mul_le_mul (bound a) (bound b) (abs_nonneg _) (by positivity)

/-- The value and the sign bit of an unsigned long (R169). -/
theorem ofInt32_unsigned {p : Nat} (h : p < 4294967296) :
    (BitVec.ofInt 32 p).toNat = p ∧ (BitVec.ofInt 32 p).getLsbD 31 = decide (2147483648 ≤ p) := by
  have hp : (BitVec.ofInt 32 p).toNat = p := by
    have := ofInt32_toNat p
    omega
  refine ⟨hp, ?_⟩
  conv_rhs => rw [← hp]
  exact (BitVec.msb_eq_getLsbD_last _).symm.trans (BitVec.msb_eq_decide ..)

/-- The value and the sign bit of a signed long (R170). -/
theorem ofInt32_signed {p : Int} (h : -2147483648 ≤ p) (h' : p < 2147483648) :
    (BitVec.ofInt 32 p).toInt = p ∧ (BitVec.ofInt 32 p).getLsbD 31 = decide (p < 0) := by
  have hp : (BitVec.ofInt 32 p).toInt = p := by
    rw [BitVec.toInt_ofInt]
    exact Int.bmod_eq_of_le_mul_two (by omega) (by omega)
  refine ⟨hp, ?_⟩
  conv_rhs => rw [← hp]
  exact (BitVec.msb_eq_getLsbD_last _).symm.trans (BitVec.msb_eq_toInt ..)

/-! ## Multiply -/

/-- Settles O35: both products fit 32 bits. -/
theorem multiplyWord : Obligations.MultiplyWord := by
  intro ea d s h v w u
  have hx : u.flagX = s.flagX := by simp [u]
  have hd : u.getD d = s.getD d := by simp [u]
  refine ⟨?unsigned, ?signed⟩
  case unsigned =>
    have hp : w.toNat * v.toNat < 4294967296 := by
      have := Nat.mul_lt_mul'' w.isLt v.isLt
      omega
    obtain ⟨value, sign⟩ := ofInt32_unsigned hp
    refine ⟨u.setProduct d (w.toNat * v.toNat : Nat), _, ?_, value, ?_⟩
    · refine ((exec_muluW ..).trans (handle_next h)).trans ?_
      rw [← trunc_w_toNat, ← State.fetchEA_w_toNat, ← hd]
    · rw [← hx]
      exact State.effect_congr (State.effect_setProduct d _ _ sign u) rfl (by simp)
  case signed =>
    have hp := abs_le.mp (toInt_mul_toInt_bounds w v)
    obtain ⟨value, sign⟩ := ofInt32_signed (p := w.toInt * v.toInt) (by omega) (by omega)
    refine ⟨u.setProduct d (w.toInt * v.toInt), _, ?_, value, ?_⟩
    · refine ((exec_mulsW ..).trans (handle_next h)).trans ?_
      rw [← signed_w, ← signed_w, ← hd]
    · rw [← hx]
      exact State.effect_setProduct d _ _ sign u

/-- The exact product of two longs (R171). -/
theorem longValue_mul (sgn : Bool) (a b : Long) : longValue sgn a * longValue sgn b =
    if sgn then a.toInt * b.toInt else (a.toNat * b.toNat : Int) := by
  cases sgn <;> rfl

theorem longValue_mul_bounds (sgn : Bool) (a b : Long) :
    -9223372036854775808 ≤ longValue sgn a * longValue sgn b ∧
      longValue sgn a * longValue sgn b < 18446744073709551616 ∧
      (sgn = false → 0 ≤ longValue sgn a * longValue sgn b) := by
  cases sgn with
  | true =>
    have := abs_le.mp (toInt_mul_toInt_bounds a b)
    simp only [longValue, if_true]
    exact ⟨by omega, by omega, nofun⟩
  | false =>
    have : a.toNat * b.toNat < 4294967296 * 4294967296 := Nat.mul_lt_mul'' a.isLt b.isLt
    simp only [longValue, Bool.false_eq_true, if_false]
    exact ⟨by omega, by omega, fun _ => by omega⟩

/-- The halves and the sign bit of a 64-bit product (R171). -/
theorem ofInt64_halves {p : Int} (h : -9223372036854775808 ≤ p) (h' : p < 18446744073709551616) :
    (((BitVec.ofInt 64 p).extractLsb' 0 32).toNat : Int) = p % 4294967296 ∧
      (((BitVec.ofInt 64 p).extractLsb' 32 32).toNat : Int) = p / 4294967296 % 4294967296 ∧
      (BitVec.ofInt 64 p).getLsbD 63 = decide (p < 0 ∨ 9223372036854775808 ≤ p) := by
  have value : ((BitVec.ofInt 64 p).toNat : Int) = p % 18446744073709551616 := by
    rw [BitVec.toNat_ofInt]
    norm_num
    omega
  refine ⟨?_, ?_, ?_⟩
  · rw [BitVec.extractLsb'_toNat, Nat.shiftRight_zero]
    omega
  · rw [BitVec.extractLsb'_toNat, Nat.shiftRight_eq_div_pow]
    omega
  · refine ((BitVec.msb_eq_getLsbD_last _).symm.trans (BitVec.msb_eq_decide ..)).trans (decide_eq_decide.mpr ?_)
    omega

/-- Two data registers written, the low one last, and then the flags: the results of the long forms. -/
theorem State.writePair_spec (u : State) (hi lo : Reg) (vh vl : Long) (f : Flags) :
    let t := ((u.setD hi vh).setD lo vl).setFlags f
    t.getD lo = vl ∧ (hi ≠ lo → t.getD hi = vh) ∧ (∀ n, n ≠ lo → n ≠ hi → t.getD n = u.getD n) ∧ t.flags = f ∧
      (∀ k, 5 ≤ k → t.sr.getLsbD k = u.sr.getLsbD k) ∧ t = { u with d := t.d, sr := t.sr } := by
  refine ⟨?_, fun h => ?_, fun n hl hh => ?_, State.setFlags_flags .., State.setFlags_srRest f _, rfl⟩
  · rw [State.setFlags_getD, State.getD_setD_same]
  · rw [State.setFlags_getD, State.getD_setD_other h, State.getD_setD_same]
  · rw [State.setFlags_getD, State.getD_setD_other hl, State.getD_setD_other hh]

/-- All 32 bits of a data register, and then the flags. -/
theorem State.effect_setD_setFlags (n : Reg) (v : Long) (f : Flags) (s : State) :
    s.Effect (.dreg n) .l v f ((s.setD n v).setFlags f) := by
  rw [← State.setDLow_long]
  exact State.effect_writeEA_setFlags (.dreg n) nofun .l v f s

/-- MULU.L and MULS.L, the product taken from the register as it was (R171). -/
theorem exec_mull_eq (sgn wide : Bool) (l h : Reg) {ea : EA} (hea : ea.ok .data .l = true) (s : State) :
    let u := ((s.skip 1).fetchEA ea .l).2
    let p := longValue sgn (s.getD l) * longValue sgn ((s.skip 1).fetchEA ea .l).1
    let q := BitVec.ofInt 64 p
    let r := BitVec.ofInt 32 p
    exec (.mull sgn wide l h ea) s = .next (
      if wide then ((u.setD (s.highReg l h) (q.extractLsb' 32 32)).setD l (q.extractLsb' 0 32)).setFlags
        { x := s.flagX, n := q.getLsbD 63, z := decide (p = 0), v := false, c := false }
      else (u.setD l r).setFlags
        { x := s.flagX, n := r.getLsbD 31, z := decide (r = 0),
          v := if sgn then p != r.toInt else decide (4294967296 ≤ p), c := false }) := by
  intro u p q r
  have hd : u.getD l = s.getD l := by simp [u]
  have hx : u.flagX = s.flagX := by simp [u]
  have hcfg : u.highReg l h = s.highReg l h := by simp [u, State.highReg]
  have hp : longValue sgn (u.getD l) * longValue sgn ((s.skip 1).fetchEA ea .l).1 = p := by rw [hd]
  refine ((exec_mull ..).trans (handle_next hea)).trans (congrArg _ ?_)
  cases wide with
  | true =>
    rw [if_pos rfl, ← hx, ← hcfg, ← beq_eq_decide]
    simp only [q, ← hp]
    rfl
  | false =>
    rw [if_neg (by decide), ← hx, ← beq_eq_decide]
    simp only [r, ← hp]
    rfl

/-- Settles O36. -/
theorem multiplyLong : Obligations.MultiplyLong := by
  intro sgn l h ea s hea u v p hi
  have hd (n : Reg) : u.getD n = s.getD n := by simp [u]
  have hsr : u.sr = s.sr := by simp [u]
  have hp : longValue sgn (s.getD l) * longValue sgn v = p := longValue_mul ..
  have run (wide : Bool) := exec_mull_eq sgn wide l h hea s
  obtain ⟨lower, upper, unsigned⟩ := longValue_mul_bounds sgn (s.getD l) v
  rw [hp] at run lower upper unsigned
  refine ⟨⟨_, _, run false, ofInt32_toNat p, ?_⟩, ?wide⟩
  · refine State.effect_congr (State.effect_setD_setFlags l _ _ u) rfl ?_
    have value := ofInt32_toNat p
    cases sgn with
    | true => simp [bne, beq_eq_decide]
    | false =>
      have : decide (4294967296 ≤ p) = decide (p ≠ ((BitVec.ofInt 32 p).toNat : Int)) :=
        decide_eq_decide.mpr (by have := unsigned rfl; omega)
      simp [this]
  case wide =>
    obtain ⟨low, high, sign⟩ := ofInt64_halves lower upper
    obtain ⟨lo, hi', others, flags, sr, frame⟩ := u.writePair_spec hi l _ _ _
    refine ⟨_, run true, ?_, fun e => ?_, fun n a b => (others n a b).trans (hd n),
      flags.trans (congrArg (fun n => Flags.mk _ n _ _ _) sign),
      fun k hk => hsr ▸ sr k hk, frame⟩
    · exact (congrArg (fun x : Long => (x.toNat : Int)) lo).trans low
    · exact (congrArg (fun x : Long => (x.toNat : Int)) (hi' e)).trans high

/-! ## Divide -/

theorem State.divideWord_zero (c : Ctx) (d : Reg) (a lo hi : Int) (u : State) :
    u.divideWord c d a 0 lo hi = u.divideByZero c := if_pos rfl

/-- DIVU.W (R173), the divisor's word. -/
theorem exec_divuW_eq {ea : EA} (h : ea.ok .data .w = true) (d : Reg) (s : State) :
    exec (.divuW ea d) s = .next ((s.fetchEA ea .w).2.divideWord
      { op := (Instr.divuW ea d).opcode, opAddr := s.pc - 2 } d (s.getD d).toNat
      ((s.fetchEA ea .w).1.extractLsb' 0 16).toNat 0 65535) := by
  rw [← State.fetchEA_w_toNat, ← show (s.fetchEA ea .w).2.getD d = s.getD d by simp]
  exact (exec_divuW ..).trans (handle_next h)

/-- DIVS.W (R174), the divisor's word. -/
theorem exec_divsW_eq {ea : EA} (h : ea.ok .data .w = true) (d : Reg) (s : State) :
    exec (.divsW ea d) s = .next ((s.fetchEA ea .w).2.divideWord
      { op := (Instr.divsW ea d).opcode, opAddr := s.pc - 2 } d (s.getD d).toInt
      ((s.fetchEA ea .w).1.extractLsb' 0 16).toInt (-32768) 32767) := by
  rw [← signed_w, ← show (s.fetchEA ea .w).2.getD d = s.getD d by simp]
  exact (exec_divsW ..).trans (handle_next h)

/-- An unsigned division's quotient is not negative. -/
theorem quotient_nonneg {a b q rm : Int} (h : a = q * b + rm) (hr : rm.natAbs < b.natAbs) (hs : 0 ≤ rm * a)
    (ha : 0 ≤ a) (hb : 0 ≤ b) : 0 ≤ q := by
  rw [← (int_tdiv_unique h hr hs).1]
  exact Int.tdiv_nonneg ha hb

/-- Settles O37. -/
theorem divideWord : Obligations.DivideWord := by
  intro ea d s q rm h v u packed flags
  have hx : u.flagX = s.flagX := by simp [u]
  refine ⟨fun e r0 rv q1 => ?_, fun e rv rs q0 q1 => ?_⟩
  · have rs : 0 ≤ rm * ((s.getD d).toNat : Int) := mul_nonneg r0 (by omega)
    have rn : rm.natAbs < (v.toNat : Int).natAbs := by omega
    have q0 := quotient_nonneg e rn rs (Int.natCast_nonneg _) (Int.natCast_nonneg _)
    exact ⟨_, exec_divuW_eq h d s, State.divideWord_fits _ d _ _ 0 65535 q rm u s hx e rn rs q0 q1⟩
  · exact ⟨_, exec_divsW_eq h d s, State.divideWord_fits _ d _ _ (-32768) 32767 q rm u s hx e rv rs q0 q1⟩

/-- A quotient in range is 0 exactly when its long is. -/
theorem ofInt32_eq_zero_iff {q : Int} (h : -4294967296 < q) (h' : q < 4294967296) : BitVec.ofInt 32 q = 0 ↔ q = 0 := by
  have value := ofInt32_toNat q
  refine ⟨fun e => ?_, fun e => e ▸ rfl⟩
  rw [e] at value
  change (0 : Int) = _ at value
  omega

/-- The dividend of DIVx.L is made of data registers, which resolving an operand leaves. -/
theorem State.longDividend_congr {u s : State} (hd : u.d = s.d) (hc : u.cfg = s.cfg) (sgn wide : Bool) (q r : Reg) :
    u.longDividend sgn wide q r = s.longDividend sgn wide q r := by
  unfold State.longDividend State.highReg State.getD
  rw [hd, hc]

/-- A long division of `a` by `b` (R172, R175): the remainder to `h`, and then the quotient to `q`. -/
def State.divideLong (c : Ctx) (sgn : Bool) (q h : Reg) (a b : Int) (s : State) : State :=
  if b = 0 then s.divideByZero c
  else if !fitsLong sgn (a.tdiv b) then s.divideOverflow c
  else ((s.setD h (BitVec.ofInt 32 (a.tmod b))).setD q (BitVec.ofInt 32 (a.tdiv b))).setFlags
    { s.flags with n := (BitVec.ofInt 32 (a.tdiv b)).getLsbD 31, z := BitVec.ofInt 32 (a.tdiv b) == 0, v := false,
                   c := false }

@[simp] theorem State.setD_setD (n : Reg) (v w : Long) (s : State) : (s.setD n v).setD n w = s.setD n w := by
  simp [State.setD]

/-- DIVU.L and DIVS.L, the dividend taken from the registers as they were (R175).  A remainder that shares the
quotient's register is overwritten, so that it does not matter whether it is written. -/
theorem exec_divl_eq (sgn wide : Bool) (dq dr : Reg) {ea : EA} (hea : ea.ok .data .l = true) (s : State) :
    exec (.divl sgn wide dq dr ea) s = .next (((s.skip 1).fetchEA ea .l).2.divideLong
      { op := (Instr.divl sgn wide dq dr ea).opcode, opAddr := s.pc - 2 } sgn dq
      (s.longDividend sgn wide dq dr).2 (s.longDividend sgn wide dq dr).1
      (longValue sgn ((s.skip 1).fetchEA ea .l).1)) := by
  rw [← State.longDividend_congr (u := ((s.skip 1).fetchEA ea .l).2) (by simp) (by simp)]
  refine ((exec_divl ..).trans (handle_next hea)).trans (congrArg _ ?_)
  generalize (s.skip 1).fetchEA ea .l = r
  obtain ⟨v, u⟩ := r
  unfold State.divideLong
  dsimp only
  split_ifs with hb hf hw
  · rfl
  · rfl
  · rfl
  · have : (u.longDividend sgn wide dq dr).2 = dq := (by simpa using hw : wide = false ∧ _).2
    rw [this, State.setD_setD]
    rfl

theorem fitsLong_iff (sgn : Bool) (q : Int) :
    fitsLong sgn q = true ↔ if sgn then -2147483648 ≤ q ∧ q < 2147483648 else q < 4294967296 := by
  cases sgn <;> simp [fitsLong]

/-- The dividend of DIVx.L and the register of the remainder, each as the statements write them (R175). -/
theorem State.longDividend_eq (sgn wide : Bool) (q r : Reg) (s : State) :
    let pair : BitVec 64 := s.getD (s.highReg q r) ++ s.getD q
    s.longDividend sgn wide q r =
      (if wide then (if sgn then pair.toInt else pair.toNat) else (if sgn then (s.getD q).toInt else (s.getD q).toNat),
        if wide then s.highReg q r else r) := by
  cases wide <;> rfl

theorem State.longDividend_nonneg {wide : Bool} (q r : Reg) (s : State) : 0 ≤ (s.longDividend false wide q r).1 := by
  rw [State.longDividend_eq]
  cases wide <;> exact Int.natCast_nonneg _

section
variable {sgn : Bool} {a b q rm : Int} (h : a = q * b + rm) (hr : rm.natAbs < b.natAbs) (hs : 0 ≤ rm * a)
include h hr hs

theorem State.divideLong_over (c : Ctx) (dq dh : Reg) (u : State) (hf : ¬ fitsLong sgn q = true) :
    u.divideLong c sgn dq dh a b = u.divideOverflow c := by
  obtain ⟨quotient, -⟩ := int_tdiv_unique h hr hs
  have hb : b ≠ 0 := by rintro rfl; simp at hr
  rw [State.divideLong, if_neg hb, quotient, if_pos (by simpa using hf)]

theorem State.divideLong_fits (c : Ctx) (dq dh : Reg) (u : State) (hf : fitsLong sgn q = true)
    (hq : sgn = false → 0 ≤ q) : u.divideLong c sgn dq dh a b =
      ((u.setD dh (BitVec.ofInt 32 rm)).setD dq (BitVec.ofInt 32 q)).setFlags
        { x := u.flagX, n := (BitVec.ofInt 32 q).getLsbD 31, z := decide (q = 0), v := false, c := false } := by
  obtain ⟨quotient, remainder⟩ := int_tdiv_unique h hr hs
  have hb : b ≠ 0 := by rintro rfl; simp at hr
  have zero : (BitVec.ofInt 32 q == 0) = decide (q = 0) := by
    rw [beq_eq_decide, decide_eq_decide]
    cases sgn with
    | true =>
      obtain ⟨lower, upper⟩ := (fitsLong_iff true q).mp hf
      exact ofInt32_eq_zero_iff (by omega) (by omega)
    | false => exact ofInt32_eq_zero_iff (by have := hq rfl; omega) ((fitsLong_iff false q).mp hf)
  rw [State.divideLong, if_neg hb, quotient, remainder, if_neg (by simpa using hf), zero]
  rfl

end

/-- Settles O38. -/
theorem divideLong : Obligations.DivideLong := by
  intro sgn wide dq dr ea s q rm hea u v h pair dividend divisor e hr hs hf
  have hd (n : Reg) : u.getD n = s.getD n := by simp [u]
  have hx : u.flagX = s.flagX := by simp [u]
  have hsr : u.sr = s.sr := by simp [u]
  have hdiv : s.longDividend sgn wide dq dr = (dividend, h) := by
    rw [State.longDividend_eq]
    cases wide with
    | true => simp only [dividend, pair, h, if_true]; rfl
    | false => simp only [dividend, h, Bool.false_eq_true, if_false]
  have positive : sgn = false → 0 ≤ q := by
    rintro rfl
    have := State.longDividend_nonneg (wide := wide) dq dr s
    rw [hdiv] at this
    exact quotient_nonneg e hr hs this (Int.natCast_nonneg _)
  have run := exec_divl_eq sgn wide dq dr hea s
  have fits := State.divideLong_fits e hr hs { op := (Instr.divl sgn wide dq dr ea).opcode, opAddr := s.pc - 2 } dq h u
    ((fitsLong_iff ..).mpr hf) positive
  rw [hdiv] at run
  rw [hx] at fits
  obtain ⟨quotient, remainder, others, flags, sr, frame⟩ := u.writePair_spec h dq _ _ _
  exact ⟨_, run.trans (congrArg _ fits), quotient, remainder, fun n a b => (others n a b).trans (hd n), flags,
    fun k hk => hsr ▸ sr k hk, frame⟩

theorem stops_of_divideByZero {i : Instr} {u s : State}
    (h : exec i s = .next (u.divideByZero { op := i.opcode, opAddr := s.pc - 2 })) :
    ∃ t, exec i s = .next t ∧ u.DrewAndHalted .divideByZero i.opcode (s.pc - 2) none t ∧ t.flagC = false :=
  ⟨_, h, State.divideByZero_spec { op := i.opcode, opAddr := s.pc - 2 } u⟩

theorem stops_of_divideOverflow {i : Instr} {u s : State}
    (h : exec i s = .next (u.divideOverflow { op := i.opcode, opAddr := s.pc - 2 })) :
    ∃ t, exec i s = .next t ∧ u.DrewAndHalted .divideOverflow i.opcode (s.pc - 2) none t ∧ t.flagV = true ∧
      t.flagC = false :=
  ⟨_, h, State.divideOverflow_spec { op := i.opcode, opAddr := s.pc - 2 } u⟩

/-- Settles O39. -/
theorem divisionStops : Obligations.DivisionStops := by
  intro ea s q rm zero overflow
  refine ⟨fun d h => ?word, fun sgn wide dq dr hea => ?long⟩
  case word =>
    intro v u
    refine ⟨fun hv => ⟨?_, ?_⟩, fun e r0 rv hq => ?_, fun e rv rs hq => ?_⟩
    · have run := exec_divuW_eq h d s
      rw [show (s.fetchEA ea .w).1.extractLsb' 0 16 = 0 from hv] at run
      exact stops_of_divideByZero (run.trans (congrArg _ (State.divideWord_zero ..)))
    · have run := exec_divsW_eq h d s
      rw [show (s.fetchEA ea .w).1.extractLsb' 0 16 = 0 from hv] at run
      exact stops_of_divideByZero (run.trans (congrArg _ (State.divideWord_zero ..)))
    · have rs : 0 ≤ rm * ((s.getD d).toNat : Int) := mul_nonneg r0 (by omega)
      have rn : rm.natAbs < (v.toNat : Int).natAbs := by omega
      exact stops_of_divideOverflow ((exec_divuW_eq h d s).trans
        (congrArg _ (State.divideWord_over _ d _ _ 0 65535 q rm u e rn rs (.inr hq))))
    · exact stops_of_divideOverflow ((exec_divsW_eq h d s).trans
        (congrArg _ (State.divideWord_over _ d _ _ (-32768) 32767 q rm u e rv rs hq)))
  case long =>
    intro u v h pair dividend divisor
    have run := exec_divl_eq sgn wide dq dr hea s
    have hdiv : (s.longDividend sgn wide dq dr).1 = dividend := by
      rw [State.longDividend_eq]
      rfl
    rw [hdiv] at run
    refine ⟨fun hv => ?_, fun e hr hs hf => ?_⟩
    · have hb : longValue sgn v = 0 := by
        rw [hv]
        cases sgn <;> rfl
      rw [hb] at run
      exact stops_of_divideByZero (run.trans (congrArg _ (if_pos rfl)))
    · exact stops_of_divideOverflow
        (run.trans (congrArg _ (State.divideLong_over e hr hs _ dq _ u (mt (fitsLong_iff sgn q).mp hf))))

end Sys2Proof.Machine
end

section
/-! PROOFS. Logical operations, shifts, bits and decimal arithmetic (45_logical.md to 48_bcd.md). -/

namespace Sys2Proof.Machine

variable {s : State}

/-! ## AND, OR, EOR and NOT -/

/-- An operation that makes each bit of its result from the two bits of that place. -/
def Bitwise (op : Long → Long → Long) (f : Bool → Bool → Bool) : Prop :=
  ∀ a b k, (op a b).getLsbD k = f (a.getLsbD k) (b.getLsbD k)

theorem bitwise_and : Bitwise (· &&& ·) (· && ·) := fun _ _ _ => BitVec.getLsbD_and
theorem bitwise_or : Bitwise (· ||| ·) (· || ·) := fun _ _ _ => BitVec.getLsbD_or
theorem bitwise_xor : Bitwise (· ^^^ ·) (· ^^ ·) := fun _ _ _ => BitVec.getLsbD_xor

/-- A logical operation's result and flags depend on the bits below the size. -/
theorem State.effect_logicInto_congr {op : Long → Long → Long} {sz : Size} {l : Loc}
    (hl : ∀ n, l ≠ .areg n) {src r : Long} {u s : State} (hx : u.flagX = s.flagX)
    (hr : trunc sz (op (u.readEA l sz) src) = trunc sz r) :
    (u.afterReadEA l sz).Effect l sz r (moveFlags sz r s.flagX) (u.logicInto op sz l src) := by
  refine State.effect_congr (State.effect_logicInto op sz l hl src u) hr ?_
  rw [← moveFlags_trunc, hr, moveFlags_trunc, hx]

section
variable {op : Long → Long → Long} {f : Bool → Bool → Bool} (h : Bitwise op f)
include h

theorem Bitwise.trunc_left (sz : Size) (a b : Long) : trunc sz (op (trunc sz a) b) = trunc sz (op a b) := by
  apply BitVec.eq_of_getLsbD_eq; intro k _
  rw [trunc_getLsbD, trunc_getLsbD, h, h, trunc_getLsbD]
  by_cases hk : k < sz.bits <;> simp [hk]

theorem Bitwise.trunc_right (sz : Size) (a b : Long) : trunc sz (op a (trunc sz b)) = trunc sz (op a b) := by
  apply BitVec.eq_of_getLsbD_eq; intro k _
  rw [trunc_getLsbD, trunc_getLsbD, h, h, trunc_getLsbD]
  by_cases hk : k < sz.bits <;> simp [hk]

theorem State.effect_logicEaDn (sz : Size) (ea : EA) (d : Reg) (s : State) :
    let r := op (s.getD d) (s.fetchEA ea sz).1
    (s.fetchEA ea sz).2.Effect (.dreg d) sz r (moveFlags sz r s.flagX) (s.logicEaDn op sz ea d) := by
  intro r
  have hd : (s.fetchEA ea sz).2.getD d = s.getD d := by simp
  have hr : trunc sz (op ((s.fetchEA ea sz).2.readEA (.dreg d) sz) (s.fetchEA ea sz).1) = trunc sz r := by
    rw [State.readEA, hd]
    exact h.trunc_left ..
  have effect := State.effect_logicInto_congr (l := .dreg d) (s := s) nofun (by simp) hr
  rwa [State.afterReadEA_dreg] at effect

theorem State.effect_logicDnEa {c : EAClass} {sz : Size} {ea : EA} (hea : ea.ok c sz = true)
    (hc : EA.inClass c (.an 0) = false) (d : Reg) (s : State) :
    let l := (s.resolve ea sz).1
    let u := (s.resolve ea sz).2
    let r := op (u.readEA l sz) (s.getD d)
    (u.afterReadEA l sz).Effect l sz r (moveFlags sz r s.flagX) (s.logicDnEa op sz d ea) := by
  intro l u r
  have hr : trunc sz (op (u.readEA l sz) (trunc sz (u.getD d))) = trunc sz r := by
    rw [State.resolve_getD]
    exact h.trunc_right ..
  exact State.effect_logicInto_congr (State.resolve_ne_areg hea hc s) (State.resolve_flagX ..) hr

end

theorem State.effect_logicImm (op : Long → Long → Long) {sz : Size} {ea : EA} (hea : ea.ok .DA sz = true) (imm : Long)
    (s : State) :
    let p := s.skip (if sz = .l then 2 else 1)
    let l := (p.resolve ea sz).1
    let u := (p.resolve ea sz).2
    let r := op (u.readEA l sz) imm
    (u.afterReadEA l sz).Effect l sz r (moveFlags sz r s.flagX) (s.logicImm op sz imm ea) := by
  rw [← immLen_eq]
  exact State.effect_logicInto_congr (State.resolve_ne_areg hea rfl _) (by simp) rfl

/-- Settles O40. -/
theorem logical : Obligations.Logical := by
  intro sz ea s result
  refine ⟨fun d h => ⟨?_, ?_⟩, fun d => ⟨fun h => ⟨?_, ?_⟩, fun h => ⟨?_, ?_⟩⟩, fun imm hi h => ⟨?_, ?_, ?_⟩⟩
  · exact ⟨_, (exec_andEaDn ..).trans (handle_next h), State.effect_logicEaDn bitwise_and sz ea d s⟩
  · exact ⟨_, (exec_orEaDn ..).trans (handle_next h), State.effect_logicEaDn bitwise_or sz ea d s⟩
  · exact ⟨_, (exec_andDnEa ..).trans (handle_next h), State.effect_logicDnEa bitwise_and h rfl d s⟩
  · exact ⟨_, (exec_orDnEa ..).trans (handle_next h), State.effect_logicDnEa bitwise_or h rfl d s⟩
  · exact ⟨_, (exec_eor ..).trans (handle_next h), State.effect_logicDnEa bitwise_xor h rfl d s⟩
  · exact ⟨_, (exec_not ..).trans (handle_next h), State.effect_logicInto_congr (op := fun d _ => ~~~d) (src := 0)
      (State.resolve_ne_areg h rfl s) (State.resolve_flagX ..) rfl⟩
  · exact ⟨_, (exec_andi ..).trans (handle_next (Bool.and_eq_true_iff.mpr ⟨hi, h⟩)), State.effect_logicImm _ h imm s⟩
  · exact ⟨_, (exec_ori ..).trans (handle_next (Bool.and_eq_true_iff.mpr ⟨hi, h⟩)), State.effect_logicImm _ h imm s⟩
  · exact ⟨_, (exec_eori ..).trans (handle_next (Bool.and_eq_true_iff.mpr ⟨hi, h⟩)), State.effect_logicImm _ h imm s⟩

/-! ## CLR, TST and TAS -/

theorem State.effect_clear (l : Loc) (hl : ∀ n, l ≠ .areg n) (sz : Size) {u s : State} (hx : u.flagX = s.flagX) :
    u.Effect l sz 0 { x := s.flagX, n := false, z := true, v := false, c := false }
      ((u.writeEA l sz 0).setFlags { u.flags with n := false, z := true, v := false, c := false }) := by
  rw [← hx]
  exact State.effect_writeEA_setFlags l hl sz 0 _ u

theorem State.flagEffect_setLogic (sz : Size) (v : Long) {u s : State} (hx : u.flagX = s.flagX) :
    u.FlagEffect (moveFlags sz v s.flagX) (u.setLogic sz v) := by
  rw [← hx, ← show logicFlags sz v u.flags = moveFlags sz v u.flagX from moveFlags_eq ..]
  exact State.flagEffect_setFlags _ u

/-- TAS, once its operand is resolved (R186). -/
theorem State.effect_testAndSet (l : Loc) (hl : ∀ n, l ≠ .areg n) {u s : State} (hx : u.flagX = s.flagX) :
    (u.afterReadEA l .b).Effect l .b (u.readEA l .b ||| 0x80#32) (moveFlags .b (u.readEA l .b) s.flagX)
      (u.modify l .b fun v p => (v ||| 0x80#32, p.setLogic .b v)) := by
  rw [← hx, ← show logicFlags .b (u.readEA l .b) u.flags = moveFlags .b (u.readEA l .b) u.flagX from moveFlags_eq ..]
  exact State.effect_writeEA l hl .b _ _ (u.afterReadEA l .b)

/-- Settles O41. -/
theorem clrTstTas : Obligations.ClrTstTas := by
  intro sz ea s
  refine ⟨fun h => ⟨?clr, ?tst⟩, fun h => ?tas⟩
  case clr =>
    exact ⟨_, (exec_clr ..).trans (handle_next h),
      State.effect_clear _ (State.resolve_ne_areg h rfl s) sz (State.resolve_flagX ..)⟩
  case tst =>
    exact ⟨_, (exec_tst ..).trans (handle_next h), State.flagEffect_setLogic sz _ (by simp)⟩
  case tas =>
    exact ⟨_, (exec_tas ..).trans (handle_next h),
      State.effect_testAndSet _ (State.resolve_ne_areg h rfl s) (State.resolve_flagX ..)⟩

/-! ## Shifts -/

theorem State.shiftCount_eq (cnt : Count) (s : State) : s.shiftCount cnt = match cnt with
    | .imm c => if c.toNat = 0 then 8 else c.toNat
    | .reg r => (s.getD r).toNat % 64 := by
  cases cnt with
  | imm c => exact (by decide : ∀ c : BitVec 3, (if c = 0#3 then 8 else c.toNat) = if c.toNat = 0 then 8 else c.toNat) c
  | reg r => rfl

theorem State.effect_shiftReg (kind : ShiftKind) (left : Bool) (sz : Size) (cnt : Count) (y : Reg) (s : State) :
    let r := shift kind left sz (trunc sz (s.getD y)) (s.shiftCount cnt) s.flags
    s.Effect (.dreg y) sz r.1 r.2 (s.shiftReg kind left sz cnt y) := by
  have effect := State.effect_shiftInto kind left sz (.dreg y) nofun (s.shiftCount cnt) s
  rwa [State.afterReadEA_dreg] at effect

theorem State.effect_shiftMem (kind : ShiftKind) (left : Bool) {ea : EA} (h : ea.ok .MA .w = true) (s : State) :
    let l := (s.resolve ea .w).1
    let u := (s.resolve ea .w).2
    let r := shift kind left .w (u.readEA l .w) 1 s.flags
    (u.afterReadEA l .w).Effect l .w r.1 r.2 (s.shiftMem kind left ea) := by
  rw [← State.resolve_flags ea .w s]
  exact State.effect_shiftInto kind left .w _ (State.resolve_ne_areg h rfl s) 1 _

/-- Settles O42. -/
theorem shiftsAndRotates : Obligations.ShiftsAndRotates := by
  intro s
  refine ⟨fun sz cnt y => ?register, fun ea h => ?memory⟩
  case register =>
    intro n form
    have hn : s.shiftCount cnt = n := State.shiftCount_eq cnt s
    have effect (kind : ShiftKind) (left : Bool) := State.effect_shiftReg kind left sz cnt y s
    rw [hn] at effect
    exact ⟨⟨_, (exec_aslReg ..).trans (handle_next rfl), effect .as true⟩,
      ⟨_, (exec_asrReg ..).trans (handle_next rfl), effect .as false⟩,
      ⟨_, (exec_lslReg ..).trans (handle_next rfl), effect .ls true⟩,
      ⟨_, (exec_lsrReg ..).trans (handle_next rfl), effect .ls false⟩,
      ⟨_, (exec_roxlReg ..).trans (handle_next rfl), effect .rox true⟩,
      ⟨_, (exec_roxrReg ..).trans (handle_next rfl), effect .rox false⟩,
      ⟨_, (exec_rolReg ..).trans (handle_next rfl), effect .ro true⟩,
      ⟨_, (exec_rorReg ..).trans (handle_next rfl), effect .ro false⟩⟩
  case memory =>
    have effect (kind : ShiftKind) (left : Bool) := State.effect_shiftMem kind left h s
    exact ⟨⟨_, (exec_aslMem ..).trans (handle_next h), effect .as true⟩,
      ⟨_, (exec_asrMem ..).trans (handle_next h), effect .as false⟩,
      ⟨_, (exec_lslMem ..).trans (handle_next h), effect .ls true⟩,
      ⟨_, (exec_lsrMem ..).trans (handle_next h), effect .ls false⟩,
      ⟨_, (exec_roxlMem ..).trans (handle_next h), effect .rox true⟩,
      ⟨_, (exec_roxrMem ..).trans (handle_next h), effect .rox false⟩,
      ⟨_, (exec_rolMem ..).trans (handle_next h), effect .ro true⟩,
      ⟨_, (exec_rorMem ..).trans (handle_next h), effect .ro false⟩⟩

/-! ## Bits -/

/-- The size of a bit instruction's target (R200). -/
def bitSize : EA → Size
  | .dn _ => .l
  | _ => .b

section
variable (num : Nat) (ea : EA) {p s : State} (hf : p.flags = s.flags)
include hf

theorem State.flagEffect_bitOp :
    let sz := bitSize ea
    let l := (p.resolve ea sz).1
    let u := (p.resolve ea sz).2
    let f : Flags := { s.flags with z := !(u.readEA l sz).getLsbD (num % sz.bits) }
    (u.afterReadEA l sz).FlagEffect f (p.bitOp .tst num ea) := by
  rw [State.bitOp_eq, ← hf, ← State.resolve_flags ea (bitSize ea) p]
  exact State.flagEffect_bitAt ..

theorem State.effect_bitOp (h : ea.ok .DA .b = true) {op : BitOp} (hop : op ≠ .tst) :
    let sz := bitSize ea
    let l := (p.resolve ea sz).1
    let u := (p.resolve ea sz).2
    let b := num % sz.bits
    let m := u.readEA l sz
    ∃ r, (u.afterReadEA l sz).Effect l sz r { s.flags with z := !m.getLsbD b } (p.bitOp op num ea) ∧
      r.getLsbD b = (match op with
        | .tst => false
        | .chg => !m.getLsbD b
        | .clr => false
        | .set => true) ∧
      ∀ k, k ≠ b → r.getLsbD k = m.getLsbD k := by
  obtain ⟨positive, small⟩ := Size.bits_bounds (bitSize ea)
  have hb : num % (bitSize ea).bits < 32 := (Nat.mod_lt _ (by omega)).trans_le small
  rw [State.bitOp_eq, ← hf, ← State.resolve_flags ea (bitSize ea) p]
  exact State.effect_bitAt op hop _ (State.resolve_ne_areg h rfl p) _ _ hb _

end

/-- Settles O43. -/
theorem bitInstructions : Obligations.BitInstructions := by
  intro ea s result
  refine ⟨fun num => ?static, fun d => ?dynamic⟩
  case static =>
    have hf : (s.skip 1).flags = s.flags := State.skip_flags ..
    have changes (op : BitOp) (hop : op ≠ .tst) (h : ea.ok .DA .b = true) := State.effect_bitOp num.toNat ea hf h hop
    refine ⟨fun h => ?_, fun h => ?_, fun h => ?_, fun h => ?_⟩
    · exact ⟨_, (exec_btstImm ..).trans (handle_next h), State.flagEffect_bitOp num.toNat ea hf⟩
    · obtain ⟨r, changed⟩ := changes .chg nofun h
      exact ⟨_, r, (exec_bchgImm ..).trans (handle_next h), changed⟩
    · obtain ⟨r, changed⟩ := changes .clr nofun h
      exact ⟨_, r, (exec_bclrImm ..).trans (handle_next h), changed⟩
    · obtain ⟨r, changed⟩ := changes .set nofun h
      exact ⟨_, r, (exec_bsetImm ..).trans (handle_next h), changed⟩
  case dynamic =>
    have changes (op : BitOp) (hop : op ≠ .tst) (h : ea.ok .DA .b = true) :=
      State.effect_bitOp (s.getD d).toNat ea (p := s) rfl h hop
    refine ⟨fun h => ?_, fun h => ?_, fun h => ?_, fun h => ?_⟩
    · exact ⟨_, (exec_btstDn ..).trans (handle_next h), State.flagEffect_bitOp (s.getD d).toNat ea (p := s) rfl⟩
    · obtain ⟨r, changed⟩ := changes .chg nofun h
      exact ⟨_, r, (exec_bchgDn ..).trans (handle_next h), changed⟩
    · obtain ⟨r, changed⟩ := changes .clr nofun h
      exact ⟨_, r, (exec_bclrDn ..).trans (handle_next h), changed⟩
    · obtain ⟨r, changed⟩ := changes .set nofun h
      exact ⟨_, r, (exec_bsetDn ..).trans (handle_next h), changed⟩

/-! ## Decimal -/

theorem bcdValue_eq (b : Long) :
    bcdValue b = ((b.extractLsb' 4 4).toNat * 10 + (b.extractLsb' 0 4).toNat : Int) := by
  rw [bcdValue, Nat.cast_add, Nat.cast_mul]
  rfl

/-- The decimal value of a register is its low byte's (R207). -/
theorem bcdValue_trunc (b : Long) : bcdValue (trunc .b b) = bcdValue b := by
  have digit (i : Nat) (hi : i ≤ 4) : (trunc .b b).extractLsb' i 4 = b.extractLsb' i 4 := by
    apply BitVec.eq_of_getLsbD_eq; intro k hk
    have : i + k < Size.b.bits := by simp only [Size.bits, Size.bytes]; omega
    simp [BitVec.getLsbD_extractLsb', trunc_getLsbD, this]
  rw [bcdValue, digit 4 (by omega), digit 0 (by omega)]
  rfl

/-- A decimal read-modify-write of the exact value `v`, from a state with the flags of `s` (R206). -/
theorem State.modify_bcdResult (l : Loc) (hl : ∀ n, l ≠ .areg n) {g : Long → State → Int} {v : Int} {u s : State}
    (hsr : u.sr = s.sr) (hg : g (u.readEA l .b) (u.afterReadEA l .b) = v) :
    let w := if 99 < v then v - 100 else if v < 0 then v + 100 else v
    let p := u.afterReadEA l .b
    let t := u.modify l .b fun d p => p.bcdResult (g d p)
    ∃ r : Byte, p.Wrote l .b (r.setWidth 32) t ∧
      (0 ≤ w → w ≤ 99 → r = BitVec.ofNat 4 (w.toNat / 10) ++ BitVec.ofNat 4 (w.toNat % 10)) ∧
      t.flagX = decide (v < 0 ∨ 99 < v) ∧ t.flagC = t.flagX ∧
      t.flagZ = (s.flagZ && decide (r = 0)) ∧ (∀ k, 5 ≤ k → t.sr.getLsbD k = s.sr.getLsbD k) ∧
      t.pc = p.pc ∧ p.SameRest t := by
  have hp : (u.afterReadEA l .b).sr = s.sr := (State.afterReadEA_sr ..).trans hsr
  rw [State.modify_eq, hg, show s.flagZ = (u.afterReadEA l .b).flagZ by rw [State.flagZ, State.flagZ, hp], ← hp]
  exact State.bcdResult_spec v (u.afterReadEA l .b) l hl

/-- Settles O44. -/
theorem decimalArithmetic : Obligations.DecimalArithmetic := by
  intro s dec x result
  have hdec (b : Long) : bcdValue b = dec b := bcdValue_eq b
  have htrunc (b : Long) : bcdValue (trunc .b b) = dec b := (bcdValue_trunc b).trans (hdec b)
  have hx (u : State) (l : Loc) (hsr : u.sr = s.sr) : (u.afterReadEA l .b).xValue = x := by
    rw [State.xValue, State.afterReadEA_flagX, State.flagX, hsr]
    rfl
  have decimal (u : State) (l : Loc) (hl : ∀ n, l ≠ .areg n) (hsr : u.sr = s.sr) (g : Long → State → Int) (v : Int)
      (hg : g (u.readEA l .b) (u.afterReadEA l .b) = v) (i : Instr)
      (run : exec i s = .next (u.modify l .b fun d p => p.bcdResult (g d p))) : result u l v i := by
    obtain ⟨r, spec⟩ := State.modify_bcdResult l hl hsr hg
    exact ⟨_, r, run, spec⟩
  refine ⟨fun y z => ⟨?_, ?_⟩, fun y z => ?memory, fun ea h => ?nbcd⟩
  · refine decimal s (.dreg z) nofun rfl (fun d p => bcdValue (trunc .b (s.getD y)) + bcdValue d + p.xValue) _ ?_ _
      ((exec_abcd ..).trans (handle_next rfl))
    rw [State.readEA, htrunc, htrunc, hx _ _ rfl]
  · refine decimal s (.dreg z) nofun rfl (fun d p => bcdValue d - bcdValue (trunc .b (s.getD y)) - p.xValue) _ ?_ _
      ((exec_sbcd ..).trans (handle_next rfl))
    rw [State.readEA, htrunc, htrunc, hx _ _ rfl]
  case memory =>
    intro v l u
    have hsr : u.sr = s.sr := by simp [u]
    have hl : ∀ n, l ≠ .areg n := by simp [l, State.resolve]
    refine ⟨?_, ?_⟩
    · refine decimal u l hl hsr (fun d p => bcdValue v + bcdValue d + p.xValue) _ ?_ _
        ((exec_abcd ..).trans (handle_next rfl))
      rw [hdec, hdec, hx _ _ hsr]
    · refine decimal u l hl hsr (fun d p => bcdValue d - bcdValue v - p.xValue) _ ?_ _
        ((exec_sbcd ..).trans (handle_next rfl))
      rw [hdec, hdec, hx _ _ hsr]
  case nbcd =>
    refine decimal _ _ (State.resolve_ne_areg h rfl s) (State.resolve_sr ..)
      (fun d p => 0 - bcdValue d - p.xValue) _ ?_ _ ((exec_nbcd ..).trans (handle_next h))
    rw [hdec, hx _ _ (State.resolve_sr ..)]

end Sys2Proof.Machine
end

section
/-! PROOFS. Branches, jumps and stack frames (49_branch.md). -/

namespace Sys2Proof.Machine

variable {s : State}

/-! ## Branches -/

theorem Cond.branches_of_ne {c : Cond} (ht : c ≠ .t) (hf : c ≠ .f) : c.branches = true := by
  cases c with
  | t => exact absurd rfl ht
  | f => exact absurd rfl hf
  | _ => rfl

theorem State.setPC_if (p : Prop) [Decidable p] (x y : Long) (s : State) (h : s.pc = y) :
    (if p then s.setPC x else s) = { s with pc := if p then x else y } := by
  subst h
  split <;> rfl

/-- The count of DBcc is 0xFFFF after it wraps, that is, where it was 0 (R216). -/
theorem trunc_w_sub_one (v : Long) : trunc .w (v - 1) = 0xFFFF#32 ↔ v.extractLsb' 0 16 = 0 := by
  rw [← BitVec.toNat_inj, ← BitVec.toNat_inj, trunc_toNat, BitVec.toNat_sub, BitVec.extractLsb'_toNat]
  simp [Size.bits, Size.bytes]
  omega

theorem extract_trunc_w_sub_one (v : Long) : (trunc .w (v - 1)).extractLsb' 0 16 = v.extractLsb' 0 16 - 1 := by
  rw [← BitVec.toNat_inj, BitVec.extractLsb'_toNat, trunc_toNat, BitVec.toNat_sub, BitVec.toNat_sub,
    BitVec.extractLsb'_toNat]
  simp [Size.bits, Size.bytes]
  omega

/-- DBcc whose condition does not hold: the count, and the branch (R216). -/
theorem exec_dbcc_false {c : Cond} (hc : c.holds s.flags = false) (n : Reg) (d : Word) :
    let p := (s.skip 1).setDLow n .w (trunc .w (s.getD n - 1))
    exec (.dbcc c n d) s = .next { p with pc := if (s.getD n).extractLsb' 0 16 = 0 then s.pc + 2
                                                else s.pc + d.signExtend 32 } := by
  intro p
  have hcond : (s.skip 1).cond c = false := (State.cond_skip ..).trans hc
  refine ((exec_dbcc ..).trans (handle_next rfl)).trans (congrArg _ ?_)
  refine (if_neg (by simp [hcond])).trans ?_
  have low := trunc_w_sub_one (s.getD n)
  by_cases h : (s.getD n).extractLsb' 0 16 = 0
  · rw [if_pos h]
    exact if_pos (low.mpr h)
  · rw [if_neg h]
    exact if_neg (mt low.mp h)

/-- Settles O45. -/
theorem branchesAndScc : Obligations.BranchesAndScc := by
  refine ⟨fun s => ⟨?branch, ?dbcc⟩, ?scc⟩
  case branch =>
    intro disp hd target next u
    have hb : s.branchTarget disp = (target, u) := by
      cases disp with
      | byte k => exact Prod.ext rfl (State.skip_zero s).symm
      | word d => rfl
    have hpc : u.pc = next := by cases disp <;> rfl
    refine ⟨?bra, fun c ht hf => ?bcc, ?bsr⟩
    case bra =>
      refine ((exec_bra ..).trans (handle_next hd)).trans ?_
      rw [hb]
      rfl
    case bcc =>
      refine ((exec_bcc ..).trans (handle_next (Bool.and_eq_true_iff.mpr ⟨Cond.branches_of_ne ht hf, hd⟩))).trans ?_
      rw [hb, ← State.cond_skip]
      exact congrArg _ (State.setPC_if _ target next u hpc)
    case bsr =>
      have hA : u.getA 7 = s.getA 7 := State.skip_getA ..
      obtain ⟨reads, stored, frame⟩ := State.push_setPC_spec (u := u) (s := u) next target rfl
      rw [hA] at reads stored frame
      refine ⟨_, ?_, reads, stored, frame⟩
      refine ((exec_bsr ..).trans (handle_next hd)).trans ?_
      rw [hb, ← hpc]
  case dbcc =>
    intro c n d
    refine ⟨fun hc => ?_, fun hc => ?_⟩
    · exact ((exec_dbcc ..).trans (handle_next rfl)).trans (congrArg _ (if_pos ((State.cond_skip ..).trans hc)))
    · have merged : ((s.skip 1).setDLow n .w (trunc .w (s.getD n - 1))).getD n =
        mergeLow .w (s.getD n) (trunc .w (s.getD n - 1)) := State.getD_setD_same ..
      refine ⟨_, exec_dbcc_false hc n d, ?_, ?_, fun m hm => State.getD_setD_other hm .., rfl⟩
      · exact (congrArg _ merged).trans ((mergeLow_extract (by decide) ..).trans (extract_trunc_w_sub_one _))
      · exact (congrArg _ merged).trans (mergeLow_extract_high (by decide) (by decide) ..)
  case scc =>
    intro c ea s h
    have hf : (s.resolve ea .b).2.flags = s.flags := State.resolve_flags ..
    refine ⟨_, (exec_scc ..).trans (handle_next h), ?_⟩
    rw [← hf]
    exact State.effect_writeEA_only _ (State.resolve_ne_areg h rfl s) .b _ _

/-! ## Jumps and addresses -/

/-- A push leaves PC. -/
theorem State.push_setPC_self (v : Long) (s : State) : (s.push v).setPC s.pc = s.push v := by
  obtain ⟨-, -, frame⟩ := State.push_spec v s
  have hpc : (s.push v).pc = s.pc := by rw [frame, State.setA_pc]
  rw [← hpc]
  rfl

/-- Settles O46. -/
theorem jumpsAndAddresses : Obligations.JumpsAndAddresses := by
  intro ea s h
  obtain ⟨m, hm, haddr, hu⟩ := State.addressOf_spec h .l s
  refine ⟨m, hm, ?_⟩
  intro u pushed
  refine ⟨?jmp, fun a => ?lea, ?jsr, ?pea⟩
  case jmp =>
    refine ((exec_jmp ..).trans (handle_next h)).trans ?_
    rw [haddr, hu]
    rfl
  case lea =>
    refine ((exec_lea ..).trans (handle_next h)).trans ?_
    rw [haddr]
  case jsr =>
    refine ⟨_, ((exec_jsr ..).trans (handle_next h)).trans ?_, State.push_setPC_spec u.pc m hu⟩
    rw [haddr]
  case pea =>
    refine ⟨_, ((exec_pea ..).trans (handle_next h)).trans ?_, State.push_setPC_spec m u.pc hu⟩
    rw [haddr]
    exact congrArg _ (State.push_setPC_self m u).symm

/-! ## Stack frames -/

/-- `s` with the address registers, the stack pointers and the memory of `t`. -/
def State.withFrameOf (t s : State) : State :=
  { s with a := t.a, usp := t.usp, ssp := t.ssp, mem := t.mem, bus := t.bus }

theorem State.withFrameOf_trans {s t u : State} (h : t = t.withFrameOf s) (g : u = u.withFrameOf t) :
    u = u.withFrameOf s := g.trans ((congrArg (State.withFrameOf u) h).trans rfl)

theorem State.setA_eq_withFrameOf (n : Reg) (v : Long) (s : State) : s.setA n v = (s.setA n v).withFrameOf s := by
  rw [State.withFrameOf, State.setA_mem, State.setA_bus]
  exact State.setA_eq n v s

theorem State.memWrite_eq_withFrameOf (m : Long) (sz : Size) (v : Long) (s : State) :
    s.memWrite m sz v = (s.memWrite m sz v).withFrameOf s := by
  rw [State.withFrameOf, State.memWrite_a, State.memWrite_usp, State.memWrite_ssp]
  exact State.memWrite_eq m sz v s

theorem exec_link_eq (a : Reg) (d : Word) (s : State) :
    let b := s.getA 7 - 4
    let v := if a = 7 then b else s.getA a
    exec (.link a d) s =
      .next (((((s.skip 1).setA 7 b).memWrite b .l v).setA a b).setA 7 (b + d.signExtend 32)) := by
  intro b v
  refine ((exec_link ..).trans (handle_next rfl)).trans ?_
  simp only [sp, State.skip_getA, State.memWrite_getA, State.getA_setA, if_true, ite_self, b, v]

theorem exec_unlk_eq (a : Reg) (s : State) :
    exec (.unlk a) s =
      .next (((s.afterRead (s.getA a) .l).setA 7 (s.getA a + 4)).setA a (s.memRead (s.getA a) .l)) := by
  refine ((exec_unlk ..).trans (handle_next rfl)).trans ?_
  simp only [State.pop, sp, State.getA_setA_same, State.setA_memRead, State.afterRead, State.setA_noteReads,
    State.setA_setA]
  rfl

/-- Settles O47. -/
theorem stackFrames : Obligations.StackFrames := by
  intro a s
  refine ⟨fun d => ?link, ?unlk⟩
  case link =>
    refine ⟨_, exec_link_eq a d s, fun hr => ?_, ?_, State.getA_setA_same .., fun ha => ?_, fun n h7 ha => ?_, ?_, ?_⟩
    · rw [State.setA_memRead, State.setA_memRead, State.memRead_memWrite (by simpa using hr)]
      rfl
    · exact (State.stored_memWrite _ .l _ ((s.skip 1).setA 7 (s.getA 7 - 4))).congr (State.setA_mem ..).symm
        (State.setA_bus ..).symm (State.setA_cfg ..).symm (by simp) (by simp) (by simp)
    · rw [State.getA_setA_other ha, State.getA_setA_same]
    · simp [State.getA_setA, h7, ha]
    · simp
    · exact State.withFrameOf_trans (State.withFrameOf_trans (State.withFrameOf_trans
        (State.setA_eq_withFrameOf ..) (State.memWrite_eq_withFrameOf ..)) (State.setA_eq_withFrameOf ..))
        (State.setA_eq_withFrameOf ..)
  case unlk =>
    refine ⟨_, exec_unlk_eq a s, State.getA_setA_same .., fun ha => ?_, fun n h7 ha => ?_, ?_, ?_⟩
    · rw [State.getA_setA_other (Ne.symm ha), State.getA_setA_same]
    · simp [State.getA_setA, h7, ha, State.afterRead]
    · simp [State.afterRead]
    · rw [State.setA_eq a, State.setA_eq 7]

end Sys2Proof.Machine
end
